-- ==== Sys2Proof/Word.lean ====
section
/-! DEFINITION. The two word types of the hardware: the 16-bit word every register access and every memory access
moves (spec 20_memory.md R40), and the byte, which occurs only as an attribute (R27) and as half of the way the model
writes a word down (entry 13). -/

namespace Sys2Proof

/-- The 16-bit unit of storage and transfer (R40). Bit 15 is the most significant bit and the leftmost pixel. -/
abbrev Word := BitVec 16

/-- Eight bits: an attribute byte (R74), or half of a word as the model stores it (entry 13). -/
abbrev Byte := BitVec 8

/-- The word whose high byte is `hi` and whose low byte is `lo`. -/
def Word.ofBytes (hi lo : Byte) : Word := hi ++ lo

/-- Bits 15:8 of a word. -/
def Word.hi (w : Word) : Byte := w.extractLsb' 8 8

/-- Bits 7:0 of a word. -/
def Word.lo (w : Word) : Byte := w.extractLsb' 0 8

end Sys2Proof
end

