-- ==== Sys2Proof/Config.lean ====
section
/-! DEFINITION. What an instance of the hardware fixes at construction (spec 00_scope.md R2, R4; 10_state.md R30): the
variant and every parameter of R4, as plain data; the names of the sixteen command codes (30_encoding.md R64); and, as
constants with no body, the two functions the spec leaves OPEN (93_implementation_defined.md U4, U16) and the graphics
it does not state (entry 31). -/

namespace Sys2Proof

/-- The three controller variants (R2). -/
inductive Variant where
  | mono | monoAccel | color
deriving DecidableEq, Repr

/-- The values `NPLANES` may take, 1 and 3 (R4, U18). -/
inductive PlaneCount where
  | one | three
deriving DecidableEq, Repr

/-- The number a plane count stands for. -/
def PlaneCount.toNat : PlaneCount → Nat
  | .one => 1
  | .three => 3

/-- `READY_SET` of R4: which states drive `ready`, the WAIT_DS states or the WAIT_TRIG states (R160, U5). -/
inductive ReadySet where
  | ds | trig
deriving DecidableEq, Repr

/-- `ALPHA_GEN` of R4: the packing generation of alpha character words (R72, R73). -/
inductive AlphaGen where
  | a | b
deriving DecidableEq, Repr

/-- `POLICY` of R4: the composition policy (R263 to R265). -/
inductive Policy where
  | exclusive | alphaZone | overlay
deriving DecidableEq, Repr

/-- `IOCURSOR_RESTORE` of R4: the reload of R141, or some other rule, which is then left free (U4, entry 10). -/
inductive IoRestore where
  | reload
  | other (k : Nat)
deriving DecidableEq, Repr

/-- `LPHit` of R4: the reference function of R211, or some other function, which is then left free (U16, entry 11). -/
inductive LpHitRule where
  | reference
  | other (k : Nat)
deriving DecidableEq, Repr

/-- The sixteen values of `cmd`, by their names (R64). -/
inductive Cmd where
  | nopc | rdw | wrw | clrw | ldep | drawv | fillr | rdlp
  | ldiox | ldioy | ldmc | ldlp | ldcm | ldmap | ldcy | ldcx
deriving DecidableEq, Repr

/-- The command classes of R65. -/
inductive CmdClass where
  | read | write | param1 | param2
deriving DecidableEq, Repr

/-- The wire on which a word reaches the model: the same bits mean different things on R5, in the display list and on
the bus (R60), and the internal operations have no bits at all (entry 6). -/
inductive Channel where
  | bus
  | cmd
  | alpha (gen : AlphaGen)
  | op
deriving DecidableEq, Repr

/-- The parameters of R4. `planeCount` is `NPLANES`, which for MONO_ACCEL is the spec's decision (D1) and may here be
either of U18's values on every variant (entry 31). `addrMask` is `ADDR_MASK`, from which `PLANE_WORDS` follows. The two decisions outside R4's
table that the spec marks OPEN or that a cell depends on are here too (R6): `musicBits`, the width of a music-memory
entry (D21; entry 29), and `blankCode`, `BLANK_CODE` (R27). `refuseBadTiming` is the model's own: whether `step` refuses
an event sequence that breaks the contract of R232 (entry 16). -/
structure Config where
  variant : Variant
  planeCount : PlaneCount
  readySet : ReadySet
  idBit : Bool
  alphaGen : AlphaGen
  policy : Policy
  ioRestore : IoRestore
  lpHit : LpHitRule
  wordBits : Nat
  addrMask : Nat
  rowStride : Nat
  gfxW : Nat
  gfxH : Nat
  xMask : Word
  yMask : Word
  xwMask : Word
  alphaCols : Nat
  alphaRows : Nat
  charW : Nat
  charH : Nat
  screenW : Nat
  screenH : Nat
  alphaYOff : Nat
  gfxXOff : Nat
  gfxYOff : Nat
  zoneL : Nat
  zoneR : Nat
  hTotal : Nat
  vTotal : Nat
  arbOpenEnd : Nat
  arbOpenStart : Nat
  fetchBudget : Nat
  dashTable : Vector Word 8
  halftoneTable : Vector Word 16
  lpFovR : Nat
  lpWinX : Nat
  lpWinY : Nat
  lpStYhi : Int
  lpStXleft : Int
  lpStYlo : Int
  curHalf : Nat
  ulLine : Nat
  gcBlinkBit : Nat
  tcBlinkBit : Nat
  chBlinkBit : Nat
  alphaAddrBits : Nat
  musicBits : Nat
  blankCode : BitVec 7
  refuseBadTiming : Bool
deriving DecidableEq, Repr

/-- The default dash masks (R117). -/
def defaultDashTable : Vector Word 8 :=
  #v[0xFFFF, 0xAAAA, 0xFF00, 0xFFF0, 0xFFFA, 0xFFF6, 0xFFB6, 0x0000]

/-- The default halftone masks (R121). -/
def defaultHalftoneTable : Vector Word 16 :=
  #v[0xFFFF, 0x7FFF, 0x7FDF, 0x5FDF, 0x5F5F, 0x5B5F, 0x5B5E, 0x5A5E,
     0x5A5A, 0x1A5A, 0x1A4A, 0x0A4A, 0x0A0A, 0x020A, 0x0208, 0x0008]

/-- The defaults of R4 for a variant. -/
def Config.ofVariant (v : Variant) : Config where
  variant := v
  planeCount := match v with | .mono => .one | .monoAccel => .one | .color => .three
  readySet := .ds
  idBit := match v with | .mono => false | .monoAccel => true | .color => true
  alphaGen := match v with | .mono => .a | .monoAccel => .b | .color => .b
  policy := match v with | .mono => .exclusive | .monoAccel => .alphaZone | .color => .overlay
  ioRestore := .reload
  lpHit := .reference
  wordBits := 16
  addrMask := 0x3FFF
  rowStride := 35
  gfxW := 560
  gfxH := 455
  xMask := 0x3FF
  yMask := 0x1FF
  xwMask := 0x3F
  alphaCols := 80
  alphaRows := 25
  charW := 9
  charH := 15
  screenW := 720
  screenH := 455
  alphaYOff := 40
  gfxXOff := 80
  gfxYOff := 0
  zoneL := 80
  zoneR := 640
  hTotal := 891
  vTotal := 485
  arbOpenEnd := 80
  arbOpenStart := 640
  fetchBudget := 600
  dashTable := defaultDashTable
  halftoneTable := defaultHalftoneTable
  lpFovR := 9
  lpWinX := 24
  lpWinY := 24
  lpStYhi := 8
  lpStXleft := -8
  lpStYlo := -8
  curHalf := 24
  ulLine := 13
  gcBlinkBit := 4
  tcBlinkBit := 4
  chBlinkBit := 5
  alphaAddrBits := 12
  musicBits := 3
  blankCode := 0x20
  refuseBadTiming := true

/-- `NPLANES` of the instance. -/
def Config.nplanes (c : Config) : Nat := c.planeCount.toNat

/-- The plane bits that exist: bit `p` for `p < NPLANES` (R16). -/
def Config.planeMask (c : Config) : BitVec 3 :=
  match c.planeCount with
  | .one => 0b001
  | .three => 0b111

/-- `PLANE_WORDS` of the instance: `ADDR_MASK + 1` (R4). -/
def Config.planeWords (c : Config) : Nat := c.addrMask + 1

/-- An alpha address reduced modulo `2^ALPHA_ADDR_BITS` (R38, R234, R235). -/
def Config.alphaAddr (c : Config) (a : Nat) : Nat := a % 2 ^ c.alphaAddrBits

/-- A colour index as an entry of the music memory keeps it: the bits the entry has (R19, D21; entry 29). -/
def Config.musicEntry (c : Config) (v : Nat) : Nat := v % 2 ^ c.musicBits

/-- The constraints a configuration must meet, and no others (R4, U18; that `NPLANES` is 1 or 3 is `PlaneCount`). `WORD_BITS` is the one number the source fixes:
every word and mask of the rules is written out for 16 bits (entry 9). -/
def Config.wf (c : Config) : Bool :=
  c.wordBits == 16
    && (c.addrMask &&& (c.addrMask + 1)) == 0
    && decide (c.gfxW ≤ c.rowStride * c.wordBits)
    && decide (c.rowStride * c.gfxH ≤ c.planeWords)
    && decide (c.gfxW ≤ c.xMask.toNat + 1)
    && decide (c.gfxH ≤ c.yMask.toNat + 1)
    && c.alphaCols * c.charW == c.screenW
    && decide (c.alphaYOff + c.alphaRows * c.charH ≤ c.screenH)
    && decide (c.gfxXOff + c.gfxW ≤ c.screenW)
    && decide (c.gfxYOff + c.gfxH ≤ c.screenH)
    && decide (c.arbOpenEnd ≤ c.arbOpenStart)
    && decide (c.arbOpenStart ≤ c.hTotal)
    && decide (c.screenH ≤ c.vTotal)
    && decide (c.ulLine < c.charH)
    && decide (1 ≤ c.fetchBudget)

/-- An IOCURSOR_RESTORE rule other than R141, left FREE (no body): from `io_x`, `io_y`, `io_addr`, `io_plane`, `cmd`
and `last_cmd` to a new address, whether the plane the transfer had reached is kept (the one law U4 gives: plane 0 or
that plane), and a new `io_wrap`. Entry 10. -/
opaque Config.otherIoRestore (k : Nat) (ioX : BitVec 6) (ioY : BitVec 9) (ioAddr : Nat) (ioPlane : BitVec 2)
    (cmd : Cmd) (lastCmd : Option Cmd) : Nat × Bool × Bool

/-- Whether a graphics pixel is lit on a mono variant with three planes, left FREE (no body): R254 and R256 give the
graphics of single-plane variants and of COLOR only. From the variant, the three plane bits and the entry of the music
memory they select. Entry 31. -/
opaque Config.otherGfxLit (v : Variant) (bits : BitVec 3) (entry : Nat) : Bool

/-- An LPHit other than R211's, left FREE (no body): from the pointer, the cursor and the interlace flag to three values
and three flags (U16). Entry 11. -/
opaque Config.otherLpHit (k : Nat) (px py cx cy : Int) (il : Bool) : (Int × Int × Int) × (Bool × Bool × Bool)

end Sys2Proof
end

