-- ==== Sys2Proof/Syntax.lean ====
section
/-! DEFINITION. The syntax of the hardware: one constructor of `Instr` for each of the 65 rows of
spec/opcode_table.json. A command's row is the word written to R5 together with its DATA words (30_encoding.md R62,
R64, R66; entry 3). An internal operation's row is the operation with its operands (entry 5). -/

namespace Sys2Proof

/-- The bits of an `R5W` word beside the command code (R62), by name. `rsvd` is bits 15:12, ignored on a write. -/
structure CmdFlags where
  dma : Bool
  int : Bool
  gfx : Bool
  reset : Bool
  softkey : Bool
  lp : Bool
  selftest : Bool
  interlace : Bool
  rsvd : BitVec 4
deriving DecidableEq, Repr

inductive Instr where
  -- host register accesses, format BUS (R61)
  | rd4
  | rd5
  | rd6
  | rd7
  | wr4 (v : Word)
  | wr5 (v : Word)
  | wr6 (v : Word)
  | wr7 (v : Word)
  -- the sixteen commands, format R5W and their DATA words (R64, R66)
  | nopc (f : CmdFlags) (d : Word)
  | rdw (f : CmdFlags)
  | wrw (f : CmdFlags) (d : Word)
  | clrw (f : CmdFlags) (d : Word)
  | ldep (f : CmdFlags) (x y : Word)
  | drawv (f : CmdFlags) (x y : Word)
  | fillr (f : CmdFlags) (x y : Word)
  | rdlp (f : CmdFlags)
  | ldiox (f : CmdFlags) (d : Word)
  | ldioy (f : CmdFlags) (d : Word)
  | ldmc (f : CmdFlags) (d : Word)
  | ldlp (f : CmdFlags) (d : Word)
  | ldcm (f : CmdFlags) (d : Word)
  | ldmap (f : CmdFlags) (d : Word)
  | ldcy (f : CmdFlags) (d : Word)
  | ldcx (f : CmdFlags) (d : Word)
  -- the words of the alpha display list, format ALPHA (R69 to R73)
  | alphaNewaddr (mode : BitVec 2) (addr : BitVec 12)
  | alphaEol (ignored : BitVec 12)
  | alphaNop (ignored : BitVec 12)
  | alphaAttrset (ignored : BitVec 4) (attr : Byte)
  | alphaRsvd (ignored : BitVec 12)
  | alphaCharB (attr : Byte) (code : BitVec 7)
  | alphaCharA (ignored : BitVec 7) (code : BitVec 7)
  | alphaEscA (attr : BitVec 7) (ignored : BitVec 7)
  -- internal operations and events, format OP (no bit pattern)
  | pixAddr (x : BitVec 10) (y : BitVec 9)
  | planeRead (p : BitVec 2) (a : Nat)
  | planeWrite (p : BitVec 2) (a : Nat) (w : Word)
  | readPixel (p : BitVec 2) (x : BitVec 10) (y : BitVec 9)
  | writePixel (p : BitVec 2) (x : BitVec 10) (y : BitVec 9) (b : Bool)
  | timeUntilAvailable (graphicsActive : Bool)
  | defer
  | wake
  | cancelWake
  | plot (x : BitVec 10) (y : BitVec 9) (draw : Bool)
  | plotAction (active dominance draw setSel : Bool)
  | drawLine (x0 : BitVec 10) (y0 : BitVec 9) (x1 : BitVec 10) (y1 : BitVec 9)
  | dashBit
  | dashAdvance
  | fillRect (x0 : BitVec 10) (y0 : BitVec 9) (x1 : BitVec 10) (y1 : BitVec 9)
  | tile (y : BitVec 9)
  | runFsm (ds trig : Bool)
  | loadIoCursor
  | advanceIoCursor
  | recompute
  | isCursor (sx sy : Nat)
  | lightPenCapture
  | lpHit (px py cx cy : Int) (il : Bool)
  | selfTestHits (cx cy : Int)
  | vblank
  | alphaFrameStart
  | rowStart (r : Nat)
  | fetchRow (b : Bool)
  | scanline (n : Nat)
  | gfx (sx sy : Nat)
  | alphaOn (sx sy : Nat)
  | controllerReset
  | fsmReset (v : Word)
deriving DecidableEq, Repr

end Sys2Proof
end

