-- ==== Sys2Proof/WellFormed.lean ====
section
/-! DEFINITION. Which terms of `Instr` are instructions. Every field of a host access, of a command and of a display-list
word is exactly as wide as its encoding, so every such term is well formed (30_encoding.md R75: nothing the host can
write is illegal). The numbers handed to an internal operation must fit the 16-bit operand words of entry 6, and a plane
index must name one of the at most three planes (20_memory.md R43, 10_state.md R26). -/

namespace Sys2Proof

/-- A number an operand word can carry (entry 6). -/
def natFits (n : Nat) : Bool := decide (n < 65536)

/-- An integer an operand word can carry in two's complement (entry 6). -/
def intFits (n : Int) : Bool := decide (-32768 ≤ n) && decide (n < 32768)

/-- A plane index some variant has (R26). -/
def planeFits (p : BitVec 2) : Bool := decide (p.toNat < 3)

/-- Whether a term is an instruction. -/
def Instr.wellFormed : Instr → Bool
  | .rd4 => true
  | .rd5 => true
  | .rd6 => true
  | .rd7 => true
  | .wr4 _ => true
  | .wr5 _ => true
  | .wr6 _ => true
  | .wr7 _ => true
  | .nopc _ _ => true
  | .rdw _ => true
  | .wrw _ _ => true
  | .clrw _ _ => true
  | .ldep _ _ _ => true
  | .drawv _ _ _ => true
  | .fillr _ _ _ => true
  | .rdlp _ => true
  | .ldiox _ _ => true
  | .ldioy _ _ => true
  | .ldmc _ _ => true
  | .ldlp _ _ => true
  | .ldcm _ _ => true
  | .ldmap _ _ => true
  | .ldcy _ _ => true
  | .ldcx _ _ => true
  | .alphaNewaddr _ _ => true
  | .alphaEol _ => true
  | .alphaNop _ => true
  | .alphaAttrset _ _ => true
  | .alphaRsvd _ => true
  | .alphaCharB _ _ => true
  | .alphaCharA _ _ => true
  | .alphaEscA _ _ => true
  | .pixAddr _ _ => true
  | .planeRead p a => planeFits p && natFits a
  | .planeWrite p a _ => planeFits p && natFits a
  | .readPixel p _ _ => planeFits p
  | .writePixel p _ _ _ => planeFits p
  | .timeUntilAvailable _ => true
  | .defer => true
  | .wake => true
  | .cancelWake => true
  | .plot _ _ _ => true
  | .plotAction _ _ _ _ => true
  | .drawLine _ _ _ _ => true
  | .dashBit => true
  | .dashAdvance => true
  | .fillRect _ _ _ _ => true
  | .tile _ => true
  | .runFsm _ _ => true
  | .loadIoCursor => true
  | .advanceIoCursor => true
  | .recompute => true
  | .isCursor sx sy => natFits sx && natFits sy
  | .lightPenCapture => true
  | .lpHit px py cx cy _ => intFits px && intFits py && intFits cx && intFits cy
  | .selfTestHits cx cy => intFits cx && intFits cy
  | .vblank => true
  | .alphaFrameStart => true
  | .rowStart r => natFits r
  | .fetchRow _ => true
  | .scanline n => natFits n
  | .gfx sx sy => natFits sx && natFits sy
  | .alphaOn sx sy => natFits sx && natFits sy
  | .controllerReset => true
  | .fsmReset _ => true

/-- The term is an instruction. -/
abbrev Instr.WellFormed (i : Instr) : Prop := i.wellFormed = true

end Sys2Proof
end

