-- ==== Sys2Proof/Decode.lean ====
section
/-! DEFINITION. The decoder, total on any bytes, and the encoder, both written from spec 30_encoding.md: the BUS codes
(R61), the R5W layout (R62) with the command codes (R64) and the DATA words that follow (R66, R67), the ALPHA words
(R69 to R73). A 16-bit word is delivered low byte first, so that bit 0 of the first word is bit 0 of the first byte
(entry 6). The internal operations have no bits in the spec (R79): theirs are the model's own, the row's number in
opcode_table.json and one 16-bit word per operand (entry 6). -/

namespace Sys2Proof

/-- Why a delivery is no instruction. -/
inductive DecodeError where
  /-- The bytes end before the instruction does. -/
  | truncated
  /-- A bus access to a register outside 4..7 (R75, U13). -/
  | noSuchRegister
  /-- A first byte that is no BUS code or no row of the table. -/
  | noSuchCode
deriving DecidableEq, Repr

/-- The words a byte string holds, low byte first (entry 6). An odd last byte is no word. -/
def toWords : List Byte → List Word
  | lo :: hi :: r => Word.ofBytes hi lo :: toWords r
  | _ => []

/-- The bytes of a list of words, low byte first (entry 6). -/
def fromWords : List Word → List Byte
  | [] => []
  | w :: r => w.lo :: w.hi :: fromWords r

/-- The command code of a name (R64). -/
def Cmd.code : Cmd → BitVec 4
  | .nopc => 0x0
  | .rdw => 0x1
  | .wrw => 0x2
  | .clrw => 0x3
  | .ldep => 0x4
  | .drawv => 0x5
  | .fillr => 0x6
  | .rdlp => 0x7
  | .ldiox => 0x8
  | .ldioy => 0x9
  | .ldmc => 0xA
  | .ldlp => 0xB
  | .ldcm => 0xC
  | .ldmap => 0xD
  | .ldcy => 0xE
  | .ldcx => 0xF

/-- The name of a command code: every code has one (R64, R65). -/
def Cmd.ofCode (c : BitVec 4) : Cmd :=
  match c.toNat with
  | 0 => .nopc
  | 1 => .rdw
  | 2 => .wrw
  | 3 => .clrw
  | 4 => .ldep
  | 5 => .drawv
  | 6 => .fillr
  | 7 => .rdlp
  | 8 => .ldiox
  | 9 => .ldioy
  | 10 => .ldmc
  | 11 => .ldlp
  | 12 => .ldcm
  | 13 => .ldmap
  | 14 => .ldcy
  | _ => .ldcx

/-- The R5W word of a command and its flags (R62). -/
def packR5W (c : Cmd) (f : CmdFlags) : Word :=
  f.rsvd ++ BitVec.ofBool f.interlace ++ BitVec.ofBool f.selftest ++ BitVec.ofBool f.lp ++ BitVec.ofBool f.softkey
    ++ BitVec.ofBool f.reset ++ BitVec.ofBool f.gfx ++ BitVec.ofBool f.int ++ BitVec.ofBool f.dma ++ c.code

/-- The flags of an R5W word (R62). -/
def unpackFlags (w : Word) : CmdFlags where
  dma := w.getLsbD 4
  int := w.getLsbD 5
  gfx := w.getLsbD 6
  reset := w.getLsbD 7
  softkey := w.getLsbD 8
  lp := w.getLsbD 9
  selftest := w.getLsbD 10
  interlace := w.getLsbD 11
  rsvd := w.extractLsb' 12 4

/-- The command of an R5W word (R62, R64). -/
def unpackCmd (w : Word) : Cmd := Cmd.ofCode (w.extractLsb' 0 4)

/-- A bus access: the BUS code in the first byte, then the value of a write (R61). -/
def decodeBus : List Byte → Except DecodeError Instr
  | [] => .error .truncated
  | c :: r =>
    match c.toNat, toWords r with
    | 0x4, _ => .ok .rd4
    | 0x5, _ => .ok .rd5
    | 0x6, _ => .ok .rd6
    | 0x7, _ => .ok .rd7
    | 0xC, v :: _ => .ok (.wr4 v)
    | 0xD, v :: _ => .ok (.wr5 v)
    | 0xE, v :: _ => .ok (.wr6 v)
    | 0xF, v :: _ => .ok (.wr7 v)
    | n, _ =>
      if 16 ≤ n then .error .noSuchCode
      else if 0xC ≤ n then .error .truncated
      else .error .noSuchRegister

/-- A command: its R5W word, then its DATA words (R62, R64, R66, R67). -/
def decodeCmd : List Word → Except DecodeError Instr
  | [] => .error .truncated
  | w :: ds =>
    match unpackCmd w, ds with
    | .rdw, _ => .ok (.rdw (unpackFlags w))
    | .rdlp, _ => .ok (.rdlp (unpackFlags w))
    | .ldep, x :: y :: _ => .ok (.ldep (unpackFlags w) x y)
    | .drawv, x :: y :: _ => .ok (.drawv (unpackFlags w) x y)
    | .fillr, x :: y :: _ => .ok (.fillr (unpackFlags w) x y)
    | .nopc, d :: _ => .ok (.nopc (unpackFlags w) d)
    | .wrw, d :: _ => .ok (.wrw (unpackFlags w) d)
    | .clrw, d :: _ => .ok (.clrw (unpackFlags w) d)
    | .ldiox, d :: _ => .ok (.ldiox (unpackFlags w) d)
    | .ldioy, d :: _ => .ok (.ldioy (unpackFlags w) d)
    | .ldmc, d :: _ => .ok (.ldmc (unpackFlags w) d)
    | .ldlp, d :: _ => .ok (.ldlp (unpackFlags w) d)
    | .ldcm, d :: _ => .ok (.ldcm (unpackFlags w) d)
    | .ldmap, d :: _ => .ok (.ldmap (unpackFlags w) d)
    | .ldcy, d :: _ => .ok (.ldcy (unpackFlags w) d)
    | .ldcx, d :: _ => .ok (.ldcx (unpackFlags w) d)
    | _, _ => .error .truncated

/-- A display-list word as a fetcher of generation `g` reads it (R69 to R73). -/
def decodeAlphaWord (g : AlphaGen) (w : Word) : Instr :=
  if w.getLsbD 15 then
    if w.getLsbD 14 then .alphaNewaddr (w.extractLsb' 12 2) (w.extractLsb' 0 12)
    else
      match w.getLsbD 13, w.getLsbD 12 with
      | false, false => .alphaEol (w.extractLsb' 0 12)
      | false, true => .alphaNop (w.extractLsb' 0 12)
      | true, false => .alphaAttrset (w.extractLsb' 8 4) (w.extractLsb' 0 8)
      | true, true => .alphaRsvd (w.extractLsb' 0 12)
  else
    match g with
    | .b => .alphaCharB (w.extractLsb' 7 8) (w.extractLsb' 0 7)
    | .a =>
      if w.getLsbD 14 then .alphaEscA (w.extractLsb' 7 7) (w.extractLsb' 0 7)
      else .alphaCharA (w.extractLsb' 7 7) (w.extractLsb' 0 7)

/-- A display-list word on its wire (R69). -/
def decodeAlpha (g : AlphaGen) : List Word → Except DecodeError Instr
  | [] => .error .truncated
  | w :: _ => .ok (decodeAlphaWord g w)

/-- An internal operation or event: its row's number, then its operands (entry 6). -/
def decodeOp : List Byte → Except DecodeError Instr
  | [] => .error .truncated
  | c :: r =>
    match c.toNat, toWords r with
    | 32, a0 :: a1 :: _ => .ok (.pixAddr (a0.setWidth 10) (a1.setWidth 9))
    | 33, a0 :: a1 :: _ => .ok (.planeRead (a0.setWidth 2) a1.toNat)
    | 34, a0 :: a1 :: a2 :: _ => .ok (.planeWrite (a0.setWidth 2) a1.toNat a2)
    | 35, a0 :: a1 :: a2 :: _ => .ok (.readPixel (a0.setWidth 2) (a1.setWidth 10) (a2.setWidth 9))
    | 36, a0 :: a1 :: a2 :: a3 :: _ => .ok (.writePixel (a0.setWidth 2) (a1.setWidth 10) (a2.setWidth 9) (a3.getLsbD 0))
    | 37, a0 :: _ => .ok (.timeUntilAvailable (a0.getLsbD 0))
    | 38, _ => .ok .defer
    | 39, _ => .ok .wake
    | 40, _ => .ok .cancelWake
    | 41, a0 :: a1 :: a2 :: _ => .ok (.plot (a0.setWidth 10) (a1.setWidth 9) (a2.getLsbD 0))
    | 42, a0 :: a1 :: a2 :: a3 :: _ => .ok (.plotAction (a0.getLsbD 0) (a1.getLsbD 0) (a2.getLsbD 0) (a3.getLsbD 0))
    | 43, a0 :: a1 :: a2 :: a3 :: _ => .ok (.drawLine (a0.setWidth 10) (a1.setWidth 9) (a2.setWidth 10) (a3.setWidth 9))
    | 44, _ => .ok .dashBit
    | 45, _ => .ok .dashAdvance
    | 46, a0 :: a1 :: a2 :: a3 :: _ => .ok (.fillRect (a0.setWidth 10) (a1.setWidth 9) (a2.setWidth 10) (a3.setWidth 9))
    | 47, a0 :: _ => .ok (.tile (a0.setWidth 9))
    | 48, a0 :: a1 :: _ => .ok (.runFsm (a0.getLsbD 0) (a1.getLsbD 0))
    | 49, _ => .ok .loadIoCursor
    | 50, _ => .ok .advanceIoCursor
    | 51, _ => .ok .recompute
    | 52, a0 :: a1 :: _ => .ok (.isCursor a0.toNat a1.toNat)
    | 53, _ => .ok .lightPenCapture
    | 54, a0 :: a1 :: a2 :: a3 :: a4 :: _ => .ok (.lpHit a0.toInt a1.toInt a2.toInt a3.toInt (a4.getLsbD 0))
    | 55, a0 :: a1 :: _ => .ok (.selfTestHits a0.toInt a1.toInt)
    | 56, _ => .ok .vblank
    | 57, _ => .ok .alphaFrameStart
    | 58, a0 :: _ => .ok (.rowStart a0.toNat)
    | 59, a0 :: _ => .ok (.fetchRow (a0.getLsbD 0))
    | 60, a0 :: _ => .ok (.scanline a0.toNat)
    | 61, a0 :: a1 :: _ => .ok (.gfx a0.toNat a1.toNat)
    | 62, a0 :: a1 :: _ => .ok (.alphaOn a0.toNat a1.toNat)
    | 63, _ => .ok .controllerReset
    | 64, a0 :: _ => .ok (.fsmReset a0)
    | n, _ => if n < 32 then .error .noSuchCode else if 65 ≤ n then .error .noSuchCode else .error .truncated

/-- What the bytes of one delivery say on their wire. Bytes after the instruction are not looked at. -/
def decodeRaw (ch : Channel) (bs : List Byte) : Except DecodeError Instr :=
  match ch with
  | .bus => decodeBus bs
  | .cmd => decodeCmd (toWords bs)
  | .alpha g => decodeAlpha g (toWords bs)
  | .op => decodeOp bs

/-- The decoder: it answers well-formed instructions only. -/
def decode (ch : Channel) (bs : List Byte) : Except DecodeError Instr :=
  match decodeRaw ch bs with
  | .ok i => if i.wellFormed then .ok i else .error .noSuchCode
  | .error e => .error e

/-- The low `n` bytes of a number, lowest first. -/
def bytesOfNat : Nat → Nat → List Byte
  | 0, _ => []
  | n + 1, w => BitVec.ofNat 8 w :: bytesOfNat n (w / 256)

/-- The wire a table row's bits are on, as far as the bits tell (entry 7): eight bits are a bus access; sixteen bits with
bits 15:12 zero are an R5W word (R62 reserves them), with them set a display-list word. -/
def tableChannel (nbits w : Nat) : Channel :=
  if nbits ≤ 8 then .bus
  else if w / 4096 % 16 = 0 then .cmd
  else if w / 16384 % 4 = 1 then .alpha .a
  else .alpha .b

/-- The bytes of a table row's instruction: its `nbits` bits, and zero bits up to the longest instruction. -/
def tableBytes (nbits w : Nat) : List Byte := bytesOfNat 16 (w % 2 ^ nbits)

/-- The instruction the decoder reads from a table row's bits (entry 7). -/
def decodeTableWord (nbits w : Nat) : Option Instr :=
  match decode (tableChannel nbits w) (tableBytes nbits w) with
  | .ok i => some i
  | .error _ => none

/-- An operand word that carries a flag (entry 6). -/
def wordOfBool (b : Bool) : Word := (BitVec.ofBool b).setWidth 16

/-- The wire an instruction is delivered on. -/
def Instr.channel : Instr → Channel
  | .rd4 => .bus
  | .rd5 => .bus
  | .rd6 => .bus
  | .rd7 => .bus
  | .wr4 _ => .bus
  | .wr5 _ => .bus
  | .wr6 _ => .bus
  | .wr7 _ => .bus
  | .nopc _ _ => .cmd
  | .rdw _ => .cmd
  | .wrw _ _ => .cmd
  | .clrw _ _ => .cmd
  | .ldep _ _ _ => .cmd
  | .drawv _ _ _ => .cmd
  | .fillr _ _ _ => .cmd
  | .rdlp _ => .cmd
  | .ldiox _ _ => .cmd
  | .ldioy _ _ => .cmd
  | .ldmc _ _ => .cmd
  | .ldlp _ _ => .cmd
  | .ldcm _ _ => .cmd
  | .ldmap _ _ => .cmd
  | .ldcy _ _ => .cmd
  | .ldcx _ _ => .cmd
  | .alphaNewaddr _ _ => .alpha .b
  | .alphaEol _ => .alpha .b
  | .alphaNop _ => .alpha .b
  | .alphaAttrset _ _ => .alpha .b
  | .alphaRsvd _ => .alpha .b
  | .alphaCharB _ _ => .alpha .b
  | .alphaCharA _ _ => .alpha .a
  | .alphaEscA _ _ => .alpha .a
  | .pixAddr _ _ => .op
  | .planeRead _ _ => .op
  | .planeWrite _ _ _ => .op
  | .readPixel _ _ _ => .op
  | .writePixel _ _ _ _ => .op
  | .timeUntilAvailable _ => .op
  | .defer => .op
  | .wake => .op
  | .cancelWake => .op
  | .plot _ _ _ => .op
  | .plotAction _ _ _ _ => .op
  | .drawLine _ _ _ _ => .op
  | .dashBit => .op
  | .dashAdvance => .op
  | .fillRect _ _ _ _ => .op
  | .tile _ => .op
  | .runFsm _ _ => .op
  | .loadIoCursor => .op
  | .advanceIoCursor => .op
  | .recompute => .op
  | .isCursor _ _ => .op
  | .lightPenCapture => .op
  | .lpHit _ _ _ _ _ => .op
  | .selfTestHits _ _ => .op
  | .vblank => .op
  | .alphaFrameStart => .op
  | .rowStart _ => .op
  | .fetchRow _ => .op
  | .scanline _ => .op
  | .gfx _ _ => .op
  | .alphaOn _ _ => .op
  | .controllerReset => .op
  | .fsmReset _ => .op

/-- The bytes of an instruction on its wire: the encoder. -/
def Instr.bytes : Instr → List Byte
  | .rd4 => [0x4]
  | .rd5 => [0x5]
  | .rd6 => [0x6]
  | .rd7 => [0x7]
  | .wr4 v => 0xC :: fromWords [v]
  | .wr5 v => 0xD :: fromWords [v]
  | .wr6 v => 0xE :: fromWords [v]
  | .wr7 v => 0xF :: fromWords [v]
  | .nopc f d => fromWords [packR5W .nopc f, d]
  | .rdw f => fromWords [packR5W .rdw f]
  | .wrw f d => fromWords [packR5W .wrw f, d]
  | .clrw f d => fromWords [packR5W .clrw f, d]
  | .ldep f x y => fromWords [packR5W .ldep f, x, y]
  | .drawv f x y => fromWords [packR5W .drawv f, x, y]
  | .fillr f x y => fromWords [packR5W .fillr f, x, y]
  | .rdlp f => fromWords [packR5W .rdlp f]
  | .ldiox f d => fromWords [packR5W .ldiox f, d]
  | .ldioy f d => fromWords [packR5W .ldioy f, d]
  | .ldmc f d => fromWords [packR5W .ldmc f, d]
  | .ldlp f d => fromWords [packR5W .ldlp f, d]
  | .ldcm f d => fromWords [packR5W .ldcm f, d]
  | .ldmap f d => fromWords [packR5W .ldmap f, d]
  | .ldcy f d => fromWords [packR5W .ldcy f, d]
  | .ldcx f d => fromWords [packR5W .ldcx f, d]
  | .alphaNewaddr mode addr => fromWords [0b11#2 ++ mode ++ addr]
  | .alphaEol ignored => fromWords [0b1000#4 ++ ignored]
  | .alphaNop ignored => fromWords [0b1001#4 ++ ignored]
  | .alphaAttrset ignored attr => fromWords [0b1010#4 ++ ignored ++ attr]
  | .alphaRsvd ignored => fromWords [0b1011#4 ++ ignored]
  | .alphaCharB attr code => fromWords [0b0#1 ++ attr ++ code]
  | .alphaCharA ignored code => fromWords [0b00#2 ++ ignored ++ code]
  | .alphaEscA attr ignored => fromWords [0b01#2 ++ attr ++ ignored]
  | .pixAddr a0 a1 => 0x20 :: fromWords [a0.setWidth 16, a1.setWidth 16]
  | .planeRead a0 a1 => 0x21 :: fromWords [a0.setWidth 16, BitVec.ofNat 16 a1]
  | .planeWrite a0 a1 a2 => 0x22 :: fromWords [a0.setWidth 16, BitVec.ofNat 16 a1, a2]
  | .readPixel a0 a1 a2 => 0x23 :: fromWords [a0.setWidth 16, a1.setWidth 16, a2.setWidth 16]
  | .writePixel a0 a1 a2 a3 => 0x24 :: fromWords [a0.setWidth 16, a1.setWidth 16, a2.setWidth 16, wordOfBool a3]
  | .timeUntilAvailable a0 => 0x25 :: fromWords [wordOfBool a0]
  | .defer => [0x26]
  | .wake => [0x27]
  | .cancelWake => [0x28]
  | .plot a0 a1 a2 => 0x29 :: fromWords [a0.setWidth 16, a1.setWidth 16, wordOfBool a2]
  | .plotAction a0 a1 a2 a3 => 0x2A :: fromWords [wordOfBool a0, wordOfBool a1, wordOfBool a2, wordOfBool a3]
  | .drawLine a0 a1 a2 a3 => 0x2B :: fromWords [a0.setWidth 16, a1.setWidth 16, a2.setWidth 16, a3.setWidth 16]
  | .dashBit => [0x2C]
  | .dashAdvance => [0x2D]
  | .fillRect a0 a1 a2 a3 => 0x2E :: fromWords [a0.setWidth 16, a1.setWidth 16, a2.setWidth 16, a3.setWidth 16]
  | .tile a0 => 0x2F :: fromWords [a0.setWidth 16]
  | .runFsm a0 a1 => 0x30 :: fromWords [wordOfBool a0, wordOfBool a1]
  | .loadIoCursor => [0x31]
  | .advanceIoCursor => [0x32]
  | .recompute => [0x33]
  | .isCursor a0 a1 => 0x34 :: fromWords [BitVec.ofNat 16 a0, BitVec.ofNat 16 a1]
  | .lightPenCapture => [0x35]
  | .lpHit a0 a1 a2 a3 a4 => 0x36 :: fromWords [BitVec.ofInt 16 a0, BitVec.ofInt 16 a1, BitVec.ofInt 16 a2, BitVec.ofInt 16 a3, wordOfBool a4]
  | .selfTestHits a0 a1 => 0x37 :: fromWords [BitVec.ofInt 16 a0, BitVec.ofInt 16 a1]
  | .vblank => [0x38]
  | .alphaFrameStart => [0x39]
  | .rowStart a0 => 0x3A :: fromWords [BitVec.ofNat 16 a0]
  | .fetchRow a0 => 0x3B :: fromWords [wordOfBool a0]
  | .scanline a0 => 0x3C :: fromWords [BitVec.ofNat 16 a0]
  | .gfx a0 a1 => 0x3D :: fromWords [BitVec.ofNat 16 a0, BitVec.ofNat 16 a1]
  | .alphaOn a0 a1 => 0x3E :: fromWords [BitVec.ofNat 16 a0, BitVec.ofNat 16 a1]
  | .controllerReset => [0x3F]
  | .fsmReset a0 => 0x40 :: fromWords [a0]

/-- The encoder: the wire and the bytes that deliver an instruction. -/
def encode (i : Instr) : Channel × List Byte := (i.channel, i.bytes)

end Sys2Proof
end

