-- ==== Sys2Proof/Machine/State.lean ====
section
/-! DEFINITION. The state of the hardware as plain data (spec 10_state.md), grouped as the source's section 3 names its
entities; the reasons a step can stop; the machine right after reset (70_reset_and_hazards.md R310). One writer per
group, `State.with…`, so that later proofs never unfold a record update (Laws/State.lean). -/

namespace Sys2Proof.Machine

/-- The nine states of the Command Protocol State Machine (R13). -/
inductive Fsm where
  | reset | waitDs0 | waitTrig0 | waitMem0 | waitDs1 | waitDs2 | waitTrig1 | waitMem1 | waitMem2
deriving DecidableEq, Repr

/-- The CommandRegister (R12). -/
structure CmdReg where
  cmd : Cmd
  dmaEn : Bool
  intEn : Bool
  gfxEn : Bool
  softkeyEn : Bool
  lpEn : Bool
  lpSelftest : Bool
  lpInterlace : Bool
deriving DecidableEq, Repr

/-- IoCursor (R15). `lastCmd = none` is the spec's NONE. -/
structure IoCursor where
  x : BitVec 6
  y : BitVec 9
  addr : Nat
  plane : BitVec 2
  wrap : Bool
  lastCmd : Option Cmd
deriving DecidableEq, Repr

/-- Memory control and colour mask (R16): bit `p` is plane `p`. -/
structure PlaneCtl where
  active : BitVec 3
  dominance : BitVec 3
  setSel : BitVec 3
deriving DecidableEq, Repr

/-- LineFillPattern (R17). -/
structure Pattern where
  dashSel : BitVec 3
  dashMask : Word
  dashN : BitVec 5
  dashRep : BitVec 4
  htSel : BitVec 4
deriving DecidableEq, Repr

/-- The pending endpoint pair (R18). -/
structure Endpoints where
  xOld : BitVec 10
  yOld : BitVec 9
  xNew : BitVec 10
  yNew : BitVec 9
deriving DecidableEq, Repr

/-- CursorState (R20). -/
structure Cursor where
  x : BitVec 10
  y : BitVec 9
  color : BitVec 3
  fs : Bool
  blink : Bool
deriving DecidableEq, Repr

/-- The three hit registers, in the order RDLP returns them (R21, R174): the values of `lp_reg_sel`. -/
inductive LpReg where
  | yhi | xleft | ylo
deriving DecidableEq, Repr

/-- LightPenState (R21). -/
structure LightPen where
  px : Int
  py : Int
  button : Bool
  cx : BitVec 10
  cy : BitVec 9
  winYhi : Bool
  winX : Bool
  winYlo : Bool
  yhi : BitVec 10
  xleft : BitVec 10
  ylo : BitVec 10
  regSel : LpReg
  int : Bool
deriving DecidableEq, Repr

/-- The three output signals (R22). -/
structure Signals where
  ready : Bool
  irq : Bool
  dmaReq : Bool
deriving DecidableEq, Repr

/-- The display modes of R28. -/
inductive DisplayMode where
  | alpha | graphics | both
deriving DecidableEq, Repr

/-- A cell of the text row buffers (R27). -/
structure TextCell where
  code : BitVec 7
  attr : Byte
deriving DecidableEq, Repr

/-- One of the two text row buffers, with its `full` flag (R27). -/
structure RowBuf where
  cells : List TextCell
  full : Bool
deriving DecidableEq, Repr

/-- ScanlineBuffer and the alpha fetch state (R27, R28). `fetchCol` and `fetchLeft` are `col` and `budget` of the row
fetch in progress, the budget 0 while there is none (R234, entry 4). -/
structure Alpha where
  row0 : RowBuf
  row1 : RowBuf
  bufIdx : Bool
  base : Nat
  fetchPtr : Nat
  firstNa : Bool
  mode : DisplayMode
  underrun : Bool
  curAttr : Byte
  rowsFetched : Nat
  fetchCol : Nat
  fetchLeft : Nat
deriving DecidableEq, Repr

/-- A memory, as (address, byte) pairs in one canonical form (Ops.lean; entry 13). -/
abbrev Memory := List Host.Cell

/-- One row of one glyph of the character generator (R39): which table, which character, which line, and its
pixels, bit `CHAR_W - 1` the leftmost. -/
structure GlyphRow where
  alt : Bool
  code : BitVec 7
  line : Nat
  bits : Nat
deriving DecidableEq, Repr

/-- A position of the beam, `(hpos, vpos)` (R36). -/
structure Beam where
  hpos : Nat
  vpos : Nat
deriving DecidableEq, Repr

/-- What the collaborators present at their interfaces (R36 to R39; entry 14). -/
structure Inputs where
  beam : Beam
  ptrX : Int
  ptrY : Int
  ptrButton : Bool
  alphaBase : Nat
  hostMem : Memory
  font : List GlyphRow
deriving DecidableEq, Repr

/-- One entry of what the collaborators have lined up (entry 1): an event, as bytes on its wire; new inputs; the beam's
positions at the arbiter's evaluations to come (R36, U10; entry 30). -/
inductive Delivery where
  | wire (ch : Channel) (bytes : List Byte)
  | inputs (i : Inputs)
  | beams (l : List Beam)
deriving DecidableEq, Repr

/-- How far the present frame's display events have come, for the contract of R232 (entry 16). -/
structure FrameClock where
  started : Bool
  nextRow : Nat
  nextLine : Nat
deriving DecidableEq, Repr

/-- The actions of the dominance truth table (R112). -/
inductive PlotAct where
  | set | clear | keep
deriving DecidableEq, Repr

/-- A pen: a colour index, or one of the four mono pens (R253). Entries of the music memory are as wide as `musicBits`. -/
abbrev Pen := Nat

/-- The value an event or an internal operation returns to its caller (R8; entry 18). -/
inductive Ret where
  | none
  | word (w : Word)
  | addr (a : Nat)
  | bit (b : Bool)
  | delay (d : Nat)
  | action (a : PlotAct)
  | hits (yhi xleft ylo : Int) (winYhi winX winYlo : Bool)
  | pen (p : Pen)
  | pens (ps : List Pen)
deriving DecidableEq, Repr

/-- A record of the trace (R280, R285). The third class is never raised (R284). -/
inductive ErrRecord where
  | protocolInconsistency (fsm : Fsm) (cmd : Cmd)
  | displayListMalformation (row : Nat)
  | addressingOverflow
deriving DecidableEq, Repr

/-- The cause code of a record (R280). -/
def ErrRecord.causeCode : ErrRecord → Nat
  | .protocolInconsistency _ _ => 1
  | .displayListMalformation _ => 2
  | .addressingOverflow => 3

/-- Everything the machine holds. From `errlog` on the fields are the trace, configuration, inputs and the model's own
(INVENTORY.md, State). -/
structure State where
  dataW : Word
  dataR : Word
  cr : CmdReg
  fsm : Fsm
  io : IoCursor
  ctl : PlaneCtl
  pat : Pattern
  ends : Endpoints
  music : Vector Nat 8
  cursor : Cursor
  lp : LightPen
  sig : Signals
  wakePending : Bool
  frameCnt : BitVec 6
  alpha : Alpha
  mem : Memory
  errlog : List ErrRecord
  ret : Ret
  wakeDelay : Nat
  hostReads : List Nat
  cfg : Config
  inputs : Inputs
  beams : List Beam
  inbox : List Delivery
  clock : FrameClock
deriving DecidableEq, Repr

/-- Why the machine stops. -/
inductive Fault where
  /-- An internal operation was handed a plane index that the variant does not have (R91, R92: "plane p < NPLANES").
  Raised by PlaneRead, PlaneWrite, read_pixel and write_pixel run alone. Safe: no event of the hardware reaches it. -/
  | noSuchPlane
deriving DecidableEq, Repr

/-- Why the model answers no state. -/
inductive Refusal where
  /-- An instruction without a meaning, raised by an arm of `exec` alone. Safe. -/
  | notModelled (mnemonic : String)
  /-- A host access to a register outside 4..7, raised by `step`: "not an access to this block" (R75, U13). Safe. -/
  | notThisBlock
  /-- A delivery that is the encoding of nothing, raised by `step` (entry 6). Safe. -/
  | noEncoding
  /-- A display event out of the order the timing source keeps, raised by `step` (R232, U12; entry 16). Safe. -/
  | timingContract
  /-- `RowStart` or `Scanline` with an argument out of range, raised by their meanings: "not an event of this block"
  (R250, U12; entry 17). Safe. -/
  | noSuchEvent
  /-- Inputs outside what the collaborators promise, raised by `step` (R36; entry 15). Safe. -/
  | inputContract
deriving DecidableEq, Repr

/-! ### One writer per group -/

def State.withDataW (s : State) (v : Word) : State := { s with dataW := v }
def State.withDataR (s : State) (v : Word) : State := { s with dataR := v }
def State.withCr (s : State) (v : CmdReg) : State := { s with cr := v }
def State.withFsm (s : State) (v : Fsm) : State := { s with fsm := v }
def State.withIo (s : State) (v : IoCursor) : State := { s with io := v }
def State.withCtl (s : State) (v : PlaneCtl) : State := { s with ctl := v }
def State.withPat (s : State) (v : Pattern) : State := { s with pat := v }
def State.withEnds (s : State) (v : Endpoints) : State := { s with ends := v }
def State.withMusic (s : State) (v : Vector Nat 8) : State := { s with music := v }
def State.withCursor (s : State) (v : Cursor) : State := { s with cursor := v }
def State.withLp (s : State) (v : LightPen) : State := { s with lp := v }
def State.withSig (s : State) (v : Signals) : State := { s with sig := v }
def State.withWakePending (s : State) (v : Bool) : State := { s with wakePending := v }
def State.withFrameCnt (s : State) (v : BitVec 6) : State := { s with frameCnt := v }
def State.withAlpha (s : State) (v : Alpha) : State := { s with alpha := v }
def State.withMem (s : State) (v : Memory) : State := { s with mem := v }
def State.withErrlog (s : State) (v : List ErrRecord) : State := { s with errlog := v }
def State.withRet (s : State) (v : Ret) : State := { s with ret := v }
def State.withWakeDelay (s : State) (v : Nat) : State := { s with wakeDelay := v }
def State.withHostReads (s : State) (v : List Nat) : State := { s with hostReads := v }
def State.withInputs (s : State) (v : Inputs) : State := { s with inputs := v }
def State.withBeams (s : State) (v : List Beam) : State := { s with beams := v }
def State.withInbox (s : State) (v : List Delivery) : State := { s with inbox := v }
def State.withClock (s : State) (v : FrameClock) : State := { s with clock := v }

/-! ### Reset values -/

/-- A blank cell (R27, R236). -/
def blankCell (c : Config) : TextCell := { code := c.blankCode, attr := 0 }

def CmdReg.atReset : CmdReg where
  cmd := .nopc
  dmaEn := false
  intEn := false
  gfxEn := false
  softkeyEn := false
  lpEn := false
  lpSelftest := false
  lpInterlace := false

/-- As the closing WAIT_DS_0 evaluation of the reset leaves it (R15, R310). -/
def IoCursor.atReset : IoCursor where
  x := 0
  y := 0
  addr := 0
  plane := 0
  wrap := false
  lastCmd := some .nopc

/-- Every plane that exists is active, not dominant and selected (R16). -/
def PlaneCtl.atReset (c : Config) : PlaneCtl where
  active := c.planeMask
  dominance := 0
  setSel := c.planeMask

def Pattern.atReset (c : Config) : Pattern where
  dashSel := 0
  dashMask := c.dashTable[0]
  dashN := 1
  dashRep := 0
  htSel := 0

def Endpoints.atReset : Endpoints where
  xOld := 0
  yOld := 0
  xNew := 0
  yNew := 0

/-- `music_map[i] = i` (R19). -/
def musicAtReset (c : Config) : Vector Nat 8 :=
  #v[c.musicEntry 0, c.musicEntry 1, c.musicEntry 2, c.musicEntry 3, c.musicEntry 4, c.musicEntry 5, c.musicEntry 6,
     c.musicEntry 7]

def Cursor.atReset : Cursor where
  x := 0
  y := 0
  color := 7
  fs := false
  blink := false

def LightPen.atReset : LightPen where
  px := 0
  py := 0
  button := false
  cx := 0
  cy := 0
  winYhi := false
  winX := false
  winYlo := false
  yhi := 0
  xleft := 0
  ylo := 0
  regSel := .yhi
  int := false

def RowBuf.atReset (c : Config) : RowBuf where
  cells := List.replicate c.alphaCols (blankCell c)
  full := true

/-- The base address input is taken modulo `2^ALPHA_ADDR_BITS`: DESIGN CHOICE, the spec bounds the register and not the
input (R28, R38, R310; entry 32). -/
def Alpha.atReset (c : Config) (base : Nat) : Alpha where
  row0 := RowBuf.atReset c
  row1 := RowBuf.atReset c
  bufIdx := false
  base := c.alphaAddr base
  fetchPtr := c.alphaAddr base
  firstNa := true
  mode := .alpha
  underrun := false
  curAttr := 0
  rowsFetched := 0
  fetchCol := 0
  fetchLeft := 0

def FrameClock.atReset : FrameClock where
  started := false
  nextRow := 0
  nextLine := 0

/-- Inputs that present nothing: the collaborators' at the model's reset (entry 14). -/
def Inputs.quiet : Inputs where
  beam := { hpos := 0, vpos := 0 }
  ptrX := 0
  ptrY := 0
  ptrButton := false
  alphaBase := 0
  hostMem := []
  font := []

/-- An instance with every register at its reset value (R310, written out), with the given inputs and contents of
Bitplane Memory. Where `IOCURSOR_RESTORE` is R141's it is what power-on leaves (R312; Reset.lean, `State.powerOn`). -/
def State.initial (c : Config) (i : Inputs) (m : Memory) : State where
  dataW := 0
  dataR := 0
  cr := CmdReg.atReset
  fsm := .waitDs0
  io := IoCursor.atReset
  ctl := PlaneCtl.atReset c
  pat := Pattern.atReset c
  ends := Endpoints.atReset
  music := musicAtReset c
  cursor := Cursor.atReset
  lp := LightPen.atReset
  sig := { ready := decide (c.readySet = .ds), irq := false, dmaReq := false }
  wakePending := false
  frameCnt := 0
  alpha := Alpha.atReset c i.alphaBase
  mem := m
  errlog := []
  ret := .none
  wakeDelay := 0
  hostReads := []
  cfg := c
  inputs := i
  beams := []
  inbox := []
  clock := FrameClock.atReset

/-- The machine right after reset: the COLOR variant with the defaults of R4 (entry 8), nothing presented at its inputs
(entry 14), nothing lined up (entry 1), the memory's contents, which the spec leaves unspecified, zero (entry 12). -/
def State.reset : State := State.initial (Config.ofVariant .color) Inputs.quiet []

end Sys2Proof.Machine
end

