-- ==== Sys2Proof/Machine/Ops.lean ====
section
/-! DEFINITION. The named operations over memory and registers that the meanings share: the canonical byte list and the
words in it (entry 13), PlaneRead and PlaneWrite (spec 40_bitplane_ops.md R91, R92), HostMemRead (10_state.md R38), the
wake-up request (41_arbiter.md R103, R106), and what happens when the block detects an error (60_exceptions.md R280,
R281), the one thing this hardware has in the place of an exception. There is no return from one (R289). -/

namespace Sys2Proof.Machine

/-- The answer of a meaning. -/
abbrev Result := Host.Outcome State Fault Refusal

/-! ### The byte list -/

/-- What a byte that nothing lists reads as. Every contents of memory is some list, so that this fixes no contents: what
memory holds at power-on is an argument of `State.powerOn` (R312; entry 12). -/
def unlistedByte : Byte := 0

/-- The byte at a key. -/
def readByte : Memory → Nat → Byte
  | [], _ => unlistedByte
  | c :: r, k => if c.1 = k then c.2 else readByte r k

/-- The list without a key. -/
def dropKey (k : Nat) : Memory → Memory
  | [] => []
  | c :: r => if c.1 = k then dropKey k r else c :: dropKey k r

/-- The list with a byte put before the first higher key. -/
def insertCell (k : Nat) (v : Byte) : Memory → Memory
  | [] => [(k, v)]
  | c :: r => if k < c.1 then (k, v) :: c :: r else c :: insertCell k v r

/-- The list after a byte is written: a byte that reads as unlisted is not listed. -/
def writeByte (m : Memory) (k : Nat) (v : Byte) : Memory :=
  if v = unlistedByte then dropKey k m else insertCell k v (dropKey k m)

/-- The canonical form: keys strictly rising, no byte listed that an unlisted one reads as. -/
def Memory.wf : Memory → Bool
  | [] => true
  | [c] => c.2 != unlistedByte
  | c :: d :: r => decide (c.1 < d.1) && c.2 != unlistedByte && Memory.wf (d :: r)

/-- The word at two successive keys, its high byte first (entry 13). -/
def readWord (m : Memory) (k : Nat) : Word := Word.ofBytes (readByte m k) (readByte m (k + 1))

/-- The list after a word is written at two successive keys. -/
def writeWord (m : Memory) (k : Nat) (w : Word) : Memory := writeByte (writeByte m k w.hi) (k + 1) w.lo

/-! ### Bitplane Memory -/

/-- The key of word `a` of plane `p`; its two bytes are at this key and the next (entry 13). -/
def wordKey (p : BitVec 2) (a : Nat) : Nat := 8 * a + 2 * p.toNat

/-- `a & ADDR_MASK` (R43, R91, R92). -/
def planeAddr (c : Config) (a : Nat) : Nat := a &&& c.addrMask

/-- `PlaneRead(p, a)` (R91). -/
def State.planeRead (s : State) (p : BitVec 2) (a : Nat) : Word :=
  readWord s.mem (wordKey p (planeAddr s.cfg a))

/-- `PlaneWrite(p, a, w)` (R92). -/
def State.planeWrite (s : State) (p : BitVec 2) (a : Nat) (w : Word) : State :=
  s.withMem (writeWord s.mem (wordKey p (planeAddr s.cfg a)) w)

/-- The planes `0 .. NPLANES - 1`, in the order every loop over planes takes (R111). -/
def planesOf : PlaneCount → List (BitVec 2)
  | .one => [0]
  | .three => [0, 1, 2]

/-- Whether a plane index names a plane of the instance (R91, R92). -/
def State.hasPlane (s : State) (p : BitVec 2) : Bool := decide (p.toNat < s.cfg.nplanes)

/-! ### Host memory -/

/-- `HostMemRead(a)` (R38): word `a` of the host memory presented at the interface. -/
def State.hostMemRead (s : State) (a : Nat) : Word := readWord s.inputs.hostMem (2 * a)

/-! ### Wake-ups -/

/-- `CancelWake()` (R106; 00_scope.md section 7). -/
def State.cancelWake (s : State) : State := s.withWakePending false

/-- `ScheduleWake(d)` (R103; 00_scope.md section 7); the duration goes out to the timing source (entry 18). -/
def State.scheduleWake (s : State) (d : Nat) : State := (s.withWakePending true).withWakeDelay d

/-! ### Errors -/

/-- `raise` (R280): a record on the trace and nothing else. -/
def State.raise (s : State) (r : ErrRecord) : State := s.withErrlog (s.errlog ++ [r])

/-- Taking a ProtocolInconsistency (R281, R288): the record, then `fsm <- RESET`. The RESET row does the rest (R140). -/
def State.protocolInconsistency (s : State) : State :=
  (s.raise (.protocolInconsistency s.fsm s.cr.cmd)).withFsm .reset

end Sys2Proof.Machine
end

