-- ==== Sys2Proof/Machine/Operands.lean ====
section
/-! DEFINITION. How operands are taken from words and words are put together: the CommandRegister of an R5W word (spec
30_encoding.md R62), the parameter fields of a DATA word (R66), the HIT word (R68), the attribute byte (R74), the pixel
address and masks (40_bitplane_ops.md R90), and the small number functions of 00_scope.md section 6. -/

namespace Sys2Proof.Machine

/-! ### Number functions -/

/-- `rotl16(v)` (00_scope.md section 6). -/
def rotl16 (v : Word) : Word := (v <<< 1) ||| (v >>> 15)

/-- The largest `r ≤ k` with `r * r ≤ n`. -/
def isqrtFrom (n : Nat) : Nat → Nat
  | 0 => 0
  | k + 1 => if (k + 1) * (k + 1) ≤ n then k + 1 else isqrtFrom n k

/-- `isqrt(n)`: the largest integer `r` with `r * r ≤ n` (00_scope.md section 6). -/
def isqrt (n : Nat) : Nat := isqrtFrom n n

/-! ### The word written to R5 -/

/-- The CommandRegister an R5W word loads (R62, R133). Bit 7 is not stored, bits 15:12 are ignored. -/
def cmdRegOf (v : Word) : CmdReg where
  cmd := unpackCmd v
  dmaEn := (unpackFlags v).dma
  intEn := (unpackFlags v).int
  gfxEn := (unpackFlags v).gfx
  softkeyEn := (unpackFlags v).softkey
  lpEn := (unpackFlags v).lp
  lpSelftest := (unpackFlags v).selftest
  lpInterlace := (unpackFlags v).interlace

/-- Whether an R5W word forces the FSM to RESET (R62, R133). -/
def resetBitOf (v : Word) : Bool := (unpackFlags v).reset

/-! ### DATA words (R66) -/

/-- `DATA_W & X_MASK`: the first word of LDEP, DRAWV, FILLR and the position of LDCX. -/
def dataX (c : Config) (d : Word) : BitVec 10 := (d &&& c.xMask).setWidth 10

/-- `DATA_W & Y_MASK`: the second word of LDEP, DRAWV, FILLR, the row of LDIOY and the position of LDCY. -/
def dataY (c : Config) (d : Word) : BitVec 9 := (d &&& c.yMask).setWidth 9

/-- `DATA_W & XW_MASK`: the word column of LDIOX. -/
def dataXw (c : Config) (d : Word) : BitVec 6 := (d &&& c.xwMask).setWidth 6

/-- LDMC: `active[p] <- DATA_W[p]` for the planes that exist. -/
def dataActive (c : Config) (d : Word) : BitVec 3 := d.extractLsb' 0 3 &&& c.planeMask

/-- LDMC: `dominance[p] <- DATA_W[4 + p]` for the planes that exist. -/
def dataDominance (c : Config) (d : Word) : BitVec 3 := d.extractLsb' 4 3 &&& c.planeMask

/-- LDCM: `set_sel[p] <- DATA_W[p]` for the planes that exist. -/
def dataSetSel (c : Config) (d : Word) : BitVec 3 := d.extractLsb' 0 3 &&& c.planeMask

/-- LDLP: `dash_sel`, bits 2:0. -/
def dataDashSel (d : Word) : BitVec 3 := d.extractLsb' 0 3

/-- LDLP: `dash_n`, bits 7:4 plus one. -/
def dataDashN (d : Word) : BitVec 5 := (d.extractLsb' 4 4).setWidth 5 + 1

/-- LDLP: `ht_sel`, bits 11:8. -/
def dataHtSel (d : Word) : BitVec 4 := d.extractLsb' 8 4

/-- LDMAP: the colour index, bits 2:0, as an entry of the music memory keeps it (D21; entry 29). -/
def dataColour (c : Config) (d : Word) : Nat := c.musicEntry (d.extractLsb' 0 3).toNat

/-- LDMAP: the entry number, bits 6:4. -/
def dataEntry (d : Word) : BitVec 3 := d.extractLsb' 4 3

/-- LDCX: blink mode, bit 14. -/
def dataBlink (d : Word) : Bool := d.getLsbD 14

/-- LDCX: full screen, bit 15. -/
def dataFullScreen (d : Word) : Bool := d.getLsbD 15

/-- LDCY: the cursor colour, bits 14:12. -/
def dataCurColor (d : Word) : BitVec 3 := d.extractLsb' 12 3

/-! ### The HIT word (R68) -/

/-- The hit register a selector names (R21, R174). -/
def LightPen.hit (l : LightPen) : LpReg → BitVec 10
  | .yhi => l.yhi
  | .xleft => l.xleft
  | .ylo => l.ylo

/-- The window flag of a hit register (R174). -/
def LightPen.win (l : LightPen) : LpReg → Bool
  | .yhi => l.winYhi
  | .xleft => l.winX
  | .ylo => l.winYlo

/-- `(k + 1) mod 3` (R174). -/
def LpReg.next : LpReg → LpReg
  | .yhi => .xleft
  | .xleft => .ylo
  | .ylo => .yhi

/-- `HitWord(k)`: the coordinate in bits 9:0, the window flag in bit 14, `lp_int` in bit 15 (R68, R174). -/
def LightPen.hitWord (l : LightPen) (k : LpReg) : Word :=
  BitVec.ofBool l.int ++ BitVec.ofBool (l.win k) ++ 0#4 ++ l.hit k

/-! ### The attribute byte (R74) -/

def attrReverse (a : Byte) : Bool := a.getLsbD 0
def attrBlink (a : Byte) : Bool := a.getLsbD 1
def attrUnderline (a : Byte) : Bool := a.getLsbD 2
def attrAltFont (a : Byte) : Bool := a.getLsbD 3
def attrCursor (a : Byte) : Bool := a.getLsbD 4
def attrColor (a : Byte) : BitVec 3 := a.extractLsb' 5 3

/-- The display mode of a NEWADDR word: `0b11` is read as BOTH (R70, R235). -/
def displayModeOf (m : BitVec 2) : DisplayMode :=
  match m.getLsbD 1, m.getLsbD 0 with
  | false, false => .alpha
  | false, true => .graphics
  | true, _ => .both

/-! ### Pixels (R90) -/

/-- `PixAddr(x, y)`. -/
def pixAddr (c : Config) (x y : Nat) : Nat := planeAddr c (x / 16 + y * c.rowStride)

/-- `PixMask(x)`: `0x8000 >> (x & 15)`. -/
def pixMask (x : Nat) : Word := 0x8000#16 >>> (x % 16)

end Sys2Proof.Machine
end

