-- ==== Sys2Proof/Machine/Flags.lean ====
section
/-! DEFINITION. The signals and the status word: the command classes (spec 30_encoding.md R65), `Recompute()`
(43_command_fsm.md R160), the word a read of R5 returns (30_encoding.md R63). The hardware has no condition codes
(10_state.md R22). -/

namespace Sys2Proof.Machine

/-- `class(cmd)` (R65). -/
def cmdClass : Cmd → CmdClass
  | .nopc => .param1
  | .rdw => .read
  | .wrw => .write
  | .clrw => .write
  | .ldep => .param2
  | .drawv => .param2
  | .fillr => .param2
  | .rdlp => .read
  | .ldiox => .param1
  | .ldioy => .param1
  | .ldmc => .param1
  | .ldlp => .param1
  | .ldcm => .param1
  | .ldmap => .param1
  | .ldcy => .param1
  | .ldcx => .param1

/-- Whether a class moves words: READ or WRITE (R160). -/
def movesWords : CmdClass → Bool
  | .read => true
  | .write => true
  | .param1 => false
  | .param2 => false

/-- Whether `ready` is true in a state of the FSM under a ready set (R160). -/
def readyIn (r : ReadySet) (f : Fsm) : Bool :=
  match r with
  | .ds => decide (f = .waitDs0) || decide (f = .waitDs1) || decide (f = .waitDs2)
  | .trig => decide (f = .waitTrig0) || decide (f = .waitTrig1)

/-- The three signals as functions of `fsm`, `cmd`, `int_en`, `dma_en` (R160). -/
def signalsOf (c : Config) (f : Fsm) (r : CmdReg) : Signals where
  ready := readyIn c.readySet f
  irq := readyIn c.readySet f && r.intEn && !r.dmaEn
  dmaReq := readyIn c.readySet f && r.dmaEn && movesWords (cmdClass r.cmd)

/-- `Recompute()` (R160). -/
def State.recompute (s : State) : State := s.withSig (signalsOf s.cfg s.fsm s.cr)

/-- The `R5R` word: `ready` bit 0, `irq` bit 1, `lp_int` bit 2, `io_wrap` bit 3, `ID_BIT` bit 7, zeros elsewhere
(R63, R134). -/
def State.statusWord (s : State) : Word :=
  0#8 ++ BitVec.ofBool s.cfg.idBit ++ 0#3 ++ BitVec.ofBool s.io.wrap ++ BitVec.ofBool s.lp.int
    ++ BitVec.ofBool s.sig.irq ++ BitVec.ofBool s.sig.ready

end Sys2Proof.Machine
end

