-- ==== Sys2Proof/Machine/Bitplane.lean ====
section
/-! DEFINITION. Bitplane Memory (spec 40_bitplane_ops.md): pixel reads and writes, and the meanings of the rows PixAddr,
PlaneRead, PlaneWrite, read_pixel, write_pixel run alone (entry 5). A plane index the variant does not have is a fault of
those rows (entry 19); no caller inside the hardware hands one over (10_state.md R31). -/

namespace Sys2Proof.Machine

/-- `read_pixel(p, x, y)` (R93). -/
def State.readPixel (s : State) (p : BitVec 2) (x y : Nat) : Bool :=
  decide (s.planeRead p (pixAddr s.cfg x y) &&& pixMask x ≠ 0)

/-- `write_pixel(p, x, y, b)` (R94). -/
def State.writePixel (s : State) (p : BitVec 2) (x y : Nat) (b : Bool) : State :=
  let a := pixAddr s.cfg x y
  let w := s.planeRead p a
  if b then s.planeWrite p a (w ||| pixMask x) else s.planeWrite p a (w &&& ~~~pixMask x)

/-- PixAddr (R90). -/
def execPixAddr (x : BitVec 10) (y : BitVec 9) (s : State) : Result :=
  .next (s.withRet (.addr (pixAddr s.cfg x.toNat y.toNat)))

/-- PlaneRead (R91). -/
def execPlaneRead (p : BitVec 2) (a : Nat) (s : State) : Result :=
  if s.hasPlane p then .next (s.withRet (.word (s.planeRead p a))) else .fault .noSuchPlane

/-- PlaneWrite (R92). -/
def execPlaneWrite (p : BitVec 2) (a : Nat) (w : Word) (s : State) : Result :=
  if s.hasPlane p then .next ((s.planeWrite p a w).withRet .none) else .fault .noSuchPlane

/-- read_pixel (R93). -/
def execReadPixel (p : BitVec 2) (x : BitVec 10) (y : BitVec 9) (s : State) : Result :=
  if s.hasPlane p then .next (s.withRet (.bit (s.readPixel p x.toNat y.toNat))) else .fault .noSuchPlane

/-- write_pixel (R94). -/
def execWritePixel (p : BitVec 2) (x : BitVec 10) (y : BitVec 9) (b : Bool) (s : State) : Result :=
  if s.hasPlane p then .next ((s.writePixel p x.toNat y.toNat b).withRet .none) else .fault .noSuchPlane

end Sys2Proof.Machine
end

