-- ==== Sys2Proof/Machine/Arbiter.lean ====
section
/-! DEFINITION. The Memory Access Arbiter (spec 41_arbiter.md): when a memory access may complete, and the deferral of
one that may not. The meanings of time_until_available, Defer and CancelWake stand here; Wake, which runs the FSM, in
Fsm.lean. -/

namespace Sys2Proof.Machine

/-- `graphics_active` (R101), which is also the renderer's `GraphicsShown` (47_scanline_renderer.md R252). -/
def State.graphicsActive (s : State) : Bool :=
  s.cr.gfxEn && (decide (s.alpha.mode = .graphics) || decide (s.alpha.mode = .both))

/-- `Beam()` (R36): the first position lined up for the arbiter's evaluations, or the one presented at the interface
where none is lined up (U10: a free draw at each evaluation; entry 30). -/
def State.beam (s : State) : Beam :=
  match s.beams with
  | [] => s.inputs.beam
  | b :: _ => b

/-- The positions left after an evaluation of the arbiter: the next one sees the next position (R36, U10; entry 30).
With graphics not active the beam is not read (R100). -/
def State.beamsAfter (s : State) (active : Bool) : List Beam := if active then s.beams.tail else s.beams

/-- The evaluation of the arbiter is over (entry 30). -/
def State.beamRead (s : State) (active : Bool) : State := s.withBeams (s.beamsAfter active)

/-- `time_until_available(graphics_active)` (R100). -/
def State.timeUntilAvailable (s : State) (active : Bool) : Nat :=
  if !active then 0
  else if s.beam.hpos < s.cfg.arbOpenEnd ∨ s.cfg.arbOpenStart ≤ s.beam.hpos then 0
  else s.cfg.arbOpenStart - s.beam.hpos

/-- Whether the arbiter lets a memory access complete now (R102, R103). -/
def State.memAvailable (s : State) : Bool := decide (s.timeUntilAvailable s.graphicsActive = 0)

/-- The memory-wait states (R102). -/
def Fsm.isMemWait (f : Fsm) : Bool :=
  decide (f = .waitMem0) || decide (f = .waitMem1) || decide (f = .waitMem2)

/-- A memory-wait state has asked the arbiter: its evaluation of the beam is over (R102; entry 30). -/
def State.asked (s : State) : State := s.beamRead s.graphicsActive

/-- The suspension of a memory-wait state whose access must wait (R103). -/
def State.suspend (s : State) : State := s.asked.scheduleWake (s.timeUntilAvailable s.graphicsActive)

/-- A memory-wait state found memory available: no wake-up stays pending (R104). -/
def State.granted (s : State) : State := s.asked.cancelWake

/-- time_until_available (R100). -/
def execTimeUntilAvailable (active : Bool) (s : State) : Result :=
  .next ((s.beamRead active).withRet (.delay (s.timeUntilAvailable active)))

/-- Defer (R103): a memory-wait state asks the arbiter and, where memory is unavailable, suspends; elsewhere nothing
(entry 24). -/
def execDefer (s : State) : Result :=
  if s.fsm.isMemWait then .next ((if s.memAvailable then s.asked else s.suspend).withRet .none)
  else .next (s.withRet .none)

/-- CancelWake (R106). -/
def execCancelWake (s : State) : Result := .next (s.cancelWake.withRet .none)

end Sys2Proof.Machine
end

