-- ==== Sys2Proof/Machine/Engine.lean ====
section
/-! DEFINITION. The Vector & Fill Engine (spec 42_vector_fill.md): plot under the dominance truth table, the Bresenham
walk, the rotating dash, the halftone fill; and the meanings of its rows run alone (entry 5). -/

namespace Sys2Proof.Machine

/-! ### plot -/

/-- The dominance truth table, line by line (R112). -/
def plotActionOf (active dominance draw setSel : Bool) : PlotAct :=
  match active, dominance, draw, setSel with
  | false, _, _, _ => .keep
  | true, false, true, _ => .set
  | true, false, false, _ => .clear
  | true, true, true, true => .set
  | true, true, true, false => .clear
  | true, true, false, _ => .clear

/-- The action of plot on one plane (R111, R112). -/
def State.planeAction (s : State) (p : BitVec 2) (draw : Bool) : PlotAct :=
  plotActionOf (s.ctl.active.getLsbD p.toNat) (s.ctl.dominance.getLsbD p.toNat) draw (s.ctl.setSel.getLsbD p.toNat)

/-- plot on one plane (R111). -/
def State.plotPlane (s : State) (x y : Nat) (draw : Bool) (p : BitVec 2) : State :=
  match s.planeAction p draw with
  | .set => s.writePixel p x y true
  | .clear => s.writePixel p x y false
  | .keep => s

/-- `plot(x, y, draw)` (R111). -/
def State.plot (s : State) (x y : Nat) (draw : Bool) : State :=
  (planesOf s.cfg.planeCount).foldl (fun t p => t.plotPlane x y draw p) s

/-! ### The dash pattern -/

/-- `DashBit()` (R115). -/
def State.dashBit (s : State) : Bool := s.pat.dashMask.getLsbD 15

/-- The pattern after `DashAdvance()` (R116). -/
def Pattern.advance (p : Pattern) : Pattern :=
  if p.dashN.toNat ≤ p.dashRep.toNat + 1 then { p with dashMask := rotl16 p.dashMask, dashRep := 0 }
  else { p with dashRep := p.dashRep + 1 }

/-- `DashAdvance()` (R116). -/
def State.dashAdvance (s : State) : State := s.withPat s.pat.advance

/-! ### draw_line -/

/-- The steps of the walk of R113 from `(x, y)` with error term `err`, at most `n` of them: the points plotted. -/
def lineWalk (x1 y1 dx dy sx sy : Int) : Nat → Int → Int → Int → List (Int × Int)
  | 0, _, _, _ => []
  | n + 1, x, y, err =>
    (x, y) ::
      if x = x1 ∧ y = y1 then []
      else
        lineWalk x1 y1 dx dy sx sy n
          (if -dx < err then x + sx else x)
          (if err < dy then y + sy else y)
          (err - (if -dx < err then dy else 0) + (if err < dy then dx else 0))

/-- The points of `draw_line(x0, y0, x1, y1)`, in plotting order (R113). The walk is given `dx + dy + 1` steps, which is
at least the `max(dx, dy) + 1` it takes. -/
def linePoints (x0 y0 x1 y1 : Int) : List (Int × Int) :=
  let dx : Int := (x1 - x0).natAbs
  let dy : Int := (y1 - y0).natAbs
  let sx : Int := if x0 < x1 then 1 else -1
  let sy : Int := if y0 < y1 then 1 else -1
  let err : Int := (if dy < dx then dx else -dy).tdiv 2
  lineWalk x1 y1 dx dy sx sy (dx.toNat + dy.toNat + 1) x0 y0 err

/-- One step of the walk: plot with the dash bit, then advance the dash (R113). -/
def State.lineStep (s : State) (q : Int × Int) : State := (s.plot q.1.toNat q.2.toNat s.dashBit).dashAdvance

/-- `draw_line(x0, y0, x1, y1)` (R113). -/
def State.drawLine (s : State) (x0 : BitVec 10) (y0 : BitVec 9) (x1 : BitVec 10) (y1 : BitVec 9) : State :=
  (linePoints x0.toNat y0.toNat x1.toNat y1.toNat).foldl State.lineStep s

/-! ### fill_rect -/

/-- `Tile(y)` (R119) of a halftone mask. -/
def tileOf (ht : Word) (y : Nat) : Word := ((ht >>> ((y % 4) * 4)) &&& 0xF) * 0x1111

/-- `Tile(y)` (R119). -/
def State.tile (s : State) (y : Nat) : Word := tileOf (s.cfg.halftoneTable.get s.pat.htSel.toFin) y

/-- The numbers `a`, `a + 1`, ..., `b`. -/
def fromTo (a b : Nat) : List Nat := (List.range (b + 1 - a)).map (a + ·)

/-- The points of the normalised box, row by row (R118). -/
def boxPoints (x0 y0 x1 y1 : Nat) : List (Nat × Nat) :=
  (fromTo (min y0 y1) (max y0 y1)).flatMap fun y => (fromTo (min x0 x1) (max x0 x1)).map fun x => (x, y)

/-- One point of the fill (R118). -/
def State.fillStep (s : State) (q : Nat × Nat) : State :=
  s.plot q.1 q.2 (decide (s.tile q.2 &&& pixMask q.1 ≠ 0))

/-- `fill_rect(x0, y0, x1, y1)` (R118). -/
def State.fillRect (s : State) (x0 : BitVec 10) (y0 : BitVec 9) (x1 : BitVec 10) (y1 : BitVec 9) : State :=
  (boxPoints x0.toNat y0.toNat x1.toNat y1.toNat).foldl State.fillStep s

/-! ### The rows -/

/-- plot (R111). -/
def execPlot (x : BitVec 10) (y : BitVec 9) (draw : Bool) (s : State) : Result :=
  .next ((s.plot x.toNat y.toNat draw).withRet .none)

/-- PlotAction (R112). -/
def execPlotAction (active dominance draw setSel : Bool) (s : State) : Result :=
  .next (s.withRet (.action (plotActionOf active dominance draw setSel)))

/-- draw_line (R113). -/
def execDrawLine (x0 : BitVec 10) (y0 : BitVec 9) (x1 : BitVec 10) (y1 : BitVec 9) (s : State) : Result :=
  .next ((s.drawLine x0 y0 x1 y1).withRet .none)

/-- DashBit (R115). -/
def execDashBit (s : State) : Result := .next (s.withRet (.bit s.dashBit))

/-- DashAdvance (R116). -/
def execDashAdvance (s : State) : Result := .next (s.dashAdvance.withRet .none)

/-- fill_rect (R118). -/
def execFillRect (x0 : BitVec 10) (y0 : BitVec 9) (x1 : BitVec 10) (y1 : BitVec 9) (s : State) : Result :=
  .next ((s.fillRect x0 y0 x1 y1).withRet .none)

/-- Tile (R119). -/
def execTile (y : BitVec 9) (s : State) : Result := .next (s.withRet (.word (s.tile y.toNat)))

end Sys2Proof.Machine
end

