-- ==== Sys2Proof/Machine/Fsm.lean ====
section
/-! DEFINITION. The Command Protocol State Machine (spec 43_command_fsm.md): the IoCursor rules (R141, R142), what each
command does inside the rows (44_commands.md R171 to R186), the nine rows (R140 to R155), run to fixpoint (R139), the
resumption by Wake (41_arbiter.md R104); and the meanings of the rows RunFsm, LoadIoCursor, AdvanceIoCursor, Recompute
and Wake. -/

namespace Sys2Proof.Machine

/-! ### IoCursor -/

/-- The address, plane and wrap flag a change of command loads: the default rule of R141, or the parameter's other rule,
held to the one law the spec gives it (U4; entry 10). -/
def restoredCursor (c : Config) (io : IoCursor) (cmd : Cmd) : IoCursor :=
  match c.ioRestore with
  | .reload => { io with addr := planeAddr c (io.x.toNat + io.y.toNat * c.rowStride), plane := 0, wrap := false }
  | .other k =>
    let r := Config.otherIoRestore k io.x io.y io.addr io.plane cmd io.lastCmd
    { io with
      addr := r.1 &&& c.addrMask
      plane := if r.2.1 then io.plane else 0
      wrap := r.2.2 && decide (c.nplanes ≠ 1) }

/-- `LoadIoCursor()` (R141). -/
def State.loadIoCursor (s : State) : State :=
  (s.withIo (restoredCursor s.cfg s.io s.cr.cmd)).withLp
    (if s.cr.cmd = .rdlp then { s.lp with regSel := .yhi } else s.lp)

/-- The cursor after `AdvanceIoCursor()` (R142). -/
def IoCursor.advance (c : Config) (io : IoCursor) : IoCursor :=
  if io.plane.toNat + 1 < c.nplanes then { io with plane := io.plane + 1 }
  else { io with plane := 0, addr := planeAddr c (io.addr + 1), wrap := io.wrap || decide (1 < c.nplanes) }

/-- `AdvanceIoCursor()` (R142). -/
def State.advanceIoCursor (s : State) : State := s.withIo (IoCursor.advance s.cfg s.io)

/-! ### What the commands do in the rows -/

/-- LDIOX, LDIOY (R179, R180). -/
def State.applyLdiox (s : State) : State := s.withIo { s.io with x := dataXw s.cfg s.dataW }
def State.applyLdioy (s : State) : State := s.withIo { s.io with y := dataY s.cfg s.dataW }

/-- LDMC (R181). -/
def State.applyLdmc (s : State) : State :=
  s.withCtl { s.ctl with active := dataActive s.cfg s.dataW, dominance := dataDominance s.cfg s.dataW }

/-- LDLP (R182). -/
def State.applyLdlp (s : State) : State :=
  s.withPat {
    dashSel := dataDashSel s.dataW
    dashMask := s.cfg.dashTable.get (dataDashSel s.dataW).toFin
    dashN := dataDashN s.dataW
    dashRep := 0
    htSel := dataHtSel s.dataW }

/-- LDCM (R183). -/
def State.applyLdcm (s : State) : State := s.withCtl { s.ctl with setSel := dataSetSel s.cfg s.dataW }

/-- LDMAP (R184): nothing on single-plane variants. -/
def State.applyLdmap (s : State) : State :=
  if s.cfg.nplanes = 3 then
    s.withMusic (s.music.set (dataEntry s.dataW).toFin.val (dataColour s.cfg s.dataW) (dataEntry s.dataW).toFin.isLt)
  else s

/-- LDCX (R185). -/
def State.applyLdcx (s : State) : State :=
  s.withCursor { s.cursor with x := dataX s.cfg s.dataW, blink := dataBlink s.dataW, fs := dataFullScreen s.dataW }

/-- LDCY (R186). -/
def State.applyLdcy (s : State) : State :=
  s.withCursor { s.cursor with y := dataY s.cfg s.dataW, color := dataCurColor s.dataW }

/-- The apply step of a one-word parameter in WAIT_TRIG_0 (R144); NOPC applies nothing (R171). Commands of the other
classes have no arm there. -/
def State.applyParam1 (s : State) : State :=
  match s.cr.cmd with
  | .nopc => s
  | .ldiox => s.applyLdiox
  | .ldioy => s.applyLdioy
  | .ldmc => s.applyLdmc
  | .ldlp => s.applyLdlp
  | .ldcm => s.applyLdcm
  | .ldmap => s.applyLdmap
  | .ldcy => s.applyLdcy
  | .ldcx => s.applyLdcx
  | .rdw => s
  | .wrw => s
  | .clrw => s
  | .ldep => s
  | .drawv => s
  | .fillr => s
  | .rdlp => s

/-- The first word of an endpoint: `x_new <- DATA_W & X_MASK` (R144, R175). -/
def State.loadXNew (s : State) : State := s.withEnds { s.ends with xNew := dataX s.cfg s.dataW }

/-- The second word of an endpoint: `y_new <- DATA_W & Y_MASK` (R153). -/
def State.loadYNew (s : State) : State := s.withEnds { s.ends with yNew := dataY s.cfg s.dataW }

/-- `x_old <- x_new; y_old <- y_new` (R153, R155). -/
def State.keepEndpoint (s : State) : State :=
  s.withEnds { s.ends with xOld := s.ends.xNew, yOld := s.ends.yNew }

/-- The RDW arm of WAIT_MEM_0 (R150, R172). -/
def State.readWordAtCursor (s : State) : State :=
  (s.withDataR (s.planeRead s.io.plane s.io.addr)).advanceIoCursor

/-- The RDLP arm of WAIT_MEM_0 (R150, R174). -/
def State.readHitWord (s : State) : State :=
  (s.withDataR (s.lp.hitWord s.lp.regSel)).withLp
    { s.lp with int := s.lp.int && !decide (s.lp.regSel = .ylo), regSel := s.lp.regSel.next }

/-- The WRW and CLRW arms of WAIT_MEM_1 (R154, R173, R178). -/
def State.writeWordAtCursor (s : State) (w : Word) : State :=
  (s.planeWrite s.io.plane s.io.addr w).advanceIoCursor

/-- The DRAWV arm of WAIT_MEM_2 (R155, R176). -/
def State.drawPending (s : State) : State :=
  (s.drawLine s.ends.xOld s.ends.yOld s.ends.xNew s.ends.yNew).keepEndpoint

/-- The FILLR arm of WAIT_MEM_2 (R155, R177). -/
def State.fillPending (s : State) : State :=
  (s.fillRect s.ends.xOld s.ends.yOld s.ends.xNew s.ends.yNew).keepEndpoint

/-! ### The rows -/

/-- What evaluating a row does: a transition, with the tokens still unused, or rest (no transition, or suspension). -/
inductive RowOut where
  | go (ds trig : Bool) (s : State)
  | rest (s : State)
deriving DecidableEq, Repr

/-- `TrigOK(trig)` (R130). -/
def State.trigOk (s : State) (trig : Bool) : Bool := trig || !s.cr.intEn

/-- Row RESET (R140). -/
def rowReset (ds trig : Bool) (s : State) : RowOut :=
  .go ds trig ((s.cancelWake.withIo { s.io with lastCmd := none }).withFsm .waitDs0)

/-- The class test's cursor load in WAIT_DS_0 (R143). -/
def State.noteCommand (s : State) : State :=
  if s.io.lastCmd = some s.cr.cmd then s
  else s.loadIoCursor.withIo { s.loadIoCursor.io with lastCmd := some s.cr.cmd }

/-- Row WAIT_DS_0 (R143). -/
def rowWaitDs0 (ds trig : Bool) (s : State) : RowOut :=
  match cmdClass s.cr.cmd with
  | .read => .go ds trig (s.noteCommand.withFsm .waitMem0)
  | .write => if ds then .go false trig (s.noteCommand.withFsm .waitTrig1) else .rest s.noteCommand
  | .param1 => if ds then .go false trig (s.noteCommand.withFsm .waitTrig0) else .rest s.noteCommand
  | .param2 => if ds then .go false trig (s.noteCommand.withFsm .waitTrig0) else .rest s.noteCommand

/-- Row WAIT_TRIG_0 (R144). -/
def rowWaitTrig0 (ds trig : Bool) (s : State) : RowOut :=
  if s.trigOk trig then
    match cmdClass s.cr.cmd with
    | .param1 => .go ds false (s.applyParam1.withFsm .waitDs0)
    | .param2 => .go ds false (s.loadXNew.withFsm .waitDs2)
    | .read => .go ds false s.protocolInconsistency
    | .write => .go ds false s.protocolInconsistency
  else .rest s

/-- Row WAIT_MEM_0 (R150). -/
def rowWaitMem0 (ds trig : Bool) (s : State) : RowOut :=
  if s.memAvailable then
    match s.cr.cmd with
    | .rdw => .go ds trig (s.granted.readWordAtCursor.withFsm .waitDs1)
    | .rdlp => .go ds trig (s.granted.readHitWord.withFsm .waitDs1)
    | _ => .go ds trig s.granted.protocolInconsistency
  else .rest s.suspend

/-- Row WAIT_DS_1 (R151). -/
def rowWaitDs1 (ds trig : Bool) (s : State) : RowOut :=
  if ds then .go false trig (s.withFsm .waitMem0) else .rest s

/-- Row WAIT_DS_2 (R152). -/
def rowWaitDs2 (ds trig : Bool) (s : State) : RowOut :=
  if ds then .go false trig (s.withFsm .waitTrig1) else .rest s

/-- Row WAIT_TRIG_1 (R153). -/
def rowWaitTrig1 (ds trig : Bool) (s : State) : RowOut :=
  if s.trigOk trig then
    match s.cr.cmd with
    | .wrw => .go ds false (s.withFsm .waitMem1)
    | .clrw => .go ds false (s.withFsm .waitMem1)
    | .drawv => .go ds false (s.loadYNew.withFsm .waitMem2)
    | .fillr => .go ds false (s.loadYNew.withFsm .waitMem2)
    | .ldep => .go ds false (s.loadYNew.keepEndpoint.withFsm .waitDs0)
    | _ => .go ds false s.protocolInconsistency
  else .rest s

/-- Row WAIT_MEM_1 (R154). `DATA_W` is read at the moment of the write. -/
def rowWaitMem1 (ds trig : Bool) (s : State) : RowOut :=
  if s.memAvailable then
    match s.cr.cmd with
    | .wrw => .go ds trig ((s.granted.writeWordAtCursor s.dataW).withFsm .waitDs2)
    | .clrw => .go ds trig ((s.granted.writeWordAtCursor 0).withFsm .waitDs2)
    | _ => .go ds trig s.granted.protocolInconsistency
  else .rest s.suspend

/-- Row WAIT_MEM_2 (R155). -/
def rowWaitMem2 (ds trig : Bool) (s : State) : RowOut :=
  if s.memAvailable then
    match s.cr.cmd with
    | .drawv => .go ds trig (s.granted.drawPending.withFsm .waitDs0)
    | .fillr => .go ds trig (s.granted.fillPending.withFsm .waitDs0)
    | _ => .go ds trig s.granted.protocolInconsistency
  else .rest s.suspend

/-- The row of the current state (R139, R156). Every value of `fsm` has one (R157). -/
def fsmRow (ds trig : Bool) (s : State) : RowOut :=
  match s.fsm with
  | .reset => rowReset ds trig s
  | .waitDs0 => rowWaitDs0 ds trig s
  | .waitTrig0 => rowWaitTrig0 ds trig s
  | .waitMem0 => rowWaitMem0 ds trig s
  | .waitDs1 => rowWaitDs1 ds trig s
  | .waitDs2 => rowWaitDs2 ds trig s
  | .waitTrig1 => rowWaitTrig1 ds trig s
  | .waitMem1 => rowWaitMem1 ds trig s
  | .waitMem2 => rowWaitMem2 ds trig s

/-- Run to fixpoint, at most `n` rows (R139). -/
def runRows : Nat → Bool → Bool → State → State
  | 0, _, _, s => s
  | n + 1, ds, trig, s =>
    match fsmRow ds trig s with
    | .go ds' trig' s' => runRows n ds' trig' s'
    | .rest s' => s'

/-- The rows one event may evaluate: eight transitions and the row it rests in (R139; entry 25). -/
def rowLimit : Nat := 9

/-- `RunFsm(ds, trig)` (R139). -/
def State.runFsm (s : State) (ds trig : Bool) : State := runRows rowLimit ds trig s

/-- An event that runs the FSM with its tokens, signals recomputed at its end (R130, R160). -/
def State.drive (s : State) (ds trig : Bool) : State := (s.runFsm ds trig).recompute

/-! ### The meanings -/

/-- RunFsm (R139), without the Recompute an event does at its end. -/
def execRunFsm (ds trig : Bool) (s : State) : Result := .next ((s.runFsm ds trig).withRet .none)

/-- LoadIoCursor (R141). -/
def execLoadIoCursor (s : State) : Result := .next (s.loadIoCursor.withRet .none)

/-- AdvanceIoCursor (R142). -/
def execAdvanceIoCursor (s : State) : Result := .next (s.advanceIoCursor.withRet .none)

/-- Recompute (R160). -/
def execRecompute (s : State) : Result := .next (s.recompute.withRet .none)

/-- Wake (R104): with no wake-up pending it does nothing. -/
def execWake (s : State) : Result :=
  if s.wakePending then .next (((s.withWakePending false).drive false false).withRet .none)
  else .next (s.withRet .none)

end Sys2Proof.Machine
end

