-- ==== Sys2Proof/Machine/HostAccess.lean ====
section
/-! DEFINITION. The eight host accesses (spec 43_command_fsm.md R131 to R137), each as an operation on the state and as
the meaning of its row. -/

namespace Sys2Proof.Machine

/-- HostWrite(4, v) (R131). -/
def State.hostWrite4 (s : State) (v : Word) : State := (s.withDataW v).drive true false

/-- The state change of HostRead(4) (R132); the value returned is the `DATA_R` of before. -/
def State.hostRead4 (s : State) : State := s.drive true false

/-- The CommandRegister and `lp_int` after an R5 write (R133). -/
def State.storeR5 (s : State) (v : Word) : State :=
  (s.withCr (cmdRegOf v)).withLp (if (cmdRegOf v).lpEn then s.lp else { s.lp with int := false })

/-- Where an R5 write leaves the FSM before it runs: RESET by the reset bit, WAIT_DS_0 when a different command ends a
transfer (R133, R145), else where it was. -/
def fsmAfterR5 (f : Fsm) (old new : Cmd) (resetBit : Bool) : Fsm :=
  if resetBit then .reset
  else if new ≠ old ∧ (f = .waitDs1 ∨ f = .waitDs2) then .waitDs0
  else f

/-- HostWrite(5, v) (R133). -/
def State.hostWrite5 (s : State) (v : Word) : State :=
  ((s.storeR5 v).withFsm (fsmAfterR5 s.fsm s.cr.cmd (cmdRegOf v).cmd (resetBitOf v))).drive false false

/-- `dma_en <- 0`, the terminal count of an R6 access (R135, R136). -/
def State.terminalCount (s : State) : State := s.withCr { s.cr with dmaEn := false }

/-- HostWrite(6, v) (R135). -/
def State.hostWrite6 (s : State) (v : Word) : State := (s.terminalCount.withDataW v).drive true false

/-- The state change of HostRead(6) (R136). -/
def State.hostRead6 (s : State) : State := s.terminalCount.drive true false

/-- HostWrite(7, v) (R137): the value is stored nowhere. -/
def State.hostWrite7 (s : State) : State := s.drive false true

/-- RD4 (R132). -/
def execRd4 (s : State) : Result := .next (s.hostRead4.withRet (.word s.dataR))

/-- RD5 (R134). -/
def execRd5 (s : State) : Result := .next (s.withRet (.word s.statusWord))

/-- RD6 (R136). -/
def execRd6 (s : State) : Result := .next (s.hostRead6.withRet (.word s.dataR))

/-- RD7 (R137): returns 0 and changes nothing. -/
def execRd7 (s : State) : Result := .next (s.withRet (.word 0))

/-- WR4 (R131). -/
def execWr4 (v : Word) (s : State) : Result := .next ((s.hostWrite4 v).withRet .none)

/-- WR5 (R133). -/
def execWr5 (v : Word) (s : State) : Result := .next ((s.hostWrite5 v).withRet .none)

/-- WR6 (R135). -/
def execWr6 (v : Word) (s : State) : Result := .next ((s.hostWrite6 v).withRet .none)

/-- WR7 (R137): a trigger, whatever the value. -/
def execWr7 (_v : Word) (s : State) : Result := .next (s.hostWrite7.withRet .none)

end Sys2Proof.Machine
end

