-- ==== Sys2Proof/Machine/Commands.lean ====
section
/-! DEFINITION. The sixteen commands as instructions (spec 44_commands.md R170 to R186; entry 3): the word written to R5
that selects the command, then its DATA words through R4, each followed by a trigger when the flags enable interrupts
(R170, 30_encoding.md R78). What a command does inside the rows of the FSM stands in Fsm.lean. -/

namespace Sys2Proof.Machine

/-- Selecting a command: the write of its R5W word (R133, R170). -/
def State.select (s : State) (c : Cmd) (f : CmdFlags) : State := s.hostWrite5 (packR5W c f)

/-- Delivering one DATA word: WR4, and WR7 when `int_en = 1` (R170). -/
def State.feed (s : State) (d : Word) : State :=
  if (s.hostWrite4 d).cr.intEn then (s.hostWrite4 d).hostWrite7 else s.hostWrite4 d

/-- NOPC (R171): one DATA word, ignored. -/
def execNopc (f : CmdFlags) (d : Word) (s : State) : Result :=
  .next (((s.select .nopc f).feed d).withRet .none)

/-- RDW (R172): the first word is fetched at once, if memory is available; RD4 and RD6 fetch the next ones. -/
def execRdw (f : CmdFlags) (s : State) : Result := .next ((s.select .rdw f).withRet .none)

/-- WRW (R173): one PIXWORD; WR4 and WR6 write the next ones. -/
def execWrw (f : CmdFlags) (d : Word) (s : State) : Result :=
  .next (((s.select .wrw f).feed d).withRet .none)

/-- CLRW (R178): one DATA word, ignored; zero is written. -/
def execClrw (f : CmdFlags) (d : Word) (s : State) : Result :=
  .next (((s.select .clrw f).feed d).withRet .none)

/-- LDEP (R175): an endpoint, x then y. -/
def execLdep (f : CmdFlags) (x y : Word) (s : State) : Result :=
  .next ((((s.select .ldep f).feed x).feed y).withRet .none)

/-- DRAWV (R176): an endpoint, x then y; the line is drawn when memory is available. -/
def execDrawv (f : CmdFlags) (x y : Word) (s : State) : Result :=
  .next ((((s.select .drawv f).feed x).feed y).withRet .none)

/-- FILLR (R177): the other corner, x then y; the box is filled when memory is available. -/
def execFillr (f : CmdFlags) (x y : Word) (s : State) : Result :=
  .next ((((s.select .fillr f).feed x).feed y).withRet .none)

/-- RDLP (R174): the first HIT word is composed at once, if memory is available. -/
def execRdlp (f : CmdFlags) (s : State) : Result := .next ((s.select .rdlp f).withRet .none)

/-- LDIOX (R179): the word column. -/
def execLdiox (f : CmdFlags) (d : Word) (s : State) : Result :=
  .next (((s.select .ldiox f).feed d).withRet .none)

/-- LDIOY (R180): the row. -/
def execLdioy (f : CmdFlags) (d : Word) (s : State) : Result :=
  .next (((s.select .ldioy f).feed d).withRet .none)

/-- LDMC (R181): the memory-control mask. -/
def execLdmc (f : CmdFlags) (d : Word) (s : State) : Result :=
  .next (((s.select .ldmc f).feed d).withRet .none)

/-- LDLP (R182): the line pattern. -/
def execLdlp (f : CmdFlags) (d : Word) (s : State) : Result :=
  .next (((s.select .ldlp f).feed d).withRet .none)

/-- LDCM (R183): the colour mask. -/
def execLdcm (f : CmdFlags) (d : Word) (s : State) : Result :=
  .next (((s.select .ldcm f).feed d).withRet .none)

/-- LDMAP (R184): one music-memory entry. -/
def execLdmap (f : CmdFlags) (d : Word) (s : State) : Result :=
  .next (((s.select .ldmap f).feed d).withRet .none)

/-- LDCY (R186): cursor y and colour. -/
def execLdcy (f : CmdFlags) (d : Word) (s : State) : Result :=
  .next (((s.select .ldcy f).feed d).withRet .none)

/-- LDCX (R185): cursor x, blink and full-screen flags. -/
def execLdcx (f : CmdFlags) (d : Word) (s : State) : Result :=
  .next (((s.select .ldcx f).feed d).withRet .none)

end Sys2Proof.Machine
end

