-- ==== Sys2Proof/Machine/LightPenModel.lean ====
section
/-! DEFINITION. The Cursor & Light-Pen Model (spec 45_cursor_lightpen.md): the cursor's shape and blink (R201 to R203),
the hit function (R205 to R212) and the capture at vertical blank (R207); and the meanings of IsCursor, LightPenCapture,
LPHit and SelfTestHits run alone (entry 5). -/

namespace Sys2Proof.Machine

/-! ### Graphics cursor -/

/-- `CursorShape(gx, gy)` (R201): false outside the raster. -/
def State.cursorShape (s : State) (gx gy : Nat) : Bool :=
  decide (gx < s.cfg.gfxW) && decide (gy < s.cfg.gfxH) &&
    if s.cursor.fs then decide (gx = s.cursor.x.toNat) || decide (gy = s.cursor.y.toNat)
    else
      (decide (gy = s.cursor.y.toNat) && decide (((gx : Int) - s.cursor.x.toNat).natAbs ≤ s.cfg.curHalf))
        || (decide (gx = s.cursor.x.toNat) && decide (((gy : Int) - s.cursor.y.toNat).natAbs ≤ s.cfg.curHalf))

/-- `CursorOn` (R202). -/
def State.cursorOn (s : State) : Bool :=
  s.cursor.fs || !s.cursor.blink || !s.frameCnt.getLsbD s.cfg.gcBlinkBit

/-- `IsCursor(sx, sy)` (R203). -/
def State.isCursor (s : State) (sx sy : Nat) : Bool :=
  s.graphicsActive && s.cursorOn && decide (s.cfg.gfxXOff ≤ sx) && decide (s.cfg.gfxYOff ≤ sy)
    && s.cursorShape (sx - s.cfg.gfxXOff) (sy - s.cfg.gfxYOff)

/-! ### Light pen -/

/-- Three hit coordinates and their window flags, in the order YHI, XLEFT, YLO (R206). -/
structure Hits where
  yhi : Int
  xleft : Int
  ylo : Int
  winYhi : Bool
  winX : Bool
  winYlo : Bool
deriving DecidableEq, Repr

/-- `abs(v - c) <= w`: the window test (R208). -/
def inWindow (v c : Int) (w : Nat) : Bool := decide ((v - c).natAbs ≤ w)

/-- `clampy(v)` (R211). -/
def clampY (c : Config) (cy v : Int) : Int := min (max v (cy - c.lpWinY)) (cy + c.lpWinY)

/-- `fixy(v)`: truncation to an even line and clamping in interlaced mode (R210, R211). -/
def fixY (c : Config) (il : Bool) (cy v : Int) : Int := if il then clampY c cy (v - v % 2) else v

/-- The half chord of the field of view at distance `d` from its centre (R211). -/
def halfChord (c : Config) (d : Nat) : Int := isqrt (c.lpFovR * c.lpFovR - d * d)

/-- The reference `LPHit` (R211). -/
def referenceHit (c : Config) (px py cx cy : Int) (il : Bool) : Hits :=
  let dx := (cx - px).natAbs
  let dy := (cy - py).natAbs
  let vhit := decide (dx ≤ c.lpFovR)
  let hhit := decide (dy ≤ c.lpFovR)
  let yhi := py + halfChord c dx
  let ylo := py - halfChord c dx
  let xl := px - halfChord c dy
  { yhi := if vhit && inWindow yhi cy c.lpWinY then fixY c il cy yhi else py + c.lpFovR + 1
    winYhi := vhit && inWindow yhi cy c.lpWinY
    xleft := if hhit && inWindow xl cx c.lpWinX then xl else px - (c.lpFovR + 1)
    winX := hhit && inWindow xl cx c.lpWinX
    ylo := if vhit && inWindow ylo cy c.lpWinY then fixY c il cy ylo else py - (c.lpFovR + 1)
    winYlo := vhit && inWindow ylo cy c.lpWinY }

/-- `LPHit`, the parameter (R211, U16; entry 11). -/
def lpHitOf (c : Config) (px py cx cy : Int) (il : Bool) : Hits :=
  match c.lpHit with
  | .reference => referenceHit c px py cx cy il
  | .other k =>
    let r := Config.otherLpHit k px py cx cy il
    { yhi := r.1.1, xleft := r.1.2.1, ylo := r.1.2.2, winYhi := r.2.1, winX := r.2.2.1, winYlo := r.2.2.2 }

/-- `SelfTestHits(cx, cy)` (R212). -/
def selfTestHitsOf (c : Config) (cx cy : Int) : Hits where
  yhi := cy + c.lpStYhi
  xleft := cx + c.lpStXleft
  ylo := cy + c.lpStYlo
  winYhi := true
  winX := true
  winYlo := true

/-- The hits of a capture (R207): those of the self-test when it is on, which do not look at the pointer. -/
def State.captureHits (s : State) : Hits :=
  if s.cr.lpSelftest then selfTestHitsOf s.cfg s.cursor.x.toNat s.cursor.y.toNat
  else
    lpHitOf s.cfg (s.inputs.ptrX - s.cfg.gfxXOff) (s.inputs.ptrY - s.cfg.gfxYOff) s.cursor.x.toNat s.cursor.y.toNat
      s.cr.lpInterlace

/-- The capture at vertical blank (R207). `mod 1024` keeps the low ten bits. -/
def State.lightPenCapture (s : State) : State :=
  s.withLp {
    px := s.inputs.ptrX - s.cfg.gfxXOff
    py := s.inputs.ptrY - s.cfg.gfxYOff
    button := s.inputs.ptrButton
    cx := s.cursor.x
    cy := s.cursor.y
    winYhi := s.captureHits.winYhi
    winX := s.captureHits.winX
    winYlo := s.captureHits.winYlo
    yhi := BitVec.ofInt 10 s.captureHits.yhi
    xleft := BitVec.ofInt 10 s.captureHits.xleft
    ylo := BitVec.ofInt 10 s.captureHits.ylo
    regSel := s.lp.regSel
    int := s.lp.int || (s.cr.lpEn && (s.inputs.ptrButton || s.cr.lpSelftest)) }

/-! ### The meanings -/

/-- Three hits as a returned value (entry 18). -/
def retOfHits (h : Hits) : Ret := .hits h.yhi h.xleft h.ylo h.winYhi h.winX h.winYlo

/-- IsCursor (R203). -/
def execIsCursor (sx sy : Nat) (s : State) : Result := .next (s.withRet (.bit (s.isCursor sx sy)))

/-- LightPenCapture (R207). -/
def execLightPenCapture (s : State) : Result := .next (s.lightPenCapture.withRet .none)

/-- LPHit (R211). -/
def execLpHit (px py cx cy : Int) (il : Bool) (s : State) : Result :=
  .next (s.withRet (retOfHits (lpHitOf s.cfg px py cx cy il)))

/-- SelfTestHits (R212). -/
def execSelfTestHits (cx cy : Int) (s : State) : Result :=
  .next (s.withRet (retOfHits (selfTestHitsOf s.cfg cx cy)))

end Sys2Proof.Machine
end

