-- ==== Sys2Proof/Machine/AlphaFetch.lean ====
section
/-! DEFINITION. Frame events and the Alpha Buffer Fetcher (spec 46_alpha_fetcher.md): what each class of display-list
word does (R235 to R238), fetching a row (R234, R239), the frame start (R231), RowStart (R233), VBlank (R230); and the
meanings of the eight word classes (entry 4), FetchRow, AlphaFrameStart, RowStart and VBlank. -/

namespace Sys2Proof.Machine

/-! ### The row buffers -/

/-- The row buffer of an index: `false` is buffer 0 (R27). -/
def Alpha.row (a : Alpha) (b : Bool) : RowBuf := if b then a.row1 else a.row0

/-- The state with a row buffer replaced. -/
def State.setRow (s : State) (b : Bool) (r : RowBuf) : State :=
  s.withAlpha (if b then { s.alpha with row1 := r } else { s.alpha with row0 := r })

/-- The index of the buffer the fetcher fills: the one not displayed (R27). -/
def State.hidden (s : State) : Bool := !s.alpha.bufIdx

/-! ### One word of a row -/

/-- Past one word of the list: the pointer moves on and one unit of budget is spent (R234). -/
def State.pastWord (s : State) : State :=
  s.withAlpha { s.alpha with
    fetchPtr := s.cfg.alphaAddr (s.alpha.fetchPtr + 1)
    fetchLeft := s.alpha.fetchLeft - 1 }

/-- The start of a row in buffer `b` (R234): the buffer not full, `col`, `cur_attr` and `budget` at their first
values. -/
def State.rowOpen (s : State) (b : Bool) : State :=
  let t := s.setRow b { (s.alpha.row b) with full := false }
  t.withAlpha { t.alpha with fetchCol := 0, curAttr := 0, fetchLeft := s.cfg.fetchBudget }

/-- No row in progress any more (R234). That it is told by a budget of 0 is the model's choice (entry 4). -/
def State.rowOver (s : State) : State := s.withAlpha { s.alpha with fetchCol := 0, fetchLeft := 0 }

/-- Where a word run alone finds no row in progress it opens one in the hidden buffer, as FetchRow would (R234). That a
word alone belongs to such a row is the model's choice (entry 4). -/
def State.inRow (s : State) : State := if s.alpha.fetchLeft = 0 then s.rowOpen s.hidden else s

/-- The budget exhausted (R239): the buffer stays not full; the error is recorded with the rows fetched so far (R283). -/
def State.rowExhausted (s : State) : State := (s.raise (.displayListMalformation s.alpha.rowsFetched)).rowOver

/-- The loop test of R234 after a word that does not end the row: the budget spent, the row is exhausted (R239). A row
exhausted by words run alone is one that `State.inRow` opened, so that its buffer is not full, as R283 has it
(entry 4). -/
def State.rowGoesOn (s : State) : State := if s.alpha.fetchLeft = 0 then s.rowExhausted else s

/-- NEWADDR (R235): only the first of a frame selects the display mode. -/
def State.takeNewaddr (s : State) (mode : BitVec 2) (addr : BitVec 12) : State :=
  (s.pastWord.withAlpha { s.pastWord.alpha with
    mode := if s.alpha.firstNa then displayModeOf mode else s.alpha.mode
    firstNa := false
    fetchPtr := s.cfg.alphaAddr addr.toNat }).rowGoesOn

/-- EOL (R236) into buffer `b`: blank from the column on, full. -/
def State.takeEol (s : State) (b : Bool) : State :=
  let t := s.pastWord.setRow b {
    cells := (s.alpha.row b).cells.take s.alpha.fetchCol
      ++ List.replicate ((s.alpha.row b).cells.length - s.alpha.fetchCol) (blankCell s.cfg)
    full := true }
  (t.withAlpha { t.alpha with rowsFetched := t.alpha.rowsFetched + 1 }).rowOver

/-- NOP and the reserved CONTROL sub-code (R71, R234). -/
def State.takeNop (s : State) : State := s.pastWord.rowGoesOn

/-- ATTRSET (R237): the sticky attribute in generation A, nothing in generation B. -/
def State.takeAttrset (s : State) (attr : Byte) : State :=
  (match s.cfg.alphaGen with
    | .a => s.pastWord.withAlpha { s.pastWord.alpha with curAttr := attr }
    | .b => s.pastWord).rowGoesOn

/-- A cell into buffer `b`, dropped past the last column (R238). -/
def State.storeCell (s : State) (b : Bool) (cell : TextCell) : State :=
  if s.alpha.fetchCol < s.cfg.alphaCols then
    let t := s.setRow b { (s.alpha.row b) with cells := (s.alpha.row b).cells.set s.alpha.fetchCol cell }
    t.withAlpha { t.alpha with fetchCol := t.alpha.fetchCol + 1 }
  else s

/-- A generation B character word (R72, R238). -/
def State.takeCharB (s : State) (b : Bool) (attr : Byte) (code : BitVec 7) : State :=
  (s.pastWord.storeCell b { code := code, attr := attr }).rowGoesOn

/-- A generation A character word (R73, R238). -/
def State.takeCharA (s : State) (b : Bool) (code : BitVec 7) : State :=
  (s.pastWord.storeCell b { code := code, attr := s.alpha.curAttr }).rowGoesOn

/-- A generation A attribute escape (R73, R238): `cur_attr <- zext_8(w[13:7])`, no cell. -/
def State.takeEscA (s : State) (attr : BitVec 7) : State :=
  (s.pastWord.withAlpha { s.pastWord.alpha with curAttr := attr.setWidth 8 }).rowGoesOn

/-! ### A whole row -/

/-- The address of a HostMemRead, for the observer (R8; newest first, entry 18). -/
def State.noteHostRead (s : State) : State := s.withHostReads (s.alpha.fetchPtr :: s.hostReads)

/-- One decoded word of the list, taken into buffer `b`; whether the row ends with it. -/
def State.takeWord (s : State) (b : Bool) (i : Instr) : State × Bool :=
  match i with
  | .alphaNewaddr mode addr => (s.takeNewaddr mode addr, false)
  | .alphaEol _ => (s.takeEol b, true)
  | .alphaAttrset _ attr => (s.takeAttrset attr, false)
  | .alphaCharB attr code => (s.takeCharB b attr code, false)
  | .alphaCharA _ code => (s.takeCharA b code, false)
  | .alphaEscA attr _ => (s.takeEscA attr, false)
  | _ => (s.takeNop, false)

/-- The loop of FetchRow with `n` words of budget (R234). -/
def fetchWords (b : Bool) : Nat → State → State
  | 0, s => s
  | n + 1, s =>
    let r := s.noteHostRead.takeWord b (decodeAlphaWord s.cfg.alphaGen (s.hostMemRead s.alpha.fetchPtr))
    if r.2 then r.1 else fetchWords b n r.1

/-- The start of FetchRow (R234), the list of addresses read empty (entry 18). -/
def State.rowBegin (s : State) (b : Bool) : State := (s.withHostReads []).rowOpen b

/-- `FetchRow(b)` (R234). With no budget at all the row is exhausted at once (R239). -/
def State.fetchRow (s : State) (b : Bool) : State :=
  if s.cfg.fetchBudget = 0 then (s.rowBegin b).rowExhausted else fetchWords b s.cfg.fetchBudget (s.rowBegin b)

/-! ### The frame's events -/

/-- What the alpha frame start sets before row 0 is fetched (R231). The base address input is taken modulo
`2^ALPHA_ADDR_BITS`: DESIGN CHOICE, the spec bounds the register and not the input (R28, R38; entry 32). -/
def State.beginFrame (s : State) : State :=
  s.withAlpha { s.alpha with
    base := s.cfg.alphaAddr s.inputs.alphaBase
    fetchPtr := s.cfg.alphaAddr s.inputs.alphaBase
    firstNa := true
    underrun := false
    rowsFetched := 0 }

/-- The alpha frame start (R231). -/
def State.alphaFrameStart (s : State) : State := s.beginFrame.fetchRow s.beginFrame.hidden

/-- The buffer swap of RowStart and the underrun it may find (R233). -/
def State.swapBuffers (s : State) : State :=
  s.withAlpha { s.alpha with
    bufIdx := !s.alpha.bufIdx
    underrun := s.alpha.underrun || !(s.alpha.row (!s.alpha.bufIdx)).full }

/-- `RowStart(r)` (R233). -/
def State.rowStart (s : State) (r : Nat) : State :=
  if r + 1 < s.cfg.alphaRows ∧ s.swapBuffers.alpha.underrun = false then
    s.swapBuffers.fetchRow s.swapBuffers.hidden
  else s.swapBuffers

/-- `VBlank` (R230): frame counter, light-pen capture, alpha frame start, in this order. -/
def State.vblank (s : State) : State := (s.withFrameCnt (s.frameCnt + 1)).lightPenCapture.alphaFrameStart

/-! ### The meanings -/

/-- ALPHA.NEWADDR (R235). -/
def execAlphaNewaddr (mode : BitVec 2) (addr : BitVec 12) (s : State) : Result :=
  .next ((s.inRow.takeNewaddr mode addr).withRet .none)

/-- ALPHA.EOL (R236). -/
def execAlphaEol (_ignored : BitVec 12) (s : State) : Result := .next ((s.inRow.takeEol s.hidden).withRet .none)

/-- ALPHA.NOP (R234). -/
def execAlphaNop (_ignored : BitVec 12) (s : State) : Result := .next (s.inRow.takeNop.withRet .none)

/-- ALPHA.ATTRSET (R237). -/
def execAlphaAttrset (_ignored : BitVec 4) (attr : Byte) (s : State) : Result :=
  .next ((s.inRow.takeAttrset attr).withRet .none)

/-- ALPHA.RSVD (R71, R234): the reserved sub-code is a NOP. -/
def execAlphaRsvd (_ignored : BitVec 12) (s : State) : Result := .next (s.inRow.takeNop.withRet .none)

/-- ALPHA.CHAR.B (R238). A generation A fetcher reads the same bits as an escape or as a generation A character
(entry 21). -/
def execAlphaCharB (attr : Byte) (code : BitVec 7) (s : State) : Result :=
  .next ((match s.cfg.alphaGen with
    | .b => s.inRow.takeCharB s.hidden attr code
    | .a => if attr.getLsbD 7 then s.inRow.takeEscA (attr.setWidth 7) else s.inRow.takeCharA s.hidden code).withRet .none)

/-- ALPHA.CHAR.A (R238). A generation B fetcher reads the same bits as a character word with attribute `0:ignored`
(entry 21). -/
def execAlphaCharA (ignored : BitVec 7) (code : BitVec 7) (s : State) : Result :=
  .next ((match s.cfg.alphaGen with
    | .a => s.inRow.takeCharA s.hidden code
    | .b => s.inRow.takeCharB s.hidden (0#1 ++ ignored) code).withRet .none)

/-- ALPHA.ESC.A (R238). A generation B fetcher reads the same bits as a character word with attribute `1:attr`
(entry 21). -/
def execAlphaEscA (attr : BitVec 7) (ignored : BitVec 7) (s : State) : Result :=
  .next ((match s.cfg.alphaGen with
    | .a => s.inRow.takeEscA attr
    | .b => s.inRow.takeCharB s.hidden (1#1 ++ attr) ignored).withRet .none)

/-- FetchRow (R234). -/
def execFetchRow (b : Bool) (s : State) : Result := .next ((s.fetchRow b).withRet .none)

/-- AlphaFrameStart (R231). -/
def execAlphaFrameStart (s : State) : Result := .next (s.alphaFrameStart.withRet .none)

/-- RowStart (R233), for a row that exists; another argument is not an event (U12; entry 17). -/
def execRowStart (r : Nat) (s : State) : Result :=
  if r < s.cfg.alphaRows then .next ((s.rowStart r).withRet .none) else .refused .noSuchEvent

/-- VBlank (R230). -/
def execVblank (s : State) : Result := .next (s.vblank.withRet .none)

end Sys2Proof.Machine
end

