-- ==== Sys2Proof/Machine/Renderer.lean ====
section
/-! DEFINITION. The Scanline Renderer and compositor (spec 47_scanline_renderer.md): the graphics layer (R254, R256), the
alpha layer (R255 to R262), the three composition policies (R263 to R265), the cursor last (R266); and the meanings of
Scanline, Gfx and AlphaOn. The renderer writes nothing (R250). -/

namespace Sys2Proof.Machine

/-! ### Pens (R253) -/

def penBlack : Pen := 0
def penGraphic : Pen := 1
def penAlpha : Pen := 2
def penCursor : Pen := 3

/-- Whether the variant shows colour indices (R253). -/
def State.isColor (s : State) : Bool := decide (s.cfg.variant = .color)

/-- `AlphaWanted` (R252). -/
def State.alphaWanted (s : State) : Bool := decide (s.alpha.mode = .alpha) || decide (s.alpha.mode = .both)

/-! ### The graphics layer -/

/-- The music-memory index of a pixel: `4*b[2] + 2*b[1] + b[0]` (R256). -/
def State.pixelIndex (s : State) (gx gy : Nat) : BitVec 3 :=
  BitVec.ofBool (s.readPixel 2 gx gy) ++ BitVec.ofBool (s.readPixel 1 gx gy) ++ BitVec.ofBool (s.readPixel 0 gx gy)

/-- A screen pixel is in the graphics raster (R254). -/
def State.inRaster (s : State) (sx sy : Nat) : Bool :=
  decide (s.cfg.gfxXOff ≤ sx) && decide (sx < s.cfg.gfxXOff + s.cfg.gfxW)
    && decide (s.cfg.gfxYOff ≤ sy) && decide (sy < s.cfg.gfxYOff + s.cfg.gfxH)

/-- The colour index of a pixel: the entry of the music memory that its plane bits select (R256). -/
def State.pixelColour (s : State) (gx gy : Nat) : Pen := s.music.get (s.pixelIndex gx gy).toFin

/-- The pen of a mono variant's graphics pixel (R253). -/
def litPen (lit : Bool) : Pen := if lit then penGraphic else penBlack

/-- The graphics pixel `(gx, gy)`: the bit of the one plane, or on COLOR the colour index of the three (R254, R256). The
spec does not state it for a mono variant with three planes: there whether it is lit is free (entry 31). -/
def State.rasterPen (s : State) (gx gy : Nat) : Pen :=
  match s.cfg.planeCount with
  | .one => litPen (s.readPixel 0 gx gy)
  | .three =>
    if s.isColor then s.pixelColour gx gy
    else litPen (Config.otherGfxLit s.cfg.variant (s.pixelIndex gx gy) (s.pixelColour gx gy))

/-- `Gfx(sx, sy)`, black where the layer is absent (R254). -/
def State.gfxPen (s : State) (sx sy : Nat) : Pen :=
  if s.inRaster sx sy then s.rasterPen (sx - s.cfg.gfxXOff) (sy - s.cfg.gfxYOff) else penBlack

/-! ### The alpha layer -/

/-- The screen line is a text line (R255). -/
def State.isTextLine (s : State) (sy : Nat) : Bool :=
  decide (s.cfg.alphaYOff ≤ sy) && decide (sy < s.cfg.alphaYOff + s.cfg.alphaRows * s.cfg.charH)

/-- `2^CHAR_W - 1` (R259). -/
def glyphOnes (c : Config) : Nat := 2 ^ c.charW - 1

/-- The first listed row of a glyph, or no pixels. -/
def lookupGlyph (alt : Bool) (code : BitVec 7) (line : Nat) : List GlyphRow → Nat
  | [] => 0
  | g :: r => if g.alt = alt ∧ g.code = code ∧ g.line = line then g.bits else lookupGlyph alt code line r

/-- `chargen(alt, code, line)` (R39): `CHAR_W` bits, all zero for `BLANK_CODE`. -/
def State.chargen (s : State) (alt : Bool) (code : BitVec 7) (line : Nat) : Nat :=
  if code = s.cfg.blankCode then 0 else lookupGlyph alt code line s.inputs.font &&& glyphOnes s.cfg

/-- The pixels of one line of a cell, attributes applied in the order of R259. -/
def State.cellLine (s : State) (cell : TextCell) (line : Nat) : Nat :=
  let ones := glyphOnes s.cfg
  let g0 := s.chargen (attrAltFont cell.attr) cell.code line
  let g1 := if attrBlink cell.attr && s.frameCnt.getLsbD s.cfg.chBlinkBit then 0 else g0
  let g2 := if attrUnderline cell.attr && decide (line = s.cfg.ulLine) then ones else g1
  let g3 := if attrCursor cell.attr && !s.frameCnt.getLsbD s.cfg.tcBlinkBit then g2 ^^^ ones else g2
  if attrReverse cell.attr then g3 ^^^ ones else g3

/-- The cell shown at a screen column: of the displayed buffer (R255, R257). -/
def State.cellAt (s : State) (sx : Nat) : TextCell :=
  (s.alpha.row s.alpha.bufIdx).cells.getD (sx / s.cfg.charW) (blankCell s.cfg)

/-- `AlphaOn(sx, sy)` (R255, R259): off on other lines and outside the screen (entry 26). -/
def State.alphaOn (s : State) (sx sy : Nat) : Bool :=
  s.isTextLine sy && decide (sx < s.cfg.screenW)
    && (s.cellLine (s.cellAt sx) ((sy - s.cfg.alphaYOff) % s.cfg.charH)).testBit
        (s.cfg.charW - 1 - sx % s.cfg.charW)

/-- The alpha layer at a pixel: off everywhere while `underrun = 1` (R258, R267). -/
def State.alphaLayer (s : State) (sx sy : Nat) : Bool := !s.alpha.underrun && s.alphaOn sx sy

/-- The colour index of a cell, 0 shown as 7 (R260). -/
def alphaColour (attr : Byte) : Pen := if attrColor attr = 0 then 7 else (attrColor attr).toNat

/-- The pen of a lit alpha pixel (R260, R265; entry 27). -/
def State.alphaPen (s : State) (sx : Nat) : Pen :=
  match s.cfg.variant, s.cfg.policy with
  | .color, .overlay => alphaColour (s.cellAt sx).attr
  | .color, _ => 7
  | _, _ => penAlpha

/-! ### Composition -/

/-- The graphics where they are shown, else black (R263 to R265). -/
def State.gfxOrBlack (s : State) (sx sy : Nat) : Pen := if s.graphicsActive then s.gfxPen sx sy else penBlack

/-- The screen column is in the central zone (R264). -/
def State.inZone (s : State) (sx : Nat) : Bool := decide (s.cfg.zoneL ≤ sx) && decide (sx < s.cfg.zoneR)

/-- `Base(sx, sy)` of the policy (R263, R264, R265). -/
def State.basePen (s : State) (sx sy : Nat) : Pen :=
  match s.cfg.policy with
  | .exclusive =>
    if s.graphicsActive then s.gfxPen sx sy
    else if s.alphaWanted && s.alphaLayer sx sy then s.alphaPen sx
    else penBlack
  | .alphaZone =>
    if s.alphaWanted && s.alphaLayer sx sy && (!s.graphicsActive || s.inZone sx) then s.alphaPen sx
    else s.gfxOrBlack sx sy
  | .overlay =>
    if s.alphaWanted && s.alphaLayer sx sy then s.alphaPen sx
    else s.gfxOrBlack sx sy

/-- `CursorPen` (R204). -/
def State.cursorPen (s : State) : Pen := if s.isColor then s.cursor.color.toNat else penCursor

/-- One pixel of a scanline: the cursor last (R266). -/
def State.pixel (s : State) (sx sy : Nat) : Pen := if s.isCursor sx sy then s.cursorPen else s.basePen sx sy

/-- `Scanline(s)` (R250, R267). -/
def State.scanline (s : State) (sy : Nat) : List Pen := (List.range s.cfg.screenW).map fun sx => s.pixel sx sy

/-! ### The meanings -/

/-- Scanline (R250), for a line of the screen; another argument is not an event (entry 17). -/
def execScanline (n : Nat) (s : State) : Result :=
  if n < s.cfg.screenH then .next (s.withRet (.pens (s.scanline n))) else .refused .noSuchEvent

/-- Gfx (R254). -/
def execGfx (sx sy : Nat) (s : State) : Result := .next (s.withRet (.pen (s.gfxPen sx sy)))

/-- AlphaOn (R259). -/
def execAlphaOn (sx sy : Nat) (s : State) : Result := .next (s.withRet (.bit (s.alphaOn sx sy)))

end Sys2Proof.Machine
end

