-- ==== Sys2Proof/Machine/Reset.lean ====
section
/-! DEFINITION. The two resets and power-on (spec 70_reset_and_hazards.md R310, R311, R312) and the meanings of their rows. -/

namespace Sys2Proof.Machine

/-- The assignments of ControllerReset (R310) before the FSM runs. Bitplane Memory, the configuration, the inputs, what
is lined up and the trace stay (R285: the trace is not architectural). -/
def State.resetRegisters (s : State) : State where
  dataW := 0
  dataR := 0
  cr := CmdReg.atReset
  fsm := .reset
  io := { IoCursor.atReset with lastCmd := none }
  ctl := PlaneCtl.atReset s.cfg
  pat := Pattern.atReset s.cfg
  ends := Endpoints.atReset
  music := musicAtReset s.cfg
  cursor := Cursor.atReset
  lp := LightPen.atReset
  sig := s.sig
  wakePending := false
  frameCnt := 0
  alpha := Alpha.atReset s.cfg s.inputs.alphaBase
  mem := s.mem
  errlog := s.errlog
  ret := .none
  wakeDelay := 0
  hostReads := []
  cfg := s.cfg
  inputs := s.inputs
  beams := s.beams
  inbox := s.inbox
  clock := s.clock

/-- `ControllerReset` (R310): the registers, then `RunFsm(0, 0)` from RESET, then `Recompute()`. -/
def State.controllerReset (s : State) : State := s.resetRegisters.drive false false

/-- Power-on (R312): the memory at the contents `m` it comes up with, which the spec leaves unspecified and which are
therefore an argument (U1; entry 12); all else as after ControllerReset, under every `IOCURSOR_RESTORE`. -/
def State.powerOn (c : Config) (i : Inputs) (m : Memory) : State := (State.initial c i m).controllerReset

/-- ControllerReset (R310). -/
def execControllerReset (s : State) : Result := .next (s.controllerReset.withRet .none)

/-- FsmReset (R311; entry 28): the R5 write of `v` with the reset bit set. -/
def execFsmReset (v : Word) (s : State) : Result := .next ((s.hostWrite5 (v ||| 0x0080)).withRet .none)

end Sys2Proof.Machine
end

