-- ==== Sys2Proof/Machine/Dispatch.lean ====
section
/-! DEFINITION. One arm per instruction: the meaning it calls. -/

namespace Sys2Proof.Machine

def exec (i : Instr) (s : State) : Host.Outcome State Fault Refusal :=
  match i with
  | .rd4 => Sys2Proof.Machine.execRd4 s
  | .rd5 => Sys2Proof.Machine.execRd5 s
  | .rd6 => Sys2Proof.Machine.execRd6 s
  | .rd7 => Sys2Proof.Machine.execRd7 s
  | .wr4 v => Sys2Proof.Machine.execWr4 v s
  | .wr5 v => Sys2Proof.Machine.execWr5 v s
  | .wr6 v => Sys2Proof.Machine.execWr6 v s
  | .wr7 v => Sys2Proof.Machine.execWr7 v s
  | .nopc f d => Sys2Proof.Machine.execNopc f d s
  | .rdw f => Sys2Proof.Machine.execRdw f s
  | .wrw f d => Sys2Proof.Machine.execWrw f d s
  | .clrw f d => Sys2Proof.Machine.execClrw f d s
  | .ldep f x y => Sys2Proof.Machine.execLdep f x y s
  | .drawv f x y => Sys2Proof.Machine.execDrawv f x y s
  | .fillr f x y => Sys2Proof.Machine.execFillr f x y s
  | .rdlp f => Sys2Proof.Machine.execRdlp f s
  | .ldiox f d => Sys2Proof.Machine.execLdiox f d s
  | .ldioy f d => Sys2Proof.Machine.execLdioy f d s
  | .ldmc f d => Sys2Proof.Machine.execLdmc f d s
  | .ldlp f d => Sys2Proof.Machine.execLdlp f d s
  | .ldcm f d => Sys2Proof.Machine.execLdcm f d s
  | .ldmap f d => Sys2Proof.Machine.execLdmap f d s
  | .ldcy f d => Sys2Proof.Machine.execLdcy f d s
  | .ldcx f d => Sys2Proof.Machine.execLdcx f d s
  | .alphaNewaddr mode addr => Sys2Proof.Machine.execAlphaNewaddr mode addr s
  | .alphaEol ignored => Sys2Proof.Machine.execAlphaEol ignored s
  | .alphaNop ignored => Sys2Proof.Machine.execAlphaNop ignored s
  | .alphaAttrset ignored attr => Sys2Proof.Machine.execAlphaAttrset ignored attr s
  | .alphaRsvd ignored => Sys2Proof.Machine.execAlphaRsvd ignored s
  | .alphaCharB attr code => Sys2Proof.Machine.execAlphaCharB attr code s
  | .alphaCharA ignored code => Sys2Proof.Machine.execAlphaCharA ignored code s
  | .alphaEscA attr ignored => Sys2Proof.Machine.execAlphaEscA attr ignored s
  | .pixAddr x y => Sys2Proof.Machine.execPixAddr x y s
  | .planeRead p a => Sys2Proof.Machine.execPlaneRead p a s
  | .planeWrite p a w => Sys2Proof.Machine.execPlaneWrite p a w s
  | .readPixel p x y => Sys2Proof.Machine.execReadPixel p x y s
  | .writePixel p x y b => Sys2Proof.Machine.execWritePixel p x y b s
  | .timeUntilAvailable graphicsActive => Sys2Proof.Machine.execTimeUntilAvailable graphicsActive s
  | .defer => Sys2Proof.Machine.execDefer s
  | .wake => Sys2Proof.Machine.execWake s
  | .cancelWake => Sys2Proof.Machine.execCancelWake s
  | .plot x y draw => Sys2Proof.Machine.execPlot x y draw s
  | .plotAction active dominance draw setSel => Sys2Proof.Machine.execPlotAction active dominance draw setSel s
  | .drawLine x0 y0 x1 y1 => Sys2Proof.Machine.execDrawLine x0 y0 x1 y1 s
  | .dashBit => Sys2Proof.Machine.execDashBit s
  | .dashAdvance => Sys2Proof.Machine.execDashAdvance s
  | .fillRect x0 y0 x1 y1 => Sys2Proof.Machine.execFillRect x0 y0 x1 y1 s
  | .tile y => Sys2Proof.Machine.execTile y s
  | .runFsm ds trig => Sys2Proof.Machine.execRunFsm ds trig s
  | .loadIoCursor => Sys2Proof.Machine.execLoadIoCursor s
  | .advanceIoCursor => Sys2Proof.Machine.execAdvanceIoCursor s
  | .recompute => Sys2Proof.Machine.execRecompute s
  | .isCursor sx sy => Sys2Proof.Machine.execIsCursor sx sy s
  | .lightPenCapture => Sys2Proof.Machine.execLightPenCapture s
  | .lpHit px py cx cy il => Sys2Proof.Machine.execLpHit px py cx cy il s
  | .selfTestHits cx cy => Sys2Proof.Machine.execSelfTestHits cx cy s
  | .vblank => Sys2Proof.Machine.execVblank s
  | .alphaFrameStart => Sys2Proof.Machine.execAlphaFrameStart s
  | .rowStart r => Sys2Proof.Machine.execRowStart r s
  | .fetchRow b => Sys2Proof.Machine.execFetchRow b s
  | .scanline n => Sys2Proof.Machine.execScanline n s
  | .gfx sx sy => Sys2Proof.Machine.execGfx sx sy s
  | .alphaOn sx sy => Sys2Proof.Machine.execAlphaOn sx sy s
  | .controllerReset => Sys2Proof.Machine.execControllerReset s
  | .fsmReset v => Sys2Proof.Machine.execFsmReset v s

end Sys2Proof.Machine
end

