-- ==== Sys2Proof/Machine/Delivery.lean ====
section
/-! DEFINITION. How what the collaborators have lined up reaches the machine (entry 1): fetching and decoding a delivery,
the timing source's contract (spec 46_alpha_fetcher.md R232; entry 16), the collaborators' promises about the inputs
(10_state.md R36, R38; entry 15). -/

namespace Sys2Proof.Machine

/-- The first screen line of text row `r` (R255). -/
def rowLine (c : Config) (r : Nat) : Nat := c.alphaYOff + r * c.charH

/-- The contract of R232: whether a display event may come now. `RowStart(r)` comes between the scanline before its row
and the first of its row; a frame is complete before the next `VBlank`; a `VBlank` comes first. -/
def FrameClock.admits (c : Config) (k : FrameClock) (i : Instr) : Bool :=
  match i with
  | .vblank => !k.started || (decide (k.nextRow = c.alphaRows) && decide (k.nextLine = c.screenH))
  | .rowStart r =>
    k.started && decide (r = k.nextRow) && decide (r < c.alphaRows) && decide (k.nextLine = rowLine c r)
  | .scanline n =>
    k.started && decide (n = k.nextLine) && decide (n < c.screenH)
      && (decide (k.nextRow = c.alphaRows) || decide (n < rowLine c k.nextRow))
  | _ => true

/-- The clock after an event (R232). -/
def FrameClock.note (k : FrameClock) (i : Instr) : FrameClock :=
  match i with
  | .vblank => { started := true, nextRow := 0, nextLine := 0 }
  | .rowStart r => { k with nextRow := r + 1 }
  | .scanline n => { k with nextLine := n + 1 }
  | .controllerReset => FrameClock.atReset
  | _ => k

/-- Whether the machine takes an instruction where it stands in the frame (R232; entry 16). -/
def State.takes (s : State) (i : Instr) : Bool := !s.cfg.refuseBadTiming || FrameClock.admits s.cfg s.clock i

/-- The state with an event noted on its frame clock. -/
def State.noteEvent (s : State) (i : Instr) : State := s.withClock (s.clock.note i)

/-- A position of the beam inside the geometry (R36). -/
def Beam.wf (c : Config) (b : Beam) : Bool := decide (b.hpos < c.hTotal) && decide (b.vpos < c.vTotal)

/-- What the collaborators promise of their inputs: the beam inside its geometry (R36), host memory inside its address
space (R38) and written in canonical form. -/
def Inputs.wf (c : Config) (i : Inputs) : Bool :=
  i.beam.wf c && Memory.wf i.hostMem
    && i.hostMem.all fun m => decide (m.1 < 2 * 2 ^ c.alphaAddrBits)

/-- The refusal of a delivery that does not decode. -/
def refusalOf (e : DecodeError) : Refusal :=
  match e with
  | .noSuchRegister => .notThisBlock
  | .truncated => .noEncoding
  | .noSuchCode => .noEncoding

/-- Running the instruction a delivery's bytes say. -/
def State.run (s : State) (i : Instr) : Result :=
  if s.takes i then exec i (s.noteEvent i) else .refused .timingContract

/-- One delivery reaches the machine. -/
def State.deliver (s : State) (d : Delivery) : Result :=
  match d with
  | .inputs i => if Inputs.wf s.cfg i then .next (s.withInputs i) else .refused .inputContract
  | .beams l => if l.all (Beam.wf s.cfg) then .next (s.withBeams l) else .refused .inputContract
  | .wire ch bs =>
    match decode ch bs with
    | .ok i => s.run i
    | .error e => .refused (refusalOf e)

/-- A table row's instruction as a delivery on the wire its bits are on (entry 7). -/
def tableDelivery (nbits w : Nat) : Delivery := .wire (tableChannel nbits w) (tableBytes nbits w)

end Sys2Proof.Machine
end

