-- ==== Sys2Proof/Machine/Step.lean ====
section
/-! DEFINITION. One step: the oldest delivery leaves the inbox and reaches the machine; with nothing lined up nothing
changes (spec 00_scope.md R5: "between events nothing changes"; entry 2). -/

namespace Sys2Proof.Machine

/-- One step of the machine. -/
def step (s : State) : Host.Outcome State Fault Refusal :=
  match s.inbox with
  | [] => .next s
  | d :: rest => (s.withInbox rest).deliver d

/-- The state with a table row's instruction lined up first, so that the next step runs it. -/
def State.withFetchWord (s : State) (nbits w : Nat) : State := s.withInbox (tableDelivery nbits w :: s.inbox)

end Sys2Proof.Machine
end

