-- ==== Sys2Proof/Safety.lean ====
section
/-! DEFINITION. What a good state and a good run are, and the words the statements share: the invariant `Inv` (spec
10_state.md R31, R24, R26; 60_exceptions.md R284), the signals up to date (43_command_fsm.md R160), where a command may
start and what every command does first (44_commands.md R170), the groups of state that the events of one agent leave
alone. -/

namespace Sys2Proof.Machine

/-! ### The invariant -/

/-- `io_plane < NPLANES`; `io_addr <= ADDR_MASK`; `io_wrap = 0` on single-plane variants; a class test has been made
since the last RESET row (R15, R31). -/
def State.ioOk (s : State) : Bool :=
  decide (s.io.plane.toNat < s.cfg.nplanes) && decide (s.io.addr &&& s.cfg.addrMask = s.io.addr)
    && (decide (s.cfg.nplanes ≠ 1) || !s.io.wrap) && decide (s.io.lastCmd ≠ none)

/-- `dash_rep < dash_n` and `1 <= dash_n <= 16` (R17, R31). -/
def Pattern.ok (p : Pattern) : Bool := decide (p.dashRep.toNat < p.dashN.toNat) && decide (p.dashN.toNat ≤ 16)

/-- Every coordinate held is a masked one (R18, R31, R284). -/
def State.coordsOk (s : State) : Bool :=
  decide (s.ends.xOld &&& s.cfg.xMask.setWidth 10 = s.ends.xOld)
    && decide (s.ends.xNew &&& s.cfg.xMask.setWidth 10 = s.ends.xNew)
    && decide (s.ends.yOld &&& s.cfg.yMask.setWidth 9 = s.ends.yOld)
    && decide (s.ends.yNew &&& s.cfg.yMask.setWidth 9 = s.ends.yNew)
    && decide (s.cursor.x &&& s.cfg.xMask.setWidth 10 = s.cursor.x)
    && decide (s.cursor.y &&& s.cfg.yMask.setWidth 9 = s.cursor.y)

/-- No plane flag is set for a plane that does not exist, and no entry of the music memory is wider than it is
(R16, R19). -/
def State.planesOk (s : State) : Bool :=
  decide (s.ctl.active &&& s.cfg.planeMask = s.ctl.active)
    && decide (s.ctl.dominance &&& s.cfg.planeMask = s.ctl.dominance)
    && decide (s.ctl.setSel &&& s.cfg.planeMask = s.ctl.setSel)
    && s.music.toList.all fun v => decide (v < 2 ^ s.cfg.musicBits)

/-- A wake-up is pending in a memory-wait state only (R24), and RESET is never left active (R13, R140). -/
def State.waitOk (s : State) : Bool := (!s.wakePending || s.fsm.isMemWait) && decide (s.fsm ≠ .reset)

/-- A key of the memory list belongs to a word of a plane that exists (R26, R284). -/
def keyInRange (c : Config) (k : Nat) : Bool :=
  decide (k / 8 ≤ c.addrMask) && decide (k % 8 / 2 < c.nplanes)

/-- The memory is in canonical form and holds nothing outside the planes (R26, R284). -/
def State.memOk (s : State) : Bool := Memory.wf s.mem && s.mem.all fun m => keyInRange s.cfg m.1

/-- Both row buffers have `ALPHA_COLS` cells, the column is at most that, the fetch addresses are reduced
(R27, R28, R284). -/
def State.alphaOk (s : State) : Bool :=
  decide (s.alpha.row0.cells.length = s.cfg.alphaCols) && decide (s.alpha.row1.cells.length = s.cfg.alphaCols)
    && decide (s.alpha.fetchCol ≤ s.cfg.alphaCols) && decide (s.cfg.alphaAddr s.alpha.base = s.alpha.base)
    && decide (s.cfg.alphaAddr s.alpha.fetchPtr = s.alpha.fetchPtr)

/-- The configuration meets R4's constraints, and the inputs and the beam's positions what the collaborators promise
(R4, R36, R38). -/
def State.givenOk (s : State) : Bool := s.cfg.wf && Inputs.wf s.cfg s.inputs && s.beams.all (Beam.wf s.cfg)

/-- The invariant of the machine. -/
def State.inv (s : State) : Bool :=
  s.ioOk && s.pat.ok && s.coordsOk && s.planesOk && s.waitOk && s.memOk && s.alphaOk && s.givenOk

/-- The state meets the invariant. -/
abbrev Inv (s : State) : Prop := s.inv = true

/-- The signals are what R160 makes of the state. -/
def State.Fresh (s : State) : Prop := s.sig = signalsOf s.cfg s.fsm s.cr

/-! ### Runs -/

/-- A step that stops neither by a fault nor by a refusal. -/
def State.Goes (s : State) : Prop := ∃ t, step s = .next t

/-- A run of `n` steps that never stops. -/
def State.SafeFor : Nat → State → Prop
  | 0, _ => True
  | n + 1, s => ∃ t, step s = .next t ∧ State.SafeFor n t

/-! ### Commands -/

/-- Where a command `c` with flags `f` starts its life at once: the FSM rests in WAIT_DS_0, or the write of its R5W word
brings it there, by the reset bit or by ending a transfer of another command (R133, R145, R170). -/
def State.accepts (s : State) (c : Cmd) (f : CmdFlags) : Bool :=
  f.reset || decide (s.fsm = .waitDs0)
    || ((decide (s.fsm = .waitDs1) || decide (s.fsm = .waitDs2)) && decide (c ≠ s.cr.cmd))

/-- What every command does first: the CommandRegister and `lp_int` take the R5W word, the reset bit cancels the wake-up
and forgets the last command, the class test loads the IoCursor if the command changed (R133, R140, R143). -/
def State.begun (s : State) (c : Cmd) (f : CmdFlags) : State :=
  let t := s.storeR5 (packR5W c f)
  (if f.reset then t.cancelWake.withIo { t.io with lastCmd := none } else t).noteCommand

/-- Instructions one after another, as far as they answer. -/
def State.runAll (s : State) (l : List Instr) : Result :=
  l.foldl (fun r i => match r with | .next t => exec i t | z => z) (.next s)

/-- The host accesses that deliver a command: its R5W word, then a write of R4 for each data word, each followed by a
trigger where the flags enable interrupts (R170; 30_encoding.md R78). -/
def accessesOf (c : Cmd) (f : CmdFlags) (ds : List Word) : List Instr :=
  .wr5 (packR5W c f) :: ds.flatMap fun d => .wr4 d :: if f.int then [.wr7 0] else []

/-- Where an event that ran the FSM ends: in a state of the FSM, signals up to date, nothing returned. -/
def State.endIn (s : State) (f : Fsm) : State := (s.withFsm f).recompute.withRet .none

/-! ### What an event leaves alone -/

/-- The groups that only the timing source's display events and the display list write are the same: the frame counter,
the row buffers and the fetch state, the addresses read (R25, R27, R28). -/
def State.SameDisplay (s t : State) : Prop :=
  t.frameCnt = s.frameCnt ∧ t.alpha = s.alpha ∧ t.hostReads = s.hostReads

/-- The groups that the commands write are the same: the data registers, the CommandRegister, the FSM and its wake-up,
the IoCursor, the drawing controls, the endpoints, the music memory, the cursor, the signals
(R11 to R20, R22, R24). -/
def State.SameDrawing (s t : State) : Prop :=
  t.dataW = s.dataW ∧ t.dataR = s.dataR ∧ t.cr = s.cr ∧ t.fsm = s.fsm ∧ t.wakePending = s.wakePending
    ∧ t.wakeDelay = s.wakeDelay ∧ t.io = s.io ∧ t.ctl = s.ctl ∧ t.pat = s.pat ∧ t.ends = s.ends
    ∧ t.music = s.music ∧ t.cursor = s.cursor ∧ t.sig = s.sig

/-- Nothing of the environment changed: configuration, inputs, what is lined up, the frame clock; of the beam's positions
to come at most some were taken, from the front. -/
def State.SameWorld (s t : State) : Prop :=
  t.cfg = s.cfg ∧ t.inputs = s.inputs ∧ t.inbox = s.inbox ∧ t.clock = s.clock ∧ t.beams <:+ s.beams

/-- Two coordinates name the same pixel: the same word and the same bit of it (R44, R90). -/
abbrev SamePixel (c : Config) (x y x' y' : Nat) : Prop := pixAddr c x y = pixAddr c x' y' ∧ x % 16 = x' % 16

/-- Every byte of memory outside a set of keys reads as before. -/
def SameOutside (m n : Memory) (keys : List Nat) : Prop := ∀ k, k ∉ keys → readByte n k = readByte m k

/-- The two keys of word `a` of plane `p` (entry 13). -/
def wordKeys (c : Config) (p : BitVec 2) (a : Nat) : List Nat :=
  [wordKey p (planeAddr c a), wordKey p (planeAddr c a) + 1]

/-- The keys of the words that hold some pixels, in every plane of the variant. -/
def pixelKeys (c : Config) (pts : List (Nat × Nat)) : List Nat :=
  pts.flatMap fun q => (planesOf c.planeCount).flatMap fun p => wordKeys c p (pixAddr c q.1 q.2)

/-- What an action of plot leaves of a bit (R112, the last column of the table). -/
def PlotAct.leaves (a : PlotAct) (b : Bool) : Bool :=
  match a with
  | .set => true
  | .clear => false
  | .keep => b

/-- The points of a line, as raster coordinates (R113). -/
def pointsOfLine (x0 : BitVec 10) (y0 : BitVec 9) (x1 : BitVec 10) (y1 : BitVec 9) : List (Nat × Nat) :=
  (linePoints x0.toNat y0.toNat x1.toNat y1.toNat).map fun q => (q.1.toNat, q.2.toNat)

/-- A point inside the graphics raster (R4, R254). -/
def inGraphics (c : Config) (x y : Nat) : Prop := x < c.gfxW ∧ y < c.gfxH

/-- The state/command combinations that have no arm (R281, its table). -/
def mismatched (f : Fsm) (c : Cmd) : Bool :=
  match f with
  | .waitTrig0 => [Cmd.rdw, .rdlp, .wrw, .clrw].contains c
  | .waitMem0 => !([Cmd.rdw, .rdlp].contains c)
  | .waitTrig1 => !([Cmd.wrw, .clrw, .ldep, .drawv, .fillr].contains c)
  | .waitMem1 => !([Cmd.wrw, .clrw].contains c)
  | .waitMem2 => !([Cmd.drawv, .fillr].contains c)
  | _ => false

/-- The wait of the state is satisfied (R281): the trigger in a WAIT_TRIG state, memory in a WAIT_MEM state. -/
def State.waitSatisfied (s : State) (trig : Bool) : Bool :=
  match s.fsm with
  | .waitTrig0 => s.trigOk trig
  | .waitTrig1 => s.trigOk trig
  | .waitMem0 => s.memAvailable
  | .waitMem1 => s.memAvailable
  | .waitMem2 => s.memAvailable
  | _ => true

end Sys2Proof.Machine

namespace Sys2Proof

/-! ### Kinds of instructions -/

/-- An operation's arguments name something the instance has: a plane of the variant, a text row, a line of the screen
(R91, R92, R233, R250). -/
def Instr.inRange (c : Config) (i : Instr) : Bool :=
  match i with
  | .planeRead p _ => decide (p.toNat < c.nplanes)
  | .planeWrite p _ _ => decide (p.toNat < c.nplanes)
  | .readPixel p _ _ => decide (p.toNat < c.nplanes)
  | .writePixel p _ _ _ => decide (p.toNat < c.nplanes)
  | .rowStart r => decide (r < c.alphaRows)
  | .scanline n => decide (n < c.screenH)
  | _ => true

/-- The operations that never write Bitplane Memory: all but the pixel and word writes, the engine's, and the accesses
that run the FSM on data (R26, R95). -/
def Instr.neverWritesMemory (i : Instr) : Bool :=
  match i with
  | .rd4 => false
  | .rd5 => true
  | .rd6 => false
  | .rd7 => true
  | .planeWrite _ _ _ => false
  | .writePixel _ _ _ _ => false
  | .wake => false
  | .plot _ _ _ => false
  | .drawLine _ _ _ _ => false
  | .fillRect _ _ _ _ => false
  | .runFsm _ _ => false
  | j => decide (j.channel ≠ .bus) && decide (j.channel ≠ .cmd)

/-- The display's own operations: the timing source's display events, the display-list words, the fetcher, the renderer
and the light pen (R230 to R239, R250, R207). -/
def Instr.isDisplay (i : Instr) : Bool :=
  match i with
  | .vblank => true
  | .alphaFrameStart => true
  | .rowStart _ => true
  | .fetchRow _ => true
  | .scanline _ => true
  | .gfx _ _ => true
  | .alphaOn _ _ => true
  | .isCursor _ _ => true
  | .lightPenCapture => true
  | .lpHit _ _ _ _ _ => true
  | .selfTestHits _ _ => true
  | j => decide (j.channel = .alpha .a) || decide (j.channel = .alpha .b)

/-- What the host does: a register access, or a command delivered by register accesses (R131 to R137, R170). -/
def Instr.isHost (i : Instr) : Bool := decide (i.channel = .bus) || decide (i.channel = .cmd)

end Sys2Proof
end

