-- ==== Sys2Proof/Certificates/Slice0/Obligations.lean ====
section
/-! DEFINITION. The statements for the provers, from the numbered rules of spec/, in the order of OBLIGATIONS.json. A
frame is said in one of two ways: an equation `exec i s = .next t` whose `t` is `s` with the groups named replaced, which
leaves every other group and every byte of memory as it was; or, for a form that stores, an equation between all but the
memory of `t` and of `s`, and every byte outside the stored words reading as before. -/

open Sys2Proof Sys2Proof.Machine

/-! ### Encoding -/

/-- Words written out from the layouts of 30_encoding.md decode to what they stand for: the examples of its section 6
(`WR5 WRW+INT` is `D:0022`, `WR4 0x1234` is `C:1234`) and the words of the example in 46_alpha_fetcher.md section 2.
The bytes of a word on the wire are the model's choice (entry 6). Rests on the spec's own decisions D4, D5, D7, D26
(92_eei_decisions.md) and entry 6. -/
def Obligations.SampleWordsDecode : Prop :=
  decode .bus [0x4] = .ok .rd4 ∧
  decode .bus [0xC, 0x34, 0x12] = .ok (.wr4 0x1234) ∧
  decode .bus [0xD, 0x22, 0x00] = .ok (.wr5 0x0022) ∧
  decode .cmd [0x22, 0x00, 0x34, 0x12] = .ok (.wrw
    { dma := false, int := true, gfx := false, reset := false, softkey := false, lp := false, selftest := false,
      interlace := false, rsvd := 0 } 0x1234) ∧
  decode (.alpha .b) [0x00, 0xC2] = .ok (.alphaNewaddr 0 0x200) ∧
  decode (.alpha .b) [0x48, 0x00] = .ok (.alphaCharB 0 0x48) ∧
  decode (.alpha .b) [0x00, 0x80] = .ok (.alphaEol 0) ∧
  decode (.alpha .a) [0x00, 0x42] = .ok (.alphaEscA 0x04 0) ∧
  decode (.alpha .a) [0x41, 0x00] = .ok (.alphaCharA 0 0x41)

/-- Decoding an encoded well-formed instruction gives it back, with every operand at every value. Rests on the spec's
own decisions D4, D5, D6, D7, D8, D26 (92_eei_decisions.md) and entry 6. -/
def Obligations.DecodeOfEncode : Prop :=
  ∀ i : Instr, i.WellFormed → decode (encode i).1 (encode i).2 = .ok i

/-- The other direction, for the words that have a layout in the spec: every 16-bit word is the R5W word of its command
and flags, and every 16-bit word is the encoding of the display-list word either generation reads in it. No bit is
dropped. Rests on the spec's own decisions D4, D5, D26 (92_eei_decisions.md) and entry 6. -/
def Obligations.EncodeOfDecode : Prop :=
  (∀ w : Word, packR5W (unpackCmd w) (unpackFlags w) = w) ∧
  ∀ (g : AlphaGen) (w : Word), (decodeAlphaWord g w).bytes = fromWords [w]

/-! ### Steps -/

/-- When the oldest delivery decodes to an instruction and the frame clock takes it, a step is that instruction's
`exec` on the state without the delivery and with the event noted; and the state `withFetchWord` makes runs exactly
that instruction. Rests on entries 1, 7, 16. -/
def Obligations.StepRunsTheDecodedInstruction : Prop :=
  (∀ (s : State) (ch : Channel) (bs : List Byte) (rest : List Delivery) (i : Instr),
    s.inbox = .wire ch bs :: rest → decode ch bs = .ok i → s.takes i = true →
      step s = exec i ((s.withInbox rest).noteEvent i)) ∧
  ∀ (s : State) (nbits w : Nat) (i : Instr), decodeTableWord nbits w = some i → s.takes i = true →
    step (s.withFetchWord nbits w) = exec i (s.noteEvent i)

/-- What a step does where it runs no instruction. With nothing lined up nothing changes; new inputs, or positions of
the beam, that keep the collaborators' promises take the place of the old ones and change nothing else, and others are
refused. A delivery that does not decode is refused: a bus access to a register outside 4..7 as no access to this
block; the encoding of nothing as no encoding, be it cut short anywhere, a bus byte above 15, an operation number of no
internal operation, or a plane that no variant has. A display event out of turn is refused. In turn are a VBlank at
first and when all rows and lines of the frame have come, RowStart of the next row right before its first line,
Scanline of the next line unless its row has yet to start; the clock notes the three, and a controller reset starts it
again. The refusals' names, the bytes, the inbox, the clock and the list of positions are the model's (entries 1, 6,
15, 16, 30). Rests on the spec's own decisions D4, D7, D26, D27 (92_eei_decisions.md) and entries 1, 2, 6, 15, 16, 30.
-/
def Obligations.StepWithoutAnInstruction : Prop :=
  (∀ s : State, s.inbox = [] → step s = .next s) ∧
  (∀ (s : State) (i : Inputs) (rest : List Delivery), s.inbox = .inputs i :: rest →
    step s = if Inputs.wf s.cfg i = true then .next ((s.withInbox rest).withInputs i) else .refused .inputContract) ∧
  (∀ (s : State) (l : List Beam) (rest : List Delivery), s.inbox = .beams l :: rest →
    step s = if ∀ b ∈ l, b.hpos < s.cfg.hTotal ∧ b.vpos < s.cfg.vTotal then .next ((s.withInbox rest).withBeams l)
      else .refused .inputContract) ∧
  (∀ (s : State) (ch : Channel) (bs : List Byte) (rest : List Delivery), s.inbox = .wire ch bs :: rest →
    (∀ e, decode ch bs = .error e →
      step s = .refused (if e = .noSuchRegister then .notThisBlock else .noEncoding)) ∧
    (∀ i : Instr, (encode i).1 = ch → bs <+: (encode i).2 → bs ≠ (encode i).2 → step s = .refused .noEncoding) ∧
    (∀ g, ch = .alpha g → bs.length < 2 → step s = .refused .noEncoding) ∧
    ∀ (b : Byte) (r : List Byte), bs = b :: r →
      (ch = .bus → b.toNat < 16 → b.toNat % 8 < 4 → step s = .refused .notThisBlock) ∧
      (ch = .bus → 16 ≤ b.toNat → step s = .refused .noEncoding) ∧
      (ch = .op → b.toNat < 32 ∨ 65 ≤ b.toNat → step s = .refused .noEncoding) ∧
      ∀ (lo : Byte) (r' : List Byte), ch = .op → 33 ≤ b.toNat → b.toNat ≤ 36 → r = lo :: r' → lo.toNat % 4 = 3 →
        step s = .refused .noEncoding) ∧
  (∀ (s : State) (i : Instr),
    let k := s.clock
    let inTurn : Prop := match i with
      | .vblank => k.started = false ∨ (k.nextRow = s.cfg.alphaRows ∧ k.nextLine = s.cfg.screenH)
      | .rowStart r => k.started = true ∧ r = k.nextRow ∧ r < s.cfg.alphaRows ∧
          k.nextLine = s.cfg.alphaYOff + r * s.cfg.charH
      | .scanline n => k.started = true ∧ n = k.nextLine ∧ n < s.cfg.screenH ∧
          (k.nextRow = s.cfg.alphaRows ∨ n < s.cfg.alphaYOff + k.nextRow * s.cfg.charH)
      | _ => True
    (s.takes i = true ↔ s.cfg.refuseBadTiming = false ∨ inTurn) ∧
    s.noteEvent i = s.withClock (match i with
      | .vblank => { started := true, nextRow := 0, nextLine := 0 }
      | .rowStart r => { k with nextRow := r + 1 }
      | .scanline n => { k with nextLine := n + 1 }
      | .controllerReset => { started := false, nextRow := 0, nextLine := 0 }
      | _ => k)) ∧
  ∀ (s : State) (ch : Channel) (bs : List Byte) (rest : List Delivery) (i : Instr),
    s.inbox = .wire ch bs :: rest → decode ch bs = .ok i → s.takes i = false → step s = .refused .timingContract

/-- An instruction answers a next state exactly when its arguments name something the instance has: nothing the host
can write and no display-list word stops the machine, from any state. What stops otherwise, and how: an operation on a
plane the instance does not have faults (the model's choice, entry 19); `RowStart` and `Scanline` out of range are
refused as no event of this block (entry 17). Rests on the spec's own decisions D4, D27, D29 (92_eei_decisions.md) and
entries 5, 17, 19. -/
def Obligations.AnswersIffInRange : Prop :=
  ∀ (s : State),
    (∀ i : Instr, (∃ t, exec i s = .next t) ↔ i.inRange s.cfg = true) ∧
    (∀ (p : BitVec 2), s.cfg.nplanes ≤ p.toNat →
      (∀ a, exec (.planeRead p a) s = .fault .noSuchPlane) ∧
      (∀ a w, exec (.planeWrite p a w) s = .fault .noSuchPlane) ∧
      (∀ x y, exec (.readPixel p x y) s = .fault .noSuchPlane) ∧
      ∀ x y b, exec (.writePixel p x y b) s = .fault .noSuchPlane) ∧
    (∀ r, s.cfg.alphaRows ≤ r → exec (.rowStart r) s = .refused .noSuchEvent) ∧
    ∀ n, s.cfg.screenH ≤ n → exec (.scanline n) s = .refused .noSuchEvent

/-! ### Invariants -/

/-- The state after reset meets the invariant. Rests on the spec's own decision D31 (92_eei_decisions.md) and entries
8, 9, 12, 14. -/
def Obligations.ResetMeetsTheInvariant : Prop := Inv State.reset

/-- Every step keeps the invariant: the IoCursor, the dash phase, every coordinate, plane flag and fetch address in
range, a wake-up pending in a memory-wait state only, RESET never left active, memory in canonical form and inside the
planes. Rests on the spec's own decisions D12, D18, D20, D22, D26, D27, D31 (92_eei_decisions.md) and entries 9, 13,
15, 20, 32. -/
def Obligations.StepKeepsTheInvariant : Prop :=
  ∀ s t : State, Inv s → step s = .next t → Inv t

/-- The signals stay what R160 makes of the state through every instruction but RunFsm run alone, which does not
recompute them. Rests on the spec's own decisions D9, D14, D38 (92_eei_decisions.md) and entry 5. -/
def Obligations.SignalsStayFresh : Prop :=
  ∀ (i : Instr) (s t : State), (∀ ds trig, i ≠ .runFsm ds trig) → s.Fresh → exec i s = .next t → t.Fresh

/-- No instruction changes the configuration, the inputs, what is lined up or the frame clock; of the positions of the
beam to come it at most takes some, from the front. Rests on entries 1, 15, 16, 30. -/
def Obligations.ExecLeavesTheWorld : Prop :=
  ∀ (i : Instr) (s t : State), exec i s = .next t → s.SameWorld t

/-- Bitplane Memory is written by the pixel and word writes, the engine and the accesses that run the FSM on data, and
by nothing else: no read, no display event, no reset of either kind. Rests on the spec's own decision D31
(92_eei_decisions.md) and entries 3, 5. -/
def Obligations.OnlyWritersWriteMemory : Prop :=
  ∀ (i : Instr) (s t : State), i.neverWritesMemory = true → exec i s = .next t →
    ∀ k, readByte t.mem k = readByte s.mem k

/-- The display's own operations change no register of the host, nothing of the FSM, the IoCursor, the drawing
controls, the signals, and no byte of memory; and the host changes nothing of the display side: the frame counter, the
row buffers and the fetch state, the captured pointer position, cursor latch, hits and window flags. Rests on the
spec's own decisions D24, D27, D29, D34, D39 (92_eei_decisions.md) and entries 3, 4. -/
def Obligations.AgentsKeepToTheirSide : Prop :=
  ∀ (i : Instr) (s t : State), exec i s = .next t →
    (i.isDisplay = true → s.SameDrawing t ∧ ∀ k, readByte t.mem k = readByte s.mem k) ∧
    (i.isHost = true → s.SameDisplay t ∧ { t.lp with regSel := s.lp.regSel, int := s.lp.int } = s.lp)

/-- `buf_idx` toggles at RowStart and nowhere else, and the controller reset clears it; `underrun`, once set, stays set
until the next alpha frame start, which clears it, as the vertical blank that starts the frame and the controller reset
do. Rests on the spec's own decisions D26, D27, D31, D34 (92_eei_decisions.md). -/
def Obligations.BufferIndexAndUnderrun : Prop :=
  ∀ (i : Instr) (s t : State), exec i s = .next t →
    (t.alpha.bufIdx = match i with
      | .rowStart _ => !s.alpha.bufIdx
      | .controllerReset => false
      | _ => s.alpha.bufIdx) ∧
    (s.alpha.underrun = true → i ≠ .vblank → i ≠ .alphaFrameStart → i ≠ .controllerReset → t.alpha.underrun = true) ∧
    ((i = .vblank ∨ i = .alphaFrameStart ∨ i = .controllerReset) → t.alpha.underrun = false)

/-! ### Reset -/

/-- The values ControllerReset leaves, as they stand in the machine's reset state. The variant and the inputs of that
state, and what the model adds to it, are the model's choices (entries 8, 12, 14, 18). Rests on the spec's own
decisions D5, D12, D18, D20, D21, D22, D23, D24, D26, D27, D31, D35, D39 (92_eei_decisions.md) and entries 8, 12, 14,
18, 22. -/
def Obligations.ResetValues : Prop :=
  let s := State.reset
  s.fsm = .waitDs0 ∧ s.wakePending = false ∧ s.dataW = 0 ∧ s.dataR = 0 ∧
  s.cr = { cmd := .nopc, dmaEn := false, intEn := false, gfxEn := false, softkeyEn := false, lpEn := false,
           lpSelftest := false, lpInterlace := false } ∧
  s.io = { x := 0, y := 0, addr := 0, plane := 0, wrap := false, lastCmd := some .nopc } ∧
  s.ctl = { active := 0b111, dominance := 0, setSel := 0b111 } ∧
  s.pat = { dashSel := 0, dashMask := 0xFFFF, dashN := 1, dashRep := 0, htSel := 0 } ∧
  s.ends = { xOld := 0, yOld := 0, xNew := 0, yNew := 0 } ∧
  (∀ i : Fin 8, s.music.get i = i.val) ∧
  s.cursor = { x := 0, y := 0, color := 7, fs := false, blink := false } ∧
  s.lp = { px := 0, py := 0, button := false, cx := 0, cy := 0, winYhi := false, winX := false, winYlo := false,
           yhi := 0, xleft := 0, ylo := 0, regSel := .yhi, int := false } ∧
  s.frameCnt = 0 ∧
  s.alpha.row0 = { cells := List.replicate 80 { code := 0x20, attr := 0 }, full := true } ∧
  s.alpha.row1 = s.alpha.row0 ∧ s.alpha.bufIdx = false ∧ s.alpha.fetchPtr = s.alpha.base ∧ s.alpha.firstNa = true ∧
  s.alpha.mode = .alpha ∧ s.alpha.underrun = false ∧ s.alpha.curAttr = 0 ∧ s.alpha.rowsFetched = 0 ∧
  s.sig = { ready := true, irq := false, dmaReq := false }

/-- ControllerReset, from any state: Bitplane Memory stays as it is and all else is as power-on leaves it over that
memory. Power-on is the reset state written out, with the given contents of memory, whatever they are; with an
IOCURSOR_RESTORE other than the default the address and the wrap flag of the IoCursor are what that rule gives. And
every power-on meets the invariant. The fields that are no register (the trace, the positions of the beam, the inbox,
the frame clock, which ControllerReset leaves) are the model's. Rests on the spec's own decisions D12, D31
(92_eei_decisions.md) and entries 10, 12, 18, 22, 30, 32. -/
def Obligations.ControllerResetResult : Prop :=
  (∀ s : State,
    let z := State.powerOn s.cfg s.inputs s.mem
    exec .controllerReset s =
      .next ((((z.withErrlog s.errlog).withBeams s.beams).withInbox s.inbox).withClock s.clock)) ∧
  ∀ (c : Config) (i : Inputs) (m : Memory),
    let z := State.powerOn c i m
    z.mem = m ∧ z.fsm = .waitDs0 ∧ z.wakePending = false ∧
    z.withIo { x := 0, y := 0, addr := 0, plane := 0, wrap := false, lastCmd := some .nopc } = State.initial c i m ∧
    z.io.x = 0 ∧ z.io.y = 0 ∧ z.io.plane = 0 ∧ z.io.lastCmd = some .nopc ∧
    (c.ioRestore = .reload → z.io.addr = 0 ∧ z.io.wrap = false) ∧
    (c.wf = true → Inputs.wf c i = true → Memory.wf m = true → (∀ e ∈ m, keyInRange c e.1 = true) → Inv z)

/-- The FSM reset is the R5 write with bit 7 set. It stores the CommandRegister; it changes no memory byte, no data
register a new READ command does not load, no drawing control, endpoint, dash phase, cursor or display state; and under
a command of another class it ends in WAIT_DS_0 with no wake-up pending and the IoCursor loaded. Rests on the spec's
own decisions D9, D12, D31 (92_eei_decisions.md) and entries 10, 28. -/
def Obligations.FsmResetResult : Prop :=
  ∀ (v : Word) (s : State),
    exec (.fsmReset v) s = exec (.wr5 (v ||| 0x0080)) s ∧
    ∃ t, exec (.fsmReset v) s = .next t ∧ t.cr = cmdRegOf v ∧ (∀ k, readByte t.mem k = readByte s.mem k) ∧
      t.dataW = s.dataW ∧ t.io.x = s.io.x ∧ t.io.y = s.io.y ∧ t.ctl = s.ctl ∧ t.pat = s.pat ∧ t.ends = s.ends ∧
      t.music = s.music ∧ t.cursor = s.cursor ∧ s.SameDisplay t ∧ s.SameWorld t ∧ t.errlog = s.errlog ∧
      (cmdClass (cmdRegOf v).cmd ≠ .read →
        t.fsm = .waitDs0 ∧ t.wakePending = false ∧ t.dataR = s.dataR ∧
        t.io = { restoredCursor s.cfg { s.io with lastCmd := none } (cmdRegOf v).cmd with
                 lastCmd := some (cmdRegOf v).cmd })

/-! ### Bitplane Memory -/

/-- PixAddr: `((x >> 4) + y * ROW_STRIDE) & ADDR_MASK`, and nothing changes. Rests on the spec's own decision D3
(92_eei_decisions.md) and entry 5. -/
def Obligations.PixAddrResult : Prop :=
  ∀ (x : BitVec 10) (y : BitVec 9) (s : State),
    exec (.pixAddr x y) s = .next (s.withRet (.addr (pixAddr s.cfg x.toNat y.toNat))) ∧
    pixAddr s.cfg x.toNat y.toNat = (x.toNat / 16 + y.toNat * s.cfg.rowStride) &&& s.cfg.addrMask

/-- PlaneRead returns the word at the masked address and writes nothing; the address one past the plane reads word 0.
Rests on entries 5, 19. -/
def Obligations.PlaneReadResult : Prop :=
  ∀ (p : BitVec 2) (a : Nat) (s : State), p.toNat < s.cfg.nplanes →
    exec (.planeRead p a) s = .next (s.withRet (.word (s.planeRead p a))) ∧
    s.planeRead p a = s.planeRead p (a &&& s.cfg.addrMask) ∧
    (s.cfg.wf = true → s.planeRead p s.cfg.planeWords = s.planeRead p 0)

/-- PlaneWrite writes exactly one word of one plane: reading it gives the word written, every other word of every plane
reads as before, every byte outside the word's reads as before, and nothing but memory changes. Rests on entries 5, 19.
-/
def Obligations.PlaneWriteResult : Prop :=
  ∀ (p : BitVec 2) (a : Nat) (w : Word) (s : State), p.toNat < s.cfg.nplanes →
    ∃ t, exec (.planeWrite p a w) s = .next t ∧ t.withMem s.mem = s.withRet .none ∧ t.planeRead p a = w ∧
      (∀ q b, ¬(q = p ∧ planeAddr s.cfg b = planeAddr s.cfg a) → t.planeRead q b = s.planeRead q b) ∧
      SameOutside s.mem t.mem (wordKeys s.cfg p a)

/-- read_pixel returns the bit `PixMask(x)` selects of the word at `PixAddr(x, y)` and writes nothing, for coordinates
inside and outside the raster alike. Rests on entries 5, 19. -/
def Obligations.ReadPixelResult : Prop :=
  ∀ (p : BitVec 2) (x : BitVec 10) (y : BitVec 9) (s : State), p.toNat < s.cfg.nplanes →
    exec (.readPixel p x y) s = .next (s.withRet (.bit
      (decide (s.planeRead p (pixAddr s.cfg x.toNat y.toNat) &&& 0x8000#16 >>> (x.toNat % 16) ≠ 0))))

/-- write_pixel changes one bit of one word: that word is the old one with the bit of `PixMask(x)` set or cleared,
every other pixel and every byte outside the word reads as before, nothing but memory changes; and writing the value
the bit already has leaves the memory as it was. Rests on entries 5, 19. -/
def Obligations.WritePixelResult : Prop :=
  ∀ (p : BitVec 2) (x : BitVec 10) (y : BitVec 9) (b : Bool) (s : State), p.toNat < s.cfg.nplanes →
    ∃ t, exec (.writePixel p x y b) s = .next t ∧ t.withMem s.mem = s.withRet .none ∧
      (t.planeRead p (pixAddr s.cfg x.toNat y.toNat) =
        if b then s.planeRead p (pixAddr s.cfg x.toNat y.toNat) ||| pixMask x.toNat
        else s.planeRead p (pixAddr s.cfg x.toNat y.toNat) &&& ~~~pixMask x.toNat) ∧
      t.readPixel p x.toNat y.toNat = b ∧
      (∀ q x' y', ¬(q = p ∧ SamePixel s.cfg x.toNat y.toNat x' y') → t.readPixel q x' y' = s.readPixel q x' y') ∧
      SameOutside s.mem t.mem (wordKeys s.cfg p (pixAddr s.cfg x.toNat y.toNat)) ∧
      (Memory.wf s.mem = true → s.readPixel p x.toNat y.toNat = b → t.mem = s.mem)

/-! ### The arbiter -/

/-- The arbiter's delay: zero when graphics are not active or the beam is inside the window, else the beam positions
left to the window on the same line. The position it sees is the first of those lined up for its evaluations, which is
then taken, or the one presented at the interface where none is lined up; with graphics not active it sees none, and
asking changes nothing else. Graphics are active when `gfx_en` is set in a mode that shows them. Defer schedules a
wake-up where a memory-wait state finds memory unavailable and does nothing outside such a state (entry 24); CancelWake
clears the pending wake-up. The list of positions is the model's (entry 30). Rests on the spec's own decisions D15, D16
(92_eei_decisions.md) and entries 5, 24, 30. -/
def Obligations.ArbiterResults : Prop :=
  ∀ s : State,
    let seen : Beam := s.beams.headD s.inputs.beam
    let later (g : Bool) : State := s.withBeams (if g then s.beams.tail else s.beams)
    (s.graphicsActive = true ↔ s.cr.gfxEn = true ∧ (s.alpha.mode = .graphics ∨ s.alpha.mode = .both)) ∧
    (∀ g : Bool, exec (.timeUntilAvailable g) s = .next ((later g).withRet (.delay (s.timeUntilAvailable g))) ∧
      (s.timeUntilAvailable g = 0 ↔ g = false ∨ seen.hpos < s.cfg.arbOpenEnd ∨ s.cfg.arbOpenStart ≤ seen.hpos) ∧
      (s.timeUntilAvailable g ≠ 0 → seen.hpos + s.timeUntilAvailable g = s.cfg.arbOpenStart)) ∧
    (s.memAvailable = true ↔ s.timeUntilAvailable s.graphicsActive = 0) ∧
    exec .defer s = .next (if s.fsm.isMemWait = true
      then (if s.memAvailable = true then later s.graphicsActive
        else ((later true).withWakePending true).withWakeDelay (s.timeUntilAvailable s.graphicsActive)).withRet .none
      else s.withRet .none) ∧
    exec .cancelWake s = .next ((s.withWakePending false).withRet .none)

/-- Deferral. A memory-wait state that finds memory unavailable asks for a wake-up after the delay, stays where it is,
and the run ends there with nothing else changed but the position of the beam it saw, whatever wake-up was pending
before; and this is the only suspension point: where a run of the FSM leaves a wake-up pending, its last row was a
memory-wait state that found memory unavailable, and the run rests there. Rests on entries 5, 18, 30. -/
def Obligations.DeferralSuspends : Prop :=
  ∀ (ds trig : Bool) (s : State),
    (s.fsm.isMemWait = true → s.memAvailable = false →
      exec (.runFsm ds trig) s = .next ((((s.withBeams s.beams.tail).withWakePending true).withWakeDelay
        (s.timeUntilAvailable s.graphicsActive)).withRet .none)) ∧
    ((s.wakePending = true → s.fsm.isMemWait = true) → (s.runFsm ds trig).wakePending = true →
      ∃ (ds' trig' : Bool) (u : State), fsmRow ds' trig' u = .rest (s.runFsm ds trig) ∧ u.fsm.isMemWait = true ∧
        u.memAvailable = false ∧ (s.runFsm ds trig).fsm = u.fsm ∧
        (s.runFsm ds trig).wakeDelay = u.timeUntilAvailable u.graphicsActive)

/-- Wake: with no wake-up pending it does nothing; with one it clears it and runs the FSM without tokens, signals
recomputed; a deferred word write is then done if memory is available, and waits again if the window was missed. Rests
on the spec's own decision D9 (92_eei_decisions.md) and entries 18, 30. -/
def Obligations.WakeResult : Prop :=
  ∀ s : State,
    (s.wakePending = false → exec .wake s = .next (s.withRet .none)) ∧
    (s.wakePending = true →
      exec .wake s = .next (((((s.withWakePending false).runFsm false false)).recompute).withRet .none)) ∧
    (s.wakePending = true → s.fsm = .waitMem1 → s.cr.cmd = .wrw → s.memAvailable = true →
      exec .wake s = .next (((((s.withWakePending false).withBeams
        (if s.graphicsActive = true then s.beams.tail else s.beams)).planeWrite s.io.plane s.io.addr s.dataW).withIo
          (IoCursor.advance s.cfg s.io)).endIn .waitDs2)) ∧
    (s.wakePending = true → s.fsm.isMemWait = true → s.memAvailable = false →
      exec .wake s = .next (((s.withBeams s.beams.tail).withWakeDelay
        (s.timeUntilAvailable s.graphicsActive)).endIn s.fsm))

/-- A deferred write has not happened: while memory is unavailable, no host access to R4, R6 or R7 and no Wake changes
a byte of memory or the state of the FSM, and the scanlines rendered meanwhile are those of the memory as it is; a
reset by R5's reset bit writes nothing either, and under a command that is not of class READ no wake-up stays pending.
Once memory is available the word, the line or the box is written by the Wake. Rests on the spec's own decisions D22,
D29, D31 (92_eei_decisions.md). -/
def Obligations.DeferredWriteHasNotHappened : Prop :=
  ∀ s t : State, s.fsm.isMemWait = true →
    (∀ i ∈ [Instr.wr4 0, .rd4, .wr6 0, .rd6, .wr7 0, .wake], ∀ v : Word,
      s.memAvailable = false →
      exec (match i with | .wr4 _ => .wr4 v | .wr6 _ => .wr6 v | .wr7 _ => .wr7 v | j => j) s = .next t →
        (∀ k, readByte t.mem k = readByte s.mem k) ∧ t.fsm = s.fsm ∧ ∀ n, t.scanline n = s.scanline n) ∧
    (∀ v : Word, v.getLsbD 7 = true → exec (.wr5 v) s = .next t →
      (∀ k, readByte t.mem k = readByte s.mem k) ∧
      (cmdClass (cmdRegOf v).cmd ≠ .read → t.wakePending = false ∧ t.fsm = .waitDs0)) ∧
    (s.fsm = .waitMem1 → s.cr.cmd = .wrw → s.wakePending = true → s.memAvailable = true → exec .wake s = .next t →
      t.planeRead s.io.plane s.io.addr = s.dataW) ∧
    (s.fsm = .waitMem2 → s.wakePending = true → s.memAvailable = true → exec .wake s = .next t →
      (s.cr.cmd = .drawv → t.mem = (s.drawLine s.ends.xOld s.ends.yOld s.ends.xNew s.ends.yNew).mem) ∧
      (s.cr.cmd = .fillr → t.mem = (s.fillRect s.ends.xOld s.ends.yOld s.ends.xNew s.ends.yNew).mem))

/-! ### The engine -/

/-- The dominance truth table, all sixteen rows; and plot: in every plane of the instance the pixel takes what the
table says, every other pixel keeps its value, every byte outside the pixel's words reads as before, nothing but memory
changes. Rests on the spec's own decision D20 (92_eei_decisions.md) and entries 5, 20. -/
def Obligations.PlotResult : Prop :=
  (∀ (active dominance draw setSel : Bool) (s : State),
    exec (.plotAction active dominance draw setSel) s = .next (s.withRet (.action
      (if active = false then .keep
       else if draw = true ∧ (dominance = false ∨ setSel = true) then .set
       else .clear)))) ∧
  ∀ (x : BitVec 10) (y : BitVec 9) (draw : Bool) (s : State),
    ∃ t, exec (.plot x y draw) s = .next t ∧ t.withMem s.mem = s.withRet .none ∧
      (∀ q x' y', t.readPixel q x' y' =
        if q.toNat < s.cfg.nplanes ∧ SamePixel s.cfg x.toNat y.toNat x' y' then
          (plotActionOf (s.ctl.active.getLsbD q.toNat) (s.ctl.dominance.getLsbD q.toNat) draw
            (s.ctl.setSel.getLsbD q.toNat)).leaves (s.readPixel q x' y')
        else s.readPixel q x' y') ∧
      SameOutside s.mem t.mem (pixelKeys s.cfg [(x.toNat, y.toNat)])

/-- DashBit returns bit 15 of the mask; DashAdvance counts, and rotates the mask left by one bit after every `dash_n`
counts; nothing else changes. The pattern repeats every `16 * dash_n` points, and from the start of a bit the `k`-th
point sees bit `15 - (k / dash_n) mod 16` of the mask. Rests on the spec's own decision D18 (92_eei_decisions.md) and
entry 5. -/
def Obligations.DashResults : Prop :=
  (∀ s : State,
    exec .dashBit s = .next (s.withRet (.bit (s.pat.dashMask.getLsbD 15))) ∧
    exec .dashAdvance s = .next ((s.withPat s.pat.advance).withRet .none) ∧
    s.pat.advance = if s.pat.dashN.toNat ≤ s.pat.dashRep.toNat + 1
      then { s.pat with dashMask := s.pat.dashMask.rotateLeft 1, dashRep := 0 }
      else { s.pat with dashRep := s.pat.dashRep + 1 }) ∧
  ∀ p : Pattern, p.ok = true →
    Pattern.advance^[16 * p.dashN.toNat] p = p ∧
    (p.dashRep = 0 → ∀ k, (Pattern.advance^[k] p).dashMask.getLsbD 15
      = p.dashMask.getLsbD (15 - k / p.dashN.toNat % 16))

/-- The walk of draw_line from any point to any point: `max(dx, dy) + 1` points, the first and the last as given, each
step at most one in x and in y, every point inside the box of the two ends. Rests on the spec's own decision D17
(92_eei_decisions.md). -/
def Obligations.LineWalksFromEndToEnd : Prop :=
  ∀ x0 y0 x1 y1 : Int,
    let l := linePoints x0 y0 x1 y1
    l.length = max (x1 - x0).natAbs (y1 - y0).natAbs + 1 ∧
    l.head? = some (x0, y0) ∧ l.getLast? = some (x1, y1) ∧
    (∀ k, ∀ h : k + 1 < l.length, (l[k + 1].1 - l[k].1).natAbs ≤ 1 ∧ (l[k + 1].2 - l[k].2).natAbs ≤ 1) ∧
    ∀ q ∈ l, min x0 x1 ≤ q.1 ∧ q.1 ≤ max x0 x1 ∧ min y0 y1 ≤ q.2 ∧ q.2 ≤ max y0 y1

/-- draw_line: the dash advances once per point; every pixel that is none of the line's and every byte outside the
words of its pixels reads as before, and a plane that is not active keeps every pixel; nothing but memory and the dash
phase changes. Rests on the spec's own decisions D17, D18 (92_eei_decisions.md) and entry 5. -/
def Obligations.DrawLineResult : Prop :=
  ∀ (x0 : BitVec 10) (y0 : BitVec 9) (x1 : BitVec 10) (y1 : BitVec 9) (s : State),
    ∃ t, exec (.drawLine x0 y0 x1 y1) s = .next t ∧ (t.withMem s.mem).withPat s.pat = s.withRet .none ∧
      t.pat = Pattern.advance^[max (x1.toNat - x0.toNat : Int).natAbs (y1.toNat - y0.toNat : Int).natAbs + 1] s.pat ∧
      (∀ q x' y', (∀ z ∈ pointsOfLine x0 y0 x1 y1, ¬SamePixel s.cfg z.1 z.2 x' y') →
        t.readPixel q x' y' = s.readPixel q x' y') ∧
      (∀ q x' y', s.ctl.active.getLsbD q.toNat = false → t.readPixel q x' y' = s.readPixel q x' y') ∧
      SameOutside s.mem t.mem (pixelKeys s.cfg (pointsOfLine x0 y0 x1 y1))

/-- Inside the raster the `k`-th point of a line ends up, in every plane, as the truth table says for the dash bit the
`k`-th point sees. Rests on the spec's own decisions D17, D18, D20 (92_eei_decisions.md) and entry 5. -/
def Obligations.LinePaintsItsPoints : Prop :=
  ∀ (x0 : BitVec 10) (y0 : BitVec 9) (x1 : BitVec 10) (y1 : BitVec 9) (s t : State), s.cfg.wf = true →
    inGraphics s.cfg x0.toNat y0.toNat → inGraphics s.cfg x1.toNat y1.toNat →
    exec (.drawLine x0 y0 x1 y1) s = .next t →
    ∀ (q : BitVec 2) (k : Nat) (h : k < (pointsOfLine x0 y0 x1 y1).length), q.toNat < s.cfg.nplanes →
      let z := (pointsOfLine x0 y0 x1 y1)[k]
      t.readPixel q z.1 z.2 =
        (plotActionOf (s.ctl.active.getLsbD q.toNat) (s.ctl.dominance.getLsbD q.toNat)
          ((Pattern.advance^[k] s.pat).dashMask.getLsbD 15) (s.ctl.setSel.getLsbD q.toNat)).leaves
          (s.readPixel q z.1 z.2)

/-- Tile: the nibble of row `y mod 4` of the selected halftone mask in all four places, so that the bit that decides
column `x` is `nib[3 - (x & 3)]`. fill_rect: every pixel outside the box of the two corners and every byte outside the
words of its pixels reads as before, a plane that is not active keeps every pixel, nothing but memory changes, and the
corners may be given in any order. Rests on the spec's own decision D19 (92_eei_decisions.md) and entry 5. -/
def Obligations.TileAndFillRectResults : Prop :=
  (∀ (y : BitVec 9) (s : State),
    exec (.tile y) s = .next (s.withRet (.word (s.tile y.toNat))) ∧
    ∀ x : Nat, decide (s.tile y.toNat &&& pixMask x ≠ 0)
      = (s.cfg.halftoneTable.get s.pat.htSel.toFin).getLsbD (y.toNat % 4 * 4 + (3 - x % 4))) ∧
  ∀ (x0 : BitVec 10) (y0 : BitVec 9) (x1 : BitVec 10) (y1 : BitVec 9) (s : State),
    (∃ t, exec (.fillRect x0 y0 x1 y1) s = .next t ∧ t.withMem s.mem = s.withRet .none ∧
      (∀ q x' y', (∀ z ∈ boxPoints x0.toNat y0.toNat x1.toNat y1.toNat, ¬SamePixel s.cfg z.1 z.2 x' y') →
        t.readPixel q x' y' = s.readPixel q x' y') ∧
      (∀ q x' y', s.ctl.active.getLsbD q.toNat = false → t.readPixel q x' y' = s.readPixel q x' y') ∧
      SameOutside s.mem t.mem (pixelKeys s.cfg (boxPoints x0.toNat y0.toNat x1.toNat y1.toNat))) ∧
    exec (.fillRect x1 y1 x0 y0) s = exec (.fillRect x0 y0 x1 y1) s ∧
    exec (.fillRect x1 y0 x0 y1) s = exec (.fillRect x0 y0 x1 y1) s

/-- Inside the raster every pixel of the box, both bounds included, ends up in every plane as the truth table says for
its bit of the tile, and every raster pixel outside the box keeps its value. Rests on the spec's own decisions D19, D20
(92_eei_decisions.md) and entry 5. -/
def Obligations.FillPaintsTheBox : Prop :=
  ∀ (x0 : BitVec 10) (y0 : BitVec 9) (x1 : BitVec 10) (y1 : BitVec 9) (s t : State), s.cfg.wf = true →
    inGraphics s.cfg x0.toNat y0.toNat → inGraphics s.cfg x1.toNat y1.toNat →
    exec (.fillRect x0 y0 x1 y1) s = .next t →
    ∀ (q : BitVec 2) (x y : Nat), q.toNat < s.cfg.nplanes → inGraphics s.cfg x y →
      t.readPixel q x y =
        if min x0.toNat x1.toNat ≤ x ∧ x ≤ max x0.toNat x1.toNat ∧ min y0.toNat y1.toNat ≤ y ∧ y ≤ max y0.toNat y1.toNat
        then (plotActionOf (s.ctl.active.getLsbD q.toNat) (s.ctl.dominance.getLsbD q.toNat)
          (decide (s.tile y &&& pixMask x ≠ 0)) (s.ctl.setSel.getLsbD q.toNat)).leaves (s.readPixel q x y)
        else s.readPixel q x y

/-! ### The FSM -/

/-- RunFsm answers and comes to rest: the last row it evaluates makes no transition or suspends, one event makes at
most eight transitions (a longer limit changes nothing), and RESET is not left active. Rests on the spec's own
decisions D11, D22, D31 (92_eei_decisions.md) and entries 5, 25. -/
def Obligations.RunFsmComesToRest : Prop :=
  ∀ (ds trig : Bool) (s : State),
    exec (.runFsm ds trig) s = .next ((s.runFsm ds trig).withRet .none) ∧
    (∀ n, runRows (9 + n) ds trig s = s.runFsm ds trig) ∧
    (∃ ds' trig' u, fsmRow ds' trig' u = .rest (s.runFsm ds trig)) ∧
    (s.runFsm ds trig).fsm ≠ .reset

/-- Rows WAIT_DS_1 and WAIT_DS_2: a strobe is consumed and the FSM goes to WAIT_MEM_0 or WAIT_TRIG_1; without one the
run ends there, nothing changed. -/
def Obligations.StrobeRows : Prop :=
  ∀ (ds trig : Bool) (s : State),
    (s.fsm = .waitDs1 →
      fsmRow ds trig s = if ds then .go false trig (s.withFsm .waitMem0) else .rest s) ∧
    (s.fsm = .waitDs2 →
      fsmRow ds trig s = if ds then .go false trig (s.withFsm .waitTrig1) else .rest s)

/-- Every transition a row makes is one of the table's: from, condition, to, and the tokens it consumes. Rests on the
spec's own decisions D11, D22, D31 (92_eei_decisions.md). -/
def Obligations.TransitionsFollowTheTable : Prop :=
  ∀ (ds trig ds' trig' : Bool) (s t : State), fsmRow ds trig s = .go ds' trig' t →
    match s.fsm with
    | .reset => t.fsm = .waitDs0 ∧ ds' = ds ∧ trig' = trig
    | .waitDs0 =>
      (cmdClass s.cr.cmd = .read ∧ t.fsm = .waitMem0 ∧ ds' = ds ∧ trig' = trig) ∨
      (cmdClass s.cr.cmd = .write ∧ ds = true ∧ t.fsm = .waitTrig1 ∧ ds' = false ∧ trig' = trig) ∨
      ((cmdClass s.cr.cmd = .param1 ∨ cmdClass s.cr.cmd = .param2) ∧ ds = true ∧ t.fsm = .waitTrig0 ∧ ds' = false ∧
        trig' = trig)
    | .waitTrig0 =>
      s.trigOk trig = true ∧ trig' = false ∧ ds' = ds ∧
      t.fsm = (match cmdClass s.cr.cmd with
        | .param1 => .waitDs0 | .param2 => .waitDs2 | .read => .reset | .write => .reset)
    | .waitMem0 =>
      s.memAvailable = true ∧ ds' = ds ∧ trig' = trig ∧
      t.fsm = (if s.cr.cmd = .rdw ∨ s.cr.cmd = .rdlp then .waitDs1 else .reset)
    | .waitDs1 => ds = true ∧ ds' = false ∧ trig' = trig ∧ t.fsm = .waitMem0
    | .waitDs2 => ds = true ∧ ds' = false ∧ trig' = trig ∧ t.fsm = .waitTrig1
    | .waitTrig1 =>
      s.trigOk trig = true ∧ trig' = false ∧ ds' = ds ∧
      t.fsm = (if s.cr.cmd = .wrw ∨ s.cr.cmd = .clrw then .waitMem1
        else if s.cr.cmd = .drawv ∨ s.cr.cmd = .fillr then .waitMem2
        else if s.cr.cmd = .ldep then .waitDs0 else .reset)
    | .waitMem1 =>
      s.memAvailable = true ∧ ds' = ds ∧ trig' = trig ∧
      t.fsm = (if s.cr.cmd = .wrw ∨ s.cr.cmd = .clrw then .waitDs2 else .reset)
    | .waitMem2 =>
      s.memAvailable = true ∧ ds' = ds ∧ trig' = trig ∧
      t.fsm = (if s.cr.cmd = .drawv ∨ s.cr.cmd = .fillr then .waitDs0 else .reset)

/-- A state/command mismatch whose wait is satisfied is taken as a ProtocolInconsistency: the record (state, command)
on the trace and RESET, the row's own action not done; in a memory-wait state, which asked the arbiter, the wake-up is
cancelled and, where graphics are active, the position of the beam that the evaluation saw is taken from those lined
up. Nothing else changes. One run of the FSM records at most one, of the command it runs under. Rests on the spec's own
decisions D9, D11, D22, D33 (92_eei_decisions.md) and entry 30. -/
def Obligations.InconsistencyIsTaken : Prop :=
  ∀ (ds trig : Bool) (s : State),
    let left : List Beam := if s.fsm.isMemWait = true ∧ s.graphicsActive = true then s.beams.tail else s.beams
    (mismatched s.fsm s.cr.cmd = true → s.waitSatisfied trig = true →
      ∃ ds' trig', fsmRow ds trig s = .go ds' trig'
        ((((s.withBeams left).withWakePending (s.wakePending && !s.fsm.isMemWait)).withErrlog
          (s.errlog ++ [.protocolInconsistency s.fsm s.cr.cmd])).withFsm .reset)) ∧
    ((s.runFsm ds trig).errlog = s.errlog ∨
      ∃ f, mismatched f s.cr.cmd = true ∧
        (s.runFsm ds trig).errlog = s.errlog ++ [.protocolInconsistency f s.cr.cmd])

/-- A run of the FSM under a command writes only what that command's row of the summary table names, besides the state
of the FSM, the wake-up, the trace, the positions of the beam taken and the IoCursor load common to all. RDW, WRW and
CLRW advance the IoCursor by as many words as they move, at most two in one run, and WRW and CLRW change no byte
outside those words; DRAWV and FILLR change no byte outside the words of the line's or the box's pixels and no pixel of
an inactive plane; LDMAP changes at most the entry its word names; RDLP at most the selector and `lp_int`, which it
does not set. Rests on the spec's own decisions D4, D8, D11, D12, D13, D17, D18, D19, D20, D21, D22, D23, D24, D25
(92_eei_decisions.md) and entries 10, 30. -/
def Obligations.RunWritesOnlyItsCommandsState : Prop :=
  ∀ (ds trig : Bool) (s : State),
    let t := s.runFsm ds trig
    let c := s.cr.cmd
    let load (io : IoCursor) : IoCursor := { restoredCursor s.cfg io c with lastCmd := some c }
    (∃ io ∈ [s.io, load s.io, load { s.io with lastCmd := none }, load { s.io with x := t.io.x, y := t.io.y }],
      ∃ n ≤ 2, (c ≠ .rdw → c ≠ .wrw → c ≠ .clrw → n = 0) ∧
        t.io = { (IoCursor.advance s.cfg)^[n] io with x := t.io.x, y := t.io.y } ∧
        (c = .wrw ∨ c = .clrw → SameOutside s.mem t.mem ((List.range n).flatMap fun k =>
          wordKeys s.cfg ((IoCursor.advance s.cfg)^[k] io).plane ((IoCursor.advance s.cfg)^[k] io).addr))) ∧
    (c ≠ .wrw → c ≠ .clrw → c ≠ .drawv → c ≠ .fillr → ∀ k, readByte t.mem k = readByte s.mem k) ∧
    (c = .drawv → SameOutside s.mem t.mem
      (pixelKeys s.cfg (pointsOfLine s.ends.xOld s.ends.yOld t.ends.xOld t.ends.yOld))) ∧
    (c = .fillr → SameOutside s.mem t.mem (pixelKeys s.cfg
      (boxPoints s.ends.xOld.toNat s.ends.yOld.toNat t.ends.xOld.toNat t.ends.yOld.toNat))) ∧
    (c = .drawv ∨ c = .fillr → ∀ q x y, s.ctl.active.getLsbD q.toNat = false →
      t.readPixel q x y = s.readPixel q x y) ∧
    (c ≠ .rdw → c ≠ .rdlp → t.dataR = s.dataR) ∧
    (c ≠ .ldep → c ≠ .drawv → c ≠ .fillr → t.ends = s.ends) ∧
    (c ≠ .ldlp → c ≠ .drawv → t.pat = s.pat) ∧
    (c = .drawv → t.pat.dashSel = s.pat.dashSel ∧ t.pat.dashN = s.pat.dashN ∧ t.pat.htSel = s.pat.htSel) ∧
    (c ≠ .ldmc → c ≠ .ldcm → t.ctl = s.ctl) ∧
    (c = .ldmc → t.ctl.setSel = s.ctl.setSel) ∧
    (c = .ldcm → t.ctl.active = s.ctl.active ∧ t.ctl.dominance = s.ctl.dominance) ∧
    (c ≠ .ldmap → t.music = s.music) ∧
    (c = .ldmap → ∀ j : Fin 8, j ≠ (s.dataW.extractLsb' 4 3).toFin → t.music.get j = s.music.get j) ∧
    (c ≠ .ldcx → c ≠ .ldcy → t.cursor = s.cursor) ∧
    (c = .ldcx → t.cursor.y = s.cursor.y ∧ t.cursor.color = s.cursor.color) ∧
    (c = .ldcy → t.cursor.x = s.cursor.x ∧ t.cursor.blink = s.cursor.blink ∧ t.cursor.fs = s.cursor.fs) ∧
    (c ≠ .ldiox → t.io.x = s.io.x) ∧ (c ≠ .ldioy → t.io.y = s.io.y) ∧
    (c ≠ .rdlp → t.lp = s.lp) ∧
    (c = .rdlp → { t.lp with regSel := s.lp.regSel, int := s.lp.int } = s.lp ∧
      (t.lp.int = true → s.lp.int = true)) ∧
    t.cr = s.cr ∧ t.dataW = s.dataW ∧ t.sig = s.sig ∧ t.ret = s.ret ∧ s.SameDisplay t ∧ s.SameWorld t

/-- Recompute writes the three signals and nothing else, for every state of the FSM, command and flags: `ready` in the
states of the ready set, `irq` when ready with `int_en` and without `dma_en`, `dma_req` when ready with `dma_en` under
a command of class READ or WRITE. Rests on the spec's own decision D14 (92_eei_decisions.md) and entry 5. -/
def Obligations.RecomputeResult : Prop :=
  ∀ s : State, ∃ g : Signals, exec .recompute s = .next ((s.withSig g).withRet .none) ∧
    (g.ready = true ↔
      (s.cfg.readySet = .ds ∧ (s.fsm = .waitDs0 ∨ s.fsm = .waitDs1 ∨ s.fsm = .waitDs2)) ∨
      (s.cfg.readySet = .trig ∧ (s.fsm = .waitTrig0 ∨ s.fsm = .waitTrig1))) ∧
    (g.irq = true ↔ g.ready = true ∧ s.cr.intEn = true ∧ s.cr.dmaEn = false) ∧
    (g.dmaReq = true ↔ g.ready = true ∧ s.cr.dmaEn = true ∧
      (cmdClass s.cr.cmd = .read ∨ cmdClass s.cr.cmd = .write))

/-- LoadIoCursor, under the default IOCURSOR_RESTORE, loads the programmed word's address with plane 0 and no wrap, and
RDLP's register selector; AdvanceIoCursor goes round the planes before it increments the address; `3k` advances over
three planes leave the plane and add `k` to the address. Row WAIT_DS_0 loads the IoCursor exactly when the command is
not the last one seen, strobe or no strobe, and notes the command; so does the WR5 of another command. Rests on the
spec's own decisions D9, D12 (92_eei_decisions.md) and entries 5, 10. -/
def Obligations.IoCursorResults : Prop :=
  (∀ s : State, s.cfg.ioRestore = .reload →
    exec .loadIoCursor s = .next (((s.withIo { s.io with
      addr := planeAddr s.cfg (s.io.x.toNat + s.io.y.toNat * s.cfg.rowStride), plane := 0, wrap := false }).withLp
        (if s.cr.cmd = .rdlp then { s.lp with regSel := .yhi } else s.lp)).withRet .none)) ∧
  (∀ s : State, exec .advanceIoCursor s = .next ((s.withIo
    (if s.io.plane.toNat + 1 < s.cfg.nplanes then { s.io with plane := s.io.plane + 1 }
     else { s.io with plane := 0, addr := planeAddr s.cfg (s.io.addr + 1),
                      wrap := s.io.wrap || decide (1 < s.cfg.nplanes) })).withRet .none)) ∧
  (∀ (c : Config) (io : IoCursor) (k : Nat), c.wf = true → c.nplanes = 3 → io.plane.toNat < 3 →
    io.addr &&& c.addrMask = io.addr →
    ((IoCursor.advance c)^[3 * k] io).plane = io.plane ∧
    ((IoCursor.advance c)^[3 * k] io).addr = planeAddr c (io.addr + k)) ∧
  (∀ (ds trig : Bool) (s : State), s.fsm = .waitDs0 → (s.io.lastCmd = some s.cr.cmd ∨ s.cfg.ioRestore = .reload) →
    let u : State := if s.io.lastCmd = some s.cr.cmd then s else
      (s.withIo { s.io with addr := planeAddr s.cfg (s.io.x.toNat + s.io.y.toNat * s.cfg.rowStride), plane := 0
                            wrap := false, lastCmd := some s.cr.cmd }).withLp
        (if s.cr.cmd = .rdlp then { s.lp with regSel := .yhi } else s.lp)
    fsmRow ds trig s = match cmdClass s.cr.cmd with
      | .read => .go ds trig (u.withFsm .waitMem0)
      | .write => if ds then .go false trig (u.withFsm .waitTrig1) else .rest u
      | _ => if ds then .go false trig (u.withFsm .waitTrig0) else .rest u) ∧
  ∀ (v : Word) (s : State), s.fsm = .waitDs0 → v.getLsbD 7 = false → s.cfg.ioRestore = .reload →
    cmdClass (Cmd.ofCode (v.extractLsb' 0 4)) ≠ .read → s.io.lastCmd ≠ some (Cmd.ofCode (v.extractLsb' 0 4)) →
    ∃ t, exec (.wr5 v) s = .next t ∧ t.fsm = .waitDs0 ∧
      t.io = { s.io with addr := planeAddr s.cfg (s.io.x.toNat + s.io.y.toNat * s.cfg.rowStride), plane := 0
                         wrap := false, lastCmd := some (Cmd.ofCode (v.extractLsb' 0 4)) }

/-! ### The host's accesses -/

/-- WR4 loads `DATA_W` and runs the FSM with a strobe, signals recomputed; in a WAIT_TRIG state with `int_en = 1` it
only overwrites `DATA_W`, and so it does in a memory-wait state with memory unavailable, which asks for its wake-up
anew; under WRW in WAIT_DS_0, with the automatic trigger and memory available, it writes the word at the IoCursor and
ends in WAIT_DS_2; on a write that was deferred it writes the word it brings, the strobe starts the next word, and that
asks the arbiter again, at the next position of the beam. RD4 returns the `DATA_R` of before and runs the FSM with a
strobe; under RDW in WAIT_DS_1, with memory available, it fetches the next word into `DATA_R`; in WAIT_DS_0 under a
command that is not of class READ it is taken as the data strobe and the stale `DATA_W` is used. Rests on the spec's
own decisions D9, D12 (92_eei_decisions.md) and entries 18, 30. -/
def Obligations.R4Results : Prop :=
  ∀ (v : Word) (s : State),
    exec (.wr4 v) s = .next ((((s.withDataW v).runFsm true false).recompute).withRet .none) ∧
    ((s.fsm = .waitTrig0 ∨ s.fsm = .waitTrig1) → s.cr.intEn = true →
      exec (.wr4 v) s = .next ((s.withDataW v).endIn s.fsm)) ∧
    (s.fsm.isMemWait = true → s.memAvailable = false →
      exec (.wr4 v) s = .next (((((s.withDataW v).withBeams s.beams.tail).withWakePending true).withWakeDelay
        (s.timeUntilAvailable s.graphicsActive)).endIn s.fsm)) ∧
    (s.cr.cmd = .wrw → s.fsm = .waitDs0 → s.cr.intEn = false → s.memAvailable = true →
      ∃ t, exec (.wr4 v) s = .next t ∧ t.fsm = .waitDs2 ∧
        t.planeRead s.noteCommand.io.plane s.noteCommand.io.addr = v) ∧
    (s.cr.cmd = .wrw → s.fsm = .waitMem1 → s.cr.intEn = false → s.graphicsActive = true → s.memAvailable = true →
      ∃ t, exec (.wr4 v) s = .next t ∧ t.beams = s.beams.tail.tail ∧
        if (s.withBeams s.beams.tail).memAvailable = true then
          t.fsm = .waitDs2 ∧ t.wakePending = false ∧ t.io = IoCursor.advance s.cfg (IoCursor.advance s.cfg s.io)
        else
          t.fsm = .waitMem1 ∧ t.wakePending = true ∧ t.io = IoCursor.advance s.cfg s.io ∧
          t.wakeDelay = (s.withBeams s.beams.tail).timeUntilAvailable true ∧ t.planeRead s.io.plane s.io.addr = v) ∧
    exec .rd4 s = .next (((s.runFsm true false).recompute).withRet (.word s.dataR)) ∧
    (s.cr.cmd = .rdw → s.fsm = .waitDs1 → s.memAvailable = true →
      ∃ t, exec .rd4 s = .next t ∧ t.ret = .word s.dataR ∧ t.dataR = s.planeRead s.io.plane s.io.addr ∧
        t.io = IoCursor.advance s.cfg s.io ∧ t.fsm = .waitDs1) ∧
    (cmdClass s.cr.cmd ≠ .read → s.fsm = .waitDs0 →
      ∃ t, exec .rd4 s = .next t ∧ exec (.wr4 s.dataW) s = .next (t.withRet .none))

/-- WR5 stores the CommandRegister, drops `lp_int` when `lp_en` is written 0, forces RESET by bit 7 or ends the
transfer of another command, and runs the FSM without tokens, signals recomputed. Rests on the spec's own decisions D4,
D5, D9, D10 (92_eei_decisions.md). -/
def Obligations.Wr5Result : Prop :=
  ∀ (v : Word) (s : State), ∃ (r : CmdReg) (f : Fsm),
    exec (.wr5 v) s = .next ((((((s.withCr r).withLp
      (if v.getLsbD 9 then s.lp else { s.lp with int := false })).withFsm f).runFsm false false).recompute).withRet
        .none) ∧
    r.cmd = Cmd.ofCode (v.extractLsb' 0 4) ∧ r.dmaEn = v.getLsbD 4 ∧ r.intEn = v.getLsbD 5 ∧ r.gfxEn = v.getLsbD 6 ∧
    r.softkeyEn = v.getLsbD 8 ∧ r.lpEn = v.getLsbD 9 ∧ r.lpSelftest = v.getLsbD 10 ∧ r.lpInterlace = v.getLsbD 11 ∧
    (f = if v.getLsbD 7 = true then .reset
      else if r.cmd ≠ s.cr.cmd ∧ (s.fsm = .waitDs1 ∨ s.fsm = .waitDs2) then .waitDs0 else s.fsm)

/-- RD5 returns the status word, bit by bit, and changes nothing. R6 is R4 with the terminal count: `dma_en` is cleared
first, and the signals at the end already see it cleared. R7: a write runs the FSM with the trigger and stores nothing,
and where the FSM rests waiting for data, in WAIT_DS_1, in WAIT_DS_2, or in WAIT_DS_0 under a command already noted and
not of class READ, it does nothing but recompute (a trigger before its strobe is lost); a read returns 0 and changes
nothing. Rests on the spec's own decisions D6, D7, D9, D38 (92_eei_decisions.md) and entry 18. -/
def Obligations.R5ToR7Results : Prop :=
  ∀ (v : Word) (s : State),
    (∃ w : Word, exec .rd5 s = .next (s.withRet (.word w)) ∧
      ∀ i : Nat, w.getLsbD i = ((decide (i = 0) && s.sig.ready) || (decide (i = 1) && s.sig.irq)
        || (decide (i = 2) && s.lp.int) || (decide (i = 3) && s.io.wrap) || (decide (i = 7) && s.cfg.idBit))) ∧
    exec (.wr6 v) s = .next (((((s.withCr { s.cr with dmaEn := false }).withDataW v).runFsm true
      false).recompute).withRet .none) ∧
    exec .rd6 s = .next ((((s.withCr { s.cr with dmaEn := false }).runFsm true false).recompute).withRet
      (.word s.dataR)) ∧
    (∀ t, exec (.wr6 v) s = .next t ∨ exec .rd6 s = .next t → t.cr.dmaEn = false ∧ t.sig.dmaReq = false) ∧
    exec (.wr7 v) s = .next (((s.runFsm false true).recompute).withRet .none) ∧
    (s.fsm = .waitDs1 ∨ s.fsm = .waitDs2 ∨
        (s.fsm = .waitDs0 ∧ s.io.lastCmd = some s.cr.cmd ∧ cmdClass s.cr.cmd ≠ .read) →
      exec (.wr7 v) s = .next (s.endIn s.fsm)) ∧
    exec .rd7 s = .next (s.withRet (.word 0))

/-! ### The commands -/

/-- The nine one-word parameters, from where a command starts its life at once, with and without the automatic trigger:
what every command does first, the data word in `DATA_W`, the parameter applied, and the FSM back in WAIT_DS_0. NOPC
applies nothing; LDMAP applies nothing on single-plane variants. Rests on the spec's own decisions D4, D8, D12, D18,
D19, D20, D21, D23 (92_eei_decisions.md) and entries 3, 9, 20, 29. -/
def Obligations.OneWordCommandResults : Prop :=
  ∀ (f : CmdFlags) (d : Word) (s : State),
    (s.accepts .nopc f = true → exec (.nopc f d) s = .next (((s.begun .nopc f).withDataW d).endIn .waitDs0)) ∧
    (s.accepts .ldiox f = true → exec (.ldiox f d) s = .next ((((s.begun .ldiox f).withDataW d).withIo
      { (s.begun .ldiox f).io with x := (d &&& s.cfg.xwMask).setWidth 6 }).endIn .waitDs0)) ∧
    (s.accepts .ldioy f = true → exec (.ldioy f d) s = .next ((((s.begun .ldioy f).withDataW d).withIo
      { (s.begun .ldioy f).io with y := (d &&& s.cfg.yMask).setWidth 9 }).endIn .waitDs0)) ∧
    (s.accepts .ldmc f = true → exec (.ldmc f d) s = .next ((((s.begun .ldmc f).withDataW d).withCtl
      { s.ctl with active := d.extractLsb' 0 3 &&& s.cfg.planeMask
                   dominance := d.extractLsb' 4 3 &&& s.cfg.planeMask }).endIn .waitDs0)) ∧
    (s.accepts .ldlp f = true → exec (.ldlp f d) s = .next ((((s.begun .ldlp f).withDataW d).withPat
      { dashSel := d.extractLsb' 0 3
        dashMask := s.cfg.dashTable.get (d.extractLsb' 0 3).toFin
        dashN := (d.extractLsb' 4 4).setWidth 5 + 1
        dashRep := 0
        htSel := d.extractLsb' 8 4 }).endIn .waitDs0)) ∧
    (s.accepts .ldcm f = true → exec (.ldcm f d) s = .next ((((s.begun .ldcm f).withDataW d).withCtl
      { s.ctl with setSel := d.extractLsb' 0 3 &&& s.cfg.planeMask }).endIn .waitDs0)) ∧
    (s.accepts .ldmap f = true → exec (.ldmap f d) s = .next ((((s.begun .ldmap f).withDataW d).withMusic
      (if s.cfg.nplanes = 3 then
        s.music.set (d.extractLsb' 4 3).toNat ((d.extractLsb' 0 3).toNat % 2 ^ s.cfg.musicBits) (d.extractLsb' 4 3).isLt
       else s.music)).endIn .waitDs0)) ∧
    (s.accepts .ldcy f = true → exec (.ldcy f d) s = .next ((((s.begun .ldcy f).withDataW d).withCursor
      { s.cursor with y := (d &&& s.cfg.yMask).setWidth 9, color := d.extractLsb' 12 3 }).endIn .waitDs0)) ∧
    (s.accepts .ldcx f = true → exec (.ldcx f d) s = .next ((((s.begun .ldcx f).withDataW d).withCursor
      { s.cursor with x := (d &&& s.cfg.xMask).setWidth 10, blink := d.getLsbD 14
                      fs := d.getLsbD 15 }).endIn .waitDs0))

/-- RDW and RDLP, with memory available: the first word is in `DATA_R` at once and the FSM rests in WAIT_DS_1. RDW
reads the word at the IoCursor and advances it; RDLP composes the selected HIT word, clears `lp_int` after the YLO word
and steps the selector. No byte of memory changes. Rests on the spec's own decisions D13, D24, D25
(92_eei_decisions.md) and entries 3, 30. -/
def Obligations.ReadCommandResults : Prop :=
  ∀ (f : CmdFlags) (s : State),
    let on (b : State) : State :=
      (b.withWakePending false).withBeams (if b.graphicsActive = true then b.beams.tail else b.beams)
    (s.accepts .rdw f = true → (s.begun .rdw f).memAvailable = true →
      exec (.rdw f) s = .next ((((on (s.begun .rdw f)).withDataR
        (s.planeRead (s.begun .rdw f).io.plane (s.begun .rdw f).io.addr)).withIo
          (IoCursor.advance s.cfg (s.begun .rdw f).io)).endIn .waitDs1)) ∧
    (s.accepts .rdlp f = true → (s.begun .rdlp f).memAvailable = true →
      let l := (s.begun .rdlp f).lp
      exec (.rdlp f) s = .next ((((on (s.begun .rdlp f)).withDataR
        (BitVec.ofBool l.int ++ BitVec.ofBool (match l.regSel with | .yhi => l.winYhi | .xleft => l.winX | .ylo => l.winYlo)
          ++ 0#4 ++ (match l.regSel with | .yhi => l.yhi | .xleft => l.xleft | .ylo => l.ylo))).withLp
        { l with int := (match l.regSel with | .ylo => false | _ => l.int)
                 regSel := (match l.regSel with | .yhi => .xleft | .xleft => .ylo | .ylo => .yhi) }).endIn .waitDs1))

/-- WRW and CLRW, with memory available: the data word, or zero, is stored whole at the IoCursor, which advances, and
the FSM rests in WAIT_DS_2; every byte outside that word reads as before and nothing else changes. Rests on the spec's
own decisions D11, D13 (92_eei_decisions.md) and entries 3, 30. -/
def Obligations.WriteCommandResults : Prop :=
  ∀ (f : CmdFlags) (d : Word) (s : State),
    let on (b : State) : State :=
      (b.withWakePending false).withBeams (if b.graphicsActive = true then b.beams.tail else b.beams)
    (s.accepts .wrw f = true → (s.begun .wrw f).memAvailable = true →
      let b := s.begun .wrw f
      ∃ t, exec (.wrw f d) s = .next t ∧
        t.withMem s.mem = ((on (b.withDataW d)).withIo (IoCursor.advance s.cfg b.io)).endIn .waitDs2 ∧
        t.planeRead b.io.plane b.io.addr = d ∧
        SameOutside s.mem t.mem (wordKeys s.cfg b.io.plane b.io.addr)) ∧
    (s.accepts .clrw f = true → (s.begun .clrw f).memAvailable = true →
      let b := s.begun .clrw f
      ∃ t, exec (.clrw f d) s = .next t ∧
        t.withMem s.mem = ((on (b.withDataW d)).withIo (IoCursor.advance s.cfg b.io)).endIn .waitDs2 ∧
        t.planeRead b.io.plane b.io.addr = 0 ∧
        SameOutside s.mem t.mem (wordKeys s.cfg b.io.plane b.io.addr))

/-- LDEP, DRAWV and FILLR: the two data words, masked, become the new endpoint and the old one. LDEP touches nothing
else and asks no arbiter; with memory available DRAWV draws the line and FILLR fills the box between the endpoint of
before and the new one; every byte outside the words of its pixels reads as before. Rests on the spec's own decisions
D11, D22 (92_eei_decisions.md) and entries 3, 9, 30. -/
def Obligations.EndpointCommandResults : Prop :=
  ∀ (f : CmdFlags) (x y : Word) (s : State),
    let on (b : State) : State :=
      (b.withWakePending false).withBeams (if b.graphicsActive = true then b.beams.tail else b.beams)
    let x' := (x &&& s.cfg.xMask).setWidth 10
    let y' := (y &&& s.cfg.yMask).setWidth 9
    let e : Endpoints := { xOld := x', yOld := y', xNew := x', yNew := y' }
    (s.accepts .ldep f = true →
      exec (.ldep f x y) s = .next ((((s.begun .ldep f).withDataW y).withEnds e).endIn .waitDs0)) ∧
    (s.accepts .drawv f = true → (s.begun .drawv f).memAvailable = true →
      ∃ t, exec (.drawv f x y) s = .next t ∧
        (t.withMem s.mem).withPat s.pat =
          ((on ((s.begun .drawv f).withDataW y)).withEnds e).endIn .waitDs0 ∧
        t.mem = (s.drawLine s.ends.xOld s.ends.yOld x' y').mem ∧
        t.pat = (s.drawLine s.ends.xOld s.ends.yOld x' y').pat ∧
        SameOutside s.mem t.mem (pixelKeys s.cfg (pointsOfLine s.ends.xOld s.ends.yOld x' y'))) ∧
    (s.accepts .fillr f = true → (s.begun .fillr f).memAvailable = true →
      ∃ t, exec (.fillr f x y) s = .next t ∧
        t.withMem s.mem = ((on ((s.begun .fillr f).withDataW y)).withEnds e).endIn .waitDs0 ∧
        t.mem = (s.fillRect s.ends.xOld s.ends.yOld x' y').mem ∧
        SameOutside s.mem t.mem
          (pixelKeys s.cfg (boxPoints s.ends.xOld.toNat s.ends.yOld.toNat x'.toNat y'.toNat)))

/-- The commands that wait for the arbiter, with memory not available: they rest in their memory-wait state with the
wake-up asked for, memory and the endpoint of before as they were. Rests on the spec's own decisions D13, D22, D24, D25
(92_eei_decisions.md) and entries 3, 9, 18, 30. -/
def Obligations.CommandsAreDeferred : Prop :=
  ∀ (f : CmdFlags) (x y : Word) (s : State),
    let wait (b : State) (z : Fsm) : State :=
      (((b.withBeams b.beams.tail).withWakePending true).withWakeDelay (b.timeUntilAvailable b.graphicsActive)).endIn z
    let e : Endpoints := { s.ends with xNew := (x &&& s.cfg.xMask).setWidth 10
                                       yNew := (y &&& s.cfg.yMask).setWidth 9 }
    (s.accepts .rdw f = true → (s.begun .rdw f).memAvailable = false →
      exec (.rdw f) s = .next (wait (s.begun .rdw f) .waitMem0)) ∧
    (s.accepts .rdlp f = true → (s.begun .rdlp f).memAvailable = false →
      exec (.rdlp f) s = .next (wait (s.begun .rdlp f) .waitMem0)) ∧
    (s.accepts .wrw f = true → (s.begun .wrw f).memAvailable = false →
      exec (.wrw f x) s = .next (wait ((s.begun .wrw f).withDataW x) .waitMem1)) ∧
    (s.accepts .clrw f = true → (s.begun .clrw f).memAvailable = false →
      exec (.clrw f x) s = .next (wait ((s.begun .clrw f).withDataW x) .waitMem1)) ∧
    (s.accepts .drawv f = true → (s.begun .drawv f).memAvailable = false →
      exec (.drawv f x y) s = .next (wait (((s.begun .drawv f).withDataW y).withEnds e) .waitMem2)) ∧
    (s.accepts .fillr f = true → (s.begun .fillr f).memAvailable = false →
      exec (.fillr f x y) s = .next (wait (((s.begun .fillr f).withDataW y).withEnds e) .waitMem2))

/-- A command is its host accesses, from every state and with every flag: the R5W word, then a write of R4 for each
data word, each followed by a trigger where the flags enable interrupts. That one row of the table stands for the whole
delivery is the model's choice. Rests on the spec's own decisions D7, D9, D32 (92_eei_decisions.md) and entry 3. -/
def Obligations.CommandsAreTheirAccesses : Prop :=
  ∀ (f : CmdFlags) (x y : Word) (s : State),
    exec (.nopc f x) s = s.runAll (accessesOf .nopc f [x]) ∧
    exec (.rdw f) s = s.runAll (accessesOf .rdw f []) ∧
    exec (.wrw f x) s = s.runAll (accessesOf .wrw f [x]) ∧
    exec (.clrw f x) s = s.runAll (accessesOf .clrw f [x]) ∧
    exec (.ldep f x y) s = s.runAll (accessesOf .ldep f [x, y]) ∧
    exec (.drawv f x y) s = s.runAll (accessesOf .drawv f [x, y]) ∧
    exec (.fillr f x y) s = s.runAll (accessesOf .fillr f [x, y]) ∧
    exec (.rdlp f) s = s.runAll (accessesOf .rdlp f []) ∧
    exec (.ldiox f x) s = s.runAll (accessesOf .ldiox f [x]) ∧
    exec (.ldioy f x) s = s.runAll (accessesOf .ldioy f [x]) ∧
    exec (.ldmc f x) s = s.runAll (accessesOf .ldmc f [x]) ∧
    exec (.ldlp f x) s = s.runAll (accessesOf .ldlp f [x]) ∧
    exec (.ldcm f x) s = s.runAll (accessesOf .ldcm f [x]) ∧
    exec (.ldmap f x) s = s.runAll (accessesOf .ldmap f [x]) ∧
    exec (.ldcy f x) s = s.runAll (accessesOf .ldcy f [x]) ∧
    exec (.ldcx f x) s = s.runAll (accessesOf .ldcx f [x])

/-- A write transfer under way in WAIT_DS_2, with the automatic trigger and graphics not active, of any length up to
the whole memory, one WR4 per word: word `k` stands at the IoCursor's `k`-th position, plane by plane and then word by
word, and every other word reads as before. Rests on the spec's own decisions D11, D12, D13 (92_eei_decisions.md). -/
def Obligations.WriteTransfer : Prop :=
  ∀ (ws : List Word) (s : State), Inv s → s.fsm = .waitDs2 → s.cr.cmd = .wrw → s.cr.intEn = false →
    s.graphicsActive = false → ws.length ≤ s.cfg.nplanes * s.cfg.planeWords →
    let pos (k : Nat) : IoCursor := (IoCursor.advance s.cfg)^[k] s.io
    ∃ t, s.runAll (ws.map .wr4) = .next t ∧
      t.fsm = .waitDs2 ∧ t.io = pos ws.length ∧
      (∀ k, ∀ h : k < ws.length, t.planeRead (pos k).plane (pos k).addr = ws[k]) ∧
      ∀ (q : BitVec 2) (a : Nat), (∀ k < ws.length, ¬(q = (pos k).plane ∧ planeAddr s.cfg a = (pos k).addr)) →
        t.planeRead q a = s.planeRead q a

/-! ### Cursor and light pen -/

/-- IsCursor: true exactly when graphics are shown, the blink rule lets the cursor show, the pixel is in the raster and
on the crosshair, whole or limited to the arms. Nothing changes. Rests on the spec's own decisions D15, D23, D39
(92_eei_decisions.md) and entry 5. -/
def Obligations.IsCursorResult : Prop :=
  ∀ (sx sy : Nat) (s : State), ∃ b, exec (.isCursor sx sy) s = .next (s.withRet (.bit b)) ∧
    (b = true ↔
      (s.cr.gfxEn = true ∧ (s.alpha.mode = .graphics ∨ s.alpha.mode = .both)) ∧
      (s.cursor.fs = true ∨ s.cursor.blink = false ∨ s.frameCnt.getLsbD s.cfg.gcBlinkBit = false) ∧
      ∃ gx gy : Nat, sx = gx + s.cfg.gfxXOff ∧ sy = gy + s.cfg.gfxYOff ∧ gx < s.cfg.gfxW ∧ gy < s.cfg.gfxH ∧
        ((gy = s.cursor.y.toNat ∧ (s.cursor.fs = true ∨ (gx - s.cursor.x.toNat : Int).natAbs ≤ s.cfg.curHalf)) ∨
         (gx = s.cursor.x.toNat ∧ (s.cursor.fs = true ∨ (gy - s.cursor.y.toNat : Int).natAbs ≤ s.cfg.curHalf))))

/-- The capture at vertical blank writes the pointer position, the cursor latch, the three hits and their window flags,
and sets `lp_int` when the pen is enabled and its button pressed or the self-test on; the selector and every other
group stay. The hits are those of LPHit at the captured position and cursor, or of the self-test, modulo 1024. In
self-test nothing of it but the pointer's own fields depends on the pointer. Rests on the spec's own decision D24
(92_eei_decisions.md) and entries 5, 11. -/
def Obligations.LightPenCaptureResult : Prop :=
  ∀ s : State,
    (∃ l : LightPen, exec .lightPenCapture s = .next ((s.withLp l).withRet .none) ∧
      l.px = s.inputs.ptrX - s.cfg.gfxXOff ∧ l.py = s.inputs.ptrY - s.cfg.gfxYOff ∧ l.button = s.inputs.ptrButton ∧
      l.cx = s.cursor.x ∧ l.cy = s.cursor.y ∧ l.regSel = s.lp.regSel ∧
      (l.int = true ↔ s.lp.int = true ∨
        (s.cr.lpEn = true ∧ (s.inputs.ptrButton = true ∨ s.cr.lpSelftest = true))) ∧
      ∃ h : Hits, exec (if s.cr.lpSelftest = true then .selfTestHits l.cx.toNat l.cy.toNat
          else .lpHit l.px l.py l.cx.toNat l.cy.toNat s.cr.lpInterlace) s =
            .next (s.withRet (.hits h.yhi h.xleft h.ylo h.winYhi h.winX h.winYlo)) ∧
        (l.yhi.toNat : Int) = h.yhi % 1024 ∧ (l.xleft.toNat : Int) = h.xleft % 1024 ∧
        (l.ylo.toNat : Int) = h.ylo % 1024 ∧
        l.winYhi = h.winYhi ∧ l.winX = h.winX ∧ l.winYlo = h.winYlo) ∧
    ∀ (i : Inputs) (t u : State), s.cr.lpSelftest = true → exec .lightPenCapture s = .next t →
      exec .lightPenCapture (s.withInputs i) = .next u →
      { u.lp with px := t.lp.px, py := t.lp.py, button := t.lp.button } = t.lp

/-- LPHit and SelfTestHits return their three hits and change nothing. The default LPHit: a register is hit exactly
when the circle reaches its crosshair line and the crossing is inside the window; the crossing is then the value, and
with interlace a y crossing is cut to the even line and held in the window; a miss is one pixel beyond the circle. Said
again without the root: without interlace a crossing is the last pixel of its line inside the circle, below the centre
for YHI, above for YLO, left for XLEFT. Rests on the spec's own decision D24 (92_eei_decisions.md) and entries 5, 11.
-/
def Obligations.LpHitResults : Prop :=
  ∀ (px py cx cy : Int) (il : Bool) (s : State),
    exec (.selfTestHits cx cy) s = .next (s.withRet
      (.hits (cy + s.cfg.lpStYhi) (cx + s.cfg.lpStXleft) (cy + s.cfg.lpStYlo) true true true)) ∧
    ∃ h : Hits, exec (.lpHit px py cx cy il) s = .next (s.withRet
      (.hits h.yhi h.xleft h.ylo h.winYhi h.winX h.winYlo)) ∧
      (s.cfg.lpHit = .reference →
        let R : Nat := s.cfg.lpFovR
        let r : Int := R
        let w : Int := s.cfg.lpWinY
        let dx : Nat := (cx - px).natAbs
        let dy : Nat := (cy - py).natAbs
        let yhi : Int := py + Nat.sqrt (R * R - dx * dx)
        let ylo : Int := py - Nat.sqrt (R * R - dx * dx)
        let xleft : Int := px - Nat.sqrt (R * R - dy * dy)
        let fixed (v : Int) : Int := if il = true then min (max (v - v % 2) (cy - w)) (cy + w) else v
        (h.winYhi = true ↔ dx ≤ R ∧ (yhi - cy).natAbs ≤ s.cfg.lpWinY) ∧
        (h.winX = true ↔ dy ≤ R ∧ (xleft - cx).natAbs ≤ s.cfg.lpWinX) ∧
        (h.winYlo = true ↔ dx ≤ R ∧ (ylo - cy).natAbs ≤ s.cfg.lpWinY) ∧
        h.yhi = (if h.winYhi = true then fixed yhi else py + r + 1) ∧
        h.xleft = (if h.winX = true then xleft else px - (r + 1)) ∧
        h.ylo = (if h.winYlo = true then fixed ylo else py - (r + 1)) ∧
        (il = false → h.winYhi = true → py ≤ h.yhi ∧ (h.yhi - py) ^ 2 + (cx - px) ^ 2 ≤ r ^ 2 ∧
          r ^ 2 < (h.yhi - py + 1) ^ 2 + (cx - px) ^ 2) ∧
        (il = false → h.winYlo = true → h.ylo ≤ py ∧ (py - h.ylo) ^ 2 + (cx - px) ^ 2 ≤ r ^ 2 ∧
          r ^ 2 < (py - h.ylo + 1) ^ 2 + (cx - px) ^ 2) ∧
        (h.winX = true → h.xleft ≤ px ∧ (px - h.xleft) ^ 2 + (cy - py) ^ 2 ≤ r ^ 2 ∧
          r ^ 2 < (px - h.xleft + 1) ^ 2 + (cy - py) ^ 2) ∧
        (h.winYhi = true → (h.yhi - cy).natAbs ≤ s.cfg.lpWinY) ∧
        (h.winYlo = true → (h.ylo - cy).natAbs ≤ s.cfg.lpWinY))

/-! ### The display list -/

/-- The word classes that do not end a row, with budget left after the word: NEWADDR, NOP and the reserved sub-code,
ATTRSET, and the character words of the machine's own generation. Each moves the fetch pointer on and spends one unit,
and does what its class says; nothing else changes. That a word alone goes into the row in progress, and where none is
in progress opens one in the buffer not displayed as FetchRow would, is the model's choice (entry 4). Rests on the
spec's own decisions D26, D27, D37 (92_eei_decisions.md) and entry 4. -/
def Obligations.DisplayListWordResults : Prop :=
  ∀ s : State,
    let y : State := s.setRow s.hidden { (s.alpha.row s.hidden) with full := false }
    let z : State := if s.alpha.fetchLeft = 0
      then y.withAlpha { y.alpha with fetchCol := 0, curAttr := 0, fetchLeft := s.cfg.fetchBudget } else s
    2 ≤ z.alpha.fetchLeft →
    let a : Alpha := { z.alpha with fetchPtr := s.cfg.alphaAddr (s.alpha.fetchPtr + 1)
                                    fetchLeft := z.alpha.fetchLeft - 1 }
    let stored (c : TextCell) : State :=
      if z.alpha.fetchCol < s.cfg.alphaCols then
        ((z.withAlpha a).setRow s.hidden { (z.alpha.row s.hidden) with
          cells := (s.alpha.row s.hidden).cells.set z.alpha.fetchCol c })
      else z.withAlpha a
    let col : Nat := if z.alpha.fetchCol < s.cfg.alphaCols then z.alpha.fetchCol + 1 else z.alpha.fetchCol
    let cell (c : TextCell) : State := ((stored c).withAlpha { (stored c).alpha with fetchCol := col }).withRet .none
    (∀ m ad, exec (.alphaNewaddr m ad) s = .next ((z.withAlpha { a with
      mode := if s.alpha.firstNa then
          (if m = 0 then .alpha else if m = 1 then .graphics else .both) else s.alpha.mode
      firstNa := false
      fetchPtr := s.cfg.alphaAddr ad.toNat }).withRet .none)) ∧
    (∀ g, exec (.alphaNop g) s = .next ((z.withAlpha a).withRet .none)) ∧
    (∀ g, exec (.alphaRsvd g) s = .next ((z.withAlpha a).withRet .none)) ∧
    (∀ g v, exec (.alphaAttrset g v) s = .next ((z.withAlpha
      (if s.cfg.alphaGen = .a then { a with curAttr := v } else a)).withRet .none)) ∧
    (∀ v c, s.cfg.alphaGen = .b → exec (.alphaCharB v c) s = .next (cell { code := c, attr := v })) ∧
    (∀ g c, s.cfg.alphaGen = .a →
      exec (.alphaCharA g c) s = .next (cell { code := c, attr := z.alpha.curAttr })) ∧
    (∀ v g, s.cfg.alphaGen = .a →
      exec (.alphaEscA v g) s = .next ((z.withAlpha { a with curAttr := v.setWidth 8 }).withRet .none))

/-- EOL: from the column reached to the last the cells of the row being filled are blank, those before it stay, the
buffer is full, one more row is counted and no row is in progress; the other buffer and every group but the fetch state
stay. An EOL as the first word of a row gives a row of blank cells. Rests on the spec's own decision D27
(92_eei_decisions.md) and entry 4. -/
def Obligations.EndOfLineResult : Prop :=
  ∀ (g : BitVec 12) (s : State), s.alphaOk = true →
    let col : Nat := if s.alpha.fetchLeft = 0 then 0 else s.alpha.fetchCol
    ∃ t, exec (.alphaEol g) s = .next t ∧ t.withAlpha s.alpha = s.withRet .none ∧
      (∀ c, c < s.cfg.alphaCols → (t.alpha.row s.hidden).cells[c]? =
        if col ≤ c then some { code := s.cfg.blankCode, attr := 0 } else (s.alpha.row s.hidden).cells[c]?) ∧
      (t.alpha.row s.hidden).cells.length = s.cfg.alphaCols ∧ (t.alpha.row s.hidden).full = true ∧
      t.alpha.rowsFetched = s.alpha.rowsFetched + 1 ∧ t.alpha.fetchLeft = 0 ∧
      t.alpha.row s.alpha.bufIdx = s.alpha.row s.alpha.bufIdx ∧
      t.alpha.fetchPtr = s.cfg.alphaAddr (s.alpha.fetchPtr + 1) ∧
      t.alpha.mode = s.alpha.mode ∧ t.alpha.firstNa = s.alpha.firstNa ∧ t.alpha.underrun = s.alpha.underrun

/-- FetchRow is its words one by one, and a word run alone is what FetchRow does with it. FetchRow opens the row, and
then takes word after word: each word is read from host memory at the fetch pointer as the word before left it, and the
fetch ends with the first EOL or with the budget. A display-list word run alone, in either generation, is taken as such
a word in the buffer being filled, also a word of the other generation, read by the machine's own (entry 21), and the
word that exhausts the budget; where no row is in progress it opens one first, as FetchRow does (the model's choice,
entry 4). Rests on the spec's own decisions D26, D27, D37 (92_eei_decisions.md) and entries 4, 18, 21. -/
def Obligations.WordAloneIsFetchRowsWord : Prop :=
  (∀ (g : AlphaGen) (w : Word) (s : State),
    let y : State := s.setRow s.hidden { (s.alpha.row s.hidden) with full := false }
    let z : State := if s.alpha.fetchLeft = 0
      then y.withAlpha { y.alpha with fetchCol := 0, curAttr := 0, fetchLeft := s.cfg.fetchBudget } else s
    exec (decodeAlphaWord g w) s = .next ((z.takeWord s.hidden (decodeAlphaWord s.cfg.alphaGen w)).1.withRet .none)) ∧
  ∀ (b : Bool) (s : State), 1 ≤ s.cfg.fetchBudget →
    let y : State := (s.withHostReads []).setRow b { (s.alpha.row b) with full := false }
    ∃ (n : Nat) (u : Nat → State),
      let word (k : Nat) : Instr :=
        decodeAlphaWord s.cfg.alphaGen (readWord s.inputs.hostMem (2 * (u k).alpha.fetchPtr))
      n < s.cfg.fetchBudget ∧
      u 0 = y.withAlpha { y.alpha with fetchCol := 0, curAttr := 0, fetchLeft := s.cfg.fetchBudget } ∧
      (∀ k ≤ n, u (k + 1) =
        (((u k).withHostReads ((u k).alpha.fetchPtr :: (u k).hostReads)).takeWord b (word k)).1) ∧
      (∀ k < n, ∀ g, word k ≠ .alphaEol g) ∧ ((∃ g, word n = .alphaEol g) ∨ n + 1 = s.cfg.fetchBudget) ∧
      exec (.fetchRow b) s = .next ((u (n + 1)).withRet .none) ∧
      (u (n + 1)).hostReads = ((List.range (n + 1)).map fun k => (u k).alpha.fetchPtr).reverse

/-- FetchRow either meets an EOL within the budget, and then the buffer is full, one more row is counted and no error
recorded; or it reads exactly the budget, leaves the buffer not full and records one DisplayListMalformation with the
rows fetched so far. It reads at most the budget, and changes nothing but that buffer, the fetch state, the trace and
the list of addresses read. A list of generation B character words with an EOL after them, standing at the fetch
pointer and the addresses after it, is read at those addresses, in order, and fills the buffer with its cells, dropped
past the last column, and blank ones after them. Rests on the spec's own decisions D26, D27, D37 (92_eei_decisions.md)
and entries 5, 18. -/
def Obligations.FetchRowResult : Prop :=
  (∀ (b : Bool) (s : State),
    ∃ t, exec (.fetchRow b) s = .next t ∧
      ((t.withAlpha s.alpha).withErrlog s.errlog).withHostReads s.hostReads = s.withRet .none ∧
      t.alpha.row (!b) = s.alpha.row (!b) ∧ t.hostReads.length ≤ s.cfg.fetchBudget ∧
      t.alpha.bufIdx = s.alpha.bufIdx ∧ t.alpha.underrun = s.alpha.underrun ∧ t.alpha.base = s.alpha.base ∧
      (((t.alpha.row b).full = true ∧ t.alpha.rowsFetched = s.alpha.rowsFetched + 1 ∧ t.errlog = s.errlog) ∨
       ((t.alpha.row b).full = false ∧ t.alpha.rowsFetched = s.alpha.rowsFetched ∧
        t.errlog = s.errlog ++ [.displayListMalformation s.alpha.rowsFetched] ∧
        t.hostReads.length = s.cfg.fetchBudget))) ∧
  ∀ (b : Bool) (s : State) (cells : List TextCell), s.cfg.alphaGen = .b → s.alphaOk = true →
    cells.length < s.cfg.fetchBudget →
    let at_ (k : Nat) : Nat := s.cfg.alphaAddr (s.alpha.fetchPtr + k)
    (∀ k, ∀ h : k < cells.length,
      readWord s.inputs.hostMem (2 * at_ k) = 0#1 ++ cells[k].attr ++ cells[k].code) →
    (readWord s.inputs.hostMem (2 * at_ cells.length)).extractLsb' 12 4 = 0b1000#4 →
    ∃ t, exec (.fetchRow b) s = .next t ∧
      (t.alpha.row b).cells = cells.take s.cfg.alphaCols
        ++ List.replicate (s.cfg.alphaCols - cells.length) { code := s.cfg.blankCode, attr := 0 } ∧
      (t.alpha.row b).full = true ∧ t.hostReads = ((List.range (cells.length + 1)).map at_).reverse ∧
      t.alpha.fetchPtr = at_ (cells.length + 1)

/-- The frame's events. The alpha frame start samples the base address, reduced to the register's width (the model's
choice, entry 32), restarts the fetch there, clears `underrun` and fetches row 0 into the buffer not displayed;
RowStart shows the buffer filled last, sets `underrun` when it is not full, and fetches the next row while there is one
and no underrun; VBlank counts the frame, captures the light pen and starts the alpha frame, in this order. Rests on
the spec's own decisions D26, D27, D34 (92_eei_decisions.md) and entries 5, 14, 32. -/
def Obligations.FrameEventResults : Prop :=
  ∀ s : State,
    exec .alphaFrameStart s = .next (((s.withAlpha { s.alpha with
      base := s.cfg.alphaAddr s.inputs.alphaBase
      fetchPtr := s.cfg.alphaAddr s.inputs.alphaBase
      firstNa := true
      underrun := false
      rowsFetched := 0 }).fetchRow (!s.alpha.bufIdx)).withRet .none) ∧
    (∀ r, r < s.cfg.alphaRows →
      let u : Bool := s.alpha.underrun || !(s.alpha.row (!s.alpha.bufIdx)).full
      let t := s.withAlpha { s.alpha with bufIdx := !s.alpha.bufIdx, underrun := u }
      exec (.rowStart r) s = .next ((if r + 1 < s.cfg.alphaRows ∧ u = false then t.fetchRow s.alpha.bufIdx
        else t).withRet .none)) ∧
    ∃ t, exec .vblank s = .next t ∧
      exec .alphaFrameStart ((s.withFrameCnt (s.frameCnt + 1)).lightPenCapture) = .next t ∧
      t.frameCnt = s.frameCnt + 1

/-! ### The renderer -/

/-- Scanline: for a line of the screen it returns SCREEN_W pens, the cursor's where IsCursor is true of that column and
line and the composed one elsewhere, and writes nothing. The cursor's pen is its colour on COLOR and pen 3 on the mono
variants. Rests on the spec's own decisions D23, D29, D30 (92_eei_decisions.md) and entry 18. -/
def Obligations.ScanlineResult : Prop :=
  ∀ (n : Nat) (s : State), n < s.cfg.screenH →
    ∃ l : List Pen, exec (.scanline n) s = .next (s.withRet (.pens l)) ∧ l.length = s.cfg.screenW ∧
      ∀ sx, sx < s.cfg.screenW → l[sx]? = some (if s.isCursor sx n = true
        then (if s.cfg.variant = .color then s.cursor.color.toNat else 3) else s.basePen sx n)

/-- The three composition policies, for a lit alpha pixel (a mode that shows text, no underrun, AlphaOn): EXCLUSIVE
shows the graphics alone while they are shown; ALPHA_ZONE lets it win inside the zone and suppresses it outside while
graphics are shown; OVERLAY lets it win everywhere. Where it does not show, the graphics do, and black where they are
not shown. Its pen is 2 on the mono variants; on COLOR it is the colour of its cell's attribute, 0 shown as 7, under
OVERLAY, and 7 under the other two (entry 27). While `underrun` is set the picture does not depend on the row buffers.
Rests on the spec's own decisions D15, D27, D28, D29, D30, D37 (92_eei_decisions.md) and entry 27. -/
def Obligations.CompositionAndUnderrun : Prop :=
  (∀ (sx sy : Nat) (s : State) (cell : TextCell),
    (s.alpha.row s.alpha.bufIdx).cells[sx / s.cfg.charW]? = some cell →
    let lit : Bool := decide (s.alpha.mode = .alpha ∨ s.alpha.mode = .both) && !s.alpha.underrun && s.alphaOn sx sy
    let colour : Nat := (cell.attr.extractLsb' 5 3).toNat
    let pen : Pen :=
      if s.cfg.variant ≠ .color then 2 else if s.cfg.policy ≠ .overlay then 7 else if colour = 0 then 7 else colour
    let under : Pen := if s.graphicsActive then s.gfxPen sx sy else 0
    (s.cfg.policy = .exclusive →
      s.basePen sx sy = if s.graphicsActive = false ∧ lit = true then pen else under) ∧
    (s.cfg.policy = .alphaZone →
      s.basePen sx sy =
        if lit = true ∧ (s.graphicsActive = false ∨ (s.cfg.zoneL ≤ sx ∧ sx < s.cfg.zoneR)) then pen else under) ∧
    (s.cfg.policy = .overlay → s.basePen sx sy = if lit = true then pen else under)) ∧
  ∀ (s : State) (r0 r1 : RowBuf) (n : Nat), s.alpha.underrun = true →
    (s.withAlpha { s.alpha with row0 := r0, row1 := r1 }).scanline n = s.scanline n ∧
    ∀ sx, sx < s.cfg.screenW → (s.scanline n)[sx]? =
      some (if s.isCursor sx n then s.cursorPen else if s.graphicsActive then s.gfxPen sx n else 0)

/-- Gfx and AlphaOn return their value and change nothing. Gfx is black outside the raster; inside it is the bit's pen
with a single plane, the music memory's entry of the three plane bits on COLOR, and one of the two pens of the mono
graphics, which of them is free, on a mono variant with three planes (entry 31). AlphaOn is off outside the text lines.
In text row `r`, line `l`, cell `c`, pixel `k` it is the character generator's bit of the cell's code, in the table its
attribute selects (no bit for the blank code), under the attributes in their order: blink, underline, text cursor,
reverse. The listed glyph rows are the model's form of the character generator's input (entry 14). Rests on the spec's
own decisions D21, D27, D28, D29, D30, D39 (92_eei_decisions.md) and entries 5, 14, 26, 31. -/
def Obligations.LayerResults : Prop :=
  ∀ (sx sy : Nat) (s : State),
    (∃ p, exec (.gfx sx sy) s = .next (s.withRet (.pen p)) ∧
      (s.inRaster sx sy = false → p = 0) ∧
      (∀ gx gy, sx = gx + s.cfg.gfxXOff → sy = gy + s.cfg.gfxYOff → inGraphics s.cfg gx gy →
        (s.cfg.nplanes = 1 → p = if s.readPixel 0 gx gy then 1 else 0) ∧
        (s.cfg.nplanes ≠ 1 → s.cfg.variant ≠ .color → p = 0 ∨ p = 1) ∧
        (s.cfg.nplanes ≠ 1 → s.cfg.variant = .color → ∀ i : Fin 8,
          i.val = 4 * (s.readPixel 2 gx gy).toNat + 2 * (s.readPixel 1 gx gy).toNat + (s.readPixel 0 gx gy).toNat →
            p = s.music.get i))) ∧
    ∃ b, exec (.alphaOn sx sy) s = .next (s.withRet (.bit b)) ∧
      (¬(s.cfg.alphaYOff ≤ sy ∧ sy < s.cfg.alphaYOff + s.cfg.alphaRows * s.cfg.charH) → b = false) ∧
      ∀ (r l c k : Nat) (cell : TextCell), s.cfg.wf = true → r < s.cfg.alphaRows → l < s.cfg.charH →
        c < s.cfg.alphaCols → k < s.cfg.charW → sy = s.cfg.alphaYOff + r * s.cfg.charH + l →
        sx = c * s.cfg.charW + k → (s.alpha.row s.alpha.bufIdx).cells[c]? = some cell →
        let drawn : Bool := match s.inputs.font.find? fun g =>
            decide (g.alt = cell.attr.getLsbD 3 ∧ g.code = cell.code ∧ g.line = l) with
          | some g => g.bits.testBit (s.cfg.charW - 1 - k)
          | none => false
        let glyph : Bool := decide (cell.code ≠ s.cfg.blankCode) && drawn
        let blinked : Bool := if cell.attr.getLsbD 1 && s.frameCnt.getLsbD s.cfg.chBlinkBit then false else glyph
        let lined : Bool := if cell.attr.getLsbD 2 && decide (l = s.cfg.ulLine) then true else blinked
        let cursed : Bool := if cell.attr.getLsbD 4 && !s.frameCnt.getLsbD s.cfg.tcBlinkBit then !lined else lined
        b = if cell.attr.getLsbD 0 then !cursed else cursed
end

