-- ==== Sys2Proof/Laws/Encoding.lean ====
section
/-! SUPPORT. The encoder's pieces undone by the decoder's: bytes and words, the R5W word and its fields. -/

namespace Sys2Proof

theorem lo_hi (w : Word) : Word.ofBytes w.hi w.lo = w := by
  apply BitVec.eq_of_getLsbD_eq
  intro i hi
  simp only [Word.ofBytes, Word.hi, Word.lo, BitVec.getLsbD_append, BitVec.getLsbD_extractLsb']
  split
  · simp_all
  · simp_all; omega

@[simp] theorem toWords_fromWords (l : List Word) : toWords (fromWords l) = l := by
  induction l with
  | nil => rfl
  | cons w l ih => simp only [fromWords, toWords, lo_hi, ih]

@[simp] theorem ofCode_code (c : Cmd) : Cmd.ofCode c.code = c := by cases c <;> rfl

@[simp] theorem code_ofCode (c : BitVec 4) : (Cmd.ofCode c).code = c := by revert c; decide

/-- The fields of an R5W word stand at their bits (R62). -/
theorem packR5W_getLsbD (c : Cmd) (f : CmdFlags) (i : Nat) :
    (packR5W c f).getLsbD i =
      if i < 4 then c.code.getLsbD i
      else if i = 4 then f.dma else if i = 5 then f.int else if i = 6 then f.gfx else if i = 7 then f.reset
      else if i = 8 then f.softkey else if i = 9 then f.lp else if i = 10 then f.selftest
      else if i = 11 then f.interlace else f.rsvd.getLsbD (i - 12) := by
  simp only [packR5W, BitVec.getLsbD_append, BitVec.getLsbD_ofBool]
  by_cases h : i < 12
  · have : i = 0 ∨ i = 1 ∨ i = 2 ∨ i = 3 ∨ i = 4 ∨ i = 5 ∨ i = 6 ∨ i = 7 ∨ i = 8 ∨ i = 9 ∨ i = 10 ∨ i = 11 := by omega
    rcases this with rfl | rfl | rfl | rfl | rfl | rfl | rfl | rfl | rfl | rfl | rfl | rfl <;> simp
  · repeat rw [if_neg (by omega)]
    rw [show i - 4 - 1 - 1 - 1 - 1 - 1 - 1 - 1 - 1 = i - 12 by omega]

@[simp] theorem unpackCmd_packR5W (c : Cmd) (f : CmdFlags) : unpackCmd (packR5W c f) = c := by
  have : (packR5W c f).extractLsb' 0 4 = c.code := by
    apply BitVec.eq_of_getLsbD_eq
    intro i hi
    simp [packR5W_getLsbD, hi]
  unfold unpackCmd; rw [this, ofCode_code]

@[simp] theorem unpackFlags_packR5W (c : Cmd) (f : CmdFlags) : unpackFlags (packR5W c f) = f := by
  have hr : (packR5W c f).extractLsb' 12 4 = f.rsvd := by
    apply BitVec.eq_of_getLsbD_eq
    intro i hi
    rw [BitVec.getLsbD_extractLsb', packR5W_getLsbD]
    repeat rw [if_neg (by omega)]
    simp [hi]
  unfold unpackFlags
  rw [hr]
  simp only [packR5W_getLsbD]
  rfl

end Sys2Proof
end

