-- ==== Sys2Proof/Laws/State.lean ====
section
/-! SUPPORT. One lemma per field per update of the state, and one per pair of equal updates: all true by `rfl`, tagged
`@[simp]`, so that no proof unfolds a record update. -/

namespace Sys2Proof.Machine

/-! ### withDataW -/

@[simp] theorem State.withDataW_dataW (s : State) (v : Word) : (s.withDataW v).dataW = v := rfl
@[simp] theorem State.withDataW_dataR (s : State) (v : Word) : (s.withDataW v).dataR = s.dataR := rfl
@[simp] theorem State.withDataW_cr (s : State) (v : Word) : (s.withDataW v).cr = s.cr := rfl
@[simp] theorem State.withDataW_fsm (s : State) (v : Word) : (s.withDataW v).fsm = s.fsm := rfl
@[simp] theorem State.withDataW_io (s : State) (v : Word) : (s.withDataW v).io = s.io := rfl
@[simp] theorem State.withDataW_ctl (s : State) (v : Word) : (s.withDataW v).ctl = s.ctl := rfl
@[simp] theorem State.withDataW_pat (s : State) (v : Word) : (s.withDataW v).pat = s.pat := rfl
@[simp] theorem State.withDataW_ends (s : State) (v : Word) : (s.withDataW v).ends = s.ends := rfl
@[simp] theorem State.withDataW_music (s : State) (v : Word) : (s.withDataW v).music = s.music := rfl
@[simp] theorem State.withDataW_cursor (s : State) (v : Word) : (s.withDataW v).cursor = s.cursor := rfl
@[simp] theorem State.withDataW_lp (s : State) (v : Word) : (s.withDataW v).lp = s.lp := rfl
@[simp] theorem State.withDataW_sig (s : State) (v : Word) : (s.withDataW v).sig = s.sig := rfl
@[simp] theorem State.withDataW_wakePending (s : State) (v : Word) : (s.withDataW v).wakePending = s.wakePending := rfl
@[simp] theorem State.withDataW_frameCnt (s : State) (v : Word) : (s.withDataW v).frameCnt = s.frameCnt := rfl
@[simp] theorem State.withDataW_alpha (s : State) (v : Word) : (s.withDataW v).alpha = s.alpha := rfl
@[simp] theorem State.withDataW_mem (s : State) (v : Word) : (s.withDataW v).mem = s.mem := rfl
@[simp] theorem State.withDataW_errlog (s : State) (v : Word) : (s.withDataW v).errlog = s.errlog := rfl
@[simp] theorem State.withDataW_ret (s : State) (v : Word) : (s.withDataW v).ret = s.ret := rfl
@[simp] theorem State.withDataW_wakeDelay (s : State) (v : Word) : (s.withDataW v).wakeDelay = s.wakeDelay := rfl
@[simp] theorem State.withDataW_hostReads (s : State) (v : Word) : (s.withDataW v).hostReads = s.hostReads := rfl
@[simp] theorem State.withDataW_cfg (s : State) (v : Word) : (s.withDataW v).cfg = s.cfg := rfl
@[simp] theorem State.withDataW_inputs (s : State) (v : Word) : (s.withDataW v).inputs = s.inputs := rfl
@[simp] theorem State.withDataW_beams (s : State) (v : Word) : (s.withDataW v).beams = s.beams := rfl
@[simp] theorem State.withDataW_inbox (s : State) (v : Word) : (s.withDataW v).inbox = s.inbox := rfl
@[simp] theorem State.withDataW_clock (s : State) (v : Word) : (s.withDataW v).clock = s.clock := rfl
@[simp] theorem State.withDataW_withDataW (s : State) (v w : Word) : (s.withDataW v).withDataW w = s.withDataW w := rfl
@[simp] theorem State.withDataW_self (s : State) : s.withDataW s.dataW = s := rfl

/-! ### withDataR -/

@[simp] theorem State.withDataR_dataW (s : State) (v : Word) : (s.withDataR v).dataW = s.dataW := rfl
@[simp] theorem State.withDataR_dataR (s : State) (v : Word) : (s.withDataR v).dataR = v := rfl
@[simp] theorem State.withDataR_cr (s : State) (v : Word) : (s.withDataR v).cr = s.cr := rfl
@[simp] theorem State.withDataR_fsm (s : State) (v : Word) : (s.withDataR v).fsm = s.fsm := rfl
@[simp] theorem State.withDataR_io (s : State) (v : Word) : (s.withDataR v).io = s.io := rfl
@[simp] theorem State.withDataR_ctl (s : State) (v : Word) : (s.withDataR v).ctl = s.ctl := rfl
@[simp] theorem State.withDataR_pat (s : State) (v : Word) : (s.withDataR v).pat = s.pat := rfl
@[simp] theorem State.withDataR_ends (s : State) (v : Word) : (s.withDataR v).ends = s.ends := rfl
@[simp] theorem State.withDataR_music (s : State) (v : Word) : (s.withDataR v).music = s.music := rfl
@[simp] theorem State.withDataR_cursor (s : State) (v : Word) : (s.withDataR v).cursor = s.cursor := rfl
@[simp] theorem State.withDataR_lp (s : State) (v : Word) : (s.withDataR v).lp = s.lp := rfl
@[simp] theorem State.withDataR_sig (s : State) (v : Word) : (s.withDataR v).sig = s.sig := rfl
@[simp] theorem State.withDataR_wakePending (s : State) (v : Word) : (s.withDataR v).wakePending = s.wakePending := rfl
@[simp] theorem State.withDataR_frameCnt (s : State) (v : Word) : (s.withDataR v).frameCnt = s.frameCnt := rfl
@[simp] theorem State.withDataR_alpha (s : State) (v : Word) : (s.withDataR v).alpha = s.alpha := rfl
@[simp] theorem State.withDataR_mem (s : State) (v : Word) : (s.withDataR v).mem = s.mem := rfl
@[simp] theorem State.withDataR_errlog (s : State) (v : Word) : (s.withDataR v).errlog = s.errlog := rfl
@[simp] theorem State.withDataR_ret (s : State) (v : Word) : (s.withDataR v).ret = s.ret := rfl
@[simp] theorem State.withDataR_wakeDelay (s : State) (v : Word) : (s.withDataR v).wakeDelay = s.wakeDelay := rfl
@[simp] theorem State.withDataR_hostReads (s : State) (v : Word) : (s.withDataR v).hostReads = s.hostReads := rfl
@[simp] theorem State.withDataR_cfg (s : State) (v : Word) : (s.withDataR v).cfg = s.cfg := rfl
@[simp] theorem State.withDataR_inputs (s : State) (v : Word) : (s.withDataR v).inputs = s.inputs := rfl
@[simp] theorem State.withDataR_beams (s : State) (v : Word) : (s.withDataR v).beams = s.beams := rfl
@[simp] theorem State.withDataR_inbox (s : State) (v : Word) : (s.withDataR v).inbox = s.inbox := rfl
@[simp] theorem State.withDataR_clock (s : State) (v : Word) : (s.withDataR v).clock = s.clock := rfl
@[simp] theorem State.withDataR_withDataR (s : State) (v w : Word) : (s.withDataR v).withDataR w = s.withDataR w := rfl
@[simp] theorem State.withDataR_self (s : State) : s.withDataR s.dataR = s := rfl

/-! ### withCr -/

@[simp] theorem State.withCr_dataW (s : State) (v : CmdReg) : (s.withCr v).dataW = s.dataW := rfl
@[simp] theorem State.withCr_dataR (s : State) (v : CmdReg) : (s.withCr v).dataR = s.dataR := rfl
@[simp] theorem State.withCr_cr (s : State) (v : CmdReg) : (s.withCr v).cr = v := rfl
@[simp] theorem State.withCr_fsm (s : State) (v : CmdReg) : (s.withCr v).fsm = s.fsm := rfl
@[simp] theorem State.withCr_io (s : State) (v : CmdReg) : (s.withCr v).io = s.io := rfl
@[simp] theorem State.withCr_ctl (s : State) (v : CmdReg) : (s.withCr v).ctl = s.ctl := rfl
@[simp] theorem State.withCr_pat (s : State) (v : CmdReg) : (s.withCr v).pat = s.pat := rfl
@[simp] theorem State.withCr_ends (s : State) (v : CmdReg) : (s.withCr v).ends = s.ends := rfl
@[simp] theorem State.withCr_music (s : State) (v : CmdReg) : (s.withCr v).music = s.music := rfl
@[simp] theorem State.withCr_cursor (s : State) (v : CmdReg) : (s.withCr v).cursor = s.cursor := rfl
@[simp] theorem State.withCr_lp (s : State) (v : CmdReg) : (s.withCr v).lp = s.lp := rfl
@[simp] theorem State.withCr_sig (s : State) (v : CmdReg) : (s.withCr v).sig = s.sig := rfl
@[simp] theorem State.withCr_wakePending (s : State) (v : CmdReg) : (s.withCr v).wakePending = s.wakePending := rfl
@[simp] theorem State.withCr_frameCnt (s : State) (v : CmdReg) : (s.withCr v).frameCnt = s.frameCnt := rfl
@[simp] theorem State.withCr_alpha (s : State) (v : CmdReg) : (s.withCr v).alpha = s.alpha := rfl
@[simp] theorem State.withCr_mem (s : State) (v : CmdReg) : (s.withCr v).mem = s.mem := rfl
@[simp] theorem State.withCr_errlog (s : State) (v : CmdReg) : (s.withCr v).errlog = s.errlog := rfl
@[simp] theorem State.withCr_ret (s : State) (v : CmdReg) : (s.withCr v).ret = s.ret := rfl
@[simp] theorem State.withCr_wakeDelay (s : State) (v : CmdReg) : (s.withCr v).wakeDelay = s.wakeDelay := rfl
@[simp] theorem State.withCr_hostReads (s : State) (v : CmdReg) : (s.withCr v).hostReads = s.hostReads := rfl
@[simp] theorem State.withCr_cfg (s : State) (v : CmdReg) : (s.withCr v).cfg = s.cfg := rfl
@[simp] theorem State.withCr_inputs (s : State) (v : CmdReg) : (s.withCr v).inputs = s.inputs := rfl
@[simp] theorem State.withCr_beams (s : State) (v : CmdReg) : (s.withCr v).beams = s.beams := rfl
@[simp] theorem State.withCr_inbox (s : State) (v : CmdReg) : (s.withCr v).inbox = s.inbox := rfl
@[simp] theorem State.withCr_clock (s : State) (v : CmdReg) : (s.withCr v).clock = s.clock := rfl
@[simp] theorem State.withCr_withCr (s : State) (v w : CmdReg) : (s.withCr v).withCr w = s.withCr w := rfl
@[simp] theorem State.withCr_self (s : State) : s.withCr s.cr = s := rfl

/-! ### withFsm -/

@[simp] theorem State.withFsm_dataW (s : State) (v : Fsm) : (s.withFsm v).dataW = s.dataW := rfl
@[simp] theorem State.withFsm_dataR (s : State) (v : Fsm) : (s.withFsm v).dataR = s.dataR := rfl
@[simp] theorem State.withFsm_cr (s : State) (v : Fsm) : (s.withFsm v).cr = s.cr := rfl
@[simp] theorem State.withFsm_fsm (s : State) (v : Fsm) : (s.withFsm v).fsm = v := rfl
@[simp] theorem State.withFsm_io (s : State) (v : Fsm) : (s.withFsm v).io = s.io := rfl
@[simp] theorem State.withFsm_ctl (s : State) (v : Fsm) : (s.withFsm v).ctl = s.ctl := rfl
@[simp] theorem State.withFsm_pat (s : State) (v : Fsm) : (s.withFsm v).pat = s.pat := rfl
@[simp] theorem State.withFsm_ends (s : State) (v : Fsm) : (s.withFsm v).ends = s.ends := rfl
@[simp] theorem State.withFsm_music (s : State) (v : Fsm) : (s.withFsm v).music = s.music := rfl
@[simp] theorem State.withFsm_cursor (s : State) (v : Fsm) : (s.withFsm v).cursor = s.cursor := rfl
@[simp] theorem State.withFsm_lp (s : State) (v : Fsm) : (s.withFsm v).lp = s.lp := rfl
@[simp] theorem State.withFsm_sig (s : State) (v : Fsm) : (s.withFsm v).sig = s.sig := rfl
@[simp] theorem State.withFsm_wakePending (s : State) (v : Fsm) : (s.withFsm v).wakePending = s.wakePending := rfl
@[simp] theorem State.withFsm_frameCnt (s : State) (v : Fsm) : (s.withFsm v).frameCnt = s.frameCnt := rfl
@[simp] theorem State.withFsm_alpha (s : State) (v : Fsm) : (s.withFsm v).alpha = s.alpha := rfl
@[simp] theorem State.withFsm_mem (s : State) (v : Fsm) : (s.withFsm v).mem = s.mem := rfl
@[simp] theorem State.withFsm_errlog (s : State) (v : Fsm) : (s.withFsm v).errlog = s.errlog := rfl
@[simp] theorem State.withFsm_ret (s : State) (v : Fsm) : (s.withFsm v).ret = s.ret := rfl
@[simp] theorem State.withFsm_wakeDelay (s : State) (v : Fsm) : (s.withFsm v).wakeDelay = s.wakeDelay := rfl
@[simp] theorem State.withFsm_hostReads (s : State) (v : Fsm) : (s.withFsm v).hostReads = s.hostReads := rfl
@[simp] theorem State.withFsm_cfg (s : State) (v : Fsm) : (s.withFsm v).cfg = s.cfg := rfl
@[simp] theorem State.withFsm_inputs (s : State) (v : Fsm) : (s.withFsm v).inputs = s.inputs := rfl
@[simp] theorem State.withFsm_beams (s : State) (v : Fsm) : (s.withFsm v).beams = s.beams := rfl
@[simp] theorem State.withFsm_inbox (s : State) (v : Fsm) : (s.withFsm v).inbox = s.inbox := rfl
@[simp] theorem State.withFsm_clock (s : State) (v : Fsm) : (s.withFsm v).clock = s.clock := rfl
@[simp] theorem State.withFsm_withFsm (s : State) (v w : Fsm) : (s.withFsm v).withFsm w = s.withFsm w := rfl
@[simp] theorem State.withFsm_self (s : State) : s.withFsm s.fsm = s := rfl

/-! ### withIo -/

@[simp] theorem State.withIo_dataW (s : State) (v : IoCursor) : (s.withIo v).dataW = s.dataW := rfl
@[simp] theorem State.withIo_dataR (s : State) (v : IoCursor) : (s.withIo v).dataR = s.dataR := rfl
@[simp] theorem State.withIo_cr (s : State) (v : IoCursor) : (s.withIo v).cr = s.cr := rfl
@[simp] theorem State.withIo_fsm (s : State) (v : IoCursor) : (s.withIo v).fsm = s.fsm := rfl
@[simp] theorem State.withIo_io (s : State) (v : IoCursor) : (s.withIo v).io = v := rfl
@[simp] theorem State.withIo_ctl (s : State) (v : IoCursor) : (s.withIo v).ctl = s.ctl := rfl
@[simp] theorem State.withIo_pat (s : State) (v : IoCursor) : (s.withIo v).pat = s.pat := rfl
@[simp] theorem State.withIo_ends (s : State) (v : IoCursor) : (s.withIo v).ends = s.ends := rfl
@[simp] theorem State.withIo_music (s : State) (v : IoCursor) : (s.withIo v).music = s.music := rfl
@[simp] theorem State.withIo_cursor (s : State) (v : IoCursor) : (s.withIo v).cursor = s.cursor := rfl
@[simp] theorem State.withIo_lp (s : State) (v : IoCursor) : (s.withIo v).lp = s.lp := rfl
@[simp] theorem State.withIo_sig (s : State) (v : IoCursor) : (s.withIo v).sig = s.sig := rfl
@[simp] theorem State.withIo_wakePending (s : State) (v : IoCursor) : (s.withIo v).wakePending = s.wakePending := rfl
@[simp] theorem State.withIo_frameCnt (s : State) (v : IoCursor) : (s.withIo v).frameCnt = s.frameCnt := rfl
@[simp] theorem State.withIo_alpha (s : State) (v : IoCursor) : (s.withIo v).alpha = s.alpha := rfl
@[simp] theorem State.withIo_mem (s : State) (v : IoCursor) : (s.withIo v).mem = s.mem := rfl
@[simp] theorem State.withIo_errlog (s : State) (v : IoCursor) : (s.withIo v).errlog = s.errlog := rfl
@[simp] theorem State.withIo_ret (s : State) (v : IoCursor) : (s.withIo v).ret = s.ret := rfl
@[simp] theorem State.withIo_wakeDelay (s : State) (v : IoCursor) : (s.withIo v).wakeDelay = s.wakeDelay := rfl
@[simp] theorem State.withIo_hostReads (s : State) (v : IoCursor) : (s.withIo v).hostReads = s.hostReads := rfl
@[simp] theorem State.withIo_cfg (s : State) (v : IoCursor) : (s.withIo v).cfg = s.cfg := rfl
@[simp] theorem State.withIo_inputs (s : State) (v : IoCursor) : (s.withIo v).inputs = s.inputs := rfl
@[simp] theorem State.withIo_beams (s : State) (v : IoCursor) : (s.withIo v).beams = s.beams := rfl
@[simp] theorem State.withIo_inbox (s : State) (v : IoCursor) : (s.withIo v).inbox = s.inbox := rfl
@[simp] theorem State.withIo_clock (s : State) (v : IoCursor) : (s.withIo v).clock = s.clock := rfl
@[simp] theorem State.withIo_withIo (s : State) (v w : IoCursor) : (s.withIo v).withIo w = s.withIo w := rfl
@[simp] theorem State.withIo_self (s : State) : s.withIo s.io = s := rfl

/-! ### withCtl -/

@[simp] theorem State.withCtl_dataW (s : State) (v : PlaneCtl) : (s.withCtl v).dataW = s.dataW := rfl
@[simp] theorem State.withCtl_dataR (s : State) (v : PlaneCtl) : (s.withCtl v).dataR = s.dataR := rfl
@[simp] theorem State.withCtl_cr (s : State) (v : PlaneCtl) : (s.withCtl v).cr = s.cr := rfl
@[simp] theorem State.withCtl_fsm (s : State) (v : PlaneCtl) : (s.withCtl v).fsm = s.fsm := rfl
@[simp] theorem State.withCtl_io (s : State) (v : PlaneCtl) : (s.withCtl v).io = s.io := rfl
@[simp] theorem State.withCtl_ctl (s : State) (v : PlaneCtl) : (s.withCtl v).ctl = v := rfl
@[simp] theorem State.withCtl_pat (s : State) (v : PlaneCtl) : (s.withCtl v).pat = s.pat := rfl
@[simp] theorem State.withCtl_ends (s : State) (v : PlaneCtl) : (s.withCtl v).ends = s.ends := rfl
@[simp] theorem State.withCtl_music (s : State) (v : PlaneCtl) : (s.withCtl v).music = s.music := rfl
@[simp] theorem State.withCtl_cursor (s : State) (v : PlaneCtl) : (s.withCtl v).cursor = s.cursor := rfl
@[simp] theorem State.withCtl_lp (s : State) (v : PlaneCtl) : (s.withCtl v).lp = s.lp := rfl
@[simp] theorem State.withCtl_sig (s : State) (v : PlaneCtl) : (s.withCtl v).sig = s.sig := rfl
@[simp] theorem State.withCtl_wakePending (s : State) (v : PlaneCtl) : (s.withCtl v).wakePending = s.wakePending := rfl
@[simp] theorem State.withCtl_frameCnt (s : State) (v : PlaneCtl) : (s.withCtl v).frameCnt = s.frameCnt := rfl
@[simp] theorem State.withCtl_alpha (s : State) (v : PlaneCtl) : (s.withCtl v).alpha = s.alpha := rfl
@[simp] theorem State.withCtl_mem (s : State) (v : PlaneCtl) : (s.withCtl v).mem = s.mem := rfl
@[simp] theorem State.withCtl_errlog (s : State) (v : PlaneCtl) : (s.withCtl v).errlog = s.errlog := rfl
@[simp] theorem State.withCtl_ret (s : State) (v : PlaneCtl) : (s.withCtl v).ret = s.ret := rfl
@[simp] theorem State.withCtl_wakeDelay (s : State) (v : PlaneCtl) : (s.withCtl v).wakeDelay = s.wakeDelay := rfl
@[simp] theorem State.withCtl_hostReads (s : State) (v : PlaneCtl) : (s.withCtl v).hostReads = s.hostReads := rfl
@[simp] theorem State.withCtl_cfg (s : State) (v : PlaneCtl) : (s.withCtl v).cfg = s.cfg := rfl
@[simp] theorem State.withCtl_inputs (s : State) (v : PlaneCtl) : (s.withCtl v).inputs = s.inputs := rfl
@[simp] theorem State.withCtl_beams (s : State) (v : PlaneCtl) : (s.withCtl v).beams = s.beams := rfl
@[simp] theorem State.withCtl_inbox (s : State) (v : PlaneCtl) : (s.withCtl v).inbox = s.inbox := rfl
@[simp] theorem State.withCtl_clock (s : State) (v : PlaneCtl) : (s.withCtl v).clock = s.clock := rfl
@[simp] theorem State.withCtl_withCtl (s : State) (v w : PlaneCtl) : (s.withCtl v).withCtl w = s.withCtl w := rfl
@[simp] theorem State.withCtl_self (s : State) : s.withCtl s.ctl = s := rfl

/-! ### withPat -/

@[simp] theorem State.withPat_dataW (s : State) (v : Pattern) : (s.withPat v).dataW = s.dataW := rfl
@[simp] theorem State.withPat_dataR (s : State) (v : Pattern) : (s.withPat v).dataR = s.dataR := rfl
@[simp] theorem State.withPat_cr (s : State) (v : Pattern) : (s.withPat v).cr = s.cr := rfl
@[simp] theorem State.withPat_fsm (s : State) (v : Pattern) : (s.withPat v).fsm = s.fsm := rfl
@[simp] theorem State.withPat_io (s : State) (v : Pattern) : (s.withPat v).io = s.io := rfl
@[simp] theorem State.withPat_ctl (s : State) (v : Pattern) : (s.withPat v).ctl = s.ctl := rfl
@[simp] theorem State.withPat_pat (s : State) (v : Pattern) : (s.withPat v).pat = v := rfl
@[simp] theorem State.withPat_ends (s : State) (v : Pattern) : (s.withPat v).ends = s.ends := rfl
@[simp] theorem State.withPat_music (s : State) (v : Pattern) : (s.withPat v).music = s.music := rfl
@[simp] theorem State.withPat_cursor (s : State) (v : Pattern) : (s.withPat v).cursor = s.cursor := rfl
@[simp] theorem State.withPat_lp (s : State) (v : Pattern) : (s.withPat v).lp = s.lp := rfl
@[simp] theorem State.withPat_sig (s : State) (v : Pattern) : (s.withPat v).sig = s.sig := rfl
@[simp] theorem State.withPat_wakePending (s : State) (v : Pattern) : (s.withPat v).wakePending = s.wakePending := rfl
@[simp] theorem State.withPat_frameCnt (s : State) (v : Pattern) : (s.withPat v).frameCnt = s.frameCnt := rfl
@[simp] theorem State.withPat_alpha (s : State) (v : Pattern) : (s.withPat v).alpha = s.alpha := rfl
@[simp] theorem State.withPat_mem (s : State) (v : Pattern) : (s.withPat v).mem = s.mem := rfl
@[simp] theorem State.withPat_errlog (s : State) (v : Pattern) : (s.withPat v).errlog = s.errlog := rfl
@[simp] theorem State.withPat_ret (s : State) (v : Pattern) : (s.withPat v).ret = s.ret := rfl
@[simp] theorem State.withPat_wakeDelay (s : State) (v : Pattern) : (s.withPat v).wakeDelay = s.wakeDelay := rfl
@[simp] theorem State.withPat_hostReads (s : State) (v : Pattern) : (s.withPat v).hostReads = s.hostReads := rfl
@[simp] theorem State.withPat_cfg (s : State) (v : Pattern) : (s.withPat v).cfg = s.cfg := rfl
@[simp] theorem State.withPat_inputs (s : State) (v : Pattern) : (s.withPat v).inputs = s.inputs := rfl
@[simp] theorem State.withPat_beams (s : State) (v : Pattern) : (s.withPat v).beams = s.beams := rfl
@[simp] theorem State.withPat_inbox (s : State) (v : Pattern) : (s.withPat v).inbox = s.inbox := rfl
@[simp] theorem State.withPat_clock (s : State) (v : Pattern) : (s.withPat v).clock = s.clock := rfl
@[simp] theorem State.withPat_withPat (s : State) (v w : Pattern) : (s.withPat v).withPat w = s.withPat w := rfl
@[simp] theorem State.withPat_self (s : State) : s.withPat s.pat = s := rfl

/-! ### withEnds -/

@[simp] theorem State.withEnds_dataW (s : State) (v : Endpoints) : (s.withEnds v).dataW = s.dataW := rfl
@[simp] theorem State.withEnds_dataR (s : State) (v : Endpoints) : (s.withEnds v).dataR = s.dataR := rfl
@[simp] theorem State.withEnds_cr (s : State) (v : Endpoints) : (s.withEnds v).cr = s.cr := rfl
@[simp] theorem State.withEnds_fsm (s : State) (v : Endpoints) : (s.withEnds v).fsm = s.fsm := rfl
@[simp] theorem State.withEnds_io (s : State) (v : Endpoints) : (s.withEnds v).io = s.io := rfl
@[simp] theorem State.withEnds_ctl (s : State) (v : Endpoints) : (s.withEnds v).ctl = s.ctl := rfl
@[simp] theorem State.withEnds_pat (s : State) (v : Endpoints) : (s.withEnds v).pat = s.pat := rfl
@[simp] theorem State.withEnds_ends (s : State) (v : Endpoints) : (s.withEnds v).ends = v := rfl
@[simp] theorem State.withEnds_music (s : State) (v : Endpoints) : (s.withEnds v).music = s.music := rfl
@[simp] theorem State.withEnds_cursor (s : State) (v : Endpoints) : (s.withEnds v).cursor = s.cursor := rfl
@[simp] theorem State.withEnds_lp (s : State) (v : Endpoints) : (s.withEnds v).lp = s.lp := rfl
@[simp] theorem State.withEnds_sig (s : State) (v : Endpoints) : (s.withEnds v).sig = s.sig := rfl
@[simp] theorem State.withEnds_wakePending (s : State) (v : Endpoints) : (s.withEnds v).wakePending = s.wakePending := rfl
@[simp] theorem State.withEnds_frameCnt (s : State) (v : Endpoints) : (s.withEnds v).frameCnt = s.frameCnt := rfl
@[simp] theorem State.withEnds_alpha (s : State) (v : Endpoints) : (s.withEnds v).alpha = s.alpha := rfl
@[simp] theorem State.withEnds_mem (s : State) (v : Endpoints) : (s.withEnds v).mem = s.mem := rfl
@[simp] theorem State.withEnds_errlog (s : State) (v : Endpoints) : (s.withEnds v).errlog = s.errlog := rfl
@[simp] theorem State.withEnds_ret (s : State) (v : Endpoints) : (s.withEnds v).ret = s.ret := rfl
@[simp] theorem State.withEnds_wakeDelay (s : State) (v : Endpoints) : (s.withEnds v).wakeDelay = s.wakeDelay := rfl
@[simp] theorem State.withEnds_hostReads (s : State) (v : Endpoints) : (s.withEnds v).hostReads = s.hostReads := rfl
@[simp] theorem State.withEnds_cfg (s : State) (v : Endpoints) : (s.withEnds v).cfg = s.cfg := rfl
@[simp] theorem State.withEnds_inputs (s : State) (v : Endpoints) : (s.withEnds v).inputs = s.inputs := rfl
@[simp] theorem State.withEnds_beams (s : State) (v : Endpoints) : (s.withEnds v).beams = s.beams := rfl
@[simp] theorem State.withEnds_inbox (s : State) (v : Endpoints) : (s.withEnds v).inbox = s.inbox := rfl
@[simp] theorem State.withEnds_clock (s : State) (v : Endpoints) : (s.withEnds v).clock = s.clock := rfl
@[simp] theorem State.withEnds_withEnds (s : State) (v w : Endpoints) : (s.withEnds v).withEnds w = s.withEnds w := rfl
@[simp] theorem State.withEnds_self (s : State) : s.withEnds s.ends = s := rfl

/-! ### withMusic -/

@[simp] theorem State.withMusic_dataW (s : State) (v : Vector Nat 8) : (s.withMusic v).dataW = s.dataW := rfl
@[simp] theorem State.withMusic_dataR (s : State) (v : Vector Nat 8) : (s.withMusic v).dataR = s.dataR := rfl
@[simp] theorem State.withMusic_cr (s : State) (v : Vector Nat 8) : (s.withMusic v).cr = s.cr := rfl
@[simp] theorem State.withMusic_fsm (s : State) (v : Vector Nat 8) : (s.withMusic v).fsm = s.fsm := rfl
@[simp] theorem State.withMusic_io (s : State) (v : Vector Nat 8) : (s.withMusic v).io = s.io := rfl
@[simp] theorem State.withMusic_ctl (s : State) (v : Vector Nat 8) : (s.withMusic v).ctl = s.ctl := rfl
@[simp] theorem State.withMusic_pat (s : State) (v : Vector Nat 8) : (s.withMusic v).pat = s.pat := rfl
@[simp] theorem State.withMusic_ends (s : State) (v : Vector Nat 8) : (s.withMusic v).ends = s.ends := rfl
@[simp] theorem State.withMusic_music (s : State) (v : Vector Nat 8) : (s.withMusic v).music = v := rfl
@[simp] theorem State.withMusic_cursor (s : State) (v : Vector Nat 8) : (s.withMusic v).cursor = s.cursor := rfl
@[simp] theorem State.withMusic_lp (s : State) (v : Vector Nat 8) : (s.withMusic v).lp = s.lp := rfl
@[simp] theorem State.withMusic_sig (s : State) (v : Vector Nat 8) : (s.withMusic v).sig = s.sig := rfl
@[simp] theorem State.withMusic_wakePending (s : State) (v : Vector Nat 8) : (s.withMusic v).wakePending = s.wakePending := rfl
@[simp] theorem State.withMusic_frameCnt (s : State) (v : Vector Nat 8) : (s.withMusic v).frameCnt = s.frameCnt := rfl
@[simp] theorem State.withMusic_alpha (s : State) (v : Vector Nat 8) : (s.withMusic v).alpha = s.alpha := rfl
@[simp] theorem State.withMusic_mem (s : State) (v : Vector Nat 8) : (s.withMusic v).mem = s.mem := rfl
@[simp] theorem State.withMusic_errlog (s : State) (v : Vector Nat 8) : (s.withMusic v).errlog = s.errlog := rfl
@[simp] theorem State.withMusic_ret (s : State) (v : Vector Nat 8) : (s.withMusic v).ret = s.ret := rfl
@[simp] theorem State.withMusic_wakeDelay (s : State) (v : Vector Nat 8) : (s.withMusic v).wakeDelay = s.wakeDelay := rfl
@[simp] theorem State.withMusic_hostReads (s : State) (v : Vector Nat 8) : (s.withMusic v).hostReads = s.hostReads := rfl
@[simp] theorem State.withMusic_cfg (s : State) (v : Vector Nat 8) : (s.withMusic v).cfg = s.cfg := rfl
@[simp] theorem State.withMusic_inputs (s : State) (v : Vector Nat 8) : (s.withMusic v).inputs = s.inputs := rfl
@[simp] theorem State.withMusic_beams (s : State) (v : Vector Nat 8) : (s.withMusic v).beams = s.beams := rfl
@[simp] theorem State.withMusic_inbox (s : State) (v : Vector Nat 8) : (s.withMusic v).inbox = s.inbox := rfl
@[simp] theorem State.withMusic_clock (s : State) (v : Vector Nat 8) : (s.withMusic v).clock = s.clock := rfl
@[simp] theorem State.withMusic_withMusic (s : State) (v w : Vector Nat 8) : (s.withMusic v).withMusic w = s.withMusic w := rfl
@[simp] theorem State.withMusic_self (s : State) : s.withMusic s.music = s := rfl

/-! ### withCursor -/

@[simp] theorem State.withCursor_dataW (s : State) (v : Cursor) : (s.withCursor v).dataW = s.dataW := rfl
@[simp] theorem State.withCursor_dataR (s : State) (v : Cursor) : (s.withCursor v).dataR = s.dataR := rfl
@[simp] theorem State.withCursor_cr (s : State) (v : Cursor) : (s.withCursor v).cr = s.cr := rfl
@[simp] theorem State.withCursor_fsm (s : State) (v : Cursor) : (s.withCursor v).fsm = s.fsm := rfl
@[simp] theorem State.withCursor_io (s : State) (v : Cursor) : (s.withCursor v).io = s.io := rfl
@[simp] theorem State.withCursor_ctl (s : State) (v : Cursor) : (s.withCursor v).ctl = s.ctl := rfl
@[simp] theorem State.withCursor_pat (s : State) (v : Cursor) : (s.withCursor v).pat = s.pat := rfl
@[simp] theorem State.withCursor_ends (s : State) (v : Cursor) : (s.withCursor v).ends = s.ends := rfl
@[simp] theorem State.withCursor_music (s : State) (v : Cursor) : (s.withCursor v).music = s.music := rfl
@[simp] theorem State.withCursor_cursor (s : State) (v : Cursor) : (s.withCursor v).cursor = v := rfl
@[simp] theorem State.withCursor_lp (s : State) (v : Cursor) : (s.withCursor v).lp = s.lp := rfl
@[simp] theorem State.withCursor_sig (s : State) (v : Cursor) : (s.withCursor v).sig = s.sig := rfl
@[simp] theorem State.withCursor_wakePending (s : State) (v : Cursor) : (s.withCursor v).wakePending = s.wakePending := rfl
@[simp] theorem State.withCursor_frameCnt (s : State) (v : Cursor) : (s.withCursor v).frameCnt = s.frameCnt := rfl
@[simp] theorem State.withCursor_alpha (s : State) (v : Cursor) : (s.withCursor v).alpha = s.alpha := rfl
@[simp] theorem State.withCursor_mem (s : State) (v : Cursor) : (s.withCursor v).mem = s.mem := rfl
@[simp] theorem State.withCursor_errlog (s : State) (v : Cursor) : (s.withCursor v).errlog = s.errlog := rfl
@[simp] theorem State.withCursor_ret (s : State) (v : Cursor) : (s.withCursor v).ret = s.ret := rfl
@[simp] theorem State.withCursor_wakeDelay (s : State) (v : Cursor) : (s.withCursor v).wakeDelay = s.wakeDelay := rfl
@[simp] theorem State.withCursor_hostReads (s : State) (v : Cursor) : (s.withCursor v).hostReads = s.hostReads := rfl
@[simp] theorem State.withCursor_cfg (s : State) (v : Cursor) : (s.withCursor v).cfg = s.cfg := rfl
@[simp] theorem State.withCursor_inputs (s : State) (v : Cursor) : (s.withCursor v).inputs = s.inputs := rfl
@[simp] theorem State.withCursor_beams (s : State) (v : Cursor) : (s.withCursor v).beams = s.beams := rfl
@[simp] theorem State.withCursor_inbox (s : State) (v : Cursor) : (s.withCursor v).inbox = s.inbox := rfl
@[simp] theorem State.withCursor_clock (s : State) (v : Cursor) : (s.withCursor v).clock = s.clock := rfl
@[simp] theorem State.withCursor_withCursor (s : State) (v w : Cursor) : (s.withCursor v).withCursor w = s.withCursor w := rfl
@[simp] theorem State.withCursor_self (s : State) : s.withCursor s.cursor = s := rfl

/-! ### withLp -/

@[simp] theorem State.withLp_dataW (s : State) (v : LightPen) : (s.withLp v).dataW = s.dataW := rfl
@[simp] theorem State.withLp_dataR (s : State) (v : LightPen) : (s.withLp v).dataR = s.dataR := rfl
@[simp] theorem State.withLp_cr (s : State) (v : LightPen) : (s.withLp v).cr = s.cr := rfl
@[simp] theorem State.withLp_fsm (s : State) (v : LightPen) : (s.withLp v).fsm = s.fsm := rfl
@[simp] theorem State.withLp_io (s : State) (v : LightPen) : (s.withLp v).io = s.io := rfl
@[simp] theorem State.withLp_ctl (s : State) (v : LightPen) : (s.withLp v).ctl = s.ctl := rfl
@[simp] theorem State.withLp_pat (s : State) (v : LightPen) : (s.withLp v).pat = s.pat := rfl
@[simp] theorem State.withLp_ends (s : State) (v : LightPen) : (s.withLp v).ends = s.ends := rfl
@[simp] theorem State.withLp_music (s : State) (v : LightPen) : (s.withLp v).music = s.music := rfl
@[simp] theorem State.withLp_cursor (s : State) (v : LightPen) : (s.withLp v).cursor = s.cursor := rfl
@[simp] theorem State.withLp_lp (s : State) (v : LightPen) : (s.withLp v).lp = v := rfl
@[simp] theorem State.withLp_sig (s : State) (v : LightPen) : (s.withLp v).sig = s.sig := rfl
@[simp] theorem State.withLp_wakePending (s : State) (v : LightPen) : (s.withLp v).wakePending = s.wakePending := rfl
@[simp] theorem State.withLp_frameCnt (s : State) (v : LightPen) : (s.withLp v).frameCnt = s.frameCnt := rfl
@[simp] theorem State.withLp_alpha (s : State) (v : LightPen) : (s.withLp v).alpha = s.alpha := rfl
@[simp] theorem State.withLp_mem (s : State) (v : LightPen) : (s.withLp v).mem = s.mem := rfl
@[simp] theorem State.withLp_errlog (s : State) (v : LightPen) : (s.withLp v).errlog = s.errlog := rfl
@[simp] theorem State.withLp_ret (s : State) (v : LightPen) : (s.withLp v).ret = s.ret := rfl
@[simp] theorem State.withLp_wakeDelay (s : State) (v : LightPen) : (s.withLp v).wakeDelay = s.wakeDelay := rfl
@[simp] theorem State.withLp_hostReads (s : State) (v : LightPen) : (s.withLp v).hostReads = s.hostReads := rfl
@[simp] theorem State.withLp_cfg (s : State) (v : LightPen) : (s.withLp v).cfg = s.cfg := rfl
@[simp] theorem State.withLp_inputs (s : State) (v : LightPen) : (s.withLp v).inputs = s.inputs := rfl
@[simp] theorem State.withLp_beams (s : State) (v : LightPen) : (s.withLp v).beams = s.beams := rfl
@[simp] theorem State.withLp_inbox (s : State) (v : LightPen) : (s.withLp v).inbox = s.inbox := rfl
@[simp] theorem State.withLp_clock (s : State) (v : LightPen) : (s.withLp v).clock = s.clock := rfl
@[simp] theorem State.withLp_withLp (s : State) (v w : LightPen) : (s.withLp v).withLp w = s.withLp w := rfl
@[simp] theorem State.withLp_self (s : State) : s.withLp s.lp = s := rfl

/-! ### withSig -/

@[simp] theorem State.withSig_dataW (s : State) (v : Signals) : (s.withSig v).dataW = s.dataW := rfl
@[simp] theorem State.withSig_dataR (s : State) (v : Signals) : (s.withSig v).dataR = s.dataR := rfl
@[simp] theorem State.withSig_cr (s : State) (v : Signals) : (s.withSig v).cr = s.cr := rfl
@[simp] theorem State.withSig_fsm (s : State) (v : Signals) : (s.withSig v).fsm = s.fsm := rfl
@[simp] theorem State.withSig_io (s : State) (v : Signals) : (s.withSig v).io = s.io := rfl
@[simp] theorem State.withSig_ctl (s : State) (v : Signals) : (s.withSig v).ctl = s.ctl := rfl
@[simp] theorem State.withSig_pat (s : State) (v : Signals) : (s.withSig v).pat = s.pat := rfl
@[simp] theorem State.withSig_ends (s : State) (v : Signals) : (s.withSig v).ends = s.ends := rfl
@[simp] theorem State.withSig_music (s : State) (v : Signals) : (s.withSig v).music = s.music := rfl
@[simp] theorem State.withSig_cursor (s : State) (v : Signals) : (s.withSig v).cursor = s.cursor := rfl
@[simp] theorem State.withSig_lp (s : State) (v : Signals) : (s.withSig v).lp = s.lp := rfl
@[simp] theorem State.withSig_sig (s : State) (v : Signals) : (s.withSig v).sig = v := rfl
@[simp] theorem State.withSig_wakePending (s : State) (v : Signals) : (s.withSig v).wakePending = s.wakePending := rfl
@[simp] theorem State.withSig_frameCnt (s : State) (v : Signals) : (s.withSig v).frameCnt = s.frameCnt := rfl
@[simp] theorem State.withSig_alpha (s : State) (v : Signals) : (s.withSig v).alpha = s.alpha := rfl
@[simp] theorem State.withSig_mem (s : State) (v : Signals) : (s.withSig v).mem = s.mem := rfl
@[simp] theorem State.withSig_errlog (s : State) (v : Signals) : (s.withSig v).errlog = s.errlog := rfl
@[simp] theorem State.withSig_ret (s : State) (v : Signals) : (s.withSig v).ret = s.ret := rfl
@[simp] theorem State.withSig_wakeDelay (s : State) (v : Signals) : (s.withSig v).wakeDelay = s.wakeDelay := rfl
@[simp] theorem State.withSig_hostReads (s : State) (v : Signals) : (s.withSig v).hostReads = s.hostReads := rfl
@[simp] theorem State.withSig_cfg (s : State) (v : Signals) : (s.withSig v).cfg = s.cfg := rfl
@[simp] theorem State.withSig_inputs (s : State) (v : Signals) : (s.withSig v).inputs = s.inputs := rfl
@[simp] theorem State.withSig_beams (s : State) (v : Signals) : (s.withSig v).beams = s.beams := rfl
@[simp] theorem State.withSig_inbox (s : State) (v : Signals) : (s.withSig v).inbox = s.inbox := rfl
@[simp] theorem State.withSig_clock (s : State) (v : Signals) : (s.withSig v).clock = s.clock := rfl
@[simp] theorem State.withSig_withSig (s : State) (v w : Signals) : (s.withSig v).withSig w = s.withSig w := rfl
@[simp] theorem State.withSig_self (s : State) : s.withSig s.sig = s := rfl

/-! ### withWakePending -/

@[simp] theorem State.withWakePending_dataW (s : State) (v : Bool) : (s.withWakePending v).dataW = s.dataW := rfl
@[simp] theorem State.withWakePending_dataR (s : State) (v : Bool) : (s.withWakePending v).dataR = s.dataR := rfl
@[simp] theorem State.withWakePending_cr (s : State) (v : Bool) : (s.withWakePending v).cr = s.cr := rfl
@[simp] theorem State.withWakePending_fsm (s : State) (v : Bool) : (s.withWakePending v).fsm = s.fsm := rfl
@[simp] theorem State.withWakePending_io (s : State) (v : Bool) : (s.withWakePending v).io = s.io := rfl
@[simp] theorem State.withWakePending_ctl (s : State) (v : Bool) : (s.withWakePending v).ctl = s.ctl := rfl
@[simp] theorem State.withWakePending_pat (s : State) (v : Bool) : (s.withWakePending v).pat = s.pat := rfl
@[simp] theorem State.withWakePending_ends (s : State) (v : Bool) : (s.withWakePending v).ends = s.ends := rfl
@[simp] theorem State.withWakePending_music (s : State) (v : Bool) : (s.withWakePending v).music = s.music := rfl
@[simp] theorem State.withWakePending_cursor (s : State) (v : Bool) : (s.withWakePending v).cursor = s.cursor := rfl
@[simp] theorem State.withWakePending_lp (s : State) (v : Bool) : (s.withWakePending v).lp = s.lp := rfl
@[simp] theorem State.withWakePending_sig (s : State) (v : Bool) : (s.withWakePending v).sig = s.sig := rfl
@[simp] theorem State.withWakePending_wakePending (s : State) (v : Bool) : (s.withWakePending v).wakePending = v := rfl
@[simp] theorem State.withWakePending_frameCnt (s : State) (v : Bool) : (s.withWakePending v).frameCnt = s.frameCnt := rfl
@[simp] theorem State.withWakePending_alpha (s : State) (v : Bool) : (s.withWakePending v).alpha = s.alpha := rfl
@[simp] theorem State.withWakePending_mem (s : State) (v : Bool) : (s.withWakePending v).mem = s.mem := rfl
@[simp] theorem State.withWakePending_errlog (s : State) (v : Bool) : (s.withWakePending v).errlog = s.errlog := rfl
@[simp] theorem State.withWakePending_ret (s : State) (v : Bool) : (s.withWakePending v).ret = s.ret := rfl
@[simp] theorem State.withWakePending_wakeDelay (s : State) (v : Bool) : (s.withWakePending v).wakeDelay = s.wakeDelay := rfl
@[simp] theorem State.withWakePending_hostReads (s : State) (v : Bool) : (s.withWakePending v).hostReads = s.hostReads := rfl
@[simp] theorem State.withWakePending_cfg (s : State) (v : Bool) : (s.withWakePending v).cfg = s.cfg := rfl
@[simp] theorem State.withWakePending_inputs (s : State) (v : Bool) : (s.withWakePending v).inputs = s.inputs := rfl
@[simp] theorem State.withWakePending_beams (s : State) (v : Bool) : (s.withWakePending v).beams = s.beams := rfl
@[simp] theorem State.withWakePending_inbox (s : State) (v : Bool) : (s.withWakePending v).inbox = s.inbox := rfl
@[simp] theorem State.withWakePending_clock (s : State) (v : Bool) : (s.withWakePending v).clock = s.clock := rfl
@[simp] theorem State.withWakePending_withWakePending (s : State) (v w : Bool) : (s.withWakePending v).withWakePending w = s.withWakePending w := rfl
@[simp] theorem State.withWakePending_self (s : State) : s.withWakePending s.wakePending = s := rfl

/-! ### withFrameCnt -/

@[simp] theorem State.withFrameCnt_dataW (s : State) (v : BitVec 6) : (s.withFrameCnt v).dataW = s.dataW := rfl
@[simp] theorem State.withFrameCnt_dataR (s : State) (v : BitVec 6) : (s.withFrameCnt v).dataR = s.dataR := rfl
@[simp] theorem State.withFrameCnt_cr (s : State) (v : BitVec 6) : (s.withFrameCnt v).cr = s.cr := rfl
@[simp] theorem State.withFrameCnt_fsm (s : State) (v : BitVec 6) : (s.withFrameCnt v).fsm = s.fsm := rfl
@[simp] theorem State.withFrameCnt_io (s : State) (v : BitVec 6) : (s.withFrameCnt v).io = s.io := rfl
@[simp] theorem State.withFrameCnt_ctl (s : State) (v : BitVec 6) : (s.withFrameCnt v).ctl = s.ctl := rfl
@[simp] theorem State.withFrameCnt_pat (s : State) (v : BitVec 6) : (s.withFrameCnt v).pat = s.pat := rfl
@[simp] theorem State.withFrameCnt_ends (s : State) (v : BitVec 6) : (s.withFrameCnt v).ends = s.ends := rfl
@[simp] theorem State.withFrameCnt_music (s : State) (v : BitVec 6) : (s.withFrameCnt v).music = s.music := rfl
@[simp] theorem State.withFrameCnt_cursor (s : State) (v : BitVec 6) : (s.withFrameCnt v).cursor = s.cursor := rfl
@[simp] theorem State.withFrameCnt_lp (s : State) (v : BitVec 6) : (s.withFrameCnt v).lp = s.lp := rfl
@[simp] theorem State.withFrameCnt_sig (s : State) (v : BitVec 6) : (s.withFrameCnt v).sig = s.sig := rfl
@[simp] theorem State.withFrameCnt_wakePending (s : State) (v : BitVec 6) : (s.withFrameCnt v).wakePending = s.wakePending := rfl
@[simp] theorem State.withFrameCnt_frameCnt (s : State) (v : BitVec 6) : (s.withFrameCnt v).frameCnt = v := rfl
@[simp] theorem State.withFrameCnt_alpha (s : State) (v : BitVec 6) : (s.withFrameCnt v).alpha = s.alpha := rfl
@[simp] theorem State.withFrameCnt_mem (s : State) (v : BitVec 6) : (s.withFrameCnt v).mem = s.mem := rfl
@[simp] theorem State.withFrameCnt_errlog (s : State) (v : BitVec 6) : (s.withFrameCnt v).errlog = s.errlog := rfl
@[simp] theorem State.withFrameCnt_ret (s : State) (v : BitVec 6) : (s.withFrameCnt v).ret = s.ret := rfl
@[simp] theorem State.withFrameCnt_wakeDelay (s : State) (v : BitVec 6) : (s.withFrameCnt v).wakeDelay = s.wakeDelay := rfl
@[simp] theorem State.withFrameCnt_hostReads (s : State) (v : BitVec 6) : (s.withFrameCnt v).hostReads = s.hostReads := rfl
@[simp] theorem State.withFrameCnt_cfg (s : State) (v : BitVec 6) : (s.withFrameCnt v).cfg = s.cfg := rfl
@[simp] theorem State.withFrameCnt_inputs (s : State) (v : BitVec 6) : (s.withFrameCnt v).inputs = s.inputs := rfl
@[simp] theorem State.withFrameCnt_beams (s : State) (v : BitVec 6) : (s.withFrameCnt v).beams = s.beams := rfl
@[simp] theorem State.withFrameCnt_inbox (s : State) (v : BitVec 6) : (s.withFrameCnt v).inbox = s.inbox := rfl
@[simp] theorem State.withFrameCnt_clock (s : State) (v : BitVec 6) : (s.withFrameCnt v).clock = s.clock := rfl
@[simp] theorem State.withFrameCnt_withFrameCnt (s : State) (v w : BitVec 6) : (s.withFrameCnt v).withFrameCnt w = s.withFrameCnt w := rfl
@[simp] theorem State.withFrameCnt_self (s : State) : s.withFrameCnt s.frameCnt = s := rfl

/-! ### withAlpha -/

@[simp] theorem State.withAlpha_dataW (s : State) (v : Alpha) : (s.withAlpha v).dataW = s.dataW := rfl
@[simp] theorem State.withAlpha_dataR (s : State) (v : Alpha) : (s.withAlpha v).dataR = s.dataR := rfl
@[simp] theorem State.withAlpha_cr (s : State) (v : Alpha) : (s.withAlpha v).cr = s.cr := rfl
@[simp] theorem State.withAlpha_fsm (s : State) (v : Alpha) : (s.withAlpha v).fsm = s.fsm := rfl
@[simp] theorem State.withAlpha_io (s : State) (v : Alpha) : (s.withAlpha v).io = s.io := rfl
@[simp] theorem State.withAlpha_ctl (s : State) (v : Alpha) : (s.withAlpha v).ctl = s.ctl := rfl
@[simp] theorem State.withAlpha_pat (s : State) (v : Alpha) : (s.withAlpha v).pat = s.pat := rfl
@[simp] theorem State.withAlpha_ends (s : State) (v : Alpha) : (s.withAlpha v).ends = s.ends := rfl
@[simp] theorem State.withAlpha_music (s : State) (v : Alpha) : (s.withAlpha v).music = s.music := rfl
@[simp] theorem State.withAlpha_cursor (s : State) (v : Alpha) : (s.withAlpha v).cursor = s.cursor := rfl
@[simp] theorem State.withAlpha_lp (s : State) (v : Alpha) : (s.withAlpha v).lp = s.lp := rfl
@[simp] theorem State.withAlpha_sig (s : State) (v : Alpha) : (s.withAlpha v).sig = s.sig := rfl
@[simp] theorem State.withAlpha_wakePending (s : State) (v : Alpha) : (s.withAlpha v).wakePending = s.wakePending := rfl
@[simp] theorem State.withAlpha_frameCnt (s : State) (v : Alpha) : (s.withAlpha v).frameCnt = s.frameCnt := rfl
@[simp] theorem State.withAlpha_alpha (s : State) (v : Alpha) : (s.withAlpha v).alpha = v := rfl
@[simp] theorem State.withAlpha_mem (s : State) (v : Alpha) : (s.withAlpha v).mem = s.mem := rfl
@[simp] theorem State.withAlpha_errlog (s : State) (v : Alpha) : (s.withAlpha v).errlog = s.errlog := rfl
@[simp] theorem State.withAlpha_ret (s : State) (v : Alpha) : (s.withAlpha v).ret = s.ret := rfl
@[simp] theorem State.withAlpha_wakeDelay (s : State) (v : Alpha) : (s.withAlpha v).wakeDelay = s.wakeDelay := rfl
@[simp] theorem State.withAlpha_hostReads (s : State) (v : Alpha) : (s.withAlpha v).hostReads = s.hostReads := rfl
@[simp] theorem State.withAlpha_cfg (s : State) (v : Alpha) : (s.withAlpha v).cfg = s.cfg := rfl
@[simp] theorem State.withAlpha_inputs (s : State) (v : Alpha) : (s.withAlpha v).inputs = s.inputs := rfl
@[simp] theorem State.withAlpha_beams (s : State) (v : Alpha) : (s.withAlpha v).beams = s.beams := rfl
@[simp] theorem State.withAlpha_inbox (s : State) (v : Alpha) : (s.withAlpha v).inbox = s.inbox := rfl
@[simp] theorem State.withAlpha_clock (s : State) (v : Alpha) : (s.withAlpha v).clock = s.clock := rfl
@[simp] theorem State.withAlpha_withAlpha (s : State) (v w : Alpha) : (s.withAlpha v).withAlpha w = s.withAlpha w := rfl
@[simp] theorem State.withAlpha_self (s : State) : s.withAlpha s.alpha = s := rfl

/-! ### withMem -/

@[simp] theorem State.withMem_dataW (s : State) (v : Memory) : (s.withMem v).dataW = s.dataW := rfl
@[simp] theorem State.withMem_dataR (s : State) (v : Memory) : (s.withMem v).dataR = s.dataR := rfl
@[simp] theorem State.withMem_cr (s : State) (v : Memory) : (s.withMem v).cr = s.cr := rfl
@[simp] theorem State.withMem_fsm (s : State) (v : Memory) : (s.withMem v).fsm = s.fsm := rfl
@[simp] theorem State.withMem_io (s : State) (v : Memory) : (s.withMem v).io = s.io := rfl
@[simp] theorem State.withMem_ctl (s : State) (v : Memory) : (s.withMem v).ctl = s.ctl := rfl
@[simp] theorem State.withMem_pat (s : State) (v : Memory) : (s.withMem v).pat = s.pat := rfl
@[simp] theorem State.withMem_ends (s : State) (v : Memory) : (s.withMem v).ends = s.ends := rfl
@[simp] theorem State.withMem_music (s : State) (v : Memory) : (s.withMem v).music = s.music := rfl
@[simp] theorem State.withMem_cursor (s : State) (v : Memory) : (s.withMem v).cursor = s.cursor := rfl
@[simp] theorem State.withMem_lp (s : State) (v : Memory) : (s.withMem v).lp = s.lp := rfl
@[simp] theorem State.withMem_sig (s : State) (v : Memory) : (s.withMem v).sig = s.sig := rfl
@[simp] theorem State.withMem_wakePending (s : State) (v : Memory) : (s.withMem v).wakePending = s.wakePending := rfl
@[simp] theorem State.withMem_frameCnt (s : State) (v : Memory) : (s.withMem v).frameCnt = s.frameCnt := rfl
@[simp] theorem State.withMem_alpha (s : State) (v : Memory) : (s.withMem v).alpha = s.alpha := rfl
@[simp] theorem State.withMem_mem (s : State) (v : Memory) : (s.withMem v).mem = v := rfl
@[simp] theorem State.withMem_errlog (s : State) (v : Memory) : (s.withMem v).errlog = s.errlog := rfl
@[simp] theorem State.withMem_ret (s : State) (v : Memory) : (s.withMem v).ret = s.ret := rfl
@[simp] theorem State.withMem_wakeDelay (s : State) (v : Memory) : (s.withMem v).wakeDelay = s.wakeDelay := rfl
@[simp] theorem State.withMem_hostReads (s : State) (v : Memory) : (s.withMem v).hostReads = s.hostReads := rfl
@[simp] theorem State.withMem_cfg (s : State) (v : Memory) : (s.withMem v).cfg = s.cfg := rfl
@[simp] theorem State.withMem_inputs (s : State) (v : Memory) : (s.withMem v).inputs = s.inputs := rfl
@[simp] theorem State.withMem_beams (s : State) (v : Memory) : (s.withMem v).beams = s.beams := rfl
@[simp] theorem State.withMem_inbox (s : State) (v : Memory) : (s.withMem v).inbox = s.inbox := rfl
@[simp] theorem State.withMem_clock (s : State) (v : Memory) : (s.withMem v).clock = s.clock := rfl
@[simp] theorem State.withMem_withMem (s : State) (v w : Memory) : (s.withMem v).withMem w = s.withMem w := rfl
@[simp] theorem State.withMem_self (s : State) : s.withMem s.mem = s := rfl

/-! ### withErrlog -/

@[simp] theorem State.withErrlog_dataW (s : State) (v : List ErrRecord) : (s.withErrlog v).dataW = s.dataW := rfl
@[simp] theorem State.withErrlog_dataR (s : State) (v : List ErrRecord) : (s.withErrlog v).dataR = s.dataR := rfl
@[simp] theorem State.withErrlog_cr (s : State) (v : List ErrRecord) : (s.withErrlog v).cr = s.cr := rfl
@[simp] theorem State.withErrlog_fsm (s : State) (v : List ErrRecord) : (s.withErrlog v).fsm = s.fsm := rfl
@[simp] theorem State.withErrlog_io (s : State) (v : List ErrRecord) : (s.withErrlog v).io = s.io := rfl
@[simp] theorem State.withErrlog_ctl (s : State) (v : List ErrRecord) : (s.withErrlog v).ctl = s.ctl := rfl
@[simp] theorem State.withErrlog_pat (s : State) (v : List ErrRecord) : (s.withErrlog v).pat = s.pat := rfl
@[simp] theorem State.withErrlog_ends (s : State) (v : List ErrRecord) : (s.withErrlog v).ends = s.ends := rfl
@[simp] theorem State.withErrlog_music (s : State) (v : List ErrRecord) : (s.withErrlog v).music = s.music := rfl
@[simp] theorem State.withErrlog_cursor (s : State) (v : List ErrRecord) : (s.withErrlog v).cursor = s.cursor := rfl
@[simp] theorem State.withErrlog_lp (s : State) (v : List ErrRecord) : (s.withErrlog v).lp = s.lp := rfl
@[simp] theorem State.withErrlog_sig (s : State) (v : List ErrRecord) : (s.withErrlog v).sig = s.sig := rfl
@[simp] theorem State.withErrlog_wakePending (s : State) (v : List ErrRecord) : (s.withErrlog v).wakePending = s.wakePending := rfl
@[simp] theorem State.withErrlog_frameCnt (s : State) (v : List ErrRecord) : (s.withErrlog v).frameCnt = s.frameCnt := rfl
@[simp] theorem State.withErrlog_alpha (s : State) (v : List ErrRecord) : (s.withErrlog v).alpha = s.alpha := rfl
@[simp] theorem State.withErrlog_mem (s : State) (v : List ErrRecord) : (s.withErrlog v).mem = s.mem := rfl
@[simp] theorem State.withErrlog_errlog (s : State) (v : List ErrRecord) : (s.withErrlog v).errlog = v := rfl
@[simp] theorem State.withErrlog_ret (s : State) (v : List ErrRecord) : (s.withErrlog v).ret = s.ret := rfl
@[simp] theorem State.withErrlog_wakeDelay (s : State) (v : List ErrRecord) : (s.withErrlog v).wakeDelay = s.wakeDelay := rfl
@[simp] theorem State.withErrlog_hostReads (s : State) (v : List ErrRecord) : (s.withErrlog v).hostReads = s.hostReads := rfl
@[simp] theorem State.withErrlog_cfg (s : State) (v : List ErrRecord) : (s.withErrlog v).cfg = s.cfg := rfl
@[simp] theorem State.withErrlog_inputs (s : State) (v : List ErrRecord) : (s.withErrlog v).inputs = s.inputs := rfl
@[simp] theorem State.withErrlog_beams (s : State) (v : List ErrRecord) : (s.withErrlog v).beams = s.beams := rfl
@[simp] theorem State.withErrlog_inbox (s : State) (v : List ErrRecord) : (s.withErrlog v).inbox = s.inbox := rfl
@[simp] theorem State.withErrlog_clock (s : State) (v : List ErrRecord) : (s.withErrlog v).clock = s.clock := rfl
@[simp] theorem State.withErrlog_withErrlog (s : State) (v w : List ErrRecord) : (s.withErrlog v).withErrlog w = s.withErrlog w := rfl
@[simp] theorem State.withErrlog_self (s : State) : s.withErrlog s.errlog = s := rfl

/-! ### withRet -/

@[simp] theorem State.withRet_dataW (s : State) (v : Ret) : (s.withRet v).dataW = s.dataW := rfl
@[simp] theorem State.withRet_dataR (s : State) (v : Ret) : (s.withRet v).dataR = s.dataR := rfl
@[simp] theorem State.withRet_cr (s : State) (v : Ret) : (s.withRet v).cr = s.cr := rfl
@[simp] theorem State.withRet_fsm (s : State) (v : Ret) : (s.withRet v).fsm = s.fsm := rfl
@[simp] theorem State.withRet_io (s : State) (v : Ret) : (s.withRet v).io = s.io := rfl
@[simp] theorem State.withRet_ctl (s : State) (v : Ret) : (s.withRet v).ctl = s.ctl := rfl
@[simp] theorem State.withRet_pat (s : State) (v : Ret) : (s.withRet v).pat = s.pat := rfl
@[simp] theorem State.withRet_ends (s : State) (v : Ret) : (s.withRet v).ends = s.ends := rfl
@[simp] theorem State.withRet_music (s : State) (v : Ret) : (s.withRet v).music = s.music := rfl
@[simp] theorem State.withRet_cursor (s : State) (v : Ret) : (s.withRet v).cursor = s.cursor := rfl
@[simp] theorem State.withRet_lp (s : State) (v : Ret) : (s.withRet v).lp = s.lp := rfl
@[simp] theorem State.withRet_sig (s : State) (v : Ret) : (s.withRet v).sig = s.sig := rfl
@[simp] theorem State.withRet_wakePending (s : State) (v : Ret) : (s.withRet v).wakePending = s.wakePending := rfl
@[simp] theorem State.withRet_frameCnt (s : State) (v : Ret) : (s.withRet v).frameCnt = s.frameCnt := rfl
@[simp] theorem State.withRet_alpha (s : State) (v : Ret) : (s.withRet v).alpha = s.alpha := rfl
@[simp] theorem State.withRet_mem (s : State) (v : Ret) : (s.withRet v).mem = s.mem := rfl
@[simp] theorem State.withRet_errlog (s : State) (v : Ret) : (s.withRet v).errlog = s.errlog := rfl
@[simp] theorem State.withRet_ret (s : State) (v : Ret) : (s.withRet v).ret = v := rfl
@[simp] theorem State.withRet_wakeDelay (s : State) (v : Ret) : (s.withRet v).wakeDelay = s.wakeDelay := rfl
@[simp] theorem State.withRet_hostReads (s : State) (v : Ret) : (s.withRet v).hostReads = s.hostReads := rfl
@[simp] theorem State.withRet_cfg (s : State) (v : Ret) : (s.withRet v).cfg = s.cfg := rfl
@[simp] theorem State.withRet_inputs (s : State) (v : Ret) : (s.withRet v).inputs = s.inputs := rfl
@[simp] theorem State.withRet_beams (s : State) (v : Ret) : (s.withRet v).beams = s.beams := rfl
@[simp] theorem State.withRet_inbox (s : State) (v : Ret) : (s.withRet v).inbox = s.inbox := rfl
@[simp] theorem State.withRet_clock (s : State) (v : Ret) : (s.withRet v).clock = s.clock := rfl
@[simp] theorem State.withRet_withRet (s : State) (v w : Ret) : (s.withRet v).withRet w = s.withRet w := rfl
@[simp] theorem State.withRet_self (s : State) : s.withRet s.ret = s := rfl

/-! ### withWakeDelay -/

@[simp] theorem State.withWakeDelay_dataW (s : State) (v : Nat) : (s.withWakeDelay v).dataW = s.dataW := rfl
@[simp] theorem State.withWakeDelay_dataR (s : State) (v : Nat) : (s.withWakeDelay v).dataR = s.dataR := rfl
@[simp] theorem State.withWakeDelay_cr (s : State) (v : Nat) : (s.withWakeDelay v).cr = s.cr := rfl
@[simp] theorem State.withWakeDelay_fsm (s : State) (v : Nat) : (s.withWakeDelay v).fsm = s.fsm := rfl
@[simp] theorem State.withWakeDelay_io (s : State) (v : Nat) : (s.withWakeDelay v).io = s.io := rfl
@[simp] theorem State.withWakeDelay_ctl (s : State) (v : Nat) : (s.withWakeDelay v).ctl = s.ctl := rfl
@[simp] theorem State.withWakeDelay_pat (s : State) (v : Nat) : (s.withWakeDelay v).pat = s.pat := rfl
@[simp] theorem State.withWakeDelay_ends (s : State) (v : Nat) : (s.withWakeDelay v).ends = s.ends := rfl
@[simp] theorem State.withWakeDelay_music (s : State) (v : Nat) : (s.withWakeDelay v).music = s.music := rfl
@[simp] theorem State.withWakeDelay_cursor (s : State) (v : Nat) : (s.withWakeDelay v).cursor = s.cursor := rfl
@[simp] theorem State.withWakeDelay_lp (s : State) (v : Nat) : (s.withWakeDelay v).lp = s.lp := rfl
@[simp] theorem State.withWakeDelay_sig (s : State) (v : Nat) : (s.withWakeDelay v).sig = s.sig := rfl
@[simp] theorem State.withWakeDelay_wakePending (s : State) (v : Nat) : (s.withWakeDelay v).wakePending = s.wakePending := rfl
@[simp] theorem State.withWakeDelay_frameCnt (s : State) (v : Nat) : (s.withWakeDelay v).frameCnt = s.frameCnt := rfl
@[simp] theorem State.withWakeDelay_alpha (s : State) (v : Nat) : (s.withWakeDelay v).alpha = s.alpha := rfl
@[simp] theorem State.withWakeDelay_mem (s : State) (v : Nat) : (s.withWakeDelay v).mem = s.mem := rfl
@[simp] theorem State.withWakeDelay_errlog (s : State) (v : Nat) : (s.withWakeDelay v).errlog = s.errlog := rfl
@[simp] theorem State.withWakeDelay_ret (s : State) (v : Nat) : (s.withWakeDelay v).ret = s.ret := rfl
@[simp] theorem State.withWakeDelay_wakeDelay (s : State) (v : Nat) : (s.withWakeDelay v).wakeDelay = v := rfl
@[simp] theorem State.withWakeDelay_hostReads (s : State) (v : Nat) : (s.withWakeDelay v).hostReads = s.hostReads := rfl
@[simp] theorem State.withWakeDelay_cfg (s : State) (v : Nat) : (s.withWakeDelay v).cfg = s.cfg := rfl
@[simp] theorem State.withWakeDelay_inputs (s : State) (v : Nat) : (s.withWakeDelay v).inputs = s.inputs := rfl
@[simp] theorem State.withWakeDelay_beams (s : State) (v : Nat) : (s.withWakeDelay v).beams = s.beams := rfl
@[simp] theorem State.withWakeDelay_inbox (s : State) (v : Nat) : (s.withWakeDelay v).inbox = s.inbox := rfl
@[simp] theorem State.withWakeDelay_clock (s : State) (v : Nat) : (s.withWakeDelay v).clock = s.clock := rfl
@[simp] theorem State.withWakeDelay_withWakeDelay (s : State) (v w : Nat) : (s.withWakeDelay v).withWakeDelay w = s.withWakeDelay w := rfl
@[simp] theorem State.withWakeDelay_self (s : State) : s.withWakeDelay s.wakeDelay = s := rfl

/-! ### withHostReads -/

@[simp] theorem State.withHostReads_dataW (s : State) (v : List Nat) : (s.withHostReads v).dataW = s.dataW := rfl
@[simp] theorem State.withHostReads_dataR (s : State) (v : List Nat) : (s.withHostReads v).dataR = s.dataR := rfl
@[simp] theorem State.withHostReads_cr (s : State) (v : List Nat) : (s.withHostReads v).cr = s.cr := rfl
@[simp] theorem State.withHostReads_fsm (s : State) (v : List Nat) : (s.withHostReads v).fsm = s.fsm := rfl
@[simp] theorem State.withHostReads_io (s : State) (v : List Nat) : (s.withHostReads v).io = s.io := rfl
@[simp] theorem State.withHostReads_ctl (s : State) (v : List Nat) : (s.withHostReads v).ctl = s.ctl := rfl
@[simp] theorem State.withHostReads_pat (s : State) (v : List Nat) : (s.withHostReads v).pat = s.pat := rfl
@[simp] theorem State.withHostReads_ends (s : State) (v : List Nat) : (s.withHostReads v).ends = s.ends := rfl
@[simp] theorem State.withHostReads_music (s : State) (v : List Nat) : (s.withHostReads v).music = s.music := rfl
@[simp] theorem State.withHostReads_cursor (s : State) (v : List Nat) : (s.withHostReads v).cursor = s.cursor := rfl
@[simp] theorem State.withHostReads_lp (s : State) (v : List Nat) : (s.withHostReads v).lp = s.lp := rfl
@[simp] theorem State.withHostReads_sig (s : State) (v : List Nat) : (s.withHostReads v).sig = s.sig := rfl
@[simp] theorem State.withHostReads_wakePending (s : State) (v : List Nat) : (s.withHostReads v).wakePending = s.wakePending := rfl
@[simp] theorem State.withHostReads_frameCnt (s : State) (v : List Nat) : (s.withHostReads v).frameCnt = s.frameCnt := rfl
@[simp] theorem State.withHostReads_alpha (s : State) (v : List Nat) : (s.withHostReads v).alpha = s.alpha := rfl
@[simp] theorem State.withHostReads_mem (s : State) (v : List Nat) : (s.withHostReads v).mem = s.mem := rfl
@[simp] theorem State.withHostReads_errlog (s : State) (v : List Nat) : (s.withHostReads v).errlog = s.errlog := rfl
@[simp] theorem State.withHostReads_ret (s : State) (v : List Nat) : (s.withHostReads v).ret = s.ret := rfl
@[simp] theorem State.withHostReads_wakeDelay (s : State) (v : List Nat) : (s.withHostReads v).wakeDelay = s.wakeDelay := rfl
@[simp] theorem State.withHostReads_hostReads (s : State) (v : List Nat) : (s.withHostReads v).hostReads = v := rfl
@[simp] theorem State.withHostReads_cfg (s : State) (v : List Nat) : (s.withHostReads v).cfg = s.cfg := rfl
@[simp] theorem State.withHostReads_inputs (s : State) (v : List Nat) : (s.withHostReads v).inputs = s.inputs := rfl
@[simp] theorem State.withHostReads_beams (s : State) (v : List Nat) : (s.withHostReads v).beams = s.beams := rfl
@[simp] theorem State.withHostReads_inbox (s : State) (v : List Nat) : (s.withHostReads v).inbox = s.inbox := rfl
@[simp] theorem State.withHostReads_clock (s : State) (v : List Nat) : (s.withHostReads v).clock = s.clock := rfl
@[simp] theorem State.withHostReads_withHostReads (s : State) (v w : List Nat) : (s.withHostReads v).withHostReads w = s.withHostReads w := rfl
@[simp] theorem State.withHostReads_self (s : State) : s.withHostReads s.hostReads = s := rfl

/-! ### withInputs -/

@[simp] theorem State.withInputs_dataW (s : State) (v : Inputs) : (s.withInputs v).dataW = s.dataW := rfl
@[simp] theorem State.withInputs_dataR (s : State) (v : Inputs) : (s.withInputs v).dataR = s.dataR := rfl
@[simp] theorem State.withInputs_cr (s : State) (v : Inputs) : (s.withInputs v).cr = s.cr := rfl
@[simp] theorem State.withInputs_fsm (s : State) (v : Inputs) : (s.withInputs v).fsm = s.fsm := rfl
@[simp] theorem State.withInputs_io (s : State) (v : Inputs) : (s.withInputs v).io = s.io := rfl
@[simp] theorem State.withInputs_ctl (s : State) (v : Inputs) : (s.withInputs v).ctl = s.ctl := rfl
@[simp] theorem State.withInputs_pat (s : State) (v : Inputs) : (s.withInputs v).pat = s.pat := rfl
@[simp] theorem State.withInputs_ends (s : State) (v : Inputs) : (s.withInputs v).ends = s.ends := rfl
@[simp] theorem State.withInputs_music (s : State) (v : Inputs) : (s.withInputs v).music = s.music := rfl
@[simp] theorem State.withInputs_cursor (s : State) (v : Inputs) : (s.withInputs v).cursor = s.cursor := rfl
@[simp] theorem State.withInputs_lp (s : State) (v : Inputs) : (s.withInputs v).lp = s.lp := rfl
@[simp] theorem State.withInputs_sig (s : State) (v : Inputs) : (s.withInputs v).sig = s.sig := rfl
@[simp] theorem State.withInputs_wakePending (s : State) (v : Inputs) : (s.withInputs v).wakePending = s.wakePending := rfl
@[simp] theorem State.withInputs_frameCnt (s : State) (v : Inputs) : (s.withInputs v).frameCnt = s.frameCnt := rfl
@[simp] theorem State.withInputs_alpha (s : State) (v : Inputs) : (s.withInputs v).alpha = s.alpha := rfl
@[simp] theorem State.withInputs_mem (s : State) (v : Inputs) : (s.withInputs v).mem = s.mem := rfl
@[simp] theorem State.withInputs_errlog (s : State) (v : Inputs) : (s.withInputs v).errlog = s.errlog := rfl
@[simp] theorem State.withInputs_ret (s : State) (v : Inputs) : (s.withInputs v).ret = s.ret := rfl
@[simp] theorem State.withInputs_wakeDelay (s : State) (v : Inputs) : (s.withInputs v).wakeDelay = s.wakeDelay := rfl
@[simp] theorem State.withInputs_hostReads (s : State) (v : Inputs) : (s.withInputs v).hostReads = s.hostReads := rfl
@[simp] theorem State.withInputs_cfg (s : State) (v : Inputs) : (s.withInputs v).cfg = s.cfg := rfl
@[simp] theorem State.withInputs_inputs (s : State) (v : Inputs) : (s.withInputs v).inputs = v := rfl
@[simp] theorem State.withInputs_beams (s : State) (v : Inputs) : (s.withInputs v).beams = s.beams := rfl
@[simp] theorem State.withInputs_inbox (s : State) (v : Inputs) : (s.withInputs v).inbox = s.inbox := rfl
@[simp] theorem State.withInputs_clock (s : State) (v : Inputs) : (s.withInputs v).clock = s.clock := rfl
@[simp] theorem State.withInputs_withInputs (s : State) (v w : Inputs) : (s.withInputs v).withInputs w = s.withInputs w := rfl
@[simp] theorem State.withInputs_self (s : State) : s.withInputs s.inputs = s := rfl

/-! ### withBeams -/

@[simp] theorem State.withBeams_dataW (s : State) (v : List Beam) : (s.withBeams v).dataW = s.dataW := rfl
@[simp] theorem State.withBeams_dataR (s : State) (v : List Beam) : (s.withBeams v).dataR = s.dataR := rfl
@[simp] theorem State.withBeams_cr (s : State) (v : List Beam) : (s.withBeams v).cr = s.cr := rfl
@[simp] theorem State.withBeams_fsm (s : State) (v : List Beam) : (s.withBeams v).fsm = s.fsm := rfl
@[simp] theorem State.withBeams_io (s : State) (v : List Beam) : (s.withBeams v).io = s.io := rfl
@[simp] theorem State.withBeams_ctl (s : State) (v : List Beam) : (s.withBeams v).ctl = s.ctl := rfl
@[simp] theorem State.withBeams_pat (s : State) (v : List Beam) : (s.withBeams v).pat = s.pat := rfl
@[simp] theorem State.withBeams_ends (s : State) (v : List Beam) : (s.withBeams v).ends = s.ends := rfl
@[simp] theorem State.withBeams_music (s : State) (v : List Beam) : (s.withBeams v).music = s.music := rfl
@[simp] theorem State.withBeams_cursor (s : State) (v : List Beam) : (s.withBeams v).cursor = s.cursor := rfl
@[simp] theorem State.withBeams_lp (s : State) (v : List Beam) : (s.withBeams v).lp = s.lp := rfl
@[simp] theorem State.withBeams_sig (s : State) (v : List Beam) : (s.withBeams v).sig = s.sig := rfl
@[simp] theorem State.withBeams_wakePending (s : State) (v : List Beam) : (s.withBeams v).wakePending = s.wakePending := rfl
@[simp] theorem State.withBeams_frameCnt (s : State) (v : List Beam) : (s.withBeams v).frameCnt = s.frameCnt := rfl
@[simp] theorem State.withBeams_alpha (s : State) (v : List Beam) : (s.withBeams v).alpha = s.alpha := rfl
@[simp] theorem State.withBeams_mem (s : State) (v : List Beam) : (s.withBeams v).mem = s.mem := rfl
@[simp] theorem State.withBeams_errlog (s : State) (v : List Beam) : (s.withBeams v).errlog = s.errlog := rfl
@[simp] theorem State.withBeams_ret (s : State) (v : List Beam) : (s.withBeams v).ret = s.ret := rfl
@[simp] theorem State.withBeams_wakeDelay (s : State) (v : List Beam) : (s.withBeams v).wakeDelay = s.wakeDelay := rfl
@[simp] theorem State.withBeams_hostReads (s : State) (v : List Beam) : (s.withBeams v).hostReads = s.hostReads := rfl
@[simp] theorem State.withBeams_cfg (s : State) (v : List Beam) : (s.withBeams v).cfg = s.cfg := rfl
@[simp] theorem State.withBeams_inputs (s : State) (v : List Beam) : (s.withBeams v).inputs = s.inputs := rfl
@[simp] theorem State.withBeams_beams (s : State) (v : List Beam) : (s.withBeams v).beams = v := rfl
@[simp] theorem State.withBeams_inbox (s : State) (v : List Beam) : (s.withBeams v).inbox = s.inbox := rfl
@[simp] theorem State.withBeams_clock (s : State) (v : List Beam) : (s.withBeams v).clock = s.clock := rfl
@[simp] theorem State.withBeams_withBeams (s : State) (v w : List Beam) : (s.withBeams v).withBeams w = s.withBeams w := rfl
@[simp] theorem State.withBeams_self (s : State) : s.withBeams s.beams = s := rfl

/-! ### withInbox -/

@[simp] theorem State.withInbox_dataW (s : State) (v : List Delivery) : (s.withInbox v).dataW = s.dataW := rfl
@[simp] theorem State.withInbox_dataR (s : State) (v : List Delivery) : (s.withInbox v).dataR = s.dataR := rfl
@[simp] theorem State.withInbox_cr (s : State) (v : List Delivery) : (s.withInbox v).cr = s.cr := rfl
@[simp] theorem State.withInbox_fsm (s : State) (v : List Delivery) : (s.withInbox v).fsm = s.fsm := rfl
@[simp] theorem State.withInbox_io (s : State) (v : List Delivery) : (s.withInbox v).io = s.io := rfl
@[simp] theorem State.withInbox_ctl (s : State) (v : List Delivery) : (s.withInbox v).ctl = s.ctl := rfl
@[simp] theorem State.withInbox_pat (s : State) (v : List Delivery) : (s.withInbox v).pat = s.pat := rfl
@[simp] theorem State.withInbox_ends (s : State) (v : List Delivery) : (s.withInbox v).ends = s.ends := rfl
@[simp] theorem State.withInbox_music (s : State) (v : List Delivery) : (s.withInbox v).music = s.music := rfl
@[simp] theorem State.withInbox_cursor (s : State) (v : List Delivery) : (s.withInbox v).cursor = s.cursor := rfl
@[simp] theorem State.withInbox_lp (s : State) (v : List Delivery) : (s.withInbox v).lp = s.lp := rfl
@[simp] theorem State.withInbox_sig (s : State) (v : List Delivery) : (s.withInbox v).sig = s.sig := rfl
@[simp] theorem State.withInbox_wakePending (s : State) (v : List Delivery) : (s.withInbox v).wakePending = s.wakePending := rfl
@[simp] theorem State.withInbox_frameCnt (s : State) (v : List Delivery) : (s.withInbox v).frameCnt = s.frameCnt := rfl
@[simp] theorem State.withInbox_alpha (s : State) (v : List Delivery) : (s.withInbox v).alpha = s.alpha := rfl
@[simp] theorem State.withInbox_mem (s : State) (v : List Delivery) : (s.withInbox v).mem = s.mem := rfl
@[simp] theorem State.withInbox_errlog (s : State) (v : List Delivery) : (s.withInbox v).errlog = s.errlog := rfl
@[simp] theorem State.withInbox_ret (s : State) (v : List Delivery) : (s.withInbox v).ret = s.ret := rfl
@[simp] theorem State.withInbox_wakeDelay (s : State) (v : List Delivery) : (s.withInbox v).wakeDelay = s.wakeDelay := rfl
@[simp] theorem State.withInbox_hostReads (s : State) (v : List Delivery) : (s.withInbox v).hostReads = s.hostReads := rfl
@[simp] theorem State.withInbox_cfg (s : State) (v : List Delivery) : (s.withInbox v).cfg = s.cfg := rfl
@[simp] theorem State.withInbox_inputs (s : State) (v : List Delivery) : (s.withInbox v).inputs = s.inputs := rfl
@[simp] theorem State.withInbox_beams (s : State) (v : List Delivery) : (s.withInbox v).beams = s.beams := rfl
@[simp] theorem State.withInbox_inbox (s : State) (v : List Delivery) : (s.withInbox v).inbox = v := rfl
@[simp] theorem State.withInbox_clock (s : State) (v : List Delivery) : (s.withInbox v).clock = s.clock := rfl
@[simp] theorem State.withInbox_withInbox (s : State) (v w : List Delivery) : (s.withInbox v).withInbox w = s.withInbox w := rfl
@[simp] theorem State.withInbox_self (s : State) : s.withInbox s.inbox = s := rfl

/-! ### withClock -/

@[simp] theorem State.withClock_dataW (s : State) (v : FrameClock) : (s.withClock v).dataW = s.dataW := rfl
@[simp] theorem State.withClock_dataR (s : State) (v : FrameClock) : (s.withClock v).dataR = s.dataR := rfl
@[simp] theorem State.withClock_cr (s : State) (v : FrameClock) : (s.withClock v).cr = s.cr := rfl
@[simp] theorem State.withClock_fsm (s : State) (v : FrameClock) : (s.withClock v).fsm = s.fsm := rfl
@[simp] theorem State.withClock_io (s : State) (v : FrameClock) : (s.withClock v).io = s.io := rfl
@[simp] theorem State.withClock_ctl (s : State) (v : FrameClock) : (s.withClock v).ctl = s.ctl := rfl
@[simp] theorem State.withClock_pat (s : State) (v : FrameClock) : (s.withClock v).pat = s.pat := rfl
@[simp] theorem State.withClock_ends (s : State) (v : FrameClock) : (s.withClock v).ends = s.ends := rfl
@[simp] theorem State.withClock_music (s : State) (v : FrameClock) : (s.withClock v).music = s.music := rfl
@[simp] theorem State.withClock_cursor (s : State) (v : FrameClock) : (s.withClock v).cursor = s.cursor := rfl
@[simp] theorem State.withClock_lp (s : State) (v : FrameClock) : (s.withClock v).lp = s.lp := rfl
@[simp] theorem State.withClock_sig (s : State) (v : FrameClock) : (s.withClock v).sig = s.sig := rfl
@[simp] theorem State.withClock_wakePending (s : State) (v : FrameClock) : (s.withClock v).wakePending = s.wakePending := rfl
@[simp] theorem State.withClock_frameCnt (s : State) (v : FrameClock) : (s.withClock v).frameCnt = s.frameCnt := rfl
@[simp] theorem State.withClock_alpha (s : State) (v : FrameClock) : (s.withClock v).alpha = s.alpha := rfl
@[simp] theorem State.withClock_mem (s : State) (v : FrameClock) : (s.withClock v).mem = s.mem := rfl
@[simp] theorem State.withClock_errlog (s : State) (v : FrameClock) : (s.withClock v).errlog = s.errlog := rfl
@[simp] theorem State.withClock_ret (s : State) (v : FrameClock) : (s.withClock v).ret = s.ret := rfl
@[simp] theorem State.withClock_wakeDelay (s : State) (v : FrameClock) : (s.withClock v).wakeDelay = s.wakeDelay := rfl
@[simp] theorem State.withClock_hostReads (s : State) (v : FrameClock) : (s.withClock v).hostReads = s.hostReads := rfl
@[simp] theorem State.withClock_cfg (s : State) (v : FrameClock) : (s.withClock v).cfg = s.cfg := rfl
@[simp] theorem State.withClock_inputs (s : State) (v : FrameClock) : (s.withClock v).inputs = s.inputs := rfl
@[simp] theorem State.withClock_beams (s : State) (v : FrameClock) : (s.withClock v).beams = s.beams := rfl
@[simp] theorem State.withClock_inbox (s : State) (v : FrameClock) : (s.withClock v).inbox = s.inbox := rfl
@[simp] theorem State.withClock_clock (s : State) (v : FrameClock) : (s.withClock v).clock = v := rfl
@[simp] theorem State.withClock_withClock (s : State) (v w : FrameClock) : (s.withClock v).withClock w = s.withClock w := rfl
@[simp] theorem State.withClock_self (s : State) : s.withClock s.clock = s := rfl

end Sys2Proof.Machine
end

