-- ==== Sys2Proof/Laws/Memory.lean ====
section
/-! SUPPORT. The laws of the byte list, of words in it and of the bitplanes: what reads see after a write, that writes
keep the canonical form, that equal contents are equal lists. -/

namespace Sys2Proof.Machine

/-! ### Bytes -/

@[simp] theorem readByte_nil (k : Nat) : readByte [] k = unlistedByte := rfl

theorem readByte_cons (c : Host.Cell) (r : Memory) (k : Nat) :
    readByte (c :: r) k = if c.1 = k then c.2 else readByte r k := rfl

theorem readByte_dropKey (k j : Nat) (m : Memory) :
    readByte (dropKey k m) j = if j = k then unlistedByte else readByte m j := by
  induction m with
  | nil => simp [dropKey]
  | cons c r ih =>
    simp only [dropKey]
    split
    · rw [ih, readByte_cons]; split <;> simp_all
      intro h; omega
    · rw [readByte_cons, readByte_cons, ih]; split <;> simp_all

theorem readByte_insertCell_other (k j : Nat) (v : Byte) (m : Memory) (h : j ≠ k) :
    readByte (insertCell k v m) j = readByte m j := by
  induction m with
  | nil => simp [insertCell, readByte_cons, Ne.symm h]
  | cons c r ih =>
    simp only [insertCell]
    split
    · simp [readByte_cons, Ne.symm h]
    · simp only [readByte_cons, ih]

theorem readByte_insertCell_same (k : Nat) (v : Byte) (m : Memory) (h : ∀ c ∈ m, c.1 ≠ k) :
    readByte (insertCell k v m) k = v := by
  induction m with
  | nil => simp [insertCell, readByte_cons]
  | cons c r ih =>
    simp only [insertCell]
    split
    · simp [readByte_cons]
    · rw [readByte_cons, if_neg (h c (by simp))]; exact ih fun d hd => h d (by simp [hd])

theorem dropKey_fst_ne (k : Nat) (m : Memory) : ∀ c ∈ dropKey k m, c.1 ≠ k := by
  induction m with
  | nil => simp [dropKey]
  | cons c r ih =>
    simp only [dropKey]
    split
    · exact ih
    · next h => exact List.forall_mem_cons.2 ⟨h, ih⟩

/-- What every byte reads as after one is written. -/
theorem readByte_writeByte (m : Memory) (k j : Nat) (v : Byte) :
    readByte (writeByte m k v) j = if j = k then v else readByte m j := by
  unfold writeByte
  by_cases hj : j = k
  · subst hj
    split
    · simp_all [readByte_dropKey]
    · simp [readByte_insertCell_same _ _ _ (dropKey_fst_ne j m)]
  · split <;> simp [readByte_insertCell_other, readByte_dropKey, hj]

@[simp] theorem readByte_writeByte_same (m : Memory) (k : Nat) (v : Byte) : readByte (writeByte m k v) k = v := by
  simp [readByte_writeByte]

theorem readByte_writeByte_other (m : Memory) (k j : Nat) (v : Byte) (h : j ≠ k) :
    readByte (writeByte m k v) j = readByte m j := by simp [readByte_writeByte, h]

/-! ### The canonical form -/

/-- The canonical form, said of every pair of entries. -/
theorem Memory.wf_iff (m : Memory) :
    Memory.wf m = true ↔ m.Pairwise (fun c d => c.1 < d.1) ∧ ∀ c ∈ m, c.2 ≠ unlistedByte := by
  induction m with
  | nil => simp [Memory.wf]
  | cons c r ih =>
    cases r with
    | nil => simp [Memory.wf]
    | cons d r =>
      simp only [Memory.wf, Bool.and_eq_true, decide_eq_true_eq, bne_iff_ne, ih, List.pairwise_cons,
        List.forall_mem_cons, ne_eq]
      constructor
      · rintro ⟨⟨h, hc⟩, ⟨⟨hd, hr⟩, h0, h1⟩⟩
        exact ⟨⟨⟨h, fun e he => h.trans (hd e he)⟩, hd, hr⟩, hc, h0, h1⟩
      · rintro ⟨⟨⟨h, _⟩, hd, hr⟩, hc, h0, h1⟩
        exact ⟨⟨h, hc⟩, ⟨hd, hr⟩, h0, h1⟩

theorem mem_dropKey {k : Nat} {m : Memory} {c : Host.Cell} (h : c ∈ dropKey k m) : c ∈ m := by
  induction m with
  | nil => simp [dropKey] at h
  | cons d r ih => simp only [dropKey] at h; split at h <;> simp_all; exact h.imp_right ih

theorem mem_insertCell {k : Nat} {v : Byte} {m : Memory} {c : Host.Cell} (h : c ∈ insertCell k v m) :
    c = (k, v) ∨ c ∈ m := by
  induction m with
  | nil => simpa [insertCell] using h
  | cons d r ih =>
    simp only [insertCell] at h
    split at h
    · simpa using h
    · rcases List.mem_cons.1 h with h | h
      · exact .inr (by simp [h])
      · exact (ih h).imp_right fun h => by simp [h]

/-- An entry after a write is the written one or was there before. -/
theorem mem_writeByte {m : Memory} {k : Nat} {v : Byte} {c : Host.Cell} (h : c ∈ writeByte m k v) :
    c = (k, v) ∨ c ∈ m := by
  unfold writeByte at h
  split at h
  · exact .inr (mem_dropKey h)
  · exact (mem_insertCell h).imp_right mem_dropKey

theorem dropKey_wf (k : Nat) {m : Memory} (h : Memory.wf m = true) : Memory.wf (dropKey k m) = true := by
  rw [Memory.wf_iff] at h ⊢
  refine ⟨?_, fun c hc => h.2 c (mem_dropKey hc)⟩
  induction m with
  | nil => simp [dropKey]
  | cons d r ih =>
    simp only [List.pairwise_cons, List.forall_mem_cons] at h
    simp only [dropKey]
    split
    · exact ih ⟨h.1.2, h.2.2⟩
    · exact List.pairwise_cons.2 ⟨fun e he => h.1.1 e (mem_dropKey he), ih ⟨h.1.2, h.2.2⟩⟩

theorem insertCell_wf (k : Nat) (v : Byte) {m : Memory} (h : Memory.wf m = true) (hv : v ≠ unlistedByte)
    (hk : ∀ c ∈ m, c.1 ≠ k) : Memory.wf (insertCell k v m) = true := by
  rw [Memory.wf_iff] at h ⊢
  refine ⟨?_, fun c hc => (mem_insertCell hc).elim (fun e => e ▸ hv) (h.2 c)⟩
  induction m with
  | nil => simp [insertCell]
  | cons d r ih =>
    simp only [List.pairwise_cons, List.forall_mem_cons] at h
    simp only [insertCell]
    split
    · next hlt =>
      refine List.pairwise_cons.2 ⟨fun e he => ?_, List.pairwise_cons.2 h.1⟩
      rcases List.mem_cons.1 he with rfl | he
      · exact hlt
      · exact hlt.trans (h.1.1 e he)
    · next hge =>
      have hd := hk d (by simp)
      refine List.pairwise_cons.2 ⟨fun e he => ?_, ih ⟨h.1.2, h.2.2⟩ fun c hc => hk c (by simp [hc])⟩
      rcases mem_insertCell he with rfl | he
      · show d.1 < k; omega
      · exact h.1.1 e he

/-- Writing a byte keeps the canonical form. -/
theorem writeByte_wf {m : Memory} (k : Nat) (v : Byte) (h : Memory.wf m = true) :
    Memory.wf (writeByte m k v) = true := by
  unfold writeByte
  split
  · exact dropKey_wf k h
  · next hv => exact insertCell_wf k v (dropKey_wf k h) hv (dropKey_fst_ne k m)

theorem readByte_of_forall_ne {m : Memory} {k : Nat} (h : ∀ c ∈ m, c.1 ≠ k) : readByte m k = unlistedByte := by
  induction m with
  | nil => rfl
  | cons c r ih => rw [readByte_cons, if_neg (h c (by simp))]; exact ih fun d hd => h d (by simp [hd])

/-- Two memories in canonical form that read the same everywhere are the same list. -/
theorem Memory.ext_of_wf {m n : Memory} (hm : Memory.wf m = true) (hn : Memory.wf n = true)
    (h : ∀ k, readByte m k = readByte n k) : m = n := by
  rw [Memory.wf_iff] at hm hn
  induction m generalizing n with
  | nil =>
    cases n with
    | nil => rfl
    | cons d r =>
      have h1 := h d.1
      rw [readByte_nil, readByte_cons, if_pos rfl] at h1
      exact absurd h1.symm (hn.2 d (by simp))
  | cons c r ih =>
    cases n with
    | nil =>
      have h1 := h c.1
      rw [readByte_nil, readByte_cons, if_pos rfl] at h1
      exact absurd h1 (hm.2 c (by simp))
    | cons d q =>
      simp only [List.pairwise_cons, List.forall_mem_cons] at hm hn
      have key : c.1 = d.1 := by
        rcases lt_trichotomy c.1 d.1 with hlt | heq | hgt
        · have h1 := h c.1
          rw [readByte_cons, if_pos rfl, readByte_cons, if_neg (by omega),
            readByte_of_forall_ne (fun e he => by have := hn.1.1 e he; omega)] at h1
          exact absurd h1 hm.2.1
        · exact heq
        · have h1 := h d.1
          rw [readByte_cons, if_neg (by omega), readByte_cons, if_pos rfl,
            readByte_of_forall_ne (fun e he => by have := hm.1.1 e he; omega)] at h1
          exact absurd h1.symm hn.2.1
      have val : c.2 = d.2 := by
        have h1 := h c.1
        rwa [readByte_cons, if_pos rfl, readByte_cons, if_pos key.symm] at h1
      have hcd : c = d := Prod.ext key val
      have hr : r = q := by
        refine ih (n := q) ⟨hm.1.2, hm.2.2⟩ ⟨hn.1.2, hn.2.2⟩ fun k => ?_
        by_cases hk : c.1 = k
        · rw [readByte_of_forall_ne (fun e he => by have := hm.1.1 e he; omega),
            readByte_of_forall_ne (fun e he => by have := hn.1.1 e he; omega)]
        · have h1 := h k
          rwa [readByte_cons, if_neg hk, readByte_cons, if_neg (key ▸ hk)] at h1
      rw [hcd, hr]

/-- Writing what is already there changes nothing. -/
theorem writeByte_readByte {m : Memory} (k : Nat) (h : Memory.wf m = true) : writeByte m k (readByte m k) = m := by
  refine Memory.ext_of_wf (writeByte_wf _ _ h) h fun j => ?_
  rw [readByte_writeByte]; split <;> simp_all

/-! ### Words -/

@[simp] theorem Word.ofBytes_hi_lo (w : Word) : Word.ofBytes w.hi w.lo = w := by
  apply BitVec.eq_of_getLsbD_eq
  intro i hi
  simp only [Word.ofBytes, Word.hi, Word.lo, BitVec.getLsbD_append, BitVec.getLsbD_extractLsb']
  split
  · simp_all
  · simp_all; omega

@[simp] theorem Word.hi_ofBytes (a b : Byte) : (Word.ofBytes a b).hi = a := by
  apply BitVec.eq_of_getLsbD_eq
  intro i hi
  simp only [Word.ofBytes, Word.hi, BitVec.getLsbD_append, BitVec.getLsbD_extractLsb']
  simp [hi]

@[simp] theorem Word.lo_ofBytes (a b : Byte) : (Word.ofBytes a b).lo = b := by
  apply BitVec.eq_of_getLsbD_eq
  intro i hi
  simp only [Word.ofBytes, Word.lo, BitVec.getLsbD_append, BitVec.getLsbD_extractLsb']
  simp [hi]

@[simp] theorem readWord_writeWord_same (m : Memory) (k : Nat) (w : Word) : readWord (writeWord m k w) k = w := by
  simp [readWord, writeWord, readByte_writeByte]

/-- A word apart from the written one reads as before. -/
theorem readWord_writeWord_other (m : Memory) (k j : Nat) (w : Word) (h : j + 1 < k ∨ k + 1 < j) :
    readWord (writeWord m k w) j = readWord m j := by
  simp only [readWord, writeWord, readByte_writeByte]
  repeat (rw [if_neg (by omega)])

theorem readByte_writeWord_other (m : Memory) (k j : Nat) (w : Word) (h : j ≠ k) (h' : j ≠ k + 1) :
    readByte (writeWord m k w) j = readByte m j := by simp [writeWord, readByte_writeByte, h, h']

theorem writeWord_wf {m : Memory} (k : Nat) (w : Word) (h : Memory.wf m = true) :
    Memory.wf (writeWord m k w) = true := writeByte_wf _ _ (writeByte_wf _ _ h)

theorem mem_writeWord {m : Memory} {k : Nat} {w : Word} {c : Host.Cell} (h : c ∈ writeWord m k w) :
    c.1 = k ∨ c.1 = k + 1 ∨ c ∈ m := by
  rcases mem_writeByte h with rfl | h
  · exact .inr (.inl rfl)
  · rcases mem_writeByte h with rfl | h
    · exact .inl rfl
    · exact .inr (.inr h)

theorem writeWord_readWord {m : Memory} (k : Nat) (h : Memory.wf m = true) : writeWord m k (readWord m k) = m := by
  have h1 : readByte (writeByte m k (readByte m k)) (k + 1) = readByte m (k + 1) := by
    rw [writeByte_readByte k h]
  simp only [writeWord, readWord, Word.hi_ofBytes, Word.lo_ofBytes]
  rw [writeByte_readByte k h, writeByte_readByte (k + 1) h]

/-! ### Planes -/

theorem wordKey_inj {p q : BitVec 2} {a b : Nat} (h : wordKey p a = wordKey q b) : p = q ∧ a = b := by
  unfold wordKey at h
  have := p.isLt; have := q.isLt
  exact ⟨BitVec.eq_of_toNat_eq (by omega), by omega⟩

/-- Different words have keys at least two apart. -/
theorem wordKey_apart {p q : BitVec 2} {a b : Nat} (h : ¬(p = q ∧ a = b)) :
    wordKey p a + 1 < wordKey q b ∨ wordKey q b + 1 < wordKey p a := by
  by_contra hc
  refine h (wordKey_inj ?_)
  unfold wordKey at hc ⊢
  omega

theorem planeAddr_planeAddr (c : Config) (a : Nat) : planeAddr c (planeAddr c a) = planeAddr c a := by
  simp only [planeAddr, Nat.and_assoc, Nat.and_self]

theorem planeAddr_of_masked {c : Config} {a : Nat} (h : a &&& c.addrMask = a) : planeAddr c a = a := h

@[simp] theorem planeWrite_mem (s : State) (p : BitVec 2) (a : Nat) (w : Word) :
    (s.planeWrite p a w).mem = writeWord s.mem (wordKey p (planeAddr s.cfg a)) w := rfl

/-- PlaneWrite changes memory alone. -/
theorem planeWrite_eq (s : State) (p : BitVec 2) (a : Nat) (w : Word) :
    s.planeWrite p a w = s.withMem (s.planeWrite p a w).mem := rfl

/-- What every word reads as after PlaneWrite (R91, R92). -/
theorem planeRead_planeWrite (s : State) (p q : BitVec 2) (a b : Nat) (w : Word) :
    (s.planeWrite p a w).planeRead q b =
      if q = p ∧ planeAddr s.cfg b = planeAddr s.cfg a then w else s.planeRead q b := by
  simp only [State.planeRead, State.planeWrite, State.withMem_mem, State.withMem_cfg]
  split
  · next h => rw [h.1, h.2, readWord_writeWord_same]
  · next h =>
    refine readWord_writeWord_other _ _ _ _ ((wordKey_apart fun h' => h ⟨h'.1.symm, h'.2.symm⟩).symm)

end Sys2Proof.Machine
end

