-- ==== Sys2Proof/Laws/Engine.lean ====
section
/-! SUPPORT. What the Vector & Fill Engine can do: pixel writes and plots change memory alone, a line memory and the dash
phase alone; what every pixel reads as after a pixel write or a plot; the dash phase stays in range; memory stays in
canonical form inside the planes. -/

namespace Sys2Proof.Machine

/-! ### Pixels -/

/-- write_pixel changes memory alone. -/
theorem writePixel_eq (s : State) (p : BitVec 2) (x y : Nat) (b : Bool) :
    s.writePixel p x y b = s.withMem (s.writePixel p x y b).mem := by
  simp only [State.writePixel]; split <;> rfl

/-- What every word reads as after write_pixel (R94). -/
theorem planeRead_writePixel (s : State) (p q : BitVec 2) (x y a : Nat) (b : Bool) :
    (s.writePixel p x y b).planeRead q a =
      if q = p ∧ planeAddr s.cfg a = pixAddr s.cfg x y then
        if b then s.planeRead q a ||| pixMask x else s.planeRead q a &&& ~~~pixMask x
      else s.planeRead q a := by
  have h : planeAddr s.cfg (pixAddr s.cfg x y) = pixAddr s.cfg x y := planeAddr_planeAddr _ _
  have e (hq : q = p ∧ planeAddr s.cfg a = pixAddr s.cfg x y) :
      s.planeRead p (pixAddr s.cfg x y) = s.planeRead q a := by
    simp only [State.planeRead, h, hq.1, hq.2]
  cases b <;> simp only [State.writePixel, Bool.false_eq_true, if_false, if_true, planeRead_planeWrite, h] <;>
    (split <;> simp_all)

/-- The bit of its word a pixel is in. -/
theorem pixMask_eq_twoPow (x : Nat) : pixMask x = BitVec.twoPow 16 (15 - x % 16) := by
  have h : x % 16 < 16 := Nat.mod_lt _ (by decide)
  unfold pixMask
  generalize x % 16 = k at h
  revert k
  decide

theorem readPixel_eq_getLsbD (s : State) (p : BitVec 2) (x y : Nat) :
    s.readPixel p x y = (s.planeRead p (pixAddr s.cfg x y)).getLsbD (15 - x % 16) := by
  unfold State.readPixel
  rw [pixMask_eq_twoPow, BitVec.and_twoPow]
  cases h : (s.planeRead p (pixAddr s.cfg x y)).getLsbD (15 - x % 16)
  · simp
  · simp only [if_true, decide_eq_true_eq]
    intro h0
    have := congrArg (fun v => v.getLsbD (15 - x % 16)) h0
    simp at this
    omega

/-- What every pixel reads as after write_pixel (R93, R94). -/
theorem readPixel_writePixel (s : State) (p q : BitVec 2) (x y x' y' : Nat) (b : Bool) :
    (s.writePixel p x y b).readPixel q x' y' = true ↔
      if q = p ∧ SamePixel s.cfg x y x' y' then b = true else s.readPixel q x' y' = true := by
  have hc : (s.writePixel p x y b).cfg = s.cfg := by rw [writePixel_eq]; rfl
  have ha : planeAddr s.cfg (pixAddr s.cfg x' y') = pixAddr s.cfg x' y' := planeAddr_planeAddr _ _
  rw [readPixel_eq_getLsbD, readPixel_eq_getLsbD, hc, planeRead_writePixel, ha, pixMask_eq_twoPow]
  have h1 : x % 16 < 16 := Nat.mod_lt _ (by decide)
  have h2 : x' % 16 < 16 := Nat.mod_lt _ (by decide)
  by_cases hp : q = p <;> by_cases hw : pixAddr s.cfg x y = pixAddr s.cfg x' y' <;>
    by_cases hx : x % 16 = x' % 16 <;> cases b <;>
    simp [hp, hw, hx, Ne.symm (a := pixAddr s.cfg x y), BitVec.getLsbD_twoPow] <;> omega

/-! ### plot -/

theorem plotPlane_eq (s : State) (x y : Nat) (d : Bool) (p : BitVec 2) :
    s.plotPlane x y d p = s.withMem (s.plotPlane x y d p).mem := by
  unfold State.plotPlane; split
  · exact writePixel_eq ..
  · exact writePixel_eq ..
  · rfl

theorem foldl_onlyMem {α : Type} {f : State → α → State} (hf : ∀ s a, f s a = s.withMem (f s a).mem) (l : List α)
    (s : State) : l.foldl f s = s.withMem (l.foldl f s).mem := by
  induction l generalizing s with
  | nil => rfl
  | cons a l ih => rw [List.foldl_cons, ih, hf s a]; rfl

/-- plot changes memory alone. -/
theorem plot_eq (s : State) (x y : Nat) (d : Bool) : s.plot x y d = s.withMem (s.plot x y d).mem :=
  foldl_onlyMem (fun s p => plotPlane_eq s x y d p) _ s

theorem planeAction_withMem (s : State) (m : Memory) (p : BitVec 2) (d : Bool) :
    (s.withMem m).planeAction p d = s.planeAction p d := rfl

/-- What every pixel reads as after plot on one plane. -/
theorem readPixel_plotPlane (s : State) (p q : BitVec 2) (x y x' y' : Nat) (d : Bool) :
    (s.plotPlane x y d p).readPixel q x' y' = true ↔
      if q = p ∧ SamePixel s.cfg x y x' y' then (s.planeAction q d).leaves (s.readPixel q x' y') = true
      else s.readPixel q x' y' = true := by
  by_cases e : q = p ∧ SamePixel s.cfg x y x' y'
  · obtain ⟨rfl, hs⟩ := e
    unfold State.plotPlane
    rw [if_pos ⟨rfl, hs⟩]
    split <;> next h => simp [h, hs, PlotAct.leaves, readPixel_writePixel]
  · unfold State.plotPlane
    rw [if_neg e]
    split <;> simp [readPixel_writePixel, e]

theorem readPixel_foldl_plotPlane (l : List (BitVec 2)) (hl : l.Nodup) (s : State) (q : BitVec 2) (x y x' y' : Nat)
    (d : Bool) :
    (l.foldl (fun t p => t.plotPlane x y d p) s).readPixel q x' y' = true ↔
      if q ∈ l ∧ SamePixel s.cfg x y x' y' then (s.planeAction q d).leaves (s.readPixel q x' y') = true
      else s.readPixel q x' y' = true := by
  induction l generalizing s with
  | nil => simp
  | cons p l ih =>
    rw [List.nodup_cons] at hl
    have hc : (s.plotPlane x y d p).cfg = s.cfg := by rw [plotPlane_eq]; rfl
    have ha : (s.plotPlane x y d p).planeAction q d = s.planeAction q d := by rw [plotPlane_eq]; rfl
    rw [List.foldl_cons, ih hl.2, hc, ha]
    by_cases hs : SamePixel s.cfg x y x' y'
    · by_cases hq : q = p
      · subst hq
        simp [hl.1, readPixel_plotPlane]
      · have e : (s.plotPlane x y d p).readPixel q x' y' = s.readPixel q x' y' := by
          rw [Bool.eq_iff_iff, readPixel_plotPlane]; simp [hq]
        simp only [List.mem_cons, hq, false_or, e]
    · have e : (s.plotPlane x y d p).readPixel q x' y' = s.readPixel q x' y' := by
        rw [Bool.eq_iff_iff, readPixel_plotPlane]; simp [hs]
      simp only [hs, and_false, if_false, e]

theorem mem_planesOf (n : PlaneCount) (p : BitVec 2) : p ∈ planesOf n ↔ p.toNat < n.toNat := by
  cases n <;> revert p <;> decide

/-- What every pixel reads as after plot (R111, R112). -/
theorem readPixel_plot (s : State) (q : BitVec 2) (x y x' y' : Nat) (d : Bool) :
    (s.plot x y d).readPixel q x' y' = true ↔
      if q.toNat < s.cfg.nplanes ∧ SamePixel s.cfg x y x' y' then
        (s.planeAction q d).leaves (s.readPixel q x' y') = true
      else s.readPixel q x' y' = true := by
  have h := readPixel_foldl_plotPlane (planesOf s.cfg.planeCount) (by cases s.cfg.planeCount <;> decide) s q x y x' y' d
  simp only [mem_planesOf] at h
  exact h

/-! ### The dash -/

/-- DashAdvance keeps the dash phase in range (R31, R116). -/
theorem Pattern.advance_ok {p : Pattern} (h : p.ok = true) : p.advance.ok = true := by
  simp only [Pattern.ok, Bool.and_eq_true, decide_eq_true_eq] at h ⊢
  unfold Pattern.advance
  split
  · simp; omega
  · next hn =>
    have : (p.dashRep + 1).toNat = p.dashRep.toNat + 1 := by
      rw [BitVec.toNat_add]; simp; omega
    simp only [this]; omega

/-! ### Lines and boxes -/

theorem lineStep_eq (s : State) (q : Int × Int) :
    s.lineStep q = (s.withMem (s.lineStep q).mem).withPat s.pat.advance := by
  unfold State.lineStep State.dashAdvance
  rw [plot_eq]; rfl

/-- A line changes memory and the dash phase alone, the phase once per point (R113). -/
theorem foldl_lineStep_eq (l : List (Int × Int)) (s : State) :
    l.foldl State.lineStep s = (s.withMem (l.foldl State.lineStep s).mem).withPat (Pattern.advance^[l.length] s.pat) := by
  induction l generalizing s with
  | nil => rfl
  | cons q l ih => rw [List.foldl_cons, ih, lineStep_eq]; rfl

theorem fillStep_eq (s : State) (q : Nat × Nat) : s.fillStep q = s.withMem (s.fillStep q).mem := plot_eq ..

/-- A box changes memory alone (R118). -/
theorem fillRect_eq (s : State) (x0 : BitVec 10) (y0 : BitVec 9) (x1 : BitVec 10) (y1 : BitVec 9) :
    s.fillRect x0 y0 x1 y1 = s.withMem (s.fillRect x0 y0 x1 y1).mem := foldl_onlyMem fillStep_eq _ s

/-- A line changes memory and the dash phase alone (R113). -/
theorem drawLine_eq (s : State) (x0 : BitVec 10) (y0 : BitVec 9) (x1 : BitVec 10) (y1 : BitVec 9) :
    s.drawLine x0 y0 x1 y1 = (s.withMem (s.drawLine x0 y0 x1 y1).mem).withPat
      (Pattern.advance^[(linePoints x0.toNat y0.toNat x1.toNat y1.toNat).length] s.pat) := foldl_lineStep_eq _ s

/-! ### Every other field -/

@[simp] theorem plot_dataW (s : State) (x y : Nat) (d : Bool) : (s.plot x y d).dataW = s.dataW := by
  rw [plot_eq]; rfl
@[simp] theorem plot_dataR (s : State) (x y : Nat) (d : Bool) : (s.plot x y d).dataR = s.dataR := by
  rw [plot_eq]; rfl
@[simp] theorem plot_cr (s : State) (x y : Nat) (d : Bool) : (s.plot x y d).cr = s.cr := by
  rw [plot_eq]; rfl
@[simp] theorem plot_fsm (s : State) (x y : Nat) (d : Bool) : (s.plot x y d).fsm = s.fsm := by
  rw [plot_eq]; rfl
@[simp] theorem plot_io (s : State) (x y : Nat) (d : Bool) : (s.plot x y d).io = s.io := by
  rw [plot_eq]; rfl
@[simp] theorem plot_ctl (s : State) (x y : Nat) (d : Bool) : (s.plot x y d).ctl = s.ctl := by
  rw [plot_eq]; rfl
@[simp] theorem plot_pat (s : State) (x y : Nat) (d : Bool) : (s.plot x y d).pat = s.pat := by
  rw [plot_eq]; rfl
@[simp] theorem plot_ends (s : State) (x y : Nat) (d : Bool) : (s.plot x y d).ends = s.ends := by
  rw [plot_eq]; rfl
@[simp] theorem plot_music (s : State) (x y : Nat) (d : Bool) : (s.plot x y d).music = s.music := by
  rw [plot_eq]; rfl
@[simp] theorem plot_cursor (s : State) (x y : Nat) (d : Bool) : (s.plot x y d).cursor = s.cursor := by
  rw [plot_eq]; rfl
@[simp] theorem plot_lp (s : State) (x y : Nat) (d : Bool) : (s.plot x y d).lp = s.lp := by
  rw [plot_eq]; rfl
@[simp] theorem plot_sig (s : State) (x y : Nat) (d : Bool) : (s.plot x y d).sig = s.sig := by
  rw [plot_eq]; rfl
@[simp] theorem plot_wakePending (s : State) (x y : Nat) (d : Bool) : (s.plot x y d).wakePending = s.wakePending := by
  rw [plot_eq]; rfl
@[simp] theorem plot_frameCnt (s : State) (x y : Nat) (d : Bool) : (s.plot x y d).frameCnt = s.frameCnt := by
  rw [plot_eq]; rfl
@[simp] theorem plot_alpha (s : State) (x y : Nat) (d : Bool) : (s.plot x y d).alpha = s.alpha := by
  rw [plot_eq]; rfl
@[simp] theorem plot_errlog (s : State) (x y : Nat) (d : Bool) : (s.plot x y d).errlog = s.errlog := by
  rw [plot_eq]; rfl
@[simp] theorem plot_ret (s : State) (x y : Nat) (d : Bool) : (s.plot x y d).ret = s.ret := by
  rw [plot_eq]; rfl
@[simp] theorem plot_wakeDelay (s : State) (x y : Nat) (d : Bool) : (s.plot x y d).wakeDelay = s.wakeDelay := by
  rw [plot_eq]; rfl
@[simp] theorem plot_hostReads (s : State) (x y : Nat) (d : Bool) : (s.plot x y d).hostReads = s.hostReads := by
  rw [plot_eq]; rfl
@[simp] theorem plot_cfg (s : State) (x y : Nat) (d : Bool) : (s.plot x y d).cfg = s.cfg := by
  rw [plot_eq]; rfl
@[simp] theorem plot_inputs (s : State) (x y : Nat) (d : Bool) : (s.plot x y d).inputs = s.inputs := by
  rw [plot_eq]; rfl
@[simp] theorem plot_beams (s : State) (x y : Nat) (d : Bool) : (s.plot x y d).beams = s.beams := by
  rw [plot_eq]; rfl
@[simp] theorem plot_inbox (s : State) (x y : Nat) (d : Bool) : (s.plot x y d).inbox = s.inbox := by
  rw [plot_eq]; rfl
@[simp] theorem plot_clock (s : State) (x y : Nat) (d : Bool) : (s.plot x y d).clock = s.clock := by
  rw [plot_eq]; rfl
@[simp] theorem fillRect_dataW (s : State) (x0 : BitVec 10) (y0 : BitVec 9) (x1 : BitVec 10)
    (y1 : BitVec 9) : (s.fillRect x0 y0 x1 y1).dataW = s.dataW := by
  rw [fillRect_eq]; rfl
@[simp] theorem fillRect_dataR (s : State) (x0 : BitVec 10) (y0 : BitVec 9) (x1 : BitVec 10)
    (y1 : BitVec 9) : (s.fillRect x0 y0 x1 y1).dataR = s.dataR := by
  rw [fillRect_eq]; rfl
@[simp] theorem fillRect_cr (s : State) (x0 : BitVec 10) (y0 : BitVec 9) (x1 : BitVec 10)
    (y1 : BitVec 9) : (s.fillRect x0 y0 x1 y1).cr = s.cr := by
  rw [fillRect_eq]; rfl
@[simp] theorem fillRect_fsm (s : State) (x0 : BitVec 10) (y0 : BitVec 9) (x1 : BitVec 10)
    (y1 : BitVec 9) : (s.fillRect x0 y0 x1 y1).fsm = s.fsm := by
  rw [fillRect_eq]; rfl
@[simp] theorem fillRect_io (s : State) (x0 : BitVec 10) (y0 : BitVec 9) (x1 : BitVec 10)
    (y1 : BitVec 9) : (s.fillRect x0 y0 x1 y1).io = s.io := by
  rw [fillRect_eq]; rfl
@[simp] theorem fillRect_ctl (s : State) (x0 : BitVec 10) (y0 : BitVec 9) (x1 : BitVec 10)
    (y1 : BitVec 9) : (s.fillRect x0 y0 x1 y1).ctl = s.ctl := by
  rw [fillRect_eq]; rfl
@[simp] theorem fillRect_pat (s : State) (x0 : BitVec 10) (y0 : BitVec 9) (x1 : BitVec 10)
    (y1 : BitVec 9) : (s.fillRect x0 y0 x1 y1).pat = s.pat := by
  rw [fillRect_eq]; rfl
@[simp] theorem fillRect_ends (s : State) (x0 : BitVec 10) (y0 : BitVec 9) (x1 : BitVec 10)
    (y1 : BitVec 9) : (s.fillRect x0 y0 x1 y1).ends = s.ends := by
  rw [fillRect_eq]; rfl
@[simp] theorem fillRect_music (s : State) (x0 : BitVec 10) (y0 : BitVec 9) (x1 : BitVec 10)
    (y1 : BitVec 9) : (s.fillRect x0 y0 x1 y1).music = s.music := by
  rw [fillRect_eq]; rfl
@[simp] theorem fillRect_cursor (s : State) (x0 : BitVec 10) (y0 : BitVec 9) (x1 : BitVec 10)
    (y1 : BitVec 9) : (s.fillRect x0 y0 x1 y1).cursor = s.cursor := by
  rw [fillRect_eq]; rfl
@[simp] theorem fillRect_lp (s : State) (x0 : BitVec 10) (y0 : BitVec 9) (x1 : BitVec 10)
    (y1 : BitVec 9) : (s.fillRect x0 y0 x1 y1).lp = s.lp := by
  rw [fillRect_eq]; rfl
@[simp] theorem fillRect_sig (s : State) (x0 : BitVec 10) (y0 : BitVec 9) (x1 : BitVec 10)
    (y1 : BitVec 9) : (s.fillRect x0 y0 x1 y1).sig = s.sig := by
  rw [fillRect_eq]; rfl
@[simp] theorem fillRect_wakePending (s : State) (x0 : BitVec 10) (y0 : BitVec 9) (x1 : BitVec 10)
    (y1 : BitVec 9) : (s.fillRect x0 y0 x1 y1).wakePending = s.wakePending := by
  rw [fillRect_eq]; rfl
@[simp] theorem fillRect_frameCnt (s : State) (x0 : BitVec 10) (y0 : BitVec 9) (x1 : BitVec 10)
    (y1 : BitVec 9) : (s.fillRect x0 y0 x1 y1).frameCnt = s.frameCnt := by
  rw [fillRect_eq]; rfl
@[simp] theorem fillRect_alpha (s : State) (x0 : BitVec 10) (y0 : BitVec 9) (x1 : BitVec 10)
    (y1 : BitVec 9) : (s.fillRect x0 y0 x1 y1).alpha = s.alpha := by
  rw [fillRect_eq]; rfl
@[simp] theorem fillRect_errlog (s : State) (x0 : BitVec 10) (y0 : BitVec 9) (x1 : BitVec 10)
    (y1 : BitVec 9) : (s.fillRect x0 y0 x1 y1).errlog = s.errlog := by
  rw [fillRect_eq]; rfl
@[simp] theorem fillRect_ret (s : State) (x0 : BitVec 10) (y0 : BitVec 9) (x1 : BitVec 10)
    (y1 : BitVec 9) : (s.fillRect x0 y0 x1 y1).ret = s.ret := by
  rw [fillRect_eq]; rfl
@[simp] theorem fillRect_wakeDelay (s : State) (x0 : BitVec 10) (y0 : BitVec 9) (x1 : BitVec 10)
    (y1 : BitVec 9) : (s.fillRect x0 y0 x1 y1).wakeDelay = s.wakeDelay := by
  rw [fillRect_eq]; rfl
@[simp] theorem fillRect_hostReads (s : State) (x0 : BitVec 10) (y0 : BitVec 9) (x1 : BitVec 10)
    (y1 : BitVec 9) : (s.fillRect x0 y0 x1 y1).hostReads = s.hostReads := by
  rw [fillRect_eq]; rfl
@[simp] theorem fillRect_cfg (s : State) (x0 : BitVec 10) (y0 : BitVec 9) (x1 : BitVec 10)
    (y1 : BitVec 9) : (s.fillRect x0 y0 x1 y1).cfg = s.cfg := by
  rw [fillRect_eq]; rfl
@[simp] theorem fillRect_inputs (s : State) (x0 : BitVec 10) (y0 : BitVec 9) (x1 : BitVec 10)
    (y1 : BitVec 9) : (s.fillRect x0 y0 x1 y1).inputs = s.inputs := by
  rw [fillRect_eq]; rfl
@[simp] theorem fillRect_beams (s : State) (x0 : BitVec 10) (y0 : BitVec 9) (x1 : BitVec 10)
    (y1 : BitVec 9) : (s.fillRect x0 y0 x1 y1).beams = s.beams := by
  rw [fillRect_eq]; rfl
@[simp] theorem fillRect_inbox (s : State) (x0 : BitVec 10) (y0 : BitVec 9) (x1 : BitVec 10)
    (y1 : BitVec 9) : (s.fillRect x0 y0 x1 y1).inbox = s.inbox := by
  rw [fillRect_eq]; rfl
@[simp] theorem fillRect_clock (s : State) (x0 : BitVec 10) (y0 : BitVec 9) (x1 : BitVec 10)
    (y1 : BitVec 9) : (s.fillRect x0 y0 x1 y1).clock = s.clock := by
  rw [fillRect_eq]; rfl
@[simp] theorem drawLine_dataW (s : State) (x0 : BitVec 10) (y0 : BitVec 9) (x1 : BitVec 10)
    (y1 : BitVec 9) : (s.drawLine x0 y0 x1 y1).dataW = s.dataW := by
  rw [drawLine_eq]; rfl
@[simp] theorem drawLine_dataR (s : State) (x0 : BitVec 10) (y0 : BitVec 9) (x1 : BitVec 10)
    (y1 : BitVec 9) : (s.drawLine x0 y0 x1 y1).dataR = s.dataR := by
  rw [drawLine_eq]; rfl
@[simp] theorem drawLine_cr (s : State) (x0 : BitVec 10) (y0 : BitVec 9) (x1 : BitVec 10)
    (y1 : BitVec 9) : (s.drawLine x0 y0 x1 y1).cr = s.cr := by
  rw [drawLine_eq]; rfl
@[simp] theorem drawLine_fsm (s : State) (x0 : BitVec 10) (y0 : BitVec 9) (x1 : BitVec 10)
    (y1 : BitVec 9) : (s.drawLine x0 y0 x1 y1).fsm = s.fsm := by
  rw [drawLine_eq]; rfl
@[simp] theorem drawLine_io (s : State) (x0 : BitVec 10) (y0 : BitVec 9) (x1 : BitVec 10)
    (y1 : BitVec 9) : (s.drawLine x0 y0 x1 y1).io = s.io := by
  rw [drawLine_eq]; rfl
@[simp] theorem drawLine_ctl (s : State) (x0 : BitVec 10) (y0 : BitVec 9) (x1 : BitVec 10)
    (y1 : BitVec 9) : (s.drawLine x0 y0 x1 y1).ctl = s.ctl := by
  rw [drawLine_eq]; rfl
@[simp] theorem drawLine_ends (s : State) (x0 : BitVec 10) (y0 : BitVec 9) (x1 : BitVec 10)
    (y1 : BitVec 9) : (s.drawLine x0 y0 x1 y1).ends = s.ends := by
  rw [drawLine_eq]; rfl
@[simp] theorem drawLine_music (s : State) (x0 : BitVec 10) (y0 : BitVec 9) (x1 : BitVec 10)
    (y1 : BitVec 9) : (s.drawLine x0 y0 x1 y1).music = s.music := by
  rw [drawLine_eq]; rfl
@[simp] theorem drawLine_cursor (s : State) (x0 : BitVec 10) (y0 : BitVec 9) (x1 : BitVec 10)
    (y1 : BitVec 9) : (s.drawLine x0 y0 x1 y1).cursor = s.cursor := by
  rw [drawLine_eq]; rfl
@[simp] theorem drawLine_lp (s : State) (x0 : BitVec 10) (y0 : BitVec 9) (x1 : BitVec 10)
    (y1 : BitVec 9) : (s.drawLine x0 y0 x1 y1).lp = s.lp := by
  rw [drawLine_eq]; rfl
@[simp] theorem drawLine_sig (s : State) (x0 : BitVec 10) (y0 : BitVec 9) (x1 : BitVec 10)
    (y1 : BitVec 9) : (s.drawLine x0 y0 x1 y1).sig = s.sig := by
  rw [drawLine_eq]; rfl
@[simp] theorem drawLine_wakePending (s : State) (x0 : BitVec 10) (y0 : BitVec 9) (x1 : BitVec 10)
    (y1 : BitVec 9) : (s.drawLine x0 y0 x1 y1).wakePending = s.wakePending := by
  rw [drawLine_eq]; rfl
@[simp] theorem drawLine_frameCnt (s : State) (x0 : BitVec 10) (y0 : BitVec 9) (x1 : BitVec 10)
    (y1 : BitVec 9) : (s.drawLine x0 y0 x1 y1).frameCnt = s.frameCnt := by
  rw [drawLine_eq]; rfl
@[simp] theorem drawLine_alpha (s : State) (x0 : BitVec 10) (y0 : BitVec 9) (x1 : BitVec 10)
    (y1 : BitVec 9) : (s.drawLine x0 y0 x1 y1).alpha = s.alpha := by
  rw [drawLine_eq]; rfl
@[simp] theorem drawLine_errlog (s : State) (x0 : BitVec 10) (y0 : BitVec 9) (x1 : BitVec 10)
    (y1 : BitVec 9) : (s.drawLine x0 y0 x1 y1).errlog = s.errlog := by
  rw [drawLine_eq]; rfl
@[simp] theorem drawLine_ret (s : State) (x0 : BitVec 10) (y0 : BitVec 9) (x1 : BitVec 10)
    (y1 : BitVec 9) : (s.drawLine x0 y0 x1 y1).ret = s.ret := by
  rw [drawLine_eq]; rfl
@[simp] theorem drawLine_wakeDelay (s : State) (x0 : BitVec 10) (y0 : BitVec 9) (x1 : BitVec 10)
    (y1 : BitVec 9) : (s.drawLine x0 y0 x1 y1).wakeDelay = s.wakeDelay := by
  rw [drawLine_eq]; rfl
@[simp] theorem drawLine_hostReads (s : State) (x0 : BitVec 10) (y0 : BitVec 9) (x1 : BitVec 10)
    (y1 : BitVec 9) : (s.drawLine x0 y0 x1 y1).hostReads = s.hostReads := by
  rw [drawLine_eq]; rfl
@[simp] theorem drawLine_cfg (s : State) (x0 : BitVec 10) (y0 : BitVec 9) (x1 : BitVec 10)
    (y1 : BitVec 9) : (s.drawLine x0 y0 x1 y1).cfg = s.cfg := by
  rw [drawLine_eq]; rfl
@[simp] theorem drawLine_inputs (s : State) (x0 : BitVec 10) (y0 : BitVec 9) (x1 : BitVec 10)
    (y1 : BitVec 9) : (s.drawLine x0 y0 x1 y1).inputs = s.inputs := by
  rw [drawLine_eq]; rfl
@[simp] theorem drawLine_beams (s : State) (x0 : BitVec 10) (y0 : BitVec 9) (x1 : BitVec 10)
    (y1 : BitVec 9) : (s.drawLine x0 y0 x1 y1).beams = s.beams := by
  rw [drawLine_eq]; rfl
@[simp] theorem drawLine_inbox (s : State) (x0 : BitVec 10) (y0 : BitVec 9) (x1 : BitVec 10)
    (y1 : BitVec 9) : (s.drawLine x0 y0 x1 y1).inbox = s.inbox := by
  rw [drawLine_eq]; rfl
@[simp] theorem drawLine_clock (s : State) (x0 : BitVec 10) (y0 : BitVec 9) (x1 : BitVec 10)
    (y1 : BitVec 9) : (s.drawLine x0 y0 x1 y1).clock = s.clock := by
  rw [drawLine_eq]; rfl

/-! ### Memory stays well formed -/

theorem memOk_iff (s : State) :
    s.memOk = true ↔ Memory.wf s.mem = true ∧ ∀ m ∈ s.mem, keyInRange s.cfg m.1 = true := by
  simp [State.memOk]

theorem keyInRange_wordKey {c : Config} {p : BitVec 2} (a : Nat) (hp : p.toNat < c.nplanes) :
    keyInRange c (wordKey p (planeAddr c a)) = true ∧ keyInRange c (wordKey p (planeAddr c a) + 1) = true := by
  have h : planeAddr c a ≤ c.addrMask := Nat.and_le_right
  have := p.isLt
  have e1 : (8 * planeAddr c a + 2 * p.toNat) / 8 = planeAddr c a := by omega
  have e2 : (8 * planeAddr c a + 2 * p.toNat) % 8 / 2 = p.toNat := by omega
  have e3 : (8 * planeAddr c a + 2 * p.toNat + 1) / 8 = planeAddr c a := by omega
  have e4 : (8 * planeAddr c a + 2 * p.toNat + 1) % 8 / 2 = p.toNat := by omega
  simp only [keyInRange, wordKey, e1, e2, e3, e4, h, hp, decide_true, Bool.and_self, and_self]

/-- PlaneWrite to a plane that exists keeps the memory well formed. -/
theorem planeWrite_memOk {s : State} {p : BitVec 2} (a : Nat) (w : Word) (hp : p.toNat < s.cfg.nplanes)
    (h : s.memOk = true) : (s.planeWrite p a w).memOk = true := by
  rw [memOk_iff] at h ⊢
  refine ⟨writeWord_wf _ _ h.1, fun m hm => ?_⟩
  rcases mem_writeWord hm with e | e | e
  · exact e ▸ (keyInRange_wordKey a hp).1
  · exact e ▸ (keyInRange_wordKey a hp).2
  · exact h.2 m e

theorem writePixel_memOk {s : State} {p : BitVec 2} (x y : Nat) (b : Bool) (hp : p.toNat < s.cfg.nplanes)
    (h : s.memOk = true) : (s.writePixel p x y b).memOk = true := by
  simp only [State.writePixel]; split <;> exact planeWrite_memOk _ _ hp h

theorem plotPlane_memOk {s : State} {p : BitVec 2} (x y : Nat) (d : Bool) (hp : p.toNat < s.cfg.nplanes)
    (h : s.memOk = true) : (s.plotPlane x y d p).memOk = true := by
  unfold State.plotPlane; split
  · exact writePixel_memOk _ _ _ hp h
  · exact writePixel_memOk _ _ _ hp h
  · exact h

theorem plot_memOk {s : State} (x y : Nat) (d : Bool) (h : s.memOk = true) : (s.plot x y d).memOk = true := by
  have key : ∀ (l : List (BitVec 2)) (t : State), t.memOk = true → (∀ p ∈ l, p.toNat < t.cfg.nplanes) →
      (l.foldl (fun t p => t.plotPlane x y d p) t).memOk = true := by
    intro l
    induction l with
    | nil => exact fun t ht _ => ht
    | cons p l ih =>
      intro t ht hl
      refine ih _ (plotPlane_memOk x y d (hl p (by simp)) ht) fun q hq => ?_
      have hc : (t.plotPlane x y d p).cfg = t.cfg := by rw [plotPlane_eq]; rfl
      rw [hc]; exact hl q (by simp [hq])
  exact key _ s h fun p hp => (mem_planesOf _ p).1 hp

theorem foldl_lineStep_memOk (l : List (Int × Int)) {s : State} (h : s.memOk = true) :
    (l.foldl State.lineStep s).memOk = true := by
  induction l generalizing s with
  | nil => exact h
  | cons q l ih => exact ih (s := s.lineStep q) (plot_memOk _ _ _ h)

theorem drawLine_memOk {s : State} (x0 : BitVec 10) (y0 : BitVec 9) (x1 : BitVec 10) (y1 : BitVec 9)
    (h : s.memOk = true) : (s.drawLine x0 y0 x1 y1).memOk = true := foldl_lineStep_memOk _ h

theorem fillRect_memOk {s : State} (x0 : BitVec 10) (y0 : BitVec 9) (x1 : BitVec 10) (y1 : BitVec 9)
    (h : s.memOk = true) : (s.fillRect x0 y0 x1 y1).memOk = true := by
  have key : ∀ (l : List (Nat × Nat)) (t : State), t.memOk = true → (l.foldl State.fillStep t).memOk = true := by
    intro l
    induction l with
    | nil => exact fun t ht => ht
    | cons q l ih => exact fun t ht => ih _ (plot_memOk _ _ _ ht)
  exact key _ s h

end Sys2Proof.Machine
end

