-- ==== Sys2Proof/Laws/Fsm.lean ====
section
/-! SUPPORT. What the Command Protocol State Machine can do: what each row leaves alone, that every transition brings the
machine nearer to rest, so that an event makes at most six, and how a property that every row keeps is kept by a run to
fixpoint. -/

namespace Sys2Proof.Machine

/-- The state a row leaves. -/
def RowOut.state : RowOut → State
  | .go _ _ s => s
  | .rest s => s

@[simp] theorem RowOut.state_go (ds trig : Bool) (s : State) : (RowOut.go ds trig s).state = s := rfl
@[simp] theorem RowOut.state_rest (s : State) : (RowOut.rest s).state = s := rfl

/-- A property every row keeps is kept by a run to fixpoint. -/
theorem runRows_keeps {P : State → Prop} (h : ∀ ds trig s, P s → P (fsmRow ds trig s).state) (n : Nat) (ds trig : Bool)
    (s : State) (hs : P s) : P (runRows n ds trig s) := by
  induction n generalizing ds trig s with
  | zero => exact hs
  | succ n ih =>
    have h1 := h ds trig s hs
    unfold runRows
    split
    · next e => rw [e] at h1; exact ih _ _ _ h1
    · next e => rw [e] at h1; exact h1

theorem runFsm_keeps {P : State → Prop} (h : ∀ ds trig s, P s → P (fsmRow ds trig s).state) {ds trig : Bool} {s : State}
    (hs : P s) : P (s.runFsm ds trig) := runRows_keeps h _ _ _ _ hs

/-! ### What a row leaves alone -/

theorem beamsAfter_suffix (s : State) (a : Bool) : s.beamsAfter a <:+ s.beams := by
  cases a
  · exact List.suffix_refl _
  · exact List.tail_suffix _

/-- What no row of the FSM writes: the display state, the environment, the CommandRegister, the pending data word, the
signals, the returned value, the captured pointer and hits; of the beam's positions lined up it only takes some. -/
structure RowFrame (s t : State) : Prop where
  frameCnt : t.frameCnt = s.frameCnt
  alpha : t.alpha = s.alpha
  hostReads : t.hostReads = s.hostReads
  cfg : t.cfg = s.cfg
  inputs : t.inputs = s.inputs
  inbox : t.inbox = s.inbox
  clock : t.clock = s.clock
  cr : t.cr = s.cr
  dataW : t.dataW = s.dataW
  sig : t.sig = s.sig
  ret : t.ret = s.ret
  beams : t.beams <:+ s.beams
  lp : { t.lp with regSel := s.lp.regSel, int := s.lp.int } = s.lp

theorem RowFrame.refl (s : State) : RowFrame s s := ⟨rfl, rfl, rfl, rfl, rfl, rfl, rfl, rfl, rfl, rfl, rfl, List.suffix_refl _, rfl⟩

theorem RowFrame.trans {s t u : State} (h : RowFrame s t) (k : RowFrame t u) : RowFrame s u where
  frameCnt := k.frameCnt.trans h.frameCnt
  alpha := k.alpha.trans h.alpha
  hostReads := k.hostReads.trans h.hostReads
  cfg := k.cfg.trans h.cfg
  inputs := k.inputs.trans h.inputs
  inbox := k.inbox.trans h.inbox
  clock := k.clock.trans h.clock
  cr := k.cr.trans h.cr
  dataW := k.dataW.trans h.dataW
  sig := k.sig.trans h.sig
  ret := k.ret.trans h.ret
  beams := k.beams.trans h.beams
  lp := by
    have h1 := h.lp; have k1 := k.lp
    rw [← h1, ← k1]

/-- What asking the arbiter does, as updates of groups: it takes a position of the beam where graphics are active, and
cancels the wake-up or asks for one (R102 to R104; entry 30). -/
@[simp] theorem granted_eq (s : State) :
    s.granted = (s.withBeams (s.beamsAfter s.graphicsActive)).withWakePending false := rfl

@[simp] theorem suspend_eq (s : State) :
    s.suspend = ((s.withBeams (s.beamsAfter s.graphicsActive)).withWakePending true).withWakeDelay
      (s.timeUntilAvailable s.graphicsActive) := rfl

theorem granted_frame (s : State) : RowFrame s s.granted :=
  ⟨rfl, rfl, rfl, rfl, rfl, rfl, rfl, rfl, rfl, rfl, rfl, beamsAfter_suffix _ _, rfl⟩

theorem suspend_frame (s : State) : RowFrame s s.suspend :=
  ⟨rfl, rfl, rfl, rfl, rfl, rfl, rfl, rfl, rfl, rfl, rfl, beamsAfter_suffix _ _, rfl⟩

/-- Every row leaves those alone. -/
theorem fsmRow_frame (ds trig : Bool) (s : State) : RowFrame s (fsmRow ds trig s).state := by
  have note (t : State) : RowFrame t t.noteCommand := by
    unfold State.noteCommand State.loadIoCursor
    split
    · exact .refl t
    · constructor <;> simp
      split <;> rfl
  have par (t : State) : RowFrame t t.applyParam1 := by
    unfold State.applyParam1 State.applyLdmap
    constructor <;> split <;> first | rfl | (split <;> rfl)
  have fin (t u : State) (f : Fsm) (h : RowFrame t u) : RowFrame t (u.withFsm f) :=
    ⟨h.1, h.2, h.3, h.4, h.5, h.6, h.7, h.8, h.9, h.10, h.11, h.12, h.13⟩
  unfold fsmRow
  split
  · constructor <;> rfl
  · unfold rowWaitDs0
    split <;> try split
    all_goals exact fin _ _ _ (note s)
  · unfold rowWaitTrig0
    split
    · split
      · exact fin _ _ _ (par s)
      all_goals constructor <;> rfl
    · exact .refl s
  · unfold rowWaitMem0
    split
    · split <;> refine (granted_frame s).trans ?_ <;> constructor <;> rfl
    · exact suspend_frame s
  · unfold rowWaitDs1; split <;> constructor <;> rfl
  · unfold rowWaitDs2; split <;> constructor <;> rfl
  · unfold rowWaitTrig1
    split
    · split <;> constructor <;> rfl
    · exact .refl s
  · unfold rowWaitMem1
    split
    · split <;> refine (granted_frame s).trans ?_ <;> constructor <;> rfl
    · exact suspend_frame s
  · unfold rowWaitMem2
    split
    · split
      · refine (granted_frame s).trans ?_
        constructor <;> simp [State.drawPending, State.keepEndpoint]
      · refine (granted_frame s).trans ?_
        constructor <;> simp [State.fillPending, State.keepEndpoint]
      · refine (granted_frame s).trans ?_
        constructor <;> rfl
    · exact suspend_frame s

/-- A run of the FSM leaves those alone. -/
theorem runFsm_frame (ds trig : Bool) (s : State) : RowFrame s (s.runFsm ds trig) :=
  runFsm_keeps (P := fun t => RowFrame s t) (fun _ _ _ h => h.trans (fsmRow_frame _ _ _)) (.refl s)

/-! ### Every transition brings the machine nearer to rest -/

/-- How many transitions are left at most, by the class of the command, the state and whether a strobe is in hand. -/
def transitionsLeft (k : CmdClass) (f : Fsm) (ds : Bool) : Nat :=
  match k, f with
  | .read, .waitDs1 => if ds then 2 else 0
  | .read, .waitMem0 => if ds then 3 else 1
  | .read, .waitDs0 => if ds then 4 else 2
  | .read, .reset => if ds then 5 else 3
  | .read, .waitDs2 => if ds then 5 else 0
  | .read, _ => if ds then 6 else 4
  | .write, .waitDs0 => if ds then 3 else 0
  | .write, .waitDs2 => if ds then 3 else 0
  | .write, .waitDs1 => if ds then 3 else 0
  | .write, .waitMem1 => if ds then 4 else 1
  | .write, .reset => if ds then 4 else 1
  | .write, _ => if ds then 5 else 2
  | .param1, .waitDs0 => if ds then 2 else 0
  | .param1, .waitDs1 => if ds then 3 else 0
  | .param1, .waitDs2 => if ds then 3 else 0
  | .param1, .waitTrig0 => if ds then 3 else 1
  | .param1, .reset => if ds then 3 else 1
  | .param1, _ => if ds then 4 else 2
  | .param2, .waitDs0 => if ds then 2 else 0
  | .param2, .waitDs1 => if ds then 3 else 0
  | .param2, .waitDs2 => if ds then 4 else 0
  | .param2, .waitTrig0 => if ds then 5 else 1
  | .param2, .reset => if ds then 3 else 1
  | .param2, .waitTrig1 => if ds then 5 else 3
  | .param2, _ => if ds then 4 else 2

theorem transitionsLeft_le (k : CmdClass) (f : Fsm) (ds : Bool) : transitionsLeft k f ds ≤ 6 := by
  cases k <;> cases f <;> cases ds <;> decide

/-- A transition leaves fewer transitions. -/
theorem fsmRow_descends {ds trig ds' trig' : Bool} {s s' : State} (h : fsmRow ds trig s = .go ds' trig' s') :
    transitionsLeft (cmdClass s'.cr.cmd) s'.fsm ds' < transitionsLeft (cmdClass s.cr.cmd) s.fsm ds := by
  have hcr : s'.cr = s.cr := by have := (fsmRow_frame ds trig s).cr; rwa [h] at this
  rw [hcr]
  unfold fsmRow at h
  split at h <;> next hf =>
    rw [hf]
    simp only [rowReset, rowWaitDs0, rowWaitTrig0, rowWaitMem0, rowWaitDs1, rowWaitDs2, rowWaitTrig1, rowWaitMem1,
      rowWaitMem2] at h
    repeat' split at h
    all_goals first
      | cases h; done
      | (obtain ⟨rfl, rfl, rfl⟩ := (RowOut.go.injEq .. ▸ h)
         cases hc : s.cr.cmd <;> simp_all [transitionsLeft, cmdClass, State.protocolInconsistency] <;>
           (cases ds <;> simp_all))

/-- With more rows to evaluate than transitions are left, the run ends in a row that rests, and one row more changes
nothing. -/
theorem runRows_rests (n : Nat) (ds trig : Bool) (s : State) (hn : transitionsLeft (cmdClass s.cr.cmd) s.fsm ds < n) :
    (∃ ds' trig' u, fsmRow ds' trig' u = .rest (runRows n ds trig s)) ∧
      runRows (n + 1) ds trig s = runRows n ds trig s := by
  induction n generalizing ds trig s with
  | zero => omega
  | succ n ih =>
    cases e : fsmRow ds trig s with
    | rest t => simp only [runRows, e]; exact ⟨⟨_, _, _, e⟩, trivial⟩
    | go ds' trig' s' =>
      have := ih ds' trig' s' (by have := fsmRow_descends e; omega)
      simp only [runRows, e] at this ⊢
      exact this

end Sys2Proof.Machine
end

