-- ==== Sys2Proof/Laws/Invariant.lean ====
section
/-! SUPPORT. The parts of the invariant that the FSM can touch, one property kept by every row: the IoCursor in range, the
dash phase in range, coordinates and plane flags masked, the memory well formed, a wake-up pending in a memory-wait state
only, the last command known once WAIT_DS_0 has been evaluated. -/

namespace Sys2Proof.Machine

/-- The IoCursor without `last_cmd` is in range (R15, R31). -/
structure IoCursor.InRange (c : Config) (io : IoCursor) : Prop where
  plane : io.plane.toNat < c.nplanes
  addr : io.addr &&& c.addrMask = io.addr
  wrap : c.nplanes = 1 → io.wrap = false

theorem ioOk_iff (s : State) : s.ioOk = true ↔ s.io.InRange s.cfg ∧ s.io.lastCmd ≠ none := by
  simp only [State.ioOk, Bool.and_eq_true, Bool.or_eq_true, decide_eq_true_eq, Bool.not_eq_true']
  constructor
  · rintro ⟨⟨⟨h1, h2⟩, h3⟩, h4⟩; exact ⟨⟨h1, h2, fun e => h3.resolve_left fun h => h e⟩, h4⟩
  · rintro ⟨⟨h1, h2, h3⟩, h4⟩
    refine ⟨⟨⟨h1, h2⟩, ?_⟩, h4⟩
    by_cases e : s.cfg.nplanes = 1
    · exact .inr (h3 e)
    · exact .inl e

theorem nplanes_pos (c : Config) : 0 < c.nplanes := by
  unfold Config.nplanes; cases c.planeCount <;> decide

theorem nplanes_eq (c : Config) : c.nplanes = 1 ∨ c.nplanes = 3 := by
  unfold Config.nplanes; cases c.planeCount <;> decide

@[simp] theorem planeAddr_masked (c : Config) (a : Nat) : planeAddr c a &&& c.addrMask = planeAddr c a := by
  simp [planeAddr]

/-- A change of command loads a cursor in range (R141, U4). -/
theorem restoredCursor_inRange {c : Config} {io : IoCursor} (cmd : Cmd) (h : io.InRange c) :
    (restoredCursor c io cmd).InRange c := by
  unfold restoredCursor
  split
  · exact ⟨nplanes_pos c, planeAddr_masked c _, fun _ => rfl⟩
  · refine ⟨?_, ?_, fun e => ?_⟩
    · dsimp only; split
      · exact h.plane
      · exact nplanes_pos c
    · simp
    · simp [e]

/-- The advance keeps the cursor in range (R142). -/
theorem IoCursor.advance_inRange {c : Config} {io : IoCursor} (h : io.InRange c) : (IoCursor.advance c io).InRange c := by
  unfold IoCursor.advance
  split
  · next hlt =>
    refine ⟨?_, h.addr, h.wrap⟩
    have : (io.plane + 1).toNat = io.plane.toNat + 1 := by
      rw [BitVec.toNat_add]; have := nplanes_eq c; simp; omega
    dsimp only; omega
  · refine ⟨nplanes_pos c, planeAddr_masked c _, fun e => ?_⟩
    simp [h.wrap e, e]

theorem Pattern.ok_iff (p : Pattern) : p.ok = true ↔ p.dashRep.toNat < p.dashN.toNat ∧ p.dashN.toNat ≤ 16 := by
  simp [Pattern.ok]

/-- What the rows of the FSM keep. -/
structure FsmKept (s : State) : Prop where
  io : s.io.InRange s.cfg
  pat : s.pat.ok = true
  coords : s.coordsOk = true
  planes : s.planesOk = true
  mem : s.memOk = true
  wake : s.wakePending = true → s.fsm.isMemWait = true ∨ s.fsm = .reset
  last : s.io.lastCmd = none → s.fsm = .reset ∨ s.fsm = .waitDs0

theorem restoredCursor_lastCmd (c : Config) (io : IoCursor) (cmd : Cmd) :
    (restoredCursor c io cmd).lastCmd = io.lastCmd := by unfold restoredCursor; split <;> rfl

theorem noteCommand_kept {s : State} (h : FsmKept s) : FsmKept s.noteCommand ∧ s.noteCommand.io.lastCmd ≠ none := by
  unfold State.noteCommand State.loadIoCursor
  split
  · next e => exact ⟨h, by simp [e]⟩
  · have r := restoredCursor_inRange s.cr.cmd h.io
    exact ⟨⟨⟨r.1, r.2, r.3⟩, h.pat, h.coords, h.planes, h.mem, h.wake, by simp⟩, by simp⟩

theorem noteCommand_fsm (s : State) : s.noteCommand.fsm = s.fsm := by
  unfold State.noteCommand State.loadIoCursor; split <;> rfl

theorem noteCommand_wakePending (s : State) : s.noteCommand.wakePending = s.wakePending := by
  unfold State.noteCommand State.loadIoCursor; split <;> rfl

@[simp] theorem noteCommand_cr (s : State) : s.noteCommand.cr = s.cr := by
  unfold State.noteCommand State.loadIoCursor; split <;> rfl

theorem and_idem_left {n : Nat} (a m : BitVec n) : a &&& m &&& m = a &&& m := by simp [BitVec.and_assoc]

theorem applyParam1_kept {s : State} (h : FsmKept s) : FsmKept s.applyParam1 := by
  have hc := h.coords
  have hp := h.planes
  simp only [State.coordsOk, State.planesOk, Bool.and_eq_true, decide_eq_true_eq] at hc hp
  unfold State.applyParam1
  split
  case h_5 =>
    refine ⟨h.io, ?_, h.coords, h.planes, h.mem, h.wake, h.last⟩
    have : (s.dataW.extractLsb' 4 4).toNat < 16 := (s.dataW.extractLsb' 4 4).isLt
    have e : (dataDashN s.dataW).toNat = (s.dataW.extractLsb' 4 4).toNat + 1 := by
      unfold dataDashN
      rw [BitVec.toNat_add, BitVec.toNat_setWidth]; show (_ % 2 ^ 5 + 1) % 2 ^ 5 = _; omega
    refine (Pattern.ok_iff _).2 ⟨?_, ?_⟩
    · show (0 : BitVec 4).toNat < (dataDashN s.dataW).toNat
      rw [e]; simp
    · show (dataDashN s.dataW).toNat ≤ 16
      omega
  case h_7 =>
    unfold State.applyLdmap
    split
    · refine ⟨h.io, h.pat, h.coords, ?_, h.mem, h.wake, h.last⟩
      simp only [State.planesOk, Bool.and_eq_true, decide_eq_true_eq, List.all_eq_true]
      refine ⟨hp.1, fun v hv => ?_⟩
      rw [State.withMusic_music, Vector.toList_set] at hv
      rcases List.mem_or_eq_of_mem_set hv with hv | rfl
      · simpa using List.all_eq_true.1 hp.2 v hv
      · exact Nat.mod_lt _ (by positivity)
    · exact h
  all_goals first
    | exact h
    | exact ⟨h.io, h.pat, h.coords, h.planes, h.mem, h.wake, h.last⟩
    | exact ⟨⟨h.io.1, h.io.2, h.io.3⟩, h.pat, h.coords, h.planes, h.mem, h.wake, h.last⟩
    | (refine ⟨h.io, h.pat, h.coords, ?_, h.mem, h.wake, h.last⟩
       simp only [State.planesOk, Bool.and_eq_true, decide_eq_true_eq]
       refine ⟨?_, hp.2⟩
       simp [State.applyLdmc, State.applyLdcm, dataActive, dataDominance, dataSetSel, hp.1, BitVec.and_assoc])
    | (refine ⟨h.io, h.pat, ?_, h.planes, h.mem, h.wake, h.last⟩
       simp [State.coordsOk, State.applyLdcx, State.applyLdcy, dataX, dataY, hc, BitVec.and_assoc])

theorem FsmKept.withFsm {s : State} (h : FsmKept s) (f : Fsm) (hw : s.wakePending = false ∨ f.isMemWait = true ∨ f = .reset)
    (hl : s.io.lastCmd ≠ none ∨ f = .reset ∨ f = .waitDs0) : FsmKept (s.withFsm f) :=
  ⟨h.io, h.pat, h.coords, h.planes, h.mem, fun e => hw.resolve_left (by simp_all), fun e => hl.resolve_left (by simp_all)⟩

theorem FsmKept.withEnds {s : State} (h : FsmKept s) {e : Endpoints}
    (he : (s.withEnds e).coordsOk = true) : FsmKept (s.withEnds e) :=
  ⟨h.io, h.pat, he, h.planes, h.mem, h.wake, h.last⟩

theorem loadXNew_kept {s : State} (h : FsmKept s) : FsmKept s.loadXNew := by
  have hc := h.coords
  simp only [State.coordsOk, Bool.and_eq_true, decide_eq_true_eq] at hc
  exact h.withEnds (by simp [State.coordsOk, dataX, hc, BitVec.and_assoc])

theorem loadYNew_kept {s : State} (h : FsmKept s) : FsmKept s.loadYNew := by
  have hc := h.coords
  simp only [State.coordsOk, Bool.and_eq_true, decide_eq_true_eq] at hc
  exact h.withEnds (by simp [State.coordsOk, dataY, hc, BitVec.and_assoc])

theorem keepEndpoint_kept {s : State} (h : FsmKept s) : FsmKept s.keepEndpoint := by
  have hc := h.coords
  simp only [State.coordsOk, Bool.and_eq_true, decide_eq_true_eq] at hc
  exact h.withEnds (by simp [State.coordsOk, hc])

theorem advance_lastCmd (c : Config) (io : IoCursor) : (IoCursor.advance c io).lastCmd = io.lastCmd := by
  unfold IoCursor.advance; split <;> rfl

theorem advanceIoCursor_kept {s : State} (h : FsmKept s) : FsmKept s.advanceIoCursor := by
  have r := IoCursor.advance_inRange h.io
  exact ⟨r, h.pat, h.coords, h.planes, h.mem, h.wake, fun e => h.last ((advance_lastCmd _ _).symm.trans e)⟩

theorem planeWrite_kept {s : State} (h : FsmKept s) (a : Nat) (w : Word) : FsmKept (s.planeWrite s.io.plane a w) :=
  ⟨h.io, h.pat, h.coords, h.planes, planeWrite_memOk a w h.io.plane h.mem, h.wake, h.last⟩

theorem advance_iterate_ok {p : Pattern} (h : p.ok = true) (n : Nat) : (Pattern.advance^[n] p).ok = true := by
  induction n generalizing p with
  | zero => exact h
  | succ n ih => exact ih (Pattern.advance_ok h)

theorem drawLine_kept {s : State} (h : FsmKept s) (x0 : BitVec 10) (y0 : BitVec 9) (x1 : BitVec 10) (y1 : BitVec 9) :
    FsmKept (s.drawLine x0 y0 x1 y1) := by
  have hm := drawLine_memOk x0 y0 x1 y1 h.mem
  have hp : (s.drawLine x0 y0 x1 y1).pat.ok = true := by
    rw [drawLine_eq]; exact advance_iterate_ok h.pat _
  have hc := h.coords
  have hpl := h.planes
  refine ⟨by simpa using h.io, hp, ?_, ?_, hm, by simpa using h.wake, by simpa using h.last⟩
  · simpa [State.coordsOk] using hc
  · simpa [State.planesOk] using hpl

theorem fillRect_kept {s : State} (h : FsmKept s) (x0 : BitVec 10) (y0 : BitVec 9) (x1 : BitVec 10) (y1 : BitVec 9) :
    FsmKept (s.fillRect x0 y0 x1 y1) := by
  have hm := fillRect_memOk x0 y0 x1 y1 h.mem
  have hc := h.coords
  have hpl := h.planes
  refine ⟨by simpa using h.io, by simpa using h.pat, ?_, ?_, hm, by simpa using h.wake, by simpa using h.last⟩
  · simpa [State.coordsOk] using hc
  · simpa [State.planesOk] using hpl

theorem granted_kept {s : State} (h : FsmKept s) : FsmKept s.granted :=
  ⟨h.io, h.pat, h.coords, h.planes, h.mem, fun e => absurd (show false = true from e) (by decide), h.last⟩

theorem protocolInconsistency_kept {s : State} (h : FsmKept s) : FsmKept s.protocolInconsistency :=
  ⟨h.io, h.pat, h.coords, h.planes, h.mem, fun _ => .inr rfl, fun _ => .inl rfl⟩

theorem readWordAtCursor_kept {s : State} (h : FsmKept s) : FsmKept s.readWordAtCursor :=
  advanceIoCursor_kept (s := s.withDataR _) ⟨h.io, h.pat, h.coords, h.planes, h.mem, h.wake, h.last⟩

theorem readHitWord_kept {s : State} (h : FsmKept s) : FsmKept s.readHitWord :=
  ⟨h.io, h.pat, h.coords, h.planes, h.mem, h.wake, h.last⟩

theorem writeWordAtCursor_kept {s : State} (h : FsmKept s) (w : Word) : FsmKept (s.writeWordAtCursor w) :=
  advanceIoCursor_kept (planeWrite_kept h _ w)

theorem drawPending_kept {s : State} (h : FsmKept s) : FsmKept s.drawPending :=
  keepEndpoint_kept (drawLine_kept h ..)

theorem fillPending_kept {s : State} (h : FsmKept s) : FsmKept s.fillPending :=
  keepEndpoint_kept (fillRect_kept h ..)

theorem suspend_kept {s : State} (h : FsmKept s) (hf : s.fsm.isMemWait = true) : FsmKept s.suspend :=
  ⟨h.io, h.pat, h.coords, h.planes, h.mem, fun _ => .inl hf, h.last⟩

theorem applyParam1_wakePending (s : State) : s.applyParam1.wakePending = s.wakePending := by
  unfold State.applyParam1 State.applyLdmap; split <;> first | rfl | (split <;> rfl)

theorem FsmKept.noWake {s : State} (h : FsmKept s) {f : Fsm} (hf : s.fsm = f)
    (hn : f.isMemWait = false ∧ f ≠ .reset) : s.wakePending = false := by
  subst hf
  cases e : s.wakePending
  · rfl
  · exact absurd (h.wake e) (by simp [hn.1, hn.2])

theorem FsmKept.known {s : State} (h : FsmKept s) {f : Fsm} (hf : s.fsm = f) (hn : f ≠ .reset ∧ f ≠ .waitDs0) :
    s.io.lastCmd ≠ none := by
  subst hf; exact fun e => (h.last e).elim hn.1 hn.2

theorem rowReset_kept (ds trig : Bool) {s : State} (h : FsmKept s) : FsmKept (rowReset ds trig s).state :=
  ⟨⟨h.io.1, h.io.2, h.io.3⟩, h.pat, h.coords, h.planes, h.mem,
    fun e => absurd (show false = true from e) (by decide), fun _ => .inr rfl⟩

theorem rowWaitDs0_kept (ds trig : Bool) {s : State} (h : FsmKept s) (hf : s.fsm = .waitDs0) :
    FsmKept (rowWaitDs0 ds trig s).state := by
  have hn := noteCommand_kept h
  have hw := (noteCommand_wakePending s).trans (h.noWake hf (by decide))
  unfold rowWaitDs0
  split <;> try split
  all_goals first
    | exact hn.1
    | exact hn.1.withFsm _ (.inl hw) (.inl hn.2)

theorem rowWaitTrig0_kept (ds trig : Bool) {s : State} (h : FsmKept s) (hf : s.fsm = .waitTrig0) :
    FsmKept (rowWaitTrig0 ds trig s).state := by
  have hw := h.noWake hf (by decide)
  unfold rowWaitTrig0
  split
  · split
    · exact (applyParam1_kept h).withFsm _ (.inl ((applyParam1_wakePending s).trans hw)) (.inr (.inr rfl))
    · exact (loadXNew_kept h).withFsm _ (.inl hw) (.inl (h.known hf (by decide)))
    · exact protocolInconsistency_kept h
    · exact protocolInconsistency_kept h
  · exact h

theorem rowWaitMem0_kept (ds trig : Bool) {s : State} (h : FsmKept s) (hf : s.fsm = .waitMem0) :
    FsmKept (rowWaitMem0 ds trig s).state := by
  have hl := h.known hf (by decide)
  have hc := granted_kept h
  unfold rowWaitMem0
  split
  · split
    · exact (readWordAtCursor_kept hc).withFsm _ (.inl rfl) (.inl fun e => hl ((advance_lastCmd _ _).symm.trans e))
    · exact (readHitWord_kept hc).withFsm _ (.inl rfl) (.inl hl)
    · exact protocolInconsistency_kept hc
  · exact suspend_kept h (by rw [hf]; rfl)

theorem rowWaitDs1_kept (ds trig : Bool) {s : State} (h : FsmKept s) (hf : s.fsm = .waitDs1) :
    FsmKept (rowWaitDs1 ds trig s).state := by
  unfold rowWaitDs1
  split
  · exact h.withFsm _ (.inl (h.noWake hf (by decide))) (.inl (h.known hf (by decide)))
  · exact h

theorem rowWaitDs2_kept (ds trig : Bool) {s : State} (h : FsmKept s) (hf : s.fsm = .waitDs2) :
    FsmKept (rowWaitDs2 ds trig s).state := by
  unfold rowWaitDs2
  split
  · exact h.withFsm _ (.inl (h.noWake hf (by decide))) (.inl (h.known hf (by decide)))
  · exact h

theorem rowWaitTrig1_kept (ds trig : Bool) {s : State} (h : FsmKept s) (hf : s.fsm = .waitTrig1) :
    FsmKept (rowWaitTrig1 ds trig s).state := by
  have hw := h.noWake hf (by decide)
  have hl := h.known hf (by decide)
  unfold rowWaitTrig1
  split
  · split
    · exact h.withFsm _ (.inl hw) (.inl hl)
    · exact h.withFsm _ (.inl hw) (.inl hl)
    · exact (loadYNew_kept h).withFsm _ (.inl hw) (.inl hl)
    · exact (loadYNew_kept h).withFsm _ (.inl hw) (.inl hl)
    · exact (keepEndpoint_kept (loadYNew_kept h)).withFsm _ (.inl hw) (.inl hl)
    · exact protocolInconsistency_kept h
  · exact h

theorem rowWaitMem1_kept (ds trig : Bool) {s : State} (h : FsmKept s) (hf : s.fsm = .waitMem1) :
    FsmKept (rowWaitMem1 ds trig s).state := by
  have hl := h.known hf (by decide)
  have hc := granted_kept h
  unfold rowWaitMem1
  split
  · split
    · exact (writeWordAtCursor_kept hc _).withFsm _ (.inl rfl) (.inl fun e => hl ((advance_lastCmd _ _).symm.trans e))
    · exact (writeWordAtCursor_kept hc _).withFsm _ (.inl rfl) (.inl fun e => hl ((advance_lastCmd _ _).symm.trans e))
    · exact protocolInconsistency_kept hc
  · exact suspend_kept h (by rw [hf]; rfl)

theorem rowWaitMem2_kept (ds trig : Bool) {s : State} (h : FsmKept s) (hf : s.fsm = .waitMem2) :
    FsmKept (rowWaitMem2 ds trig s).state := by
  have hc := granted_kept h
  unfold rowWaitMem2
  split
  · split
    · exact (drawPending_kept hc).withFsm _ (.inl (by simp [State.drawPending, State.keepEndpoint, State.granted, State.cancelWake]))
        (.inr (.inr rfl))
    · exact (fillPending_kept hc).withFsm _ (.inl (by simp [State.fillPending, State.keepEndpoint, State.granted, State.cancelWake]))
        (.inr (.inr rfl))
    · exact protocolInconsistency_kept hc
  · exact suspend_kept h (by rw [hf]; rfl)

/-- Every row keeps them. -/
theorem fsmRow_kept (ds trig : Bool) {s : State} (h : FsmKept s) : FsmKept (fsmRow ds trig s).state := by
  unfold fsmRow
  split
  · exact rowReset_kept ds trig h
  · next hf => exact rowWaitDs0_kept ds trig h hf
  · next hf => exact rowWaitTrig0_kept ds trig h hf
  · next hf => exact rowWaitMem0_kept ds trig h hf
  · next hf => exact rowWaitDs1_kept ds trig h hf
  · next hf => exact rowWaitDs2_kept ds trig h hf
  · next hf => exact rowWaitTrig1_kept ds trig h hf
  · next hf => exact rowWaitMem1_kept ds trig h hf
  · next hf => exact rowWaitMem2_kept ds trig h hf

/-- What a row that rests leaves: the state it found, or the command noted in WAIT_DS_0, or the suspension of a
memory-wait state. -/
theorem fsmRow_rest_cases {ds trig : Bool} {s t : State} (e : fsmRow ds trig s = .rest t) :
    (s.fsm = .waitDs0 ∧ t = s.noteCommand) ∨ (s.fsm ≠ .waitDs0 ∧ s.fsm ≠ .reset ∧ t = s) ∨
      (s.fsm.isMemWait = true ∧ s.memAvailable = false ∧ t = s.suspend) := by
  unfold fsmRow at e
  split at e <;> next hf =>
    rw [hf]
    simp only [rowReset, rowWaitDs0, rowWaitTrig0, rowWaitMem0, rowWaitDs1, rowWaitDs2, rowWaitTrig1, rowWaitMem1,
      rowWaitMem2] at e
    repeat' split at e
    all_goals first
      | cases e; done
      | (obtain rfl := RowOut.rest.inj e
         simp_all [Fsm.isMemWait])

/-- A row that rests does so outside RESET, with the last command known. -/
theorem fsmRow_rests {ds trig : Bool} {s t : State} (h : FsmKept s) (e : fsmRow ds trig s = .rest t) :
    t.fsm ≠ .reset ∧ t.io.lastCmd ≠ none := by
  rcases fsmRow_rest_cases e with ⟨hf, rfl⟩ | ⟨h0, h1, rfl⟩ | ⟨hm, -, rfl⟩
  · exact ⟨by rw [noteCommand_fsm, hf]; decide, (noteCommand_kept h).2⟩
  · exact ⟨h1, h.known rfl ⟨h1, h0⟩⟩
  · have hn : s.fsm ≠ .reset ∧ s.fsm ≠ .waitDs0 := by
      constructor <;> (intro e; rw [e] at hm; cases hm)
    exact ⟨hn.1, h.known rfl hn⟩

/-- A run of the FSM keeps what its rows keep and ends outside RESET with the last command known (R13, R139, R140). -/
theorem runFsm_kept (ds trig : Bool) {s : State} (h : FsmKept s) :
    FsmKept (s.runFsm ds trig) ∧ (s.runFsm ds trig).fsm ≠ .reset ∧ (s.runFsm ds trig).io.lastCmd ≠ none := by
  have key : ∀ (n : Nat) (ds trig : Bool) (s : State), FsmKept s →
      transitionsLeft (cmdClass s.cr.cmd) s.fsm ds < n →
      (runRows n ds trig s).fsm ≠ .reset ∧ (runRows n ds trig s).io.lastCmd ≠ none := by
    intro n
    induction n with
    | zero => intro _ _ _ _ h; omega
    | succ n ih =>
      intro ds trig s hs hn
      have hk := fsmRow_kept ds trig hs
      cases e : fsmRow ds trig s with
      | rest t => simp only [runRows, e]; exact fsmRow_rests hs e
      | go ds' trig' s' =>
        simp only [runRows, e]
        rw [e] at hk
        exact ih _ _ _ hk (by have := fsmRow_descends e; omega)
  refine ⟨runFsm_keeps (fun _ _ _ => fsmRow_kept _ _) h, key _ _ _ _ h ?_⟩
  have := transitionsLeft_le (cmdClass s.cr.cmd) s.fsm ds
  unfold rowLimit; omega

end Sys2Proof.Machine
end

