-- ==== Sys2Proof/Laws/Display.lean ====
section
/-! SUPPORT. What the Alpha Buffer Fetcher can do: it writes its own state, the trace and the list of addresses read and
nothing else, and it keeps the row buffers at their length and the fetch addresses reduced. -/

namespace Sys2Proof.Machine

/-- The fetcher wrote its own state, the trace and the list of addresses read alone. -/
def FetchFrame (s t : State) : Prop :=
  t = ((s.withAlpha t.alpha).withErrlog t.errlog).withHostReads t.hostReads

theorem FetchFrame.refl (s : State) : FetchFrame s s := rfl

theorem FetchFrame.trans {s t u : State} (h : FetchFrame s t) (k : FetchFrame t u) : FetchFrame s u := by
  unfold FetchFrame at *; rw [k, h]; rfl

theorem withAlpha_fetch (s : State) (a : Alpha) : FetchFrame s (s.withAlpha a) := rfl

theorem ite_fetch {s t u : State} {c : Prop} [Decidable c] (h : FetchFrame s t) (k : FetchFrame s u) :
    FetchFrame s (if c then t else u) := by split <;> assumption

theorem inRow_fetch (s : State) : FetchFrame s s.inRow := ite_fetch (t := s.rowOpen s.hidden) rfl (.refl s)

theorem rowExhausted_fetch (s : State) : FetchFrame s s.rowExhausted := rfl

theorem rowGoesOn_fetch (s : State) : FetchFrame s s.rowGoesOn := ite_fetch (rowExhausted_fetch s) (.refl s)

theorem takeNewaddr_fetch (s : State) (m : BitVec 2) (a : BitVec 12) : FetchFrame s (s.takeNewaddr m a) :=
  .trans (t := s.pastWord.withAlpha _) rfl (rowGoesOn_fetch _)

theorem takeEol_fetch (s : State) (b : Bool) : FetchFrame s (s.takeEol b) := rfl

theorem takeNop_fetch (s : State) : FetchFrame s s.takeNop := .trans (t := s.pastWord) rfl (rowGoesOn_fetch _)

theorem takeAttrset_fetch (s : State) (a : Byte) : FetchFrame s (s.takeAttrset a) := by
  unfold State.takeAttrset
  split
  · exact .trans (t := s.pastWord.withAlpha _) rfl (rowGoesOn_fetch _)
  · exact .trans (t := s.pastWord) rfl (rowGoesOn_fetch _)

theorem storeCell_fetch (s : State) (b : Bool) (c : TextCell) : FetchFrame s (s.storeCell b c) :=
  ite_fetch rfl (.refl s)

theorem takeCharB_fetch (s : State) (b : Bool) (a : Byte) (c : BitVec 7) : FetchFrame s (s.takeCharB b a c) :=
  (FetchFrame.trans (t := s.pastWord) rfl (storeCell_fetch _ _ _)).trans (rowGoesOn_fetch _)

theorem takeCharA_fetch (s : State) (b : Bool) (c : BitVec 7) : FetchFrame s (s.takeCharA b c) :=
  (FetchFrame.trans (t := s.pastWord) rfl (storeCell_fetch _ _ _)).trans (rowGoesOn_fetch _)

theorem takeEscA_fetch (s : State) (a : BitVec 7) : FetchFrame s (s.takeEscA a) :=
  .trans (t := s.pastWord.withAlpha _) rfl (rowGoesOn_fetch _)

theorem takeWord_fetch (s : State) (b : Bool) (i : Instr) : FetchFrame s (s.takeWord b i).1 := by
  unfold State.takeWord
  split
  · exact takeNewaddr_fetch ..
  · exact takeEol_fetch ..
  · exact takeAttrset_fetch ..
  · exact takeCharB_fetch ..
  · exact takeCharA_fetch ..
  · exact takeEscA_fetch ..
  · exact takeNop_fetch ..

theorem fetchWords_fetch (b : Bool) (n : Nat) (s : State) : FetchFrame s (fetchWords b n s) := by
  induction n generalizing s with
  | zero => exact .refl s
  | succ n ih =>
    have h := FetchFrame.trans (t := s.noteHostRead) rfl
      (takeWord_fetch s.noteHostRead b (decodeAlphaWord s.cfg.alphaGen (s.hostMemRead s.alpha.fetchPtr)))
    exact ite_fetch h (h.trans (ih _))

/-- FetchRow writes the fetch state, the trace and the list of addresses read alone (R234). -/
theorem fetchRow_fetch (s : State) (b : Bool) : FetchFrame s (s.fetchRow b) :=
  ite_fetch (.trans (t := s.rowBegin b) rfl (rowExhausted_fetch _)) (.trans (t := s.rowBegin b) rfl (fetchWords_fetch ..))

theorem alphaFrameStart_fetch (s : State) : FetchFrame s s.alphaFrameStart :=
  have h : FetchFrame s s.beginFrame := rfl
  h.trans (fetchRow_fetch _ _)

theorem rowStart_fetch (s : State) (r : Nat) : FetchFrame s (s.rowStart r) := by
  have h : FetchFrame s s.swapBuffers := rfl
  unfold State.rowStart
  split
  · exact h.trans (fetchRow_fetch _ _)
  · exact h

/-! ### The fetch state stays in range -/

/-- The fetch state is in range for a configuration (R27, R28). -/
structure Alpha.InRange (c : Config) (a : Alpha) : Prop where
  row0 : a.row0.cells.length = c.alphaCols
  row1 : a.row1.cells.length = c.alphaCols
  col : a.fetchCol ≤ c.alphaCols
  base : c.alphaAddr a.base = a.base
  ptr : c.alphaAddr a.fetchPtr = a.fetchPtr

theorem alphaOk_iff (s : State) : s.alphaOk = true ↔ s.alpha.InRange s.cfg := by
  simp only [State.alphaOk, Bool.and_eq_true, decide_eq_true_eq]
  exact ⟨fun h => ⟨h.1.1.1.1, h.1.1.1.2, h.1.1.2, h.1.2, h.2⟩, fun h => ⟨⟨⟨⟨h.1, h.2⟩, h.3⟩, h.4⟩, h.5⟩⟩

@[simp] theorem alphaAddr_alphaAddr (c : Config) (a : Nat) : c.alphaAddr (c.alphaAddr a) = c.alphaAddr a :=
  Nat.mod_mod _ _

theorem alphaRow_length {c : Config} {a : Alpha} (h : a.InRange c) (b : Bool) :
    (a.row b).cells.length = c.alphaCols := by cases b <;> simp [Alpha.row, h.row0, h.row1]

/-- The fetch state of a state is in range. -/
def State.FetchOk (s : State) : Prop := s.alpha.InRange s.cfg

theorem setRow_ok {s : State} (h : s.FetchOk) (b : Bool) {r : RowBuf} (hr : r.cells.length = s.cfg.alphaCols) :
    (s.setRow b r).FetchOk := by
  cases b
  · exact ⟨hr, h.2, h.3, h.4, h.5⟩
  · exact ⟨h.1, hr, h.3, h.4, h.5⟩

theorem ite_ok {s t : State} {c : Prop} [Decidable c] (h : s.FetchOk) (k : t.FetchOk) :
    (if c then s else t).FetchOk := by split <;> assumption

theorem rowOpen_ok {s : State} (h : s.FetchOk) (b : Bool) : (s.rowOpen b).FetchOk := by
  have r := setRow_ok h b (r := { (s.alpha.row b) with full := false }) (alphaRow_length h b)
  exact ⟨r.1, r.2, Nat.zero_le _, r.4, r.5⟩

theorem inRow_ok {s : State} (h : s.FetchOk) : s.inRow.FetchOk := ite_ok (rowOpen_ok h _) h

theorem rowOver_ok {s : State} (h : s.FetchOk) : s.rowOver.FetchOk := ⟨h.1, h.2, Nat.zero_le _, h.4, h.5⟩

theorem rowExhausted_ok {s : State} (h : s.FetchOk) : s.rowExhausted.FetchOk :=
  ⟨h.1, h.2, Nat.zero_le _, h.4, h.5⟩

theorem rowGoesOn_ok {s : State} (h : s.FetchOk) : s.rowGoesOn.FetchOk := ite_ok (rowExhausted_ok h) h

theorem pastWord_ok {s : State} (h : s.FetchOk) : s.pastWord.FetchOk :=
  ⟨h.1, h.2, h.3, h.4, alphaAddr_alphaAddr _ _⟩

theorem storeCell_ok {s : State} (h : s.FetchOk) (b : Bool) (c : TextCell) : (s.storeCell b c).FetchOk := by
  unfold State.storeCell
  split
  · next hc =>
    have r := setRow_ok h b (r := { (s.alpha.row b) with cells := (s.alpha.row b).cells.set s.alpha.fetchCol c })
      (by simp [alphaRow_length h])
    refine ⟨r.1, r.2, ?_, r.4, r.5⟩
    cases b <;> exact hc
  · exact h

theorem takeNewaddr_ok {s : State} (h : s.FetchOk) (m : BitVec 2) (a : BitVec 12) : (s.takeNewaddr m a).FetchOk :=
  rowGoesOn_ok (s := s.pastWord.withAlpha _) ⟨h.1, h.2, h.3, h.4, alphaAddr_alphaAddr _ _⟩

theorem takeEol_ok {s : State} (h : s.FetchOk) (b : Bool) : (s.takeEol b).FetchOk := by
  have r := setRow_ok (pastWord_ok h) b (r := {
      cells := (s.alpha.row b).cells.take s.alpha.fetchCol
        ++ List.replicate ((s.alpha.row b).cells.length - s.alpha.fetchCol) (blankCell s.cfg)
      full := true }) (by
        simp only [List.length_append, List.length_take, List.length_replicate, alphaRow_length h]
        have := h.col
        show _ = s.cfg.alphaCols
        omega)
  exact ⟨r.1, r.2, Nat.zero_le _, r.4, r.5⟩

theorem takeNop_ok {s : State} (h : s.FetchOk) : s.takeNop.FetchOk := rowGoesOn_ok (pastWord_ok h)

theorem takeAttrset_ok {s : State} (h : s.FetchOk) (a : Byte) : (s.takeAttrset a).FetchOk := by
  have hp := pastWord_ok h
  unfold State.takeAttrset
  split
  · exact rowGoesOn_ok (s := s.pastWord.withAlpha _) ⟨hp.1, hp.2, hp.3, hp.4, hp.5⟩
  · exact rowGoesOn_ok hp

theorem takeCharB_ok {s : State} (h : s.FetchOk) (b : Bool) (a : Byte) (c : BitVec 7) : (s.takeCharB b a c).FetchOk :=
  rowGoesOn_ok (storeCell_ok (pastWord_ok h) b _)

theorem takeCharA_ok {s : State} (h : s.FetchOk) (b : Bool) (c : BitVec 7) : (s.takeCharA b c).FetchOk :=
  rowGoesOn_ok (storeCell_ok (pastWord_ok h) b _)

theorem takeEscA_ok {s : State} (h : s.FetchOk) (a : BitVec 7) : (s.takeEscA a).FetchOk := by
  have hp := pastWord_ok h
  exact rowGoesOn_ok (s := s.pastWord.withAlpha _) ⟨hp.1, hp.2, hp.3, hp.4, hp.5⟩

theorem takeWord_ok {s : State} (h : s.FetchOk) (b : Bool) (i : Instr) : (s.takeWord b i).1.FetchOk := by
  unfold State.takeWord
  split
  · exact takeNewaddr_ok h ..
  · exact takeEol_ok h ..
  · exact takeAttrset_ok h ..
  · exact takeCharB_ok h ..
  · exact takeCharA_ok h ..
  · exact takeEscA_ok h ..
  · exact takeNop_ok h

theorem fetchWords_ok (b : Bool) (n : Nat) {s : State} (h : s.FetchOk) : (fetchWords b n s).FetchOk := by
  induction n generalizing s with
  | zero => exact h
  | succ n ih =>
    have hw := takeWord_ok (s := s.noteHostRead) h b
      (decodeAlphaWord s.cfg.alphaGen (s.hostMemRead s.alpha.fetchPtr))
    exact ite_ok hw (ih hw)

/-- FetchRow keeps the fetch state in range. -/
theorem fetchRow_ok {s : State} (h : s.FetchOk) (b : Bool) : (s.fetchRow b).FetchOk := by
  have hb : (s.rowBegin b).FetchOk := rowOpen_ok (s := s.withHostReads []) h b
  exact ite_ok (rowExhausted_ok hb) (fetchWords_ok b _ hb)

theorem alphaFrameStart_ok {s : State} (h : s.FetchOk) : s.alphaFrameStart.FetchOk :=
  have hb : s.beginFrame.FetchOk := ⟨h.1, h.2, h.3, alphaAddr_alphaAddr _ _, alphaAddr_alphaAddr _ _⟩
  fetchRow_ok hb _

theorem rowStart_ok {s : State} (h : s.FetchOk) (r : Nat) : (s.rowStart r).FetchOk := by
  have hs : s.swapBuffers.FetchOk := ⟨h.1, h.2, h.3, h.4, h.5⟩
  unfold State.rowStart
  split
  · exact fetchRow_ok hs _
  · exact hs

end Sys2Proof.Machine
end

