-- ==== Sys2Proof/Laws/Events.lean ====
section
/-! SUPPORT. The invariant through the shared operations of the events: an FSM run from a state that meets it, with the
FSM wherever an R5 write may put it; the eight host accesses; a command's selection and its data words; the engine's and
the fetcher's operations. -/

namespace Sys2Proof.Machine

/-- The invariant, piece by piece. -/
theorem inv_iff (s : State) :
    Inv s ↔ FsmKept s ∧ s.fsm ≠ .reset ∧ s.io.lastCmd ≠ none ∧ s.FetchOk ∧ s.givenOk = true ∧
      (s.wakePending = true → s.fsm.isMemWait = true) := by
  unfold Inv State.inv
  simp only [Bool.and_eq_true, ioOk_iff, alphaOk_iff, State.waitOk, Bool.or_eq_true, Bool.not_eq_true',
    decide_eq_true_eq]
  constructor
  · rintro ⟨⟨⟨⟨⟨⟨⟨⟨hio, hl⟩, hp⟩, hc⟩, hpl⟩, hw, hr⟩, hm⟩, ha⟩, hg⟩
    have hw' : s.wakePending = true → s.fsm.isMemWait = true := fun e => hw.resolve_left (by simp [e])
    exact ⟨⟨hio, hp, hc, hpl, hm, fun e => .inl (hw' e), fun e => absurd e hl⟩, hr, hl, ha, hg, hw'⟩
  · rintro ⟨h, hr, hl, ha, hg, hw⟩
    refine ⟨⟨⟨⟨⟨⟨⟨⟨h.io, hl⟩, h.pat⟩, h.coords⟩, h.planes⟩, ?_, hr⟩, h.mem⟩, ha⟩, hg⟩
    cases e : s.wakePending
    · exact .inl rfl
    · exact .inr (hw e)

theorem fetchOk_congr {s t : State} (h : s.FetchOk) (ha : t.alpha = s.alpha) (hc : t.cfg = s.cfg) : t.FetchOk := by
  unfold State.FetchOk; rw [ha, hc]; exact h

theorem givenOk_congr {s t : State} (h : s.givenOk = true) (hi : t.inputs = s.inputs) (hc : t.cfg = s.cfg)
    (hb : t.beams <:+ s.beams) : t.givenOk = true := by
  simp only [State.givenOk, Bool.and_eq_true, List.all_eq_true, hi, hc] at *
  exact ⟨h.1, fun b m => h.2 b (hb.mem m)⟩

/-- An FSM run from a state whose parts are good ends in a state that meets the invariant. -/
theorem runFsm_inv (ds trig : Bool) {s : State} (h : FsmKept s) (ha : s.FetchOk) (hg : s.givenOk = true) :
    Inv (s.runFsm ds trig) := by
  obtain ⟨hk, hr, hl⟩ := runFsm_kept ds trig h
  have hf := runFsm_frame ds trig s
  exact (inv_iff _).2 ⟨hk, hr, hl, fetchOk_congr ha hf.alpha hf.cfg, givenOk_congr hg hf.inputs hf.cfg hf.beams,
    fun e => (hk.wake e).resolve_right hr⟩

/-- Fields the invariant does not look at. -/
theorem Inv.withSig {s : State} (h : Inv s) (v : Signals) : Inv (s.withSig v) := h
theorem Inv.withRet {s : State} (h : Inv s) (v : Ret) : Inv (s.withRet v) := h
theorem Inv.withDataW {s : State} (h : Inv s) (v : Word) : Inv (s.withDataW v) := h
theorem Inv.withCr {s : State} (h : Inv s) (v : CmdReg) : Inv (s.withCr v) := h
theorem Inv.withLp {s : State} (h : Inv s) (v : LightPen) : Inv (s.withLp v) := h
theorem Inv.withFrameCnt {s : State} (h : Inv s) (v : BitVec 6) : Inv (s.withFrameCnt v) := h
theorem Inv.withInbox {s : State} (h : Inv s) (v : List Delivery) : Inv (s.withInbox v) := h
theorem Inv.withClock {s : State} (h : Inv s) (v : FrameClock) : Inv (s.withClock v) := h

theorem Inv.kept {s : State} (h : Inv s) : FsmKept s := ((inv_iff s).1 h).1
theorem Inv.fetchOk {s : State} (h : Inv s) : s.FetchOk := ((inv_iff s).1 h).2.2.2.1
theorem Inv.givenOk {s : State} (h : Inv s) : s.givenOk = true := ((inv_iff s).1 h).2.2.2.2.1

theorem drive_inv (ds trig : Bool) {s : State} (h : FsmKept s) (ha : s.FetchOk) (hg : s.givenOk = true) :
    Inv (s.drive ds trig) := runFsm_inv ds trig h ha hg

theorem Inv.drive {s : State} (h : Inv s) (ds trig : Bool) : Inv (s.drive ds trig) :=
  drive_inv ds trig h.kept h.fetchOk h.givenOk

theorem Inv.hostWrite4 {s : State} (h : Inv s) (v : Word) : Inv (s.hostWrite4 v) := (h.withDataW v).drive _ _
theorem Inv.hostRead4 {s : State} (h : Inv s) : Inv s.hostRead4 := h.drive _ _
theorem Inv.hostWrite6 {s : State} (h : Inv s) (v : Word) : Inv (s.hostWrite6 v) :=
  ((h.withCr _).withDataW v).drive _ _
theorem Inv.hostRead6 {s : State} (h : Inv s) : Inv s.hostRead6 := (h.withCr _).drive _ _
theorem Inv.hostWrite7 {s : State} (h : Inv s) : Inv s.hostWrite7 := h.drive _ _

theorem Inv.hostWrite5 {s : State} (h : Inv s) (v : Word) : Inv (s.hostWrite5 v) := by
  have h1 : Inv (s.storeR5 v) := (h.withCr _).withLp _
  refine drive_inv _ _ ?_ h1.fetchOk h1.givenOk
  have hw := ((inv_iff s).1 h).2.2.2.2.2
  have hl := ((inv_iff s).1 h).2.2.1
  have hf := ((inv_iff s).1 h).2.1
  refine h1.kept.withFsm _ ?_ (.inl hl)
  unfold fsmAfterR5
  split
  · exact .inr (.inr rfl)
  · split
    · next hc =>
      refine .inl ?_
      cases e : s.wakePending
      · exact e
      · have := hw e
        rcases hc.2 with hd | hd <;> rw [hd] at this <;> cases this
    · cases e : s.wakePending
      · exact .inl e
      · exact .inr (.inl (hw e))

theorem Inv.select {s : State} (h : Inv s) (c : Cmd) (f : CmdFlags) : Inv (s.select c f) := h.hostWrite5 _

theorem Inv.feed {s : State} (h : Inv s) (d : Word) : Inv (s.feed d) := by
  unfold State.feed; split
  · exact (h.hostWrite4 d).hostWrite7
  · exact h.hostWrite4 d

theorem Inv.withMem {s : State} (h : Inv s) {m : Memory} (hm : (s.withMem m).memOk = true) : Inv (s.withMem m) := by
  obtain ⟨hk, hr, hl, ha, hg, hw⟩ := (inv_iff s).1 h
  exact (inv_iff _).2 ⟨⟨hk.io, hk.pat, hk.coords, hk.planes, hm, hk.wake, hk.last⟩, hr, hl, ha, hg, hw⟩

theorem Inv.withPat {s : State} (h : Inv s) {p : Pattern} (hp : p.ok = true) : Inv (s.withPat p) := by
  obtain ⟨hk, hr, hl, ha, hg, hw⟩ := (inv_iff s).1 h
  exact (inv_iff _).2 ⟨⟨hk.io, hp, hk.coords, hk.planes, hk.mem, hk.wake, hk.last⟩, hr, hl, ha, hg, hw⟩

/-- The fetcher keeps the invariant where it keeps the fetch state in range. -/
theorem Inv.fetch {s t : State} (h : Inv s) (hf : FetchFrame s t) (ha : t.FetchOk) : Inv t := by
  obtain ⟨hk, hr, hl, -, hg, hw⟩ := (inv_iff s).1 h
  refine (inv_iff t).2 ⟨?_, ?_, ?_, ha, ?_, ?_⟩ <;> rw [hf]
  · exact ⟨hk.io, hk.pat, hk.coords, hk.planes, hk.mem, hk.wake, hk.last⟩
  · exact hr
  · exact hl
  · exact hg
  · exact hw

end Sys2Proof.Machine
end

