-- ==== Sys2Proof/Laws/Commands.lean ====
section
/-! SUPPORT. What selecting a command does, where it starts its life at once, and what feeding it a data word does: the
lemmas the commands' statements rest on. -/

namespace Sys2Proof.Machine

theorem noteCommand_withFsm (t : State) (f : Fsm) : (t.withFsm f).noteCommand = t.noteCommand.withFsm f := by
  unfold State.noteCommand
  by_cases h : t.io.lastCmd = some t.cr.cmd
  · rw [if_pos h, if_pos (show (t.withFsm f).io.lastCmd = some (t.withFsm f).cr.cmd from h)]
  · rw [if_neg h, if_neg (show ¬(t.withFsm f).io.lastCmd = some (t.withFsm f).cr.cmd from h)]
    rfl

@[simp] theorem cmdRegOf_packR5W_cmd (c : Cmd) (f : CmdFlags) : (cmdRegOf (packR5W c f)).cmd = c :=
  unpackCmd_packR5W c f

@[simp] theorem resetBitOf_packR5W (c : Cmd) (f : CmdFlags) : resetBitOf (packR5W c f) = f.reset := by
  unfold resetBitOf; rw [unpackFlags_packR5W]

@[simp] theorem begun_cr (s : State) (c : Cmd) (f : CmdFlags) : (s.begun c f).cr = cmdRegOf (packR5W c f) := by
  unfold State.begun
  simp only [noteCommand_cr]
  split <;> rfl

/-- Where a command starts at once, the write of its R5W word comes to WAIT_DS_0 under the new command. -/
theorem runFsm_selected {s : State} {c : Cmd} {f : CmdFlags} (h : s.accepts c f = true) :
    ∃ n, 7 ≤ n ∧ ((s.storeR5 (packR5W c f)).withFsm (fsmAfterR5 s.fsm s.cr.cmd c f.reset)).runFsm false false =
      match cmdClass c with
      | .read => runRows n false false ((s.begun c f).withFsm .waitMem0)
      | _ => (s.begun c f).withFsm .waitDs0 := by
  have hcr : ∀ g, ((s.storeR5 (packR5W c f)).withFsm g).cr.cmd = c := fun g => cmdRegOf_packR5W_cmd c f
  cases hr : f.reset
  · have hf : fsmAfterR5 s.fsm s.cr.cmd c false = .waitDs0 := by
      simp only [State.accepts, hr, Bool.false_or, Bool.or_eq_true, Bool.and_eq_true, decide_eq_true_eq] at h
      unfold fsmAfterR5
      simp only [Bool.false_eq_true, if_false]
      split
      · rfl
      · tauto
    refine ⟨8, by decide, ?_⟩
    rw [hf]
    simp only [State.runFsm, rowLimit, runRows, fsmRow, State.withFsm_fsm, rowWaitDs0, hcr, State.begun, hr,
      noteCommand_withFsm]
    cases cmdClass c <;> simp
  · refine ⟨7, by decide, ?_⟩
    simp only [fsmAfterR5, if_true, State.runFsm, rowLimit, runRows, fsmRow, State.withFsm_fsm, rowReset, rowWaitDs0,
      State.begun, hr, noteCommand_withFsm]
    have : (State.withFsm ((((s.storeR5 (packR5W c f)).withFsm .reset).cancelWake.withIo
        { ((s.storeR5 (packR5W c f)).withFsm .reset).io with lastCmd := none })) .waitDs0).cr.cmd = c := hcr .reset
    rw [this]
    cases cmdClass c <;> simp <;> rfl

theorem select_eq {s : State} {c : Cmd} {f : CmdFlags} (h : s.accepts c f = true) (hc : cmdClass c ≠ .read) :
    s.select c f = ((s.begun c f).withFsm .waitDs0).recompute := by
  obtain ⟨n, -, e⟩ := runFsm_selected h
  unfold State.select State.hostWrite5 State.drive
  rw [cmdRegOf_packR5W_cmd, resetBitOf_packR5W, e]
  cases hk : cmdClass c <;> first | rfl | exact absurd hk hc

@[simp] theorem noteCommand_lastCmd (s : State) : s.noteCommand.io.lastCmd = some s.cr.cmd := by
  unfold State.noteCommand
  split
  · next h => exact h
  · rfl

@[simp] theorem begun_lastCmd (s : State) (c : Cmd) (f : CmdFlags) : (s.begun c f).io.lastCmd = some c := by
  unfold State.begun
  simp only [noteCommand_lastCmd]
  split <;> exact congrArg some (cmdRegOf_packR5W_cmd c f)

theorem noteCommand_of_known {s : State} (h : s.io.lastCmd = some s.cr.cmd) : s.noteCommand = s := if_pos h

theorem trigOk_eq (s : State) (trig : Bool) : s.trigOk trig = (trig || !s.cr.intEn) := rfl

/-! ### Words of data -/

@[simp] theorem applyParam1_cr (s : State) : s.applyParam1.cr = s.cr := by
  unfold State.applyParam1 State.applyLdmap; split <;> first | rfl | (split <;> rfl)

@[simp] theorem applyParam1_lastCmd (s : State) : s.applyParam1.io.lastCmd = s.io.lastCmd := by
  unfold State.applyParam1 State.applyLdmap; split <;> first | rfl | (split <;> rfl)

theorem applyParam1_withFsm (s : State) (f : Fsm) : (s.withFsm f).applyParam1 = s.applyParam1.withFsm f := by
  unfold State.applyParam1 State.applyLdmap
  by_cases h : s.cfg.nplanes = 3
  · rw [if_pos h, if_pos (show (s.withFsm f).cfg.nplanes = 3 from h)]
    simp only [State.withFsm_cr]; cases s.cr.cmd <;> rfl
  · rw [if_neg h, if_neg (show ¬(s.withFsm f).cfg.nplanes = 3 from h)]
    simp only [State.withFsm_cr]; cases s.cr.cmd <;> rfl

theorem applyParam1_withSig (s : State) (v : Signals) : (s.withSig v).applyParam1 = s.applyParam1.withSig v := by
  unfold State.applyParam1 State.applyLdmap
  by_cases h : s.cfg.nplanes = 3
  · rw [if_pos h, if_pos (show (s.withSig v).cfg.nplanes = 3 from h)]
    simp only [State.withSig_cr]; cases s.cr.cmd <;> rfl
  · rw [if_neg h, if_neg (show ¬(s.withSig v).cfg.nplanes = 3 from h)]
    simp only [State.withSig_cr]; cases s.cr.cmd <;> rfl

/-! ### What an event returned is not looked at -/

theorem foldl_withRet {α : Type} {f : State → α → State} (r : Ret) (hf : ∀ s a, f (s.withRet r) a = (f s a).withRet r)
    (l : List α) (s : State) : l.foldl f (s.withRet r) = (l.foldl f s).withRet r := by
  induction l generalizing s with
  | nil => rfl
  | cons a l ih => rw [List.foldl_cons, hf, ih]; rfl

theorem writePixel_withRet (s : State) (r : Ret) (p : BitVec 2) (x y : Nat) (b : Bool) :
    (s.withRet r).writePixel p x y b = (s.writePixel p x y b).withRet r := by
  cases b <;> rfl

theorem plot_withRet (s : State) (r : Ret) (x y : Nat) (d : Bool) :
    (s.withRet r).plot x y d = (s.plot x y d).withRet r := by
  refine foldl_withRet r (fun t p => ?_) _ s
  unfold State.plotPlane
  show (match t.planeAction p d with
    | .set => (t.withRet r).writePixel p x y true
    | .clear => (t.withRet r).writePixel p x y false
    | .keep => t.withRet r) = _
  cases t.planeAction p d <;> rfl

theorem drawLine_withRet (s : State) (r : Ret) (x0 : BitVec 10) (y0 : BitVec 9) (x1 : BitVec 10) (y1 : BitVec 9) :
    (s.withRet r).drawLine x0 y0 x1 y1 = (s.drawLine x0 y0 x1 y1).withRet r :=
  foldl_withRet r (fun t _ => congrArg State.dashAdvance (plot_withRet t r _ _ _)) _ s

theorem fillRect_withRet (s : State) (r : Ret) (x0 : BitVec 10) (y0 : BitVec 9) (x1 : BitVec 10) (y1 : BitVec 9) :
    (s.withRet r).fillRect x0 y0 x1 y1 = (s.fillRect x0 y0 x1 y1).withRet r :=
  foldl_withRet r (fun t _ => plot_withRet t r _ _ _) _ s

theorem noteCommand_withRet (s : State) (r : Ret) : (s.withRet r).noteCommand = s.noteCommand.withRet r := by
  unfold State.noteCommand
  by_cases h : s.io.lastCmd = some s.cr.cmd
  · rw [if_pos h, if_pos (show (s.withRet r).io.lastCmd = some (s.withRet r).cr.cmd from h)]
  · rw [if_neg h, if_neg (show ¬(s.withRet r).io.lastCmd = some (s.withRet r).cr.cmd from h)]
    rfl

theorem applyParam1_withRet (s : State) (r : Ret) : (s.withRet r).applyParam1 = s.applyParam1.withRet r := by
  unfold State.applyParam1 State.applyLdmap
  by_cases h : s.cfg.nplanes = 3
  · rw [if_pos h, if_pos (show (s.withRet r).cfg.nplanes = 3 from h)]
    simp only [State.withRet_cr]; cases s.cr.cmd <;> rfl
  · rw [if_neg h, if_neg (show ¬(s.withRet r).cfg.nplanes = 3 from h)]
    simp only [State.withRet_cr]; cases s.cr.cmd <;> rfl

/-- A row's outcome with the state replaced. -/
def RowOut.mapState (g : State → State) : RowOut → RowOut
  | .go ds trig s => .go ds trig (g s)
  | .rest s => .rest (g s)

theorem fsmRow_withRet (ds trig : Bool) (s : State) (r : Ret) :
    fsmRow ds trig (s.withRet r) = (fsmRow ds trig s).mapState (·.withRet r) := by
  unfold fsmRow
  rw [State.withRet_fsm]
  cases s.fsm
  · rfl
  · simp only [rowWaitDs0, noteCommand_withRet, State.withRet_cr]
    cases cmdClass s.cr.cmd <;> cases ds <;> rfl
  · simp only [rowWaitTrig0, applyParam1_withRet, State.withRet_cr]
    rw [show (s.withRet r).trigOk trig = s.trigOk trig from rfl]
    cases s.trigOk trig <;> cases cmdClass s.cr.cmd <;> rfl
  · simp only [rowWaitMem0, State.withRet_cr]
    rw [show (s.withRet r).memAvailable = s.memAvailable from rfl]
    cases s.memAvailable <;> cases s.cr.cmd <;> rfl
  · cases ds <;> rfl
  · cases ds <;> rfl
  · simp only [rowWaitTrig1, State.withRet_cr]
    rw [show (s.withRet r).trigOk trig = s.trigOk trig from rfl]
    cases s.trigOk trig <;> cases s.cr.cmd <;> rfl
  · simp only [rowWaitMem1, State.withRet_cr]
    rw [show (s.withRet r).memAvailable = s.memAvailable from rfl]
    cases s.memAvailable <;> cases s.cr.cmd <;> rfl
  · simp only [rowWaitMem2, State.withRet_cr, State.drawPending, State.fillPending]
    rw [show (s.withRet r).memAvailable = s.memAvailable from rfl,
      show (s.withRet r).granted = s.granted.withRet r from rfl, drawLine_withRet, fillRect_withRet]
    cases s.memAvailable <;> cases s.cr.cmd <;> rfl

/-- Running the FSM neither reads nor writes what the last event returned. -/
theorem runRows_withRet (n : Nat) (ds trig : Bool) (s : State) (r : Ret) :
    runRows n ds trig (s.withRet r) = (runRows n ds trig s).withRet r := by
  induction n generalizing ds trig s with
  | zero => rfl
  | succ n ih =>
    unfold runRows
    rw [fsmRow_withRet]
    cases fsmRow ds trig s with
    | go ds' trig' u => exact ih ..
    | rest u => rfl

theorem drive_withRet (s : State) (r : Ret) (ds trig : Bool) : (s.withRet r).drive ds trig = (s.drive ds trig).withRet r := by
  unfold State.drive State.runFsm
  rw [runRows_withRet]; rfl
end Sys2Proof.Machine
end

