-- ==== Sys2Proof/Laws/CommandRuns.lean ====
section
/-! SUPPORT. What the rows of the FSM do under a command and what delivering a command's data words comes to, with and
without the automatic trigger: the lemmas the commands' statements rest on. -/

namespace Sys2Proof.Machine

@[simp] theorem applyParam1_cfg (s : State) : s.applyParam1.cfg = s.cfg := by
  unfold State.applyParam1 State.applyLdmap; split <;> first | rfl | (split <;> rfl)

@[simp] theorem applyParam1_fsm (s : State) : s.applyParam1.fsm = s.fsm := by
  unfold State.applyParam1 State.applyLdmap; split <;> first | rfl | (split <;> rfl)

/-- A row that makes a transition. -/
theorem runRows_go {n ds trig ds' trig' s s'} (h : fsmRow ds trig s = .go ds' trig' s') :
    runRows (n+1) ds trig s = runRows n ds' trig' s' := by simp only [runRows, h]

/-- A row that makes none. -/
theorem runRows_rest {n ds trig s s'} (h : fsmRow ds trig s = .rest s') :
    runRows (n+1) ds trig s = s' := by simp only [runRows, h]

/-- A strobe in WAIT_DS_0 under a command already noted (R143). -/
theorem fsmRow_waitDs0_strobe {s : State} {trig : Bool} (hf : s.fsm = .waitDs0) (hl : s.io.lastCmd = some s.cr.cmd) :
    fsmRow true trig s = match cmdClass s.cr.cmd with
      | .read => .go true trig (s.withFsm .waitMem0)
      | .write => .go false trig (s.withFsm .waitTrig1)
      | _ => .go false trig (s.withFsm .waitTrig0) := by
  simp only [fsmRow, hf, rowWaitDs0, noteCommand_of_known hl]
  cases cmdClass s.cr.cmd <;> rfl

/-- No strobe there: the run ends, but under a READ command (R143). -/
theorem fsmRow_waitDs0_rest {s : State} {trig : Bool} (hf : s.fsm = .waitDs0) (hl : s.io.lastCmd = some s.cr.cmd)
   (hc : cmdClass s.cr.cmd ≠ .read) :
    fsmRow false trig s = .rest s := by
  simp only [fsmRow, hf, rowWaitDs0, noteCommand_of_known hl]
  cases h : cmdClass s.cr.cmd <;> first | rfl | exact absurd h hc

/-- WAIT_TRIG_0 without its trigger (R144). -/
theorem fsmRow_waitTrig0_rest {s : State} {ds : Bool} (hf : s.fsm = .waitTrig0) (ht : s.cr.intEn = true)  :
    fsmRow ds false s = .rest s := by
  simp [fsmRow, hf, rowWaitTrig0, trigOk_eq, ht]

/-- WAIT_TRIG_1 without its trigger (R153). -/
theorem fsmRow_waitTrig1_rest {s : State} {ds : Bool} (hf : s.fsm = .waitTrig1) (ht : s.cr.intEn = true)  :
    fsmRow ds false s = .rest s := by
  simp [fsmRow, hf, rowWaitTrig1, trigOk_eq, ht]

/-- WAIT_TRIG_1 under a WRITE command (R153). -/
theorem fsmRow_waitTrig1_write {s : State} {ds trig : Bool} (hf : s.fsm = .waitTrig1) (ht : s.trigOk trig = true)
    (hc : s.cr.cmd = .wrw ∨ s.cr.cmd = .clrw) :
    fsmRow ds trig s = .go ds false (s.withFsm .waitMem1) := by
  simp only [fsmRow, hf, rowWaitTrig1, ht, if_true]; rcases hc with h | h <;> simp [h]

/-- WAIT_TRIG_1 under DRAWV and FILLR (R153). -/
theorem fsmRow_waitTrig1_draw {s : State} {ds trig : Bool} (hf : s.fsm = .waitTrig1) (ht : s.trigOk trig = true)
    (hc : s.cr.cmd = .drawv ∨ s.cr.cmd = .fillr) :
    fsmRow ds trig s = .go ds false (s.loadYNew.withFsm .waitMem2) := by
  simp only [fsmRow, hf, rowWaitTrig1, ht, if_true]; rcases hc with h | h <;> simp [h]

/-- WAIT_TRIG_1 under LDEP (R153). -/
theorem fsmRow_waitTrig1_ldep {s : State} {ds trig : Bool} (hf : s.fsm = .waitTrig1) (ht : s.trigOk trig = true)
    (hc : s.cr.cmd = .ldep) :
    fsmRow ds trig s = .go ds false (s.loadYNew.keepEndpoint.withFsm .waitDs0) := by
  simp only [fsmRow, hf, rowWaitTrig1, ht, if_true]; simp [hc]

/-- WAIT_MEM_0 with memory available (R150). -/
theorem fsmRow_waitMem0 {s : State} {ds trig : Bool} (hf : s.fsm = .waitMem0) (ha : s.memAvailable = true)
    (hc : s.cr.cmd = .rdw ∨ s.cr.cmd = .rdlp) :
    fsmRow ds trig s = .go ds trig
        ((if s.cr.cmd = .rdw then s.granted.readWordAtCursor else s.granted.readHitWord).withFsm .waitDs1) := by
  simp only [fsmRow, hf, rowWaitMem0, ha, if_true]; rcases hc with h | h <;> simp [h]

/-- WAIT_MEM_1 with memory available (R154). -/
theorem fsmRow_waitMem1 {s : State} {ds trig : Bool} (hf : s.fsm = .waitMem1) (ha : s.memAvailable = true)
    (hc : s.cr.cmd = .wrw ∨ s.cr.cmd = .clrw) :
    fsmRow ds trig s = .go ds trig
        ((s.granted.writeWordAtCursor (if s.cr.cmd = .wrw then s.dataW else 0)).withFsm .waitDs2) := by
  simp only [fsmRow, hf, rowWaitMem1, ha, if_true]; rcases hc with h | h <;> simp [h]

/-- WAIT_MEM_2 with memory available (R155). -/
theorem fsmRow_waitMem2 {s : State} {ds trig : Bool} (hf : s.fsm = .waitMem2) (ha : s.memAvailable = true)
    (hc : s.cr.cmd = .drawv ∨ s.cr.cmd = .fillr) :
    fsmRow ds trig s = .go ds trig
        ((if s.cr.cmd = .drawv then s.granted.drawPending else s.granted.fillPending).withFsm .waitDs0) := by
  simp only [fsmRow, hf, rowWaitMem2, ha, if_true]; rcases hc with h | h <;> simp [h]

/-- A memory-wait state with memory unavailable suspends (R103). -/
theorem fsmRow_suspends {s : State} {ds trig : Bool} (hf : s.fsm.isMemWait = true) (ha : s.memAvailable = false) :
    fsmRow ds trig s = .rest s.suspend := by
  cases h : s.fsm <;> rw [h] at hf <;>
    first | exact absurd hf (by decide) | simp [fsmRow, h, rowWaitMem0, rowWaitMem1, rowWaitMem2, ha]

/-- No strobe in WAIT_DS_1 (R151). -/
theorem fsmRow_waitDs1_rest {s : State} {trig : Bool} (hf : s.fsm = .waitDs1) : fsmRow false trig s = .rest s := by
  simp [fsmRow, hf, rowWaitDs1]

/-- A strobe in WAIT_DS_2 (R152). -/
theorem fsmRow_waitDs2_strobe {s : State} {trig : Bool}
    (hf : s.fsm = .waitDs2) : fsmRow true trig s = .go false trig (s.withFsm .waitTrig1) := by
  simp [fsmRow, hf, rowWaitDs2]

/-- No strobe there (R152). -/
theorem fsmRow_waitDs2_rest {s : State} {trig : Bool} (hf : s.fsm = .waitDs2) : fsmRow false trig s = .rest s := by
  simp [fsmRow, hf, rowWaitDs2]

/-- From WAIT_TRIG_0 with its trigger, under a one-word parameter (R144). -/
theorem runRows_param1 {t : State} {trig} {n : Nat} (hf : t.fsm = .waitTrig0) (hl : t.io.lastCmd = some t.cr.cmd)
    (hc : cmdClass t.cr.cmd = .param1) (ht : t.trigOk trig = true) :
    runRows (n+2) false trig t = t.applyParam1.withFsm .waitDs0 := by
  rw [runRows_go (ds' := false) (trig' := false) (s' := t.applyParam1.withFsm .waitDs0)]
  · exact runRows_rest (fsmRow_waitDs0_rest rfl (by simpa using hl) (by simp [hc]))
  · simp [fsmRow, hf, rowWaitTrig0, ht, hc]

/-- The data word of a one-word parameter, with and without the automatic trigger (R144, R170). -/
theorem feed_param1 {t : State} (d : Word) (hf : t.fsm = .waitDs0) (hl : t.io.lastCmd = some t.cr.cmd)
    (hc : cmdClass t.cr.cmd = .param1) :
    t.feed d = ((t.withDataW d).applyParam1.withFsm .waitDs0).recompute := by
  have r1 : fsmRow true false (t.withDataW d) = .go false false ((t.withDataW d).withFsm .waitTrig0) := by
    rw [fsmRow_waitDs0_strobe (s := t.withDataW d) hf hl]; simp [hc]
  cases hi : t.cr.intEn
  · have h4 : t.hostWrite4 d = ((t.withDataW d).applyParam1.withFsm .waitDs0).recompute := by
      unfold State.hostWrite4 State.drive State.runFsm rowLimit
      rw [runRows_go r1, runRows_param1 (t := (t.withDataW d).withFsm .waitTrig0) rfl hl hc (by simp [trigOk_eq, hi]), applyParam1_withFsm]
      rfl
    unfold State.feed
    rw [h4]
    simp [State.recompute, hi]
  · have h4 : t.hostWrite4 d = ((t.withDataW d).withFsm .waitTrig0).recompute := by
      unfold State.hostWrite4 State.drive State.runFsm rowLimit
      rw [runRows_go r1, runRows_rest]
      simp [fsmRow, rowWaitTrig0, trigOk_eq, hi]
    unfold State.feed
    rw [h4]
    simp only [State.recompute, State.withSig_cr, State.withFsm_cr, State.withDataW_cr, hi, if_true]
    unfold State.hostWrite7 State.drive State.runFsm rowLimit
    rw [runRows_param1 (t := ((t.withDataW d).withFsm .waitTrig0).withSig _) rfl hl hc (by simp [trigOk_eq]), applyParam1_withSig, applyParam1_withFsm]
    unfold State.recompute
    simp
    rfl

/-- A data word whose strobe leads to WAIT_TRIG_1: with or without the automatic trigger the run goes on from there. -/
theorem feed_to_waitTrig1 {t : State} (d : Word)
    (h : ∀ trig, fsmRow true trig (t.withDataW d) = .go false trig ((t.withDataW d).withFsm .waitTrig1)) :
    ∃ σ m trig, t.trigOk trig = true ∧
     t.feed d = (runRows (m + 7) false trig (((t.withDataW d).withSig σ).withFsm .waitTrig1)).recompute := by
  cases hi : t.cr.intEn
  · refine ⟨t.sig, 1, false, by simp [trigOk_eq, hi], ?_⟩
    have h4 : t.hostWrite4 d = (runRows 8 false false (((t.withDataW d).withSig t.sig).withFsm .waitTrig1)).recompute := by
      unfold State.hostWrite4 State.drive State.runFsm rowLimit
      rw [runRows_go (h _)]; rfl
    unfold State.feed
    rw [← h4]
    have : (t.hostWrite4 d).cr.intEn = false := by
      have := (runFsm_frame true false (t.withDataW d)).cr
      show ((t.withDataW d).runFsm true false).cr.intEn = _
      rw [this]; exact hi
    simp [this]
  · have h4 : t.hostWrite4 d = ((t.withDataW d).withFsm .waitTrig1).recompute := by
      unfold State.hostWrite4 State.drive State.runFsm rowLimit
      rw [runRows_go (h _), runRows_rest (fsmRow_waitTrig1_rest (s := (t.withDataW d).withFsm .waitTrig1) rfl hi)]
    refine ⟨(((t.withDataW d).withFsm .waitTrig1).recompute).sig, 2, true, by simp [trigOk_eq], ?_⟩
    unfold State.feed
    rw [h4]
    have : ((t.withDataW d).withFsm .waitTrig1).recompute.cr.intEn = true := hi
    rw [if_pos this]
    rfl

/-- The data word of a WRITE command (R153, R154). -/
theorem feed_write {t : State} (d : Word)
    (hs : ∀ trig, fsmRow true trig (t.withDataW d) = .go false trig ((t.withDataW d).withFsm .waitTrig1))
    (hc : t.cr.cmd = .wrw ∨ t.cr.cmd = .clrw) :
    t.feed d = if t.memAvailable then
        (((t.withDataW d).granted.writeWordAtCursor
            (if t.cr.cmd = .wrw then d else 0)).withFsm .waitDs2).recompute
      else (((t.withDataW d).withFsm .waitMem1).suspend).recompute := by
  obtain ⟨σ, m, trig, ht, e⟩ := feed_to_waitTrig1 (t := t) d hs
  rw [e, runRows_go (fsmRow_waitTrig1_write (s := ((t.withDataW d).withSig σ).withFsm .waitTrig1) rfl ht hc)]
  cases ha : t.memAvailable
  · rw [runRows_rest (fsmRow_suspends (s := (((t.withDataW d).withSig σ).withFsm .waitTrig1).withFsm .waitMem1) rfl ha)]
    rfl
  · rw [runRows_go (fsmRow_waitMem1 (s := (((t.withDataW d).withSig σ).withFsm .waitTrig1).withFsm .waitMem1) rfl ha hc),
      runRows_rest (fsmRow_waitDs2_rest rfl)]
    rfl

/-- The first data word of an endpoint (R144, R175). -/
theorem feed_first {t : State} (d : Word) (hf : t.fsm = .waitDs0) (hl : t.io.lastCmd = some t.cr.cmd)
    (hc : cmdClass t.cr.cmd = .param2) :
    t.feed d = ((t.withDataW d).loadXNew.withFsm .waitDs2).recompute := by
  have r1 : fsmRow true false (t.withDataW d) = .go false false ((t.withDataW d).withFsm .waitTrig0) := by
    rw [fsmRow_waitDs0_strobe (s := t.withDataW d) hf hl]; simp [hc]
  have r2 (u : State) (trig : Bool) (hu : u.fsm = .waitTrig0) (hq : u.cr = t.cr) (ht : u.trigOk trig = true) :
     fsmRow false trig u = .go false false (u.loadXNew.withFsm .waitDs2) := by
    simp [fsmRow, hu, rowWaitTrig0, ht, hq, hc]
  cases hi : t.cr.intEn
  · have h4 : t.hostWrite4 d = ((t.withDataW d).loadXNew.withFsm .waitDs2).recompute := by
      unfold State.hostWrite4 State.drive State.runFsm rowLimit
      rw [runRows_go r1, runRows_go (r2 ((t.withDataW d).withFsm .waitTrig0) false rfl rfl (by simp [trigOk_eq, hi])),
        runRows_rest (fsmRow_waitDs2_rest rfl)]
      rfl
    unfold State.feed
    rw [h4, if_neg]
    show ¬ (t.cr.intEn = true); simp [hi]
  · have h4 : t.hostWrite4 d = ((t.withDataW d).withFsm .waitTrig0).recompute := by
      unfold State.hostWrite4 State.drive State.runFsm rowLimit
      rw [runRows_go r1, runRows_rest (fsmRow_waitTrig0_rest (s := (t.withDataW d).withFsm .waitTrig0) rfl hi)]
    unfold State.feed
    rw [h4, if_pos (show ((t.withDataW d).withFsm .waitTrig0).recompute.cr.intEn = true from hi)]
    unfold State.hostWrite7 State.drive State.runFsm rowLimit
    rw [runRows_go (r2 (((t.withDataW d).withFsm .waitTrig0).recompute) true rfl rfl (by simp [trigOk_eq])),
        runRows_rest (fsmRow_waitDs2_rest rfl)]
    rfl

/-- The second data word of LDEP (R153). -/
theorem feed_ldep {t : State} (d : Word)
    (hs : ∀ trig, fsmRow true trig (t.withDataW d) = .go false trig ((t.withDataW d).withFsm .waitTrig1))
    (hl : t.io.lastCmd = some t.cr.cmd)
    (hc : t.cr.cmd = .ldep) :
    t.feed d = ((t.withDataW d).loadYNew.keepEndpoint.withFsm .waitDs0).recompute := by
  obtain ⟨σ, m, trig, ht, e⟩ := feed_to_waitTrig1 (t := t) d hs
  rw [e, runRows_go (fsmRow_waitTrig1_ldep (s := ((t.withDataW d).withSig σ).withFsm .waitTrig1) rfl ht hc)]
  rw [runRows_rest (fsmRow_waitDs0_rest (s := ((((t.withDataW d).withSig σ).withFsm .waitTrig1).loadYNew.keepEndpoint.withFsm .waitDs0)) rfl ?_ ?_)]
  · rfl
  · simp [hc, State.keepEndpoint,  State.loadYNew, hl]
  · simp [hc, State.keepEndpoint,  State.loadYNew, cmdClass]

/-- The second data word of DRAWV and FILLR (R153, R155). -/
theorem feed_draw {t : State} (d : Word)
    (hs : ∀ trig, fsmRow true trig (t.withDataW d) = .go false trig ((t.withDataW d).withFsm .waitTrig1))
    (hl : t.io.lastCmd = some t.cr.cmd)
    (hc : t.cr.cmd = .drawv ∨ t.cr.cmd = .fillr) :
    ∃ σ, t.feed d = if t.memAvailable then
        ((if t.cr.cmd = .drawv
          then (((t.withDataW d).withSig σ).loadYNew.withFsm .waitMem2).granted.drawPending
          else (((t.withDataW d).withSig σ).loadYNew.withFsm .waitMem2).granted.fillPending).withFsm
            .waitDs0).recompute
      else (((t.withDataW d).loadYNew.withFsm .waitMem2).suspend).recompute := by
  obtain ⟨σ, m, trig, ht, e⟩ := feed_to_waitTrig1 (t := t) d hs
  refine ⟨σ, ?_⟩
  rw [e, runRows_go (fsmRow_waitTrig1_draw (s := ((t.withDataW d).withSig σ).withFsm .waitTrig1) rfl ht hc)]
  cases ha : t.memAvailable
  · rw [runRows_rest (fsmRow_suspends (s := (((t.withDataW d).withSig σ).withFsm .waitTrig1).loadYNew.withFsm .waitMem2) rfl ha)]
    rfl
  · have kc : (((t.withDataW d).withSig σ).withFsm .waitTrig1).loadYNew.cr.cmd = t.cr.cmd := rfl
    rw [runRows_go (fsmRow_waitMem2 (s := (((t.withDataW d).withSig σ).withFsm .waitTrig1).loadYNew.withFsm .waitMem2) rfl ha hc)]
    rw [runRows_rest]
    rotate_left
    · refine fsmRow_waitDs0_rest rfl ?_ ?_
      · rcases hc with h | h <;> 
          simp [h, State.drawPending, State.fillPending, State.keepEndpoint, State.loadYNew, hl]
      · rcases hc with h | h <;> 
          simp [h, State.drawPending, State.fillPending, State.keepEndpoint, State.loadYNew, cmdClass]
    · rfl

theorem noteCommand_cfg (s : State) : s.noteCommand.cfg = s.cfg := by unfold State.noteCommand; split <;> rfl

theorem noteCommand_ctl (s : State) : s.noteCommand.ctl = s.ctl := by unfold State.noteCommand; split <;> rfl

theorem noteCommand_music (s : State) : s.noteCommand.music = s.music := by unfold State.noteCommand; split <;> rfl

theorem noteCommand_cursor (s : State) : s.noteCommand.cursor = s.cursor := by unfold State.noteCommand; split <;> rfl

theorem noteCommand_mem (s : State) : s.noteCommand.mem = s.mem := by unfold State.noteCommand; split <;> rfl

theorem noteCommand_ends (s : State) : s.noteCommand.ends = s.ends := by unfold State.noteCommand; split <;> rfl

theorem noteCommand_pat (s : State) : s.noteCommand.pat = s.pat := by unfold State.noteCommand; split <;> rfl

/-- What every command does first leaves these groups alone. -/
@[simp] theorem begun_cfg (s : State) (c : Cmd) (f : CmdFlags) : (s.begun c f).cfg = s.cfg := by
  unfold State.begun; simp only [noteCommand_cfg]; split <;> rfl

theorem begun_ctl (s : State) (c : Cmd) (f : CmdFlags) :
    (s.begun c f).ctl = s.ctl := by unfold State.begun; simp only [noteCommand_ctl]; split <;> rfl

theorem begun_music (s : State) (c : Cmd) (f : CmdFlags) :
    (s.begun c f).music = s.music := by unfold State.begun; simp only [noteCommand_music]; split <;> rfl

theorem begun_cursor (s : State) (c : Cmd) (f : CmdFlags) :
    (s.begun c f).cursor = s.cursor := by unfold State.begun; simp only [noteCommand_cursor]; split <;> rfl

theorem begun_mem (s : State) (c : Cmd) (f : CmdFlags) : (s.begun c f).mem = s.mem := by
  unfold State.begun; simp only [noteCommand_mem]; split <;> rfl

theorem begun_ends (s : State) (c : Cmd) (f : CmdFlags) : (s.begun c f).ends = s.ends := by
  unfold State.begun; simp only [noteCommand_ends]; split <;> rfl

theorem begun_pat (s : State) (c : Cmd) (f : CmdFlags) : (s.begun c f).pat = s.pat := by
  unfold State.begun; simp only [noteCommand_pat]; split <;> rfl

theorem begun_cmd (s : State) (c : Cmd) (f : CmdFlags) :
    (s.begun c f).cr.cmd = c := by rw [begun_cr, cmdRegOf_packR5W_cmd]

/-- A strobe in WAIT_DS_0 under a WRITE command (R143). -/
theorem fsmRow_waitDs0_write {t : State} (hf : t.fsm = .waitDs0) (hl : t.io.lastCmd = some t.cr.cmd)
    (hc : cmdClass t.cr.cmd = .write) (d : Word) (trig) :
  fsmRow true trig (t.withDataW d) = .go false trig ((t.withDataW d).withFsm .waitTrig1) := by
  rw [fsmRow_waitDs0_strobe (s := t.withDataW d) hf hl]; simp [hc]

/-- A one-word parameter, from where a command starts its life at once (R170). -/
theorem select_feed_param1 {s : State} {c : Cmd} {f : CmdFlags} (d : Word) (h : s.accepts c f = true)
    (hc : cmdClass c = .param1) :
    ((s.select c f).feed d).withRet .none = ((s.begun c f).withDataW d).applyParam1.endIn .waitDs0 := by
  rw [select_eq h (by simp [hc])]
  have hcr : (s.begun c f).cr.cmd = c := by rw [begun_cr, cmdRegOf_packR5W_cmd]
  rw [feed_param1 (t := ((s.begun c f).withFsm .waitDs0).recompute) d rfl
    (by show (s.begun c f).io.lastCmd = some (s.begun c f).cr.cmd; rw [hcr]; exact begun_lastCmd s c f)
    (by show cmdClass (s.begun c f).cr.cmd = _; rw [hcr, hc])]
  have : ((((s.begun c f).withFsm .waitDs0).recompute).withDataW d) = (((s.begun c f).withDataW d).withFsm .waitDs0).withSig
     ((((s.begun c f).withFsm .waitDs0).recompute)).sig := rfl
  rw [this, applyParam1_withSig, applyParam1_withFsm]
  rfl

/-- A word of WRW or CLRW (R173, R178). -/
theorem select_feed_write {s : State} {c : Cmd} {f : CmdFlags} (d : Word) (h : s.accepts c f = true)
    (hc : c = .wrw ∨ c = .clrw) :
    (s.select c f).feed d = if (s.begun c f).memAvailable then
        ((((s.begun c f).withDataW d).granted.writeWordAtCursor
            (if c = .wrw then d else 0)).withFsm .waitDs2).recompute
      else ((((s.begun c f).withDataW d).withFsm .waitMem1).suspend).recompute := by
  have hcc : cmdClass c = .write := by rcases hc with h | h <;> rw [h] <;> rfl
  rw [select_eq h (by simp [hcc])]
  have hb := begun_cmd s c f
  rw [feed_write (t := ((s.begun c f).withFsm .waitDs0).recompute) d]
  · have : ((s.begun c f).withFsm .waitDs0).recompute.cr.cmd = c := hb
    rw [this]
    have : ((s.begun c f).withFsm .waitDs0).recompute.memAvailable = (s.begun c f).memAvailable := rfl
    rw [this]
    rfl
  · intro trig
    refine fsmRow_waitDs0_write rfl ?_ ?_ d trig
    · show (s.begun c f).io.lastCmd = some (s.begun c f).cr.cmd; rw [hb]; exact begun_lastCmd s c f
    · show cmdClass (s.begun c f).cr.cmd = _; rw [hb, hcc]
  · show (s.begun c f).cr.cmd = _ ∨ (s.begun c f).cr.cmd = _; rw [hb]; exact hc

/-- RDW or RDLP (R172, R174). -/
theorem select_read {s : State} {c : Cmd} {f : CmdFlags} (h : s.accepts c f = true) (hc : c = .rdw ∨ c = .rdlp) :
   s.select c f = if (s.begun c f).memAvailable then
     ((if c = .rdw then (s.begun c f).granted.readWordAtCursor else (s.begun c f).granted.readHitWord).withFsm .waitDs1).recompute
     else (((s.begun c f).withFsm .waitMem0).suspend).recompute := by
  obtain ⟨n, hn, e⟩ := runFsm_selected h
  obtain ⟨m, rfl⟩ := Nat.exists_eq_add_of_le' hn
  unfold State.select State.hostWrite5 State.drive
  rw [cmdRegOf_packR5W_cmd, resetBitOf_packR5W, e]
  have hk : cmdClass c = .read := by rcases hc with h | h <;> rw [h] <;> rfl
  simp only [hk]
  have hb := begun_cmd s c f
  cases ha : (s.begun c f).memAvailable
  · rw [runRows_rest (fsmRow_suspends (s := (s.begun c f).withFsm .waitMem0) rfl ha)]; rfl
  · rw [runRows_go (fsmRow_waitMem0 (s := (s.begun c f).withFsm .waitMem0) rfl ha (by show (s.begun c f).cr.cmd = _ ∨ (s.begun c f).cr.cmd = _; rw [hb]; exact hc)),
      runRows_rest (fsmRow_waitDs1_rest rfl)]
    have : ((s.begun c f).withFsm .waitMem0).cr.cmd = c := hb
    rw [this]
    rcases hc with h | h <;> subst h <;> simp <;> rfl

/-- The first word of LDEP, DRAWV or FILLR. -/
theorem select_feed_first {s : State} {c : Cmd} {f : CmdFlags} (x : Word) (h : s.accepts c f = true)
    (hc : cmdClass c = .param2) :
   ∃ σ, (s.select c f).feed x = (((((s.begun c f).withDataW x).withSig σ).loadXNew.withFsm .waitDs2)) := by
  rw [select_eq h (by simp [hc])]
  have hb := begun_cmd s c f
  rw [feed_first (t := ((s.begun c f).withFsm .waitDs0).recompute) x rfl]
  · exact ⟨_, rfl⟩
  · show (s.begun c f).io.lastCmd = some (s.begun c f).cr.cmd; rw [hb]; exact begun_lastCmd s c f
  · show cmdClass (s.begun c f).cr.cmd = _; rw [hb, hc]

/-- Both words of LDEP (R175). -/
theorem select_feed_ldep {s : State} {f : CmdFlags} (x y : Word) (h : s.accepts .ldep f = true) :
   ((s.select .ldep f).feed x).feed y =
       ((((s.begun .ldep f).withDataW x).loadXNew.withDataW y).loadYNew.keepEndpoint.withFsm .waitDs0).recompute := by
  obtain ⟨σ, e⟩ := select_feed_first x h rfl
  have hb := begun_cmd s .ldep f
  rw [e, feed_ldep]
  · rfl
  · intro trig; exact fsmRow_waitDs2_strobe rfl
  · show (s.begun .ldep f).io.lastCmd = some (s.begun .ldep f).cr.cmd; rw [hb]; exact begun_lastCmd s .ldep f
  · exact hb

/-- Both words of DRAWV or FILLR (R176, R177). -/
theorem select_feed_draw {s : State} {c : Cmd} {f : CmdFlags} (x y : Word) (h : s.accepts c f = true)
    (hc : c = .drawv ∨ c = .fillr) :
   ∃ σ, ((s.select c f).feed x).feed y = if (s.begun c f).memAvailable then
        ((if c = .drawv
          then (((((s.begun c f).withDataW x).loadXNew.withDataW y).withSig σ).loadYNew.withFsm
            .waitMem2).granted.drawPending
          else (((((s.begun c f).withDataW x).loadXNew.withDataW y).withSig σ).loadYNew.withFsm
            .waitMem2).granted.fillPending).withFsm .waitDs0).recompute
      else (((((s.begun c f).withDataW x).loadXNew.withDataW y).loadYNew.withFsm .waitMem2).suspend).recompute := by
  obtain ⟨σ, e⟩ := select_feed_first x h (by rcases hc with h | h <;> rw [h] <;> rfl)
  have hb := begun_cmd s c f
  obtain ⟨σ', e'⟩ := feed_draw (t := ((((s.begun c f).withDataW x).withSig σ).loadXNew.withFsm .waitDs2)) y (fun _ => fsmRow_waitDs2_strobe rfl)
    (by show (s.begun c f).io.lastCmd = some (s.begun c f).cr.cmd; rw [hb]; exact begun_lastCmd s c f)
    (by show (s.begun c f).cr.cmd = _ ∨ (s.begun c f).cr.cmd = _; rw [hb]; exact hc)
  rw [e, e']
  refine ⟨σ', ?_⟩
  have : ((((s.begun c f).withDataW x).withSig σ).loadXNew.withFsm .waitDs2).cr.cmd = c := hb
  rw [this]
  rfl

end Sys2Proof.Machine
end

