-- ==== Sys2Proof/Laws/PerInstr.lean ====
section
/-! SUPPORT. One statement per instruction: the length of its encoding (spec 30_encoding.md R61, R62, R66, R69; entry 6).
-/

namespace Sys2Proof.Laws

/-- An encoding is not empty, fits in the sixteen bytes of a table delivery, and has an odd number of bytes exactly on the
two wires whose deliveries begin with a code byte. -/
def EncodedLength.Statement (i : Instr) : Prop :=
  0 < i.bytes.length ∧ i.bytes.length ≤ 16 ∧
    (i.bytes.length % 2 = 1 ↔ i.channel = .bus ∨ i.channel = .op)

/-- It holds of every instruction. -/
theorem EncodedLength.holds (i : Instr) : EncodedLength.Statement i := by
  cases i <;> simp [EncodedLength.Statement, Instr.bytes, Instr.channel, fromWords]

theorem EncodedLength.rd4 : EncodedLength.Statement .rd4 :=
  EncodedLength.holds _

theorem EncodedLength.rd5 : EncodedLength.Statement .rd5 :=
  EncodedLength.holds _

theorem EncodedLength.rd6 : EncodedLength.Statement .rd6 :=
  EncodedLength.holds _

theorem EncodedLength.rd7 : EncodedLength.Statement .rd7 :=
  EncodedLength.holds _

theorem EncodedLength.wr4 (v : Word) : EncodedLength.Statement (.wr4 v) :=
  EncodedLength.holds _

theorem EncodedLength.wr5 (v : Word) : EncodedLength.Statement (.wr5 v) :=
  EncodedLength.holds _

theorem EncodedLength.wr6 (v : Word) : EncodedLength.Statement (.wr6 v) :=
  EncodedLength.holds _

theorem EncodedLength.wr7 (v : Word) : EncodedLength.Statement (.wr7 v) :=
  EncodedLength.holds _

theorem EncodedLength.nopc (f : CmdFlags) (d : Word) : EncodedLength.Statement (.nopc f d) :=
  EncodedLength.holds _

theorem EncodedLength.rdw (f : CmdFlags) : EncodedLength.Statement (.rdw f) :=
  EncodedLength.holds _

theorem EncodedLength.wrw (f : CmdFlags) (d : Word) : EncodedLength.Statement (.wrw f d) :=
  EncodedLength.holds _

theorem EncodedLength.clrw (f : CmdFlags) (d : Word) : EncodedLength.Statement (.clrw f d) :=
  EncodedLength.holds _

theorem EncodedLength.ldep (f : CmdFlags) (x y : Word) : EncodedLength.Statement (.ldep f x y) :=
  EncodedLength.holds _

theorem EncodedLength.drawv (f : CmdFlags) (x y : Word) : EncodedLength.Statement (.drawv f x y) :=
  EncodedLength.holds _

theorem EncodedLength.fillr (f : CmdFlags) (x y : Word) : EncodedLength.Statement (.fillr f x y) :=
  EncodedLength.holds _

theorem EncodedLength.rdlp (f : CmdFlags) : EncodedLength.Statement (.rdlp f) :=
  EncodedLength.holds _

theorem EncodedLength.ldiox (f : CmdFlags) (d : Word) : EncodedLength.Statement (.ldiox f d) :=
  EncodedLength.holds _

theorem EncodedLength.ldioy (f : CmdFlags) (d : Word) : EncodedLength.Statement (.ldioy f d) :=
  EncodedLength.holds _

theorem EncodedLength.ldmc (f : CmdFlags) (d : Word) : EncodedLength.Statement (.ldmc f d) :=
  EncodedLength.holds _

theorem EncodedLength.ldlp (f : CmdFlags) (d : Word) : EncodedLength.Statement (.ldlp f d) :=
  EncodedLength.holds _

theorem EncodedLength.ldcm (f : CmdFlags) (d : Word) : EncodedLength.Statement (.ldcm f d) :=
  EncodedLength.holds _

theorem EncodedLength.ldmap (f : CmdFlags) (d : Word) : EncodedLength.Statement (.ldmap f d) :=
  EncodedLength.holds _

theorem EncodedLength.ldcy (f : CmdFlags) (d : Word) : EncodedLength.Statement (.ldcy f d) :=
  EncodedLength.holds _

theorem EncodedLength.ldcx (f : CmdFlags) (d : Word) : EncodedLength.Statement (.ldcx f d) :=
  EncodedLength.holds _

theorem EncodedLength.alphaNewaddr (mode : BitVec 2) (addr : BitVec 12) : EncodedLength.Statement (.alphaNewaddr mode addr) :=
  EncodedLength.holds _

theorem EncodedLength.alphaEol (ignored : BitVec 12) : EncodedLength.Statement (.alphaEol ignored) :=
  EncodedLength.holds _

theorem EncodedLength.alphaNop (ignored : BitVec 12) : EncodedLength.Statement (.alphaNop ignored) :=
  EncodedLength.holds _

theorem EncodedLength.alphaAttrset (ignored : BitVec 4) (attr : Byte) : EncodedLength.Statement (.alphaAttrset ignored attr) :=
  EncodedLength.holds _

theorem EncodedLength.alphaRsvd (ignored : BitVec 12) : EncodedLength.Statement (.alphaRsvd ignored) :=
  EncodedLength.holds _

theorem EncodedLength.alphaCharB (attr : Byte) (code : BitVec 7) : EncodedLength.Statement (.alphaCharB attr code) :=
  EncodedLength.holds _

theorem EncodedLength.alphaCharA (ignored : BitVec 7) (code : BitVec 7) : EncodedLength.Statement (.alphaCharA ignored code) :=
  EncodedLength.holds _

theorem EncodedLength.alphaEscA (attr : BitVec 7) (ignored : BitVec 7) : EncodedLength.Statement (.alphaEscA attr ignored) :=
  EncodedLength.holds _

theorem EncodedLength.pixAddr (x : BitVec 10) (y : BitVec 9) : EncodedLength.Statement (.pixAddr x y) :=
  EncodedLength.holds _

theorem EncodedLength.planeRead (p : BitVec 2) (a : Nat) : EncodedLength.Statement (.planeRead p a) :=
  EncodedLength.holds _

theorem EncodedLength.planeWrite (p : BitVec 2) (a : Nat) (w : Word) : EncodedLength.Statement (.planeWrite p a w) :=
  EncodedLength.holds _

theorem EncodedLength.readPixel (p : BitVec 2) (x : BitVec 10) (y : BitVec 9) : EncodedLength.Statement (.readPixel p x y) :=
  EncodedLength.holds _

theorem EncodedLength.writePixel (p : BitVec 2) (x : BitVec 10) (y : BitVec 9) (b : Bool) : EncodedLength.Statement (.writePixel p x y b) :=
  EncodedLength.holds _

theorem EncodedLength.timeUntilAvailable (graphicsActive : Bool) : EncodedLength.Statement (.timeUntilAvailable graphicsActive) :=
  EncodedLength.holds _

theorem EncodedLength.defer : EncodedLength.Statement .defer :=
  EncodedLength.holds _

theorem EncodedLength.wake : EncodedLength.Statement .wake :=
  EncodedLength.holds _

theorem EncodedLength.cancelWake : EncodedLength.Statement .cancelWake :=
  EncodedLength.holds _

theorem EncodedLength.plot (x : BitVec 10) (y : BitVec 9) (draw : Bool) : EncodedLength.Statement (.plot x y draw) :=
  EncodedLength.holds _

theorem EncodedLength.plotAction (active dominance draw setSel : Bool) : EncodedLength.Statement (.plotAction active dominance draw setSel) :=
  EncodedLength.holds _

theorem EncodedLength.drawLine (x0 : BitVec 10) (y0 : BitVec 9) (x1 : BitVec 10) (y1 : BitVec 9) : EncodedLength.Statement (.drawLine x0 y0 x1 y1) :=
  EncodedLength.holds _

theorem EncodedLength.dashBit : EncodedLength.Statement .dashBit :=
  EncodedLength.holds _

theorem EncodedLength.dashAdvance : EncodedLength.Statement .dashAdvance :=
  EncodedLength.holds _

theorem EncodedLength.fillRect (x0 : BitVec 10) (y0 : BitVec 9) (x1 : BitVec 10) (y1 : BitVec 9) : EncodedLength.Statement (.fillRect x0 y0 x1 y1) :=
  EncodedLength.holds _

theorem EncodedLength.tile (y : BitVec 9) : EncodedLength.Statement (.tile y) :=
  EncodedLength.holds _

theorem EncodedLength.runFsm (ds trig : Bool) : EncodedLength.Statement (.runFsm ds trig) :=
  EncodedLength.holds _

theorem EncodedLength.loadIoCursor : EncodedLength.Statement .loadIoCursor :=
  EncodedLength.holds _

theorem EncodedLength.advanceIoCursor : EncodedLength.Statement .advanceIoCursor :=
  EncodedLength.holds _

theorem EncodedLength.recompute : EncodedLength.Statement .recompute :=
  EncodedLength.holds _

theorem EncodedLength.isCursor (sx sy : Nat) : EncodedLength.Statement (.isCursor sx sy) :=
  EncodedLength.holds _

theorem EncodedLength.lightPenCapture : EncodedLength.Statement .lightPenCapture :=
  EncodedLength.holds _

theorem EncodedLength.lpHit (px py cx cy : Int) (il : Bool) : EncodedLength.Statement (.lpHit px py cx cy il) :=
  EncodedLength.holds _

theorem EncodedLength.selfTestHits (cx cy : Int) : EncodedLength.Statement (.selfTestHits cx cy) :=
  EncodedLength.holds _

theorem EncodedLength.vblank : EncodedLength.Statement .vblank :=
  EncodedLength.holds _

theorem EncodedLength.alphaFrameStart : EncodedLength.Statement .alphaFrameStart :=
  EncodedLength.holds _

theorem EncodedLength.rowStart (r : Nat) : EncodedLength.Statement (.rowStart r) :=
  EncodedLength.holds _

theorem EncodedLength.fetchRow (b : Bool) : EncodedLength.Statement (.fetchRow b) :=
  EncodedLength.holds _

theorem EncodedLength.scanline (n : Nat) : EncodedLength.Statement (.scanline n) :=
  EncodedLength.holds _

theorem EncodedLength.gfx (sx sy : Nat) : EncodedLength.Statement (.gfx sx sy) :=
  EncodedLength.holds _

theorem EncodedLength.alphaOn (sx sy : Nat) : EncodedLength.Statement (.alphaOn sx sy) :=
  EncodedLength.holds _

theorem EncodedLength.controllerReset : EncodedLength.Statement .controllerReset :=
  EncodedLength.holds _

theorem EncodedLength.fsmReset (v : Word) : EncodedLength.Statement (.fsmReset v) :=
  EncodedLength.holds _

end Sys2Proof.Laws
end

