-- ==== Sys2Proof/Tests/Slice0.lean ====
section
/-! SUPPORT. The model's own tests: the smoke of WellFormed, words written out from the layouts of 30_encoding.md, one
step of each instruction with the result that 95_test_vectors.md or a rule's own example gives (named in the comment),
and, for every statement with hypotheses, states and operands that meet them. -/

namespace Sys2Proof.Tests

open Sys2Proof Sys2Proof.Machine

/-! ### Helpers -/

def mono : State := State.powerOn (Config.ofVariant .mono) Inputs.quiet []
def accel : State := State.powerOn (Config.ofVariant .monoAccel) Inputs.quiet []
def color : State := State.reset
/-- MONO_ACCEL with three planes, which D1 decides against (entry 31). -/
def accel3 : State := State.powerOn { Config.ofVariant .monoAccel with planeCount := .three } Inputs.quiet []

/-- The answer is a next state with a property. -/
def answers (r : Result) (p : State → Bool) : Bool :=
  match r with
  | .next t => p t
  | _ => false

/-- The answer is a fault. -/
def faults (r : Result) (f : Fault) : Bool :=
  match r with
  | .fault g => decide (g = f)
  | _ => false

/-- The answer is a refusal. -/
def refusedAs (r : Result) (f : Refusal) : Bool :=
  match r with
  | .refused g => decide (g = f)
  | _ => false

/-- The state with the FSM in a state, under a command already noted. -/
def at_ (s : State) (c : Cmd) (f : Fsm) : State :=
  ((s.withCr { s.cr with cmd := c }).withFsm f).withIo { s.io with lastCmd := some c }

def intOn (s : State) : State := s.withCr { s.cr with intEn := true }
def gfxOn (s : State) : State :=
  (s.withCr { s.cr with gfxEn := true }).withAlpha { s.alpha with mode := .graphics }
/-- The beam presented at a position; positions lined up for the arbiter's evaluations to come. -/
def beam (s : State) (n : Nat) : State := s.withInputs { s.inputs with beam := { hpos := n, vpos := 0 } }
def later (s : State) (l : List Nat) : State := s.withBeams (l.map fun n => { hpos := n, vpos := 0 })
def cursorAt (s : State) (a : Nat) (p : BitVec 2) : State := s.withIo { s.io with addr := a, plane := p }
def hostList (s : State) (base : Nat) (m : Memory) : State :=
  s.withInputs { s.inputs with alphaBase := base, hostMem := m }

/-- Graphics shown, the beam outside the arbiter's window: memory is not available. -/
def blocked (s : State) : State := beam (gfxOn s) 100

/-- WRW suspended in WAIT_MEM_1 (vector V11). -/
def suspended : State := ((at_ (blocked mono) .wrw .waitMem1).withDataW 0x1234).withWakePending true

def noFlags : CmdFlags :=
  { dma := false, int := false, gfx := false, reset := false, softkey := false, lp := false, selftest := false,
    interlace := false, rsvd := 0 }
def intFlag : CmdFlags := { noFlags with int := true }
def resetFlag : CmdFlags := { noFlags with reset := true }
def gfxFlag : CmdFlags := { noFlags with gfx := true }

/-- The bytes of a delivery decode to an instruction. -/
def reads (ch : Channel) (bs : List Byte) (i : Instr) : Bool :=
  match decode ch bs with
  | .ok j => decide (j = i)
  | .error _ => false

/-- The bytes of a delivery are refused with an error. -/
def refuses (ch : Channel) (bs : List Byte) (e : DecodeError) : Bool :=
  match decode ch bs with
  | .ok _ => false
  | .error d => decide (d = e)

/-! ### WellFormed: one ill-formed term for each check -/

theorem test_ill_formed_plane :
    Instr.wellFormed (.planeRead 3 0) = false ∧ Instr.wellFormed (.planeWrite 3 0 0) = false ∧
    Instr.wellFormed (.readPixel 3 0 0) = false ∧ Instr.wellFormed (.writePixel 3 0 0 true) = false := by decide

theorem test_ill_formed_number :
    Instr.wellFormed (.planeRead 0 65536) = false ∧ Instr.wellFormed (.planeWrite 0 65536 0) = false ∧
    Instr.wellFormed (.isCursor 65536 0) = false ∧ Instr.wellFormed (.isCursor 0 65536) = false ∧
    Instr.wellFormed (.rowStart 65536) = false ∧ Instr.wellFormed (.scanline 65536) = false ∧
    Instr.wellFormed (.gfx 65536 0) = false ∧ Instr.wellFormed (.gfx 0 65536) = false ∧
    Instr.wellFormed (.alphaOn 65536 0) = false ∧ Instr.wellFormed (.alphaOn 0 65536) = false := by decide

theorem test_ill_formed_integer :
    Instr.wellFormed (.lpHit 32768 0 0 0 false) = false ∧ Instr.wellFormed (.lpHit 0 (-32769) 0 0 false) = false ∧
    Instr.wellFormed (.lpHit 0 0 32768 0 false) = false ∧ Instr.wellFormed (.lpHit 0 0 0 (-32769) false) = false ∧
    Instr.wellFormed (.selfTestHits 32768 0) = false ∧ Instr.wellFormed (.selfTestHits 0 (-32769)) = false := by decide

/-! ### Decoding -/

/-- R61: bit 3 is the direction, bits 2:0 the register, 4 to 7. -/
theorem test_decode_bus :
    reads .bus [0b0100] .rd4 ∧ reads .bus [0b0101] .rd5 ∧ reads .bus [0b0110] .rd6 ∧ reads .bus [0b0111] .rd7 ∧
    reads .bus [0b1100, 0x34, 0x12] (.wr4 0x1234) ∧ reads .bus [0b1101, 0x22, 0x00] (.wr5 0x0022) ∧
    reads .bus [0b1110, 0x02, 0x00] (.wr6 0x0002) ∧ reads .bus [0b1111, 0x00, 0x00] (.wr7 0x0000) := by decide

/-- R75, U13: registers outside 4 to 7, and bytes that end too early. -/
theorem test_decode_refusals :
    refuses .bus [0b0011] .noSuchRegister ∧ refuses .bus [0b1000, 0, 0] .noSuchRegister ∧
    refuses .bus [0b1100, 0x34] .truncated ∧ refuses .bus [16] .noSuchCode ∧ refuses .cmd [0x02, 0x00] .truncated ∧
    refuses (.alpha .b) [0x48] .truncated ∧ refuses .op [0x1F] .noSuchCode ∧ refuses .op [0x41] .noSuchCode ∧
    refuses .op [0x21, 3, 0, 0, 0] .noSuchCode := by decide

/-- R62, R64: each command code in bits 3:0 with one flag bit of its own, then the data words. -/
theorem test_decode_commands :
    reads .cmd [0x80, 0x00, 0xFF, 0xFF] (.nopc resetFlag 0xFFFF) ∧
    reads .cmd [0x41, 0x00] (.rdw gfxFlag) ∧
    reads .cmd [0x22, 0x00, 0x34, 0x12] (.wrw intFlag 0x1234) ∧
    reads .cmd [0x13, 0x00, 0x77, 0x77] (.clrw { noFlags with dma := true } 0x7777) ∧
    reads .cmd [0x04, 0x01, 0x10, 0x04, 0x05, 0x02] (.ldep { noFlags with softkey := true } 0x0410 0x0205) ∧
    reads .cmd [0x05, 0x08, 0x0D, 0x00, 0x01, 0x00] (.drawv { noFlags with interlace := true } 13 1) ∧
    reads .cmd [0x06, 0xA0, 0x0B, 0x00, 0x01, 0x00] (.fillr { noFlags with rsvd := 0xA } 11 1) ∧
    reads .cmd [0x07, 0x06] (.rdlp { noFlags with lp := true, selftest := true }) ∧
    reads .cmd [0x08, 0x00, 0xC5, 0x00] (.ldiox noFlags 0x00C5) ∧
    reads .cmd [0x09, 0x00, 0x02, 0x02] (.ldioy noFlags 0x0202) ∧
    reads .cmd [0x0A, 0x00, 0x25, 0x00] (.ldmc noFlags 0x0025) ∧
    reads .cmd [0x0B, 0x00, 0x12, 0x03] (.ldlp noFlags 0x0312) ∧
    reads .cmd [0x0C, 0x00, 0x05, 0x00] (.ldcm noFlags 0x0005) ∧
    reads .cmd [0x0D, 0x00, 0x34, 0x00] (.ldmap noFlags 0x0034) ∧
    reads .cmd [0x0E, 0x00, 0xC8, 0x20] (.ldcy noFlags 0x20C8) ∧
    reads .cmd [0x0F, 0x00, 0x18, 0x81] (.ldcx noFlags 0x8118) := by decide

/-- R69 to R73: `11mm`, `1000`, `1001`, `1010`, `1011`, `0aaaaaaa accccccc`, `00`, `01`. -/
theorem test_decode_alpha :
    reads (.alpha .b) [0x05, 0xD0] (.alphaNewaddr 1 5) ∧ reads (.alpha .b) [0x00, 0x80] (.alphaEol 0) ∧
    reads (.alpha .b) [0x01, 0x90] (.alphaNop 1) ∧ reads (.alpha .a) [0x13, 0xA0] (.alphaAttrset 0 0x13) ∧
    reads (.alpha .b) [0x00, 0xB0] (.alphaRsvd 0) ∧ reads (.alpha .b) [0x41, 0x20] (.alphaCharB 0x40 0x41) ∧
    reads (.alpha .a) [0x41, 0x00] (.alphaCharA 0 0x41) ∧ reads (.alpha .a) [0x00, 0x42] (.alphaEscA 4 0) := by decide

/-- The internal operations have no bits in the spec (R79); these are the model's own (entry 6). -/
theorem test_decode_operations :
    reads .op [0x20, 37, 0, 2, 0] (.pixAddr 37 2) ∧ reads .op [0x21, 0, 0, 72, 64] (.planeRead 0 16456) ∧
    reads .op [0x22, 2, 0, 1, 64, 0xFF, 0xFF] (.planeWrite 2 0x4001 0xFFFF) ∧
    reads .op [0x23, 0, 0, 37, 0, 2, 0] (.readPixel 0 37 2) ∧
    reads .op [0x24, 0, 0, 37, 0, 2, 0, 1, 0] (.writePixel 0 37 2 true) ∧
    reads .op [0x25, 1, 0] (.timeUntilAvailable true) ∧ reads .op [0x26] .defer ∧ reads .op [0x27] .wake ∧
    reads .op [0x28] .cancelWake ∧ reads .op [0x29, 0, 0, 0, 0, 1, 0] (.plot 0 0 true) ∧
    reads .op [0x2A, 1, 0, 1, 0, 1, 0, 0, 0] (.plotAction true true true false) ∧
    reads .op [0x2B, 0, 0, 0, 0, 10, 0, 0, 0] (.drawLine 0 0 10 0) ∧ reads .op [0x2C] .dashBit ∧
    reads .op [0x2D] .dashAdvance ∧ reads .op [0x2E, 5, 0, 3, 0, 2, 0, 2, 0] (.fillRect 5 3 2 2) ∧
    reads .op [0x2F, 3, 0] (.tile 3) := by decide

theorem test_decode_operations_2 :
    reads .op [0x30, 1, 0, 0, 0] (.runFsm true false) ∧ reads .op [0x31] .loadIoCursor ∧
    reads .op [0x32] .advanceIoCursor ∧ reads .op [0x33] .recompute ∧ reads .op [0x34, 80, 0, 0, 0] (.isCursor 80 0) ∧
    reads .op [0x35] .lightPenCapture ∧
    reads .op [0x36, 0xAB, 0xFF, 0xFB, 0xFF, 0x2C, 1, 200, 0, 0, 0] (.lpHit (-85) (-5) 300 200 false) ∧
    reads .op [0x37, 0x2C, 1, 200, 0] (.selfTestHits 300 200) ∧ reads .op [0x38] .vblank ∧
    reads .op [0x39] .alphaFrameStart ∧ reads .op [0x3A, 24, 0] (.rowStart 24) ∧
    reads .op [0x3B, 1, 0] (.fetchRow true) ∧ reads .op [0x3C, 43, 0] (.scanline 43) ∧
    reads .op [0x3D, 80, 0, 0, 0] (.gfx 80 0) ∧ reads .op [0x3E, 2, 0, 43, 0] (.alphaOn 2 43) ∧
    reads .op [0x3F] .controllerReset ∧ reads .op [0x40, 0x80, 0] (.fsmReset 0x0080) := by decide

/-! ### One step of each instruction: the host's accesses -/

/-- V49: the word fetched before is returned, the next one fetched. -/
theorem test_rd4 :
    answers (exec .rd4 (((cursorAt (at_ mono .rdw .waitDs1) 1 0).withDataR 1).planeWrite 0 1 2))
      (fun t => t.ret = .word 1 ∧ t.dataR = 2 ∧ t.io.addr = 2 ∧ t.fsm = .waitDs1) := by decide

/-- V41. -/
theorem test_rd5 :
    answers (exec .rd5 color) (fun t => t.ret = .word 0x0081) ∧
    answers (exec .rd5 mono) (fun t => t.ret = .word 0x0001) := by decide

/-- V45: `RD6` under RDW+DMA. -/
theorem test_rd6 :
    answers (exec .rd6 (((cursorAt (at_ (mono.withCr { mono.cr with dmaEn := true }) .rdw .waitDs1) 1 0).withDataR 7)))
      (fun t => t.ret = .word 7 ∧ t.cr.dmaEn = false ∧ t.sig.dmaReq = false ∧ t.io.addr = 2) := by decide

/-- V43. -/
theorem test_rd7 : answers (exec .rd7 (mono.withDataR 5)) (fun t => t.ret = .word 0 ∧ t.dataR = 5) := by decide

/-- R131's example; the same in WAIT_TRIG_1 with `int_en = 1` only loads `DATA_W`. -/
theorem test_wr4 :
    answers (exec (.wr4 0x1234) (at_ mono .wrw .waitDs0)) (fun t => t.planeRead 0 0 = 0x1234 ∧ t.fsm = .waitDs2) ∧
    answers (exec (.wr4 0x1234) (intOn (at_ mono .wrw .waitTrig1)))
      (fun t => t.dataW = 0x1234 ∧ t.mem = [] ∧ t.fsm = .waitTrig1) := by decide

/-- R36, R102: one access may ask the arbiter twice, each time at a position of its own. The word deferred is written at
700, inside the window, and the next one, which the same strobe starts, waits at 100 for another 540. -/
theorem test_two_beams :
    answers (exec (.wr4 0x2222) (later suspended [700, 100, 5]))
      (fun t => t.planeRead 0 0 = 0x2222 ∧ t.io.addr = 1 ∧ t.fsm = .waitMem1 ∧ t.wakePending ∧ t.wakeDelay = 540 ∧
        t.beams = [{ hpos := 5, vpos := 0 }]) := by decide

/-- V42. -/
theorem test_wr5 :
    answers (exec (.wr5 0x0081) (mono.planeWrite 0 0 0x4242))
      (fun t => t.dataR = 0x4242 ∧ t.io.addr = 1 ∧ t.sig.ready ∧ t.fsm = .waitDs1) := by decide

/-- V45: the second word, with the terminal count. -/
theorem test_wr6 :
    answers (exec (.wr6 2) (cursorAt (at_ (mono.withCr { mono.cr with dmaEn := true }) .wrw .waitDs2) 1 0))
      (fun t => t.planeRead 0 1 = 2 ∧ t.cr.dmaEn = false ∧ t.sig.dmaReq = false ∧ t.io.addr = 2) := by decide

/-- S3, third line, on COLOR; V120: the trigger under a command that has no arm. -/
theorem test_wr7 :
    answers (exec (.wr7 0) (intOn ((at_ color .wrw .waitTrig1).withDataW 0x1234)))
      (fun t => t.planeRead 0 0 = 0x1234 ∧ t.io.plane = 1 ∧ t.io.addr = 0 ∧ t.sig.ready ∧ t.sig.irq) ∧
    answers (exec (.wr7 0) (intOn (at_ mono .ldcx .waitTrig1)))
      (fun t => t.errlog = [.protocolInconsistency .waitTrig1 .ldcx] ∧ t.mem = [] ∧ t.fsm = .waitDs0 ∧ t.sig.irq) := by
  decide

/-! ### The commands -/

/-- V60: only `DATA_W` changes. -/
theorem test_nopc :
    answers (exec (.nopc noFlags 0xFFFF) color) (fun t => t.dataW = 0xFFFF ∧ t.fsm = .waitDs0 ∧ t.mem = []) := by decide

/-- S4, first line. -/
theorem test_rdw :
    answers (exec (.rdw noFlags) (mono.planeWrite 0 0 0xBEEF))
      (fun t => t.dataR = 0xBEEF ∧ t.io.addr = 1 ∧ t.fsm = .waitDs1) := by decide

/-- S3, with and without the automatic trigger. -/
theorem test_wrw :
    answers (exec (.wrw intFlag 0x1234) color)
      (fun t => t.planeRead 0 0 = 0x1234 ∧ t.io.plane = 1 ∧ t.fsm = .waitDs2 ∧ t.sig.irq) ∧
    answers (exec (.wrw noFlags 0xAAAA) (mono.withIo { mono.io with y := 1 }))
      (fun t => t.planeRead 0 35 = 0xAAAA ∧ t.io.addr = 36) := by decide

/-- V63, first word. -/
theorem test_clrw :
    answers (exec (.clrw noFlags 0x7777) ((color.planeWrite 0 0 0xFFFF).planeWrite 1 0 0xFFFF))
      (fun t => t.planeRead 0 0 = 0 ∧ t.planeRead 1 0 = 0xFFFF ∧ t.dataW = 0x7777 ∧ t.fsm = .waitDs2) := by decide

/-- V64. -/
theorem test_ldep :
    answers (exec (.ldep noFlags 0x0410 0x0205) color)
      (fun t => t.ends = { xOld := 16, yOld := 5, xNew := 16, yNew := 5 } ∧ t.fsm = .waitDs0 ∧ t.mem = []) := by decide

/-- V23's diagonal through DRAWV, with the trigger: (0,0), (1,1), (2,2), (3,3). -/
theorem test_drawv :
    answers (exec (.drawv intFlag 3 3) mono)
      (fun t => t.planeRead 0 0 = 0x8000 ∧ t.planeRead 0 35 = 0x4000 ∧ t.planeRead 0 105 = 0x1000 ∧ t.ends.xOld = 3) := by
  decide

/-- V37 through FILLR. -/
theorem test_fillr :
    answers (exec (.fillr intFlag 17 0) (mono.withEnds { mono.ends with xOld := 14, xNew := 14 }))
      (fun t => t.planeRead 0 0 = 0x0003 ∧ t.planeRead 0 1 = 0xC000 ∧ t.ends.xOld = 17) := by decide

def hits : LightPen := { LightPen.atReset with yhi := 209, xleft := 291, ylo := 191, winYhi := true, winX := true,
                                               winYlo := true, int := true }

/-- V84: the first word; a change of command sets the selector back to YHI. -/
theorem test_rdlp :
    answers (exec (.rdlp { noFlags with lp := true }) (color.withLp { hits with regSel := .ylo }))
      (fun t => t.dataR = 0xC0D1 ∧ t.lp.regSel = .xleft ∧ t.lp.int ∧ t.fsm = .waitDs1) := by decide

/-- V67. -/
theorem test_ldiox :
    answers (exec (.ldiox noFlags 0x00C5) color) (fun t => t.io.x = 5 ∧ t.io.addr = 0) ∧
    answers (exec (.ldiox noFlags 0xFFFF) color) (fun t => t.io.x = 63) := by decide

theorem test_ldioy :
    answers (exec (.ldioy noFlags 0x0202) (color.withIo { color.io with x := 5 }))
      (fun t => t.io.y = 2 ∧ t.io.addr = 5) ∧
    answers (exec (.ldioy noFlags 0xFFFF) color) (fun t => t.io.y = 511) := by decide

/-- V68. -/
theorem test_ldmc :
    answers (exec (.ldmc noFlags 0x0025) color) (fun t => t.ctl.active = 0b101 ∧ t.ctl.dominance = 0b010) ∧
    answers (exec (.ldmc noFlags 0x0077) mono) (fun t => t.ctl.active = 1 ∧ t.ctl.dominance = 1) := by decide

/-- V69. -/
theorem test_ldlp :
    answers (exec (.ldlp noFlags 0x0312) color)
      (fun t => t.pat = { dashSel := 2, dashMask := 0xFF00, dashN := 2, dashRep := 0, htSel := 3 }) ∧
    answers (exec (.ldlp noFlags 0xFFFF) color)
      (fun t => t.pat = { dashSel := 7, dashMask := 0, dashN := 16, dashRep := 0, htSel := 15 }) := by decide

/-- V70. -/
theorem test_ldcm : answers (exec (.ldcm noFlags 0x0005) color) (fun t => t.ctl.setSel = 0b101) := by decide

/-- V71. -/
theorem test_ldmap :
    answers (exec (.ldmap noFlags 0x0034) color) (fun t => t.music = #v[0, 1, 2, 4, 4, 5, 6, 7]) ∧
    answers (exec (.ldmap noFlags 0x0034) mono) (fun t => t.music = musicAtReset t.cfg) := by decide

/-- V73. -/
theorem test_ldcy :
    answers (exec (.ldcy noFlags 0x20C8) color) (fun t => t.cursor.y = 200 ∧ t.cursor.color = 2) := by decide

/-- V72. -/
theorem test_ldcx :
    answers (exec (.ldcx noFlags 0x8118) color) (fun t => t.cursor.x = 280 ∧ !t.cursor.blink ∧ t.cursor.fs) ∧
    answers (exec (.ldcx noFlags 0xFFFF) color) (fun t => t.cursor.x = 1023 ∧ t.cursor.blink ∧ t.cursor.fs) := by decide

/-! ### The display list -/

/-- V92: only the first NEWADDR of a frame sets the mode. -/
theorem test_alpha_newaddr :
    answers (exec (.alphaNewaddr 1 5) color)
      (fun t => t.alpha.mode = .graphics ∧ t.alpha.fetchPtr = 5 ∧ !t.alpha.firstNa) ∧
    answers (exec (.alphaNewaddr 2 9) (color.withAlpha { color.alpha with firstNa := false, mode := .graphics }))
      (fun t => t.alpha.mode = .graphics ∧ t.alpha.fetchPtr = 9) := by decide

/-- V90: the rest of the row is blank, the buffer full. -/
theorem test_alpha_eol :
    answers (exec (.alphaEol 0) (color.withAlpha { color.alpha with
        row1 := { cells := List.replicate 80 { code := 1, attr := 2 }, full := false }, fetchCol := 78, fetchLeft := 9 }))
      (fun t => t.alpha.row1.full ∧
        t.alpha.row1.cells.drop 77 = [{ code := 1, attr := 2 }, blankCell t.cfg, blankCell t.cfg] ∧
        t.alpha.rowsFetched = 1 ∧ t.alpha.fetchPtr = 1 ∧ t.alpha.fetchLeft = 0) := by decide

/-- R234: the word is passed over; as the first word of a row it finds the buffer not full and the sticky attribute 0. -/
theorem test_alpha_nop :
    answers (exec (.alphaNop 7) (color.withAlpha { color.alpha with curAttr := 9 }))
      (fun t => t.alpha.fetchPtr = 1 ∧ t.alpha.row1 = { color.alpha.row1 with full := false } ∧ t.alpha.curAttr = 0 ∧
        t.alpha.fetchLeft = 599) := by decide

/-- V91: sticky in generation A, nothing in generation B. -/
theorem test_alpha_attrset :
    answers (exec (.alphaAttrset 0 0x13) mono) (fun t => t.alpha.curAttr = 0x13) ∧
    answers (exec (.alphaAttrset 0 0x13) color) (fun t => t.alpha.curAttr = 0 ∧ t.alpha.fetchPtr = 1) := by decide

/-- R71: the reserved sub-code is a NOP. -/
theorem test_alpha_rsvd :
    answers (exec (.alphaRsvd 0) color)
      (fun t => t.alpha.fetchPtr = 1 ∧ t.alpha.row1.cells = color.alpha.row1.cells ∧ t.errlog = []) := by decide

/-- V105: attribute 0x40, code 0x41; V92: a cell past the last column is dropped. -/
theorem test_alpha_char_b :
    answers (exec (.alphaCharB 0x40 0x41) color)
      (fun t => t.alpha.row1.cells[0]? = some { code := 0x41, attr := 0x40 } ∧ t.alpha.fetchCol = 1) ∧
    answers (exec (.alphaCharB 0 0x41) (color.withAlpha { color.alpha with fetchCol := 80, fetchLeft := 9 }))
      (fun t => t.alpha.row1 = color.alpha.row1 ∧ t.alpha.fetchCol = 80) := by decide

/-- V91: the sticky attribute. -/
theorem test_alpha_char_a :
    answers (exec (.alphaCharA 0 0x42) (mono.withAlpha { mono.alpha with curAttr := 0x13, fetchCol := 1, fetchLeft := 9 }))
      (fun t => t.alpha.row1.cells[1]? = some { code := 0x42, attr := 0x13 }) := by decide

/-- V91: 0x4200 sets the sticky attribute to 4 in generation A, and is a character word in generation B. -/
theorem test_alpha_esc_a :
    answers (exec (.alphaEscA 4 0) mono) (fun t => t.alpha.curAttr = 4 ∧ t.alpha.fetchCol = 0) ∧
    answers (exec (.alphaEscA 4 0) color)
      (fun t => t.alpha.row1.cells[0]? = some { code := 0, attr := 0x84 }) := by decide

/-! ### Bitplane Memory and the arbiter -/

/-- V1. -/
theorem test_pix_addr :
    answers (exec (.pixAddr 37 2) mono) (fun t => t.ret = .addr 72) ∧
    answers (exec (.pixAddr 1023 511) mono) (fun t => t.ret = .addr 1564) := by decide

/-- V2. -/
theorem test_plane_read :
    answers (exec (.planeRead 0 (72 + 16384)) (mono.planeWrite 0 72 0x0400)) (fun t => t.ret = .word 0x0400) ∧
    faults (exec (.planeRead 1 0) mono) .noSuchPlane := by decide

/-- V3. -/
theorem test_plane_write :
    answers (exec (.planeWrite 2 0x4001 0xFFFF) color)
      (fun t => t.planeRead 2 1 = 0xFFFF ∧ t.planeRead 0 1 = 0 ∧ t.planeRead 1 1 = 0) := by decide

/-- V4. -/
theorem test_read_pixel :
    answers (exec (.readPixel 0 37 2) (mono.planeWrite 0 72 0x0400)) (fun t => t.ret = .bit true) ∧
    answers (exec (.readPixel 0 36 2) (mono.planeWrite 0 72 0x0400)) (fun t => t.ret = .bit false) := by decide

/-- V5. -/
theorem test_write_pixel :
    answers (exec (.writePixel 0 37 2 false) (mono.planeWrite 0 72 0xFFFF)) (fun t => t.planeRead 0 72 = 0xFBFF) ∧
    answers (exec (.writePixel 0 37 2 true) (mono.planeWrite 0 72 0xFBFF)) (fun t => t.planeRead 0 72 = 0xFFFF) := by
  decide

/-- V10. -/
theorem test_time_until_available :
    answers (exec (.timeUntilAvailable true) (beam mono 639)) (fun t => t.ret = .delay 1) ∧
    answers (exec (.timeUntilAvailable true) (beam mono 79)) (fun t => t.ret = .delay 0) := by decide

/-- V11: wake asked in 540, seen at the position lined up first; elsewhere nothing. -/
theorem test_defer :
    answers (exec .defer (later (suspended.withWakePending false) [100, 0]))
      (fun t => t.wakePending ∧ t.wakeDelay = 540 ∧ t.beams = [{ hpos := 0, vpos := 0 }]) ∧
    answers (exec .defer mono) (fun t => decide (t = mono)) := by decide

/-- V11: the window missed, and reached. -/
theorem test_wake :
    answers (exec .wake (beam suspended 300)) (fun t => t.wakePending ∧ t.wakeDelay = 340 ∧ t.mem = []) ∧
    answers (exec .wake (beam suspended 640))
      (fun t => t.planeRead 0 0 = 0x1234 ∧ t.io.addr = 1 ∧ !t.wakePending ∧ t.fsm = .waitDs2 ∧ t.sig.ready) := by decide

/-- R106. -/
theorem test_cancel_wake :
    answers (exec .cancelWake suspended) (fun t => !t.wakePending ∧ t.fsm = .waitMem1) := by decide

/-! ### The engine -/

/-- V21. -/
theorem test_plot :
    answers (exec (.plot 0 0 true) (((color.planeWrite 0 0 0xFFFF).planeWrite 1 0 0xFFFF).withCtl
        { active := 7, dominance := 7, setSel := 5 }))
      (fun t => t.planeRead 0 0 = 0xFFFF ∧ t.planeRead 1 0 = 0x7FFF ∧ t.planeRead 2 0 = 0x8000) := by decide

/-- V20, two rows. -/
theorem test_plot_action :
    answers (exec (.plotAction true true true false) mono) (fun t => t.ret = .action .clear) ∧
    answers (exec (.plotAction true false true false) mono) (fun t => t.ret = .action .set) := by decide

/-- V31, its first five points. -/
theorem test_draw_line :
    answers (exec (.drawLine 0 0 4 0) (mono.withPat { mono.pat with dashMask := 0xAAAA, dashN := 2 }))
      (fun t => t.planeRead 0 0 = 0xC800 ∧ t.pat.dashMask = 0xAAAA ∧ t.pat.dashRep = 1) := by decide

/-- V23, two walks. -/
theorem test_line_points :
    linePoints 0 0 5 2 = [(0, 0), (1, 0), (2, 1), (3, 1), (4, 2), (5, 2)] ∧
    linePoints 3 0 0 7 = [(3, 0), (3, 1), (2, 2), (2, 3), (1, 4), (1, 5), (0, 6), (0, 7)] := by decide

/-- R115, R116. -/
theorem test_dash :
    answers (exec .dashBit (mono.withPat { mono.pat with dashMask := 0x7FFF })) (fun t => t.ret = .bit false) ∧
    answers (exec .dashAdvance (mono.withPat { mono.pat with dashMask := 0x8001, dashN := 2, dashRep := 1 }))
      (fun t => t.pat.dashMask = 0x0003 ∧ t.pat.dashRep = 0) := by decide

/-- V36. -/
theorem test_fill_rect :
    answers (exec (.fillRect 5 3 2 2) (mono.withPat { mono.pat with htSel := 8 }))
      (fun t => t.planeRead 0 70 = 0x2800 ∧ t.planeRead 0 105 = 0x1400) := by decide

/-- V34. -/
theorem test_tile :
    answers (exec (.tile 1) (mono.withPat { mono.pat with htSel := 3 })) (fun t => t.ret = .word 0xDDDD) ∧
    answers (exec (.tile 4) (mono.withPat { mono.pat with htSel := 15 })) (fun t => t.ret = .word 0x8888) := by decide

/-! ### The FSM -/

/-- Rows WAIT_DS_1 and WAIT_MEM_0; signals not recomputed. -/
theorem test_run_fsm :
    answers (exec (.runFsm true false) ((at_ mono .rdw .waitDs1).planeWrite 0 0 9))
      (fun t => t.dataR = 9 ∧ t.fsm = .waitDs1) ∧
    answers (exec (.runFsm false false) (intOn (at_ mono .wrw .waitTrig1))) (fun t => t.fsm = .waitTrig1) := by decide

/-- V62: row 1, word column 0. -/
theorem test_load_io_cursor :
    answers (exec .loadIoCursor ((cursorAt mono 9 0).withIo { mono.io with y := 1, wrap := true }))
      (fun t => t.io.addr = 35 ∧ t.io.plane = 0 ∧ !t.io.wrap) := by decide

/-- P3: the planes in turn, then the next word with `io_wrap`. -/
theorem test_advance_io_cursor :
    answers (exec .advanceIoCursor (cursorAt color 37 1)) (fun t => t.io.addr = 37 ∧ t.io.plane = 2 ∧ !t.io.wrap) ∧
    answers (exec .advanceIoCursor (cursorAt color 37 2)) (fun t => t.io.addr = 38 ∧ t.io.plane = 0 ∧ t.io.wrap) := by
  decide

/-- V40. -/
theorem test_recompute :
    answers (exec .recompute ((at_ mono .wrw .waitDs2).withCr { mono.cr with cmd := .wrw, dmaEn := true, intEn := true }))
      (fun t => t.sig = { ready := true, irq := false, dmaReq := true }) ∧
    answers (exec .recompute (intOn (at_ mono .wrw .waitTrig1)))
      (fun t => t.sig = { ready := false, irq := false, dmaReq := false }) := by decide

/-! ### Cursor, light pen, display -/

/-- V102. -/
theorem test_is_cursor :
    answers (exec (.isCursor 104 0) (gfxOn color)) (fun t => t.ret = .bit true) ∧
    answers (exec (.isCursor 105 0) (gfxOn color)) (fun t => t.ret = .bit false) := by decide

/-- V84: the pointer at (380, 200) over the cursor at (300, 200). -/
theorem test_light_pen_capture :
    answers (exec .lightPenCapture ((((color.withCr { color.cr with lpEn := true }).withCursor
        { color.cursor with x := 300, y := 200 })).withInputs { Inputs.quiet with ptrX := 380, ptrY := 200, ptrButton := true }))
      (fun t => t.lp = { hits with px := 300, py := 200, button := true, cx := 300, cy := 200 }) := by decide

/-- V80, V81. -/
theorem test_lp_hit :
    answers (exec (.lpHit 303 196 300 200 false) color) (fun t => t.ret = .hits 204 295 188 true true true) ∧
    answers (exec (.lpHit 300 216 300 200 true) color) (fun t => t.ret = .hits 226 290 206 false false true) := by decide

/-- V85: 0xC0D0, 0xC124, 0xC0C0 are 208, 292, 192 with both flags. -/
theorem test_self_test_hits :
    answers (exec (.selfTestHits 300 200) color) (fun t => t.ret = .hits 208 292 192 true true true) := by decide

/-- The list of V90: NEWADDR 0x200, two characters, EOL. -/
def shortList : Memory :=
  [(0x200, 0xC2), (0x401, 0x48), (0x403, 0x49), (0x404, 0x80)]

/-- V90. -/
theorem test_vblank :
    answers (exec .vblank (hostList color 0x100 shortList))
      (fun t => t.alpha.row1.cells.take 3 = [{ code := 0x48, attr := 0 }, { code := 0x49, attr := 0 }, blankCell t.cfg] ∧
        t.alpha.fetchPtr = 0x203 ∧ t.alpha.rowsFetched = 1 ∧ t.frameCnt = 1 ∧ t.hostReads.length = 4) := by decide

/-- V90 without the frame count. -/
theorem test_alpha_frame_start :
    answers (exec .alphaFrameStart (hostList (color.withAlpha { color.alpha with underrun := true }) 0x100 shortList))
      (fun t => t.alpha.fetchPtr = 0x203 ∧ !t.alpha.underrun ∧ t.alpha.bufIdx = false ∧ t.frameCnt = 0) := by decide

/-- V94: a buffer that is not full sets `underrun`; no row is fetched after it. -/
theorem test_row_start :
    answers (exec (.rowStart 1) (color.withAlpha { color.alpha with
        bufIdx := true, row0 := { color.alpha.row0 with full := false }, rowsFetched := 1 }))
      (fun t => t.alpha.underrun ∧ t.alpha.bufIdx = false ∧ t.alpha.rowsFetched = 1) ∧
    refusedAs (exec (.rowStart 25) color) .noSuchEvent := by decide

/-- V95 with a budget of three: the list of one NEWADDR to itself. -/
theorem test_fetch_row :
    answers (exec (.fetchRow true) ((State.powerOn { Config.ofVariant .color with fetchBudget := 3 }
        { Inputs.quiet with hostMem := [(0, 0xC0)] } [])))
      (fun t => !t.alpha.row1.full ∧ t.errlog = [.displayListMalformation 0] ∧ t.hostReads = [0, 0, 0] ∧
        t.alpha.fetchPtr = 0) := by decide

/-- An instance with a screen of four columns (R4's constraints do not matter to one line). -/
def narrow : State :=
  gfxOn (State.powerOn { Config.ofVariant .color with screenW := 4, gfxXOff := 1, gfxW := 3 } Inputs.quiet [])

/-- R266, R256: the cursor's full-screen row over index 6 of the music memory. -/
theorem test_scanline :
    answers (exec (.scanline 5) ((narrow.planeWrite 1 175 0x8000).planeWrite 2 175 0xC000))
      (fun t => t.ret = .pens [0, 7, 4, 0]) ∧
    refusedAs (exec (.scanline 455) color) .noSuchEvent := by decide

/-- V101: planes 0 and 1 set at the first pixel. -/
theorem test_gfx :
    answers (exec (.gfx 80 0) ((color.planeWrite 0 0 0x8000).planeWrite 1 0 0x8000)) (fun t => t.ret = .pen 3) ∧
    answers (exec (.gfx 79 0) ((color.planeWrite 0 0 0x8000).planeWrite 1 0 0x8000)) (fun t => t.ret = .pen 0) := by
  decide

/-- V100: `chargen(0, 0x41, 3) = 0b001111100` in cell 0. -/
def lettered (attr : Byte) : State :=
  (mono.withInputs { Inputs.quiet with font := [{ alt := false, code := 0x41, line := 3, bits := 0b001111100 }] }).withAlpha
    { mono.alpha with row0 := { mono.alpha.row0 with cells := mono.alpha.row0.cells.set 0 { code := 0x41, attr := attr } } }

/-- V100: plain and reverse. -/
theorem test_alpha_on :
    answers (exec (.alphaOn 2 43) (lettered 0)) (fun t => t.ret = .bit true) ∧
    answers (exec (.alphaOn 2 43) (lettered 1)) (fun t => t.ret = .bit false) := by decide

/-- R255, R39: cells of 20 pixels show their leftmost one, bit 19. -/
theorem test_alpha_on_wide :
    answers (exec (.alphaOn 0 40) (((State.powerOn { Config.ofVariant .mono with charW := 20, alphaCols := 36 }
        { Inputs.quiet with font := [{ alt := false, code := 0x41, line := 0, bits := 2 ^ 19 }] } []).withAlpha
          { mono.alpha with row0 := { cells := [{ code := 0x41, attr := 0 }], full := true } })))
      (fun t => t.ret = .bit true) := by decide

/-- R4, R111, R142 with three planes on MONO_ACCEL: plot reaches plane 2, and the advance goes round the planes. -/
theorem test_three_planes_on_mono_accel :
    accel3.cfg.wf = true ∧ accel3.ctl.setSel = 0b111 ∧
    answers (exec (.plot 0 0 true) accel3) (fun t => t.planeRead 2 0 = 0x8000) ∧
    answers (exec .advanceIoCursor (cursorAt accel3 5 1)) (fun t => t.io.plane = 2 ∧ t.io.addr = 5) ∧
    answers (exec .advanceIoCursor (cursorAt accel 5 0)) (fun t => t.io.plane = 0 ∧ t.io.addr = 6) := by decide

/-- V110. -/
theorem test_controller_reset :
    answers (exec .controllerReset ((at_ suspended .wrw .waitMem1).withCursor { mono.cursor with x := 5 }))
      (fun t => t.fsm = .waitDs0 ∧ t.cr = CmdReg.atReset ∧ !t.wakePending ∧ t.cursor = Cursor.atReset ∧ t.sig.ready) := by
  decide

/-- V13, V111. -/
theorem test_fsm_reset :
    answers (exec (.fsmReset 0x0040) suspended)
      (fun t => t.fsm = .waitDs0 ∧ !t.wakePending ∧ t.dataW = 0x1234 ∧ t.mem = [] ∧ t.cr.cmd = .nopc) := by decide

/-! ### Witnesses: states and operands that meet the hypotheses of each statement -/

theorem witness_DecodeOfEncode :
    Instr.WellFormed (.lpHit (-32768) 32767 0 (-1) true) ∧ Instr.WellFormed (.planeWrite 2 65535 0xFFFF) := by decide

/-- A state whose oldest delivery is some bytes. -/
def lined (s : State) (ch : Channel) (bs : List Byte) : State := s.withInbox [.wire ch bs]

theorem witness_StepRunsTheDecodedInstruction :
    ((lined color .bus [0xC, 0x34, 0x12]).inbox = .wire .bus [0xC, 0x34, 0x12] :: [] ∧
      reads .bus [0xC, 0x34, 0x12] (.wr4 0x1234) ∧
      (lined color .bus [0xC, 0x34, 0x12]).takes (.wr4 0x1234) = true) ∧
    decodeTableWord 16 0xC205 = some (.alphaNewaddr 0 0x205) ∧ color.takes (.alphaNewaddr 0 0x205) = true := by decide

/-- The last position of the beam's geometry (R36), and one past it. -/
def lastBeam : Inputs := { Inputs.quiet with beam := { hpos := 890, vpos := 484 } }
def noBeam : Inputs := { Inputs.quiet with beam := { hpos := 891, vpos := 0 } }

theorem witness_StepWithoutAnInstruction :
    color.inbox = [] ∧
    ((color.withInbox [.inputs lastBeam]).inbox = .inputs lastBeam :: [] ∧ Inputs.wf color.cfg lastBeam = true ∧
      Inputs.wf color.cfg noBeam = false) ∧
    ((color.withInbox [.beams [lastBeam.beam]]).inbox = .beams [lastBeam.beam] :: [] ∧
      (∀ b ∈ [lastBeam.beam], b.hpos < color.cfg.hTotal ∧ b.vpos < color.cfg.vTotal) ∧
      ¬(∀ b ∈ [noBeam.beam], b.hpos < color.cfg.hTotal ∧ b.vpos < color.cfg.vTotal)) ∧
    ((lined color .bus [0x0]).inbox = .wire .bus (0x0 :: []) :: [] ∧ (0x0 : Byte).toNat < 16 ∧
      (0x0 : Byte).toNat % 8 < 4) ∧
    ((lined color .bus [0xB, 1, 2]).inbox = .wire .bus (0xB :: [1, 2]) :: [] ∧ (0xB : Byte).toNat < 16 ∧
      (0xB : Byte).toNat % 8 < 4) ∧
    (refuses .bus [0x3] .noSuchRegister ∧ refuses .bus [0xC, 1] .truncated ∧ refuses .op [0x21, 3, 0, 0, 0] .noSuchCode) ∧
    ((encode (.ldep noFlags 1 2)).1 = .cmd ∧ [0x04, 0x00, 0x01] <+: (encode (.ldep noFlags 1 2)).2 ∧
      [0x04, 0x00, 0x01] ≠ (encode (.ldep noFlags 1 2)).2) ∧
    ([0x41] : List Byte).length < 2 ∧
    (16 ≤ (0x10 : Byte).toNat ∧ (0x1F : Byte).toNat < 32 ∧ 65 ≤ (0x41 : Byte).toNat) ∧
    (33 ≤ (0x21 : Byte).toNat ∧ (0x24 : Byte).toNat ≤ 36 ∧ (0x03 : Byte).toNat % 4 = 3) ∧
    reads .op [0x3A, 0, 0] (.rowStart 0) ∧ (lined color .op [0x3A, 0, 0]).takes (.rowStart 0) = false := by
  decide

/-- What is in turn at the edges of a frame and of a row (R232): RowStart(1) between lines 54 and 55, VBlank at the end. -/
theorem test_events_in_turn :
    let k (r n : Nat) : State := color.withClock { started := true, nextRow := r, nextLine := n }
    (k 1 55).takes (.rowStart 1) = true ∧ (k 1 54).takes (.rowStart 1) = false ∧ (k 1 54).takes (.scanline 54) = true ∧
    (k 1 55).takes (.scanline 55) = false ∧ (k 25 455).takes .vblank = true ∧ (k 25 454).takes .vblank = false ∧
    color.takes .vblank = true ∧ color.takes (.scanline 0) = false := by decide

theorem witness_AnswersIffInRange :
    (mono.cfg.nplanes ≤ (1 : BitVec 2).toNat ∧ color.cfg.nplanes ≤ (3 : BitVec 2).toNat) ∧
    color.cfg.alphaRows ≤ 25 ∧ color.cfg.screenH ≤ 455 ∧ Instr.inRange color.cfg (.planeRead 2 0) = true := by decide

theorem witness_StepKeepsTheInvariant :
    Inv (lined color .bus [0xD, 0x02, 0x00]) ∧ answers (step (lined color .bus [0xD, 0x02, 0x00])) (fun _ => true) ∧
    Inv (lined suspended .op [0x27]) ∧ answers (step (lined suspended .op [0x27])) (fun t => t.wakePending) := by decide

theorem witness_SignalsStayFresh :
    color.Fresh ∧ answers (exec (.wr5 0x22) color) (fun t => t.sig.irq) := ⟨rfl, by decide⟩

theorem witness_ExecLeavesTheWorld : answers (exec (.wr4 1) color) (fun _ => true) := by decide

theorem witness_OnlyWritersWriteMemory :
    Instr.neverWritesMemory .controllerReset = true ∧
    answers (exec .controllerReset (mono.planeWrite 0 0 7)) (fun t => t.planeRead 0 0 = 7) := by decide

theorem witness_AgentsKeepToTheirSide :
    (Instr.isDisplay .lightPenCapture = true ∧ answers (exec .lightPenCapture color) (fun _ => true)) ∧
    Instr.isHost (.wrw noFlags 5) = true ∧ answers (exec (.wrw noFlags 5) color) (fun _ => true) := by decide

theorem witness_BufferIndexAndUnderrun :
    answers (exec (.rowStart 24) (color.withAlpha { color.alpha with underrun := true })) (fun t => t.alpha.underrun) ∧
    answers (exec .controllerReset (color.withAlpha { color.alpha with underrun := true }))
      (fun t => !t.alpha.underrun) := by decide

/-- The last key of the memory of a one-plane variant, and of the last plane of COLOR. -/
theorem witness_ControllerResetResult :
    color.cfg.ioRestore = .reload ∧ color.cfg.wf = true ∧ Inputs.wf color.cfg lastBeam = true ∧
    Memory.wf [(0, 1), (8 * 0x3FFF + 5, 0xFF)] = true ∧
    (∀ e ∈ [((0 : Nat), (1 : Byte)), (8 * 0x3FFF + 5, 0xFF)], keyInRange color.cfg e.1 = true) := by decide

theorem witness_FsmResetResult : cmdClass (cmdRegOf 0x0F82).cmd ≠ .read := by decide

theorem witness_PlaneReadResult : (2 : BitVec 2).toNat < color.cfg.nplanes ∧ color.cfg.wf = true := by decide

theorem witness_PlaneWriteResult : (2 : BitVec 2).toNat < color.cfg.nplanes ∧ (0 : BitVec 2).toNat < mono.cfg.nplanes := by
  decide

theorem witness_ReadPixelResult : (0 : BitVec 2).toNat < mono.cfg.nplanes := by decide

theorem witness_WritePixelResult :
    (2 : BitVec 2).toNat < color.cfg.nplanes ∧
    ¬((0 : BitVec 2) = 2 ∧ SamePixel color.cfg 1023 511 1023 511) ∧
    ¬((2 : BitVec 2) = 2 ∧ SamePixel color.cfg 559 454 560 454) ∧
    Memory.wf (color.planeWrite 2 0 0x8000).mem = true ∧ (color.planeWrite 2 0 0x8000).readPixel 2 0 0 = true := by
  decide

theorem witness_ArbiterResults :
    (beam color 80).timeUntilAvailable true ≠ 0 ∧ (later (beam color 0) [639]).timeUntilAvailable true ≠ 0 := by decide

theorem witness_DeferralSuspends :
    (suspended.fsm.isMemWait = true ∧ suspended.memAvailable = false) ∧
    (suspended.wakePending = true → suspended.fsm.isMemWait = true) ∧
    (suspended.runFsm false false).wakePending = true := by decide

theorem witness_WakeResult :
    mono.wakePending = false ∧ suspended.wakePending = true ∧
    ((beam suspended 640).wakePending = true ∧ (beam suspended 640).fsm = .waitMem1 ∧
      (beam suspended 640).cr.cmd = .wrw ∧ (beam suspended 640).memAvailable = true) ∧
    suspended.fsm.isMemWait = true ∧ suspended.memAvailable = false := by decide

/-- DRAWV or FILLR suspended in WAIT_MEM_2, the window now open. -/
def drawWaiting (c : Cmd) : State := (at_ (beam (gfxOn mono) 640) c .waitMem2).withWakePending true

theorem witness_DeferredWriteHasNotHappened :
    (suspended.fsm.isMemWait = true ∧ suspended.memAvailable = false ∧
      answers (exec (.wr4 0x2222) suspended) (fun _ => true) ∧ answers (exec .wake suspended) (fun _ => true)) ∧
    ((0x00C0 : Word).getLsbD 7 = true ∧ answers (exec (.wr5 0x00C0) suspended) (fun _ => true) ∧
      cmdClass (cmdRegOf 0x00C0).cmd ≠ .read) ∧
    ((beam suspended 640).fsm = .waitMem1 ∧ (beam suspended 640).memAvailable = true ∧
      answers (exec .wake (beam suspended 640)) (fun _ => true)) ∧
    ((drawWaiting .drawv).fsm = .waitMem2 ∧ (drawWaiting .drawv).wakePending = true ∧
      (drawWaiting .drawv).memAvailable = true ∧ answers (exec .wake (drawWaiting .drawv)) (fun _ => true) ∧
      (drawWaiting .drawv).cr.cmd = .drawv ∧ (drawWaiting .fillr).cr.cmd = .fillr ∧
      answers (exec .wake (drawWaiting .fillr)) (fun _ => true)) := by decide

theorem witness_DashResults :
    Pattern.ok { dashSel := 0, dashMask := 0xFFFA, dashN := 16, dashRep := 15, htSel := 0 } = true ∧
    (Pattern.ok { dashSel := 0, dashMask := 0xFFFA, dashN := 1, dashRep := 0, htSel := 0 } = true) := by decide

theorem witness_LineWalksFromEndToEnd :
    0 + 1 < (linePoints 0 0 5 2).length ∧ 4 + 1 < (linePoints 0 0 5 2).length ∧ ((5, 2) : Int × Int) ∈ linePoints 0 0 5 2 := by
  decide

theorem witness_DrawLineResult :
    (∀ z ∈ pointsOfLine 0 0 5 2, ¬SamePixel color.cfg z.1 z.2 5 1) ∧
    (color.withCtl { color.ctl with active := 0b101 }).ctl.active.getLsbD (1 : BitVec 2).toNat = false := by decide

theorem witness_LinePaintsItsPoints :
    color.cfg.wf = true ∧ (559 < color.cfg.gfxW ∧ 454 < color.cfg.gfxH) ∧ (557 < color.cfg.gfxW ∧ 0 < color.cfg.gfxH) ∧
    answers (exec (.drawLine 559 454 557 453) color) (fun _ => true) ∧
    2 < (pointsOfLine 559 454 557 453).length ∧ (2 : BitVec 2).toNat < color.cfg.nplanes := by decide

theorem witness_TileAndFillRectResults :
    (∀ z ∈ boxPoints 2 2 4 3, ¬SamePixel color.cfg z.1 z.2 5 3) ∧
    mono.ctl.active.getLsbD (1 : BitVec 2).toNat = false := by decide

theorem witness_FillPaintsTheBox :
    color.cfg.wf = true ∧ (559 < color.cfg.gfxW ∧ 454 < color.cfg.gfxH) ∧ (558 < color.cfg.gfxW ∧ 453 < color.cfg.gfxH) ∧
    answers (exec (.fillRect 559 454 558 453) color) (fun _ => true) ∧ (2 : BitVec 2).toNat < color.cfg.nplanes ∧
    (0 < color.cfg.gfxW ∧ 0 < color.cfg.gfxH) := by decide

theorem witness_StrobeRows : (at_ mono .rdw .waitDs1).fsm = .waitDs1 ∧ (at_ mono .wrw .waitDs2).fsm = .waitDs2 := by decide

/-- A row's outcome is a transition. -/
def goes (r : RowOut) : Bool :=
  match r with
  | .go _ _ _ => true
  | .rest _ => false

theorem witness_TransitionsFollowTheTable :
    goes (fsmRow false false (mono.withFsm .reset)) ∧ goes (fsmRow true false mono) ∧
    goes (fsmRow false false (at_ mono .rdw .waitDs0)) ∧ goes (fsmRow true false (at_ mono .wrw .waitDs0)) ∧
    goes (fsmRow false true (at_ mono .ldep .waitTrig0)) ∧ goes (fsmRow false false (at_ mono .wrw .waitMem0)) ∧
    goes (fsmRow true false (at_ mono .rdw .waitDs1)) ∧ goes (fsmRow true false (at_ mono .wrw .waitDs2)) ∧
    goes (fsmRow false true (at_ mono .fillr .waitTrig1)) ∧ goes (fsmRow false false (at_ mono .clrw .waitMem1)) ∧
    goes (fsmRow false false (at_ mono .fillr .waitMem2)) := by decide

theorem witness_InconsistencyIsTaken :
    (mismatched (at_ mono .wrw .waitTrig0).fsm (at_ mono .wrw .waitTrig0).cr.cmd = true ∧
      (at_ mono .wrw .waitTrig0).waitSatisfied false = true) ∧
    mismatched (at_ suspended .ldiox .waitMem2).fsm (at_ suspended .ldiox .waitMem2).cr.cmd = true ∧
      (beam (at_ suspended .ldiox .waitMem2) 640).waitSatisfied false = true ∧
    (let s := later (at_ suspended .nopc .waitMem0) [0, 100]
     mismatched s.fsm s.cr.cmd = true ∧ s.waitSatisfied false = true ∧ s.graphicsActive = true ∧
      s.fsm.isMemWait = true ∧ s.beams.length = 2 ∧ (s.runFsm false false).beams = s.beams.tail ∧
      (s.runFsm false false).errlog = [.protocolInconsistency .waitMem0 .nopc]) := by decide

theorem witness_RunWritesOnlyItsCommandsState :
    (at_ mono .nopc .waitDs0).cr.cmd ≠ .wrw ∧ (at_ mono .drawv .waitMem2).cr.cmd = .drawv ∧
    (at_ mono .ldmc .waitTrig0).cr.cmd = .ldmc ∧ (at_ mono .ldcm .waitTrig0).cr.cmd = .ldcm ∧
    (at_ mono .wrw .waitMem1).cr.cmd = .wrw ∧ (at_ mono .fillr .waitMem2).cr.cmd = .fillr ∧
    (at_ mono .ldmap .waitTrig0).cr.cmd = .ldmap ∧ (at_ mono .ldcx .waitTrig0).cr.cmd = .ldcx ∧
    (at_ mono .ldcy .waitTrig0).cr.cmd = .ldcy ∧ (at_ mono .rdlp .waitMem0).cr.cmd = .rdlp ∧
    mono.ctl.active.getLsbD (1 : BitVec 2).toNat = false := by decide

theorem witness_IoCursorResults :
    color.cfg.ioRestore = .reload ∧ color.cfg.wf = true ∧ color.cfg.nplanes = 3 ∧
    (cursorAt color 0x3FFF 2).io.plane.toNat < 3 ∧
    (cursorAt color 0x3FFF 2).io.addr &&& color.cfg.addrMask = (cursorAt color 0x3FFF 2).io.addr ∧
    (color.fsm = .waitDs0 ∧ color.io.lastCmd = some color.cr.cmd) ∧
    ((0x0002 : Word).getLsbD 7 = false ∧ cmdClass (Cmd.ofCode ((0x0002 : Word).extractLsb' 0 4)) ≠ .read ∧
      color.io.lastCmd ≠ some (Cmd.ofCode ((0x0002 : Word).extractLsb' 0 4))) := by decide

theorem witness_R4Results :
    ((intOn (at_ mono .wrw .waitTrig1)).fsm = .waitTrig1 ∧ (intOn (at_ mono .wrw .waitTrig1)).cr.intEn = true) ∧
    ((intOn (at_ mono .ldep .waitTrig0)).fsm = .waitTrig0 ∧ (intOn (at_ mono .ldep .waitTrig0)).cr.intEn = true) ∧
    (suspended.fsm.isMemWait = true ∧ suspended.memAvailable = false) ∧
    ((at_ mono .wrw .waitDs0).cr.cmd = .wrw ∧ (at_ mono .wrw .waitDs0).fsm = .waitDs0 ∧
      (at_ mono .wrw .waitDs0).cr.intEn = false ∧ (at_ mono .wrw .waitDs0).memAvailable = true) ∧
    ((later suspended [700, 100]).cr.cmd = .wrw ∧ (later suspended [700, 100]).fsm = .waitMem1 ∧
      (later suspended [700, 100]).cr.intEn = false ∧ (later suspended [700, 100]).graphicsActive = true ∧
      (later suspended [700, 100]).memAvailable = true ∧ (later suspended [100]).memAvailable = false ∧
      (later suspended [0]).memAvailable = true) ∧
    ((at_ mono .rdw .waitDs1).cr.cmd = .rdw ∧ (at_ mono .rdw .waitDs1).fsm = .waitDs1 ∧
      (at_ mono .rdw .waitDs1).memAvailable = true) ∧
    cmdClass (at_ mono .wrw .waitDs0).cr.cmd ≠ .read := by decide

theorem witness_R5ToR7Results :
    answers (exec (.wr6 1) color) (fun _ => true) ∧ (at_ mono .wrw .waitDs2).fsm = .waitDs2 ∧
    (at_ mono .rdw .waitDs1).fsm = .waitDs1 ∧
    ((intOn (at_ mono .wrw .waitDs0)).fsm = .waitDs0 ∧
      (intOn (at_ mono .wrw .waitDs0)).io.lastCmd = some (intOn (at_ mono .wrw .waitDs0)).cr.cmd ∧
      cmdClass (intOn (at_ mono .wrw .waitDs0)).cr.cmd ≠ .read) := by decide

/-- Where a command starts its life at once: at rest in WAIT_DS_0, by the reset bit, by ending another transfer. -/
theorem witness_OneWordCommandResults :
    ([Cmd.nopc, .ldiox, .ldioy, .ldmc, .ldlp, .ldcm, .ldmap, .ldcy, .ldcx].all fun c =>
      color.accepts c noFlags && suspended.accepts c resetFlag && (at_ mono .rdw .waitDs1).accepts c intFlag) = true := by
  decide

theorem witness_ReadCommandResults :
    ([Cmd.rdw, .rdlp].all fun c => color.accepts c noFlags && (color.begun c noFlags).memAvailable) = true := by decide

theorem witness_WriteCommandResults :
    ([Cmd.wrw, .clrw].all fun c => color.accepts c intFlag && (color.begun c intFlag).memAvailable) = true := by decide

theorem witness_EndpointCommandResults :
    ([Cmd.ldep, .drawv, .fillr].all fun c =>
      (at_ mono .wrw .waitDs2).accepts c noFlags && ((at_ mono .wrw .waitDs2).begun c noFlags).memAvailable) = true := by
  decide

theorem witness_CommandsAreDeferred :
    ([Cmd.rdw, .rdlp, .wrw, .clrw, .drawv, .fillr].all fun c =>
      (blocked color).accepts c gfxFlag && !((blocked color).begun c gfxFlag).memAvailable) = true := by decide

/-- A write transfer at its first word; as many words as the memory holds are allowed. -/
theorem witness_WriteTransfer :
    (Inv (at_ color .wrw .waitDs2) ∧ (at_ color .wrw .waitDs2).fsm = .waitDs2 ∧ (at_ color .wrw .waitDs2).cr.cmd = .wrw ∧
      (at_ color .wrw .waitDs2).cr.intEn = false ∧ (at_ color .wrw .waitDs2).graphicsActive = false) ∧
    (List.replicate 49152 (0 : Word)).length ≤ color.cfg.nplanes * color.cfg.planeWords :=
  ⟨by decide, by rw [List.length_replicate]; decide⟩

theorem witness_LightPenCaptureResult :
    color.cr.lpSelftest = false ∧ (color.withCr { color.cr with lpSelftest := true }).cr.lpSelftest = true ∧
    answers (exec .lightPenCapture (color.withCr { color.cr with lpSelftest := true })) (fun t => t.lp.winX) := by decide

/-- A crossing inside the window and a miss, with and without interlace (V80, V81). -/
theorem witness_LpHitResults :
    color.cfg.lpHit = .reference ∧
    ((lpHitOf color.cfg 303 196 300 200 false).winYhi = true ∧ (lpHitOf color.cfg 303 196 300 200 false).winYlo = true ∧
      (lpHitOf color.cfg 303 196 300 200 false).winX = true) ∧
    (lpHitOf color.cfg 300 216 300 200 true).winYlo = true ∧ (lpHitOf color.cfg 500 100 300 200 false).winYhi = false ∧
    (lpHitOf color.cfg 500 100 300 200 false).winX = false ∧ (lpHitOf color.cfg 500 100 300 200 true).winYlo = false := by
  decide

/-- A row in progress with two words left, its columns full; and no row in progress. -/
theorem witness_DisplayListWordResults :
    (color.withAlpha { color.alpha with fetchLeft := 2, fetchCol := 80 }).inRow.alpha.fetchLeft = 2 ∧
    color.inRow.alpha.fetchLeft = 600 ∧ color.cfg.alphaGen = .b ∧ mono.cfg.alphaGen = .a := by decide

theorem witness_EndOfLineResult :
    (color.withAlpha { color.alpha with fetchCol := 80, fetchLeft := 1 }).alphaOk = true ∧ color.alphaOk = true := by decide

theorem witness_WordAloneIsFetchRowsWord : 1 ≤ color.cfg.fetchBudget := by decide

/-- One character and an EOL, the second at the address after the wrap. -/
theorem witness_FetchRowResult :
    color.cfg.alphaGen = .b ∧ (color.withAlpha { color.alpha with fetchPtr := 4095 }).alphaOk = true ∧
    [({ code := 0x41, attr := 0x40 } : TextCell)].length < color.cfg.fetchBudget ∧
    color.cfg.alphaAddr (4095 + 0) = 4095 ∧ color.cfg.alphaAddr (4095 + 1) = 0 ∧
    readWord [(0, 0x80), (8190, 0x20), (8191, 0x41)] (2 * 4095) = 0#1 ++ (0x40 : Byte) ++ (0x41 : BitVec 7) ∧
    (readWord [(0, 0x80), (8190, 0x20), (8191, 0x41)] (2 * 0)).extractLsb' 12 4 = 0b1000#4 := by decide

theorem witness_FrameEventResults : 24 < color.cfg.alphaRows ∧ 0 < color.cfg.alphaRows := by decide

theorem witness_ScanlineResult : 454 < color.cfg.screenH ∧ 719 < color.cfg.screenW := by decide

theorem witness_CompositionAndUnderrun :
    mono.cfg.policy = .exclusive ∧ accel.cfg.policy = .alphaZone ∧ color.cfg.policy = .overlay ∧
    (color.withAlpha { color.alpha with underrun := true }).alpha.underrun = true ∧ 719 < color.cfg.screenW ∧
    (color.alpha.row color.alpha.bufIdx).cells[719 / color.cfg.charW]? = some { code := 0x20, attr := 0 } := by decide

theorem witness_LayerResults :
    color.inRaster 79 0 = false ∧ (639 = 559 + color.cfg.gfxXOff ∧ 454 = 454 + color.cfg.gfxYOff ∧
      559 < color.cfg.gfxW ∧ 454 < color.cfg.gfxH) ∧ mono.cfg.nplanes = 1 ∧ (accel3.cfg.nplanes ≠ 1 ∧ accel3.cfg.variant ≠ .color) ∧
    (color.cfg.nplanes ≠ 1 ∧ color.cfg.variant = .color) ∧
    (7 : Fin 8).val = 4 * true.toNat + 2 * true.toNat + true.toNat ∧
    ¬(color.cfg.alphaYOff ≤ 39 ∧ 39 < color.cfg.alphaYOff + color.cfg.alphaRows * color.cfg.charH) ∧
    color.cfg.wf = true ∧ (24 < color.cfg.alphaRows ∧ 14 < color.cfg.charH ∧ 79 < color.cfg.alphaCols ∧ 8 < color.cfg.charW) ∧
    (414 = color.cfg.alphaYOff + 24 * color.cfg.charH + 14 ∧ 719 = 79 * color.cfg.charW + 8) ∧
    (color.alpha.row color.alpha.bufIdx).cells[79]? = some { code := 0x20, attr := 0 } := by decide

end Sys2Proof.Tests
end

section
/-! SUPPORT. The rows of Bitplane Memory (spec 40_bitplane_ops.md R91 to R94) on a plane the instance has: what each
answers, which bytes a write leaves alone, that writing a pixel's own value changes nothing; and the statements about
them. -/

namespace Sys2Proof.Machine

/-! ### What the rows answer -/

@[simp] theorem hasPlane_iff (s : State) (p : BitVec 2) : s.hasPlane p = true ↔ p.toNat < s.cfg.nplanes :=
  decide_eq_true_iff

/-- PlaneRead answers the word and returns it (R91). -/
theorem exec_planeRead_of_lt {s : State} {p : BitVec 2} (a : Nat) (hp : p.toNat < s.cfg.nplanes) :
    exec (.planeRead p a) s = .next (s.withRet (.word (s.planeRead p a))) :=
  if_pos ((hasPlane_iff s p).2 hp)

/-- PlaneWrite answers the state with the word written (R92). -/
theorem exec_planeWrite_of_lt {s : State} {p : BitVec 2} (a : Nat) (w : Word) (hp : p.toNat < s.cfg.nplanes) :
    exec (.planeWrite p a w) s = .next ((s.planeWrite p a w).withRet .none) :=
  if_pos ((hasPlane_iff s p).2 hp)

/-- read_pixel answers the pixel and returns it (R93). -/
theorem exec_readPixel_of_lt {s : State} {p : BitVec 2} (x : BitVec 10) (y : BitVec 9) (hp : p.toNat < s.cfg.nplanes) :
    exec (.readPixel p x y) s = .next (s.withRet (.bit (s.readPixel p x.toNat y.toNat))) :=
  if_pos ((hasPlane_iff s p).2 hp)

/-- write_pixel answers the state with the pixel written (R94). -/
theorem exec_writePixel_of_lt {s : State} {p : BitVec 2} (x : BitVec 10) (y : BitVec 9) (b : Bool)
    (hp : p.toNat < s.cfg.nplanes) :
    exec (.writePixel p x y b) s = .next ((s.writePixel p x.toNat y.toNat b).withRet .none) :=
  if_pos ((hasPlane_iff s p).2 hp)

@[simp] theorem planeRead_withRet (s : State) (r : Ret) (p : BitVec 2) (a : Nat) :
    (s.withRet r).planeRead p a = s.planeRead p a := rfl

@[simp] theorem readPixel_withRet (s : State) (r : Ret) (p : BitVec 2) (x y : Nat) :
    (s.withRet r).readPixel p x y = s.readPixel p x y := rfl

/-! ### Masked addresses -/

/-- Two addresses with the same masked address name the same word (R43). -/
theorem planeRead_congr {s : State} (p : BitVec 2) {a b : Nat} (h : planeAddr s.cfg a = planeAddr s.cfg b) :
    s.planeRead p a = s.planeRead p b := by
  simp only [State.planeRead, h]

/-- `ADDR_MASK` is one less than a power of two in a configuration that meets R4. -/
theorem addrMask_and_succ {c : Config} (h : c.wf = true) : c.addrMask &&& (c.addrMask + 1) = 0 := by
  simp only [Config.wf, Bool.and_eq_true, beq_iff_eq] at h
  tauto

/-- The address one past the plane wraps to word 0 (R43, R91). -/
theorem planeAddr_planeWords {c : Config} (h : c.wf = true) : planeAddr c c.planeWords = planeAddr c 0 := by
  rw [planeAddr, planeAddr, Config.planeWords, Nat.and_comm, addrMask_and_succ h, Nat.zero_and]

@[simp] theorem planeAddr_pixAddr (c : Config) (x y : Nat) : planeAddr c (pixAddr c x y) = pixAddr c x y :=
  planeAddr_planeAddr _ _

/-! ### What a write leaves alone -/

/-- PlaneWrite leaves every byte outside its word (R92). -/
theorem planeWrite_sameOutside (s : State) (p : BitVec 2) (a : Nat) (w : Word) :
    SameOutside s.mem (s.planeWrite p a w).mem (wordKeys s.cfg p a) := by
  intro k hk
  simp only [wordKeys, List.mem_cons, List.not_mem_nil, or_false, not_or] at hk
  exact readByte_writeWord_other _ _ _ _ hk.1 hk.2

/-- write_pixel leaves every byte outside the pixel's word (R94). -/
theorem writePixel_sameOutside (s : State) (p : BitVec 2) (x y : Nat) (b : Bool) :
    SameOutside s.mem (s.writePixel p x y b).mem (wordKeys s.cfg p (pixAddr s.cfg x y)) := by
  cases b <;> exact planeWrite_sameOutside s p _ _

/-- Writing the word that is already there changes nothing. -/
theorem planeWrite_planeRead {s : State} (p : BitVec 2) (a : Nat) (h : Memory.wf s.mem = true) :
    s.planeWrite p a (s.planeRead p a) = s := by
  rw [planeWrite_eq, planeWrite_mem, State.planeRead, writeWord_readWord _ h, State.withMem_self]

/-- Setting a pixel's bit that is set leaves the word as it was. -/
theorem or_pixMask_of_getLsbD {w : Word} {x : Nat} (h : w.getLsbD (15 - x % 16) = true) : w ||| pixMask x = w := by
  rw [pixMask_eq_twoPow]
  refine BitVec.eq_of_getLsbD_eq fun i _ => ?_
  by_cases hi : 15 - x % 16 = i
  · subst hi; simp [h]
  · simp [BitVec.getLsbD_twoPow, hi]

/-- Clearing a pixel's bit that is clear leaves the word as it was. -/
theorem and_not_pixMask_of_getLsbD {w : Word} {x : Nat} (h : w.getLsbD (15 - x % 16) = false) :
    w &&& ~~~pixMask x = w := by
  rw [pixMask_eq_twoPow]
  refine BitVec.eq_of_getLsbD_eq fun i hw => ?_
  by_cases hi : 15 - x % 16 = i
  · subst hi; simp [h]
  · simp [hw, Ne.symm hi]

/-- Writing the value a pixel already has changes nothing (R94). -/
theorem writePixel_readPixel {s : State} (p : BitVec 2) (x y : Nat) (h : Memory.wf s.mem = true) :
    s.writePixel p x y (s.readPixel p x y) = s := by
  generalize hb : s.readPixel p x y = b
  rw [readPixel_eq_getLsbD] at hb
  cases b with
  | false =>
    simp only [State.writePixel, Bool.false_eq_true, if_false, and_not_pixMask_of_getLsbD hb,
      planeWrite_planeRead _ _ h]
  | true => simp only [State.writePixel, if_true, or_pixMask_of_getLsbD hb, planeWrite_planeRead _ _ h]

/-! ### The statements -/

/-- Settles O18: the masked address is what is looked up, and one past the plane it is that of word 0. -/
theorem planeReadResult : Obligations.PlaneReadResult := fun p a s hp =>
  ⟨exec_planeRead_of_lt a hp, planeRead_congr p (planeAddr_planeAddr s.cfg a).symm,
    fun hwf => planeRead_congr p (planeAddr_planeWords hwf)⟩

/-- Settles O19, by what every word reads as after PlaneWrite. -/
theorem planeWriteResult : Obligations.PlaneWriteResult := by
  intro p a w s hp
  refine ⟨_, exec_planeWrite_of_lt a w hp, rfl, ?written, fun q b hne => ?others, planeWrite_sameOutside s p a w⟩
  case written => rw [planeRead_withRet, planeRead_planeWrite, if_pos ⟨rfl, rfl⟩]
  case others => rw [planeRead_withRet, planeRead_planeWrite, if_neg hne]

/-- Settles O20: the rule's mask is `pixMask`, for coordinates anywhere. -/
theorem readPixelResult : Obligations.ReadPixelResult := fun _ x y _ hp => exec_readPixel_of_lt x y hp

/-- Settles O21, by what every word and every pixel reads as after write_pixel. -/
theorem writePixelResult : Obligations.WritePixelResult := by
  intro p x y b s hp
  have hpix (q : BitVec 2) (x' y' : Nat) := readPixel_writePixel s p q x.toNat y.toNat x' y' b
  refine ⟨_, exec_writePixel_of_lt x y b hp, ?memoryOnly, ?word, ?pixel, fun q x' y' hne => ?others,
    writePixel_sameOutside s p x.toNat y.toNat b, fun hwf hb => ?sameValue⟩
  case memoryOnly => rw [writePixel_eq]; rfl
  case word => rw [planeRead_withRet, planeRead_writePixel, if_pos ⟨rfl, planeAddr_pixAddr ..⟩]
  case pixel => rw [readPixel_withRet, Bool.eq_iff_iff, hpix, if_pos ⟨rfl, rfl, rfl⟩]
  case others => rw [readPixel_withRet, Bool.eq_iff_iff, hpix, if_neg hne]
  case sameValue => rw [State.withRet_mem, ← hb, writePixel_readPixel p _ _ hwf]

end Sys2Proof.Machine
end

section
/-! SUPPORT. The rows of the Command Protocol State Machine (spec 43_command_fsm.md) that wait for a strobe, and the
statement about them. -/

namespace Sys2Proof.Machine

/-- A strobe in WAIT_DS_1 (R151). -/
theorem fsmRow_waitDs1_strobe {s : State} {trig : Bool} (hf : s.fsm = .waitDs1) :
    fsmRow true trig s = .go false trig (s.withFsm .waitMem0) := by
  simp [fsmRow, hf, rowWaitDs1]

/-- Settles O34, by what each of the two rows does with a strobe and without one. -/
theorem strobeRows : Obligations.StrobeRows := by
  intro ds trig s
  cases ds with
  | false => exact ⟨fsmRow_waitDs1_rest, fsmRow_waitDs2_rest⟩
  | true => exact ⟨fsmRow_waitDs1_strobe, fsmRow_waitDs2_strobe⟩

end Sys2Proof.Machine
end

section
/-! SUPPORT. Decoding what the encoder writes, wire by wire, and encoding what the decoder reads (spec 30_encoding.md R61
to R73; entry 6); and the statements about them. -/

namespace Sys2Proof

/-! ### Operand words (entry 6) -/

@[simp] theorem natFits_iff (n : Nat) : natFits n = true ↔ n < 65536 := decide_eq_true_iff

theorem bmod_of_fits {n : Int} (h : intFits n = true) : n.bmod 65536 = n := by
  simp only [intFits, Bool.and_eq_true, decide_eq_true_eq] at h
  exact Int.bmod_eq_of_le (by omega) (by omega)

@[simp] theorem wordOfBool_bit (b : Bool) : (wordOfBool b)[0] = b := by cases b <;> rfl

/-! ### What is encoded is decoded -/

theorem decodeBus_bytes {i : Instr} (h : i.channel = .bus) : decodeBus i.bytes = .ok i := by
  cases i <;> first
    | (cases h; done)
    | simp [Instr.bytes, decodeBus]

theorem decodeCmd_bytes {i : Instr} (h : i.channel = .cmd) : decodeCmd (toWords i.bytes) = .ok i := by
  cases i <;> first
    | (cases h; done)
    | simp [Instr.bytes, decodeCmd]

/-- A display-list word is built from the fields the decoder takes from it (R69 to R73). -/
theorem decodeAlpha_bytes {g : AlphaGen} {i : Instr} (h : i.channel = .alpha g) :
    decodeAlpha g (toWords i.bytes) = .ok i := by
  cases i <;> first
    | (cases h; done)
    | (cases h
       simp only [Instr.bytes, toWords_fromWords, decodeAlpha, decodeAlphaWord, BitVec.getLsbD_append,
         BitVec.extractLsb'_append_eq_ite]
       simp)

/-- An operand that fits its word is what the decoder takes from the word. -/
theorem decodeOp_bytes {i : Instr} (h : i.channel = .op) (hw : i.WellFormed) : decodeOp i.bytes = .ok i := by
  cases i <;> first
    | (cases h; done)
    | (simp only [Instr.WellFormed, Instr.wellFormed, Bool.and_eq_true, natFits_iff] at hw
       simp [Instr.bytes, decodeOp, hw, bmod_of_fits])

theorem decodeRaw_encode {i : Instr} (hw : i.WellFormed) : decodeRaw (encode i).1 (encode i).2 = .ok i := by
  unfold decodeRaw encode
  split
  · next h => exact decodeBus_bytes h
  · next h => exact decodeCmd_bytes h
  · next h => exact decodeAlpha_bytes h
  · next h => exact decodeOp_bytes h hw

/-- What the wire says and is well formed is what the decoder answers. -/
theorem decode_of_raw {ch : Channel} {bs : List Byte} {i : Instr} (h : decodeRaw ch bs = .ok i) (hw : i.WellFormed) :
    decode ch bs = .ok i := by
  unfold decode
  rw [h]
  exact if_pos hw

/-- Settles O2, wire by wire. -/
theorem decodeOfEncode : Obligations.DecodeOfEncode := fun _ hw => decode_of_raw (decodeRaw_encode hw) hw

/-- Settles O1: each of the sample deliveries is the encoding of what it stands for. -/
theorem sampleWordsDecode : Obligations.SampleWordsDecode := by
  have h (i : Instr) (hw : i.WellFormed) := decodeOfEncode i hw
  exact ⟨h .rd4 rfl, h (.wr4 0x1234) rfl, h (.wr5 0x0022) rfl, h (.wrw (unpackFlags 0x0022) 0x1234) rfl, h (.alphaNewaddr 0 0x200) rfl,
    h (.alphaCharB 0 0x48) rfl, h (.alphaEol 0) rfl, h (.alphaEscA 0x04 0) rfl, h (.alphaCharA 0 0x41) rfl⟩

/-! ### What is decoded is encoded -/

theorem packR5W_unpack (w : Word) : packR5W (unpackCmd w) (unpackFlags w) = w := by
  refine BitVec.eq_of_getLsbD_eq fun i hi => ?_
  rw [packR5W_getLsbD, unpackCmd, code_ofCode]
  simp only [unpackFlags, BitVec.getLsbD_extractLsb']
  by_cases h : i < 12
  · interval_cases i <;> simp
  · have e : 12 + (i - 12) = i := by omega
    repeat rw [if_neg (by omega)]
    simp [e, show i - 12 < 4 by omega]

/-- A word is its low bits behind what agrees with its high ones. -/
theorem append_extractLsb'_of_bits {m n : Nat} {b : BitVec m} {w : BitVec (m + n)}
    (h : ∀ i < m, b.getLsbD i = w.getLsbD (n + i)) : b ++ w.extractLsb' 0 n = w := by
  refine BitVec.eq_of_getLsbD_eq fun i hi => ?_
  rw [BitVec.getLsbD_append, BitVec.getLsbD_extractLsb']
  split
  · next hn => simp [hn]
  · rw [h _ (by omega), Nat.add_sub_cancel' (by omega)]

theorem append_append_extractLsb'_of_bits {k m n : Nat} {b : BitVec k} {w : BitVec (k + m + n)}
    (h : ∀ i < k, b.getLsbD i = w.getLsbD (n + m + i)) : b ++ w.extractLsb' n m ++ w.extractLsb' 0 n = w := by
  refine append_extractLsb'_of_bits fun i hi => ?_
  rw [BitVec.getLsbD_append, BitVec.getLsbD_extractLsb']
  split
  · next hm => simp [hm]
  · rw [h _ (by omega)]; congr 1; omega

/-- No bit of a display-list word is dropped, in any class: the bits before its operands are those that select the class
(R69 to R73). -/
theorem bytes_decodeAlphaWord (g : AlphaGen) (w : Word) : (decodeAlphaWord g w).bytes = fromWords [w] := by
  unfold decodeAlphaWord
  repeat' split
  all_goals
    refine congrArg (fun v => fromWords [v]) ?_
    first
      | refine append_append_extractLsb'_of_bits fun i hi => ?_
      | refine append_extractLsb'_of_bits fun i hi => ?_
    interval_cases i <;> simp_all

/-- Settles O3, bit by bit. -/
theorem encodeOfDecode : Obligations.EncodeOfDecode := ⟨packR5W_unpack, bytes_decodeAlphaWord⟩
end Sys2Proof
end

section
/-! SUPPORT. What the instructions of one agent can do: the host's are host accesses one after another, the display list's
are words of the row in progress; which groups each agent leaves alone, that every instruction keeps the invariant; and
the statements that speak of every instruction. -/

namespace Sys2Proof.Machine

/-! ### The host's side -/

/-- What host accesses lead to (R131 to R137). -/
inductive HostReach (s : State) : State → Prop
  | refl : HostReach s s
  | write4 {t : State} (v : Word) (h : HostReach s t) : HostReach s (t.hostWrite4 v)
  | read4 {t : State} (h : HostReach s t) : HostReach s t.hostRead4
  | write5 {t : State} (v : Word) (h : HostReach s t) : HostReach s (t.hostWrite5 v)
  | write6 {t : State} (v : Word) (h : HostReach s t) : HostReach s (t.hostWrite6 v)
  | read6 {t : State} (h : HostReach s t) : HostReach s t.hostRead6
  | write7 {t : State} (h : HostReach s t) : HostReach s t.hostWrite7

theorem HostReach.feed {s t : State} (h : HostReach s t) (d : Word) : HostReach s (t.feed d) := by
  unfold State.feed
  split
  · exact (h.write4 d).write7
  · exact h.write4 d

theorem HostReach.feeds {s t : State} (h : HostReach s t) (ds : List Word) : HostReach s (ds.foldl State.feed t) := by
  induction ds generalizing t with
  | nil => exact h
  | cons d ds ih => exact ih (h.feed d)

/-- A command is its selection and its data words, one after another (R170; entry 3). -/
theorem exec_cmd {i : Instr} (hi : i.channel = .cmd) (s : State) :
    ∃ (c : Cmd) (f : CmdFlags) (ds : List Word), exec i s = .next ((ds.foldl State.feed (s.select c f)).withRet .none) := by
  cases i with
  | nopc f d => exact ⟨.nopc, f, [d], rfl⟩
  | rdw f => exact ⟨.rdw, f, [], rfl⟩
  | wrw f d => exact ⟨.wrw, f, [d], rfl⟩
  | clrw f d => exact ⟨.clrw, f, [d], rfl⟩
  | ldep f x y => exact ⟨.ldep, f, [x, y], rfl⟩
  | drawv f x y => exact ⟨.drawv, f, [x, y], rfl⟩
  | fillr f x y => exact ⟨.fillr, f, [x, y], rfl⟩
  | rdlp f => exact ⟨.rdlp, f, [], rfl⟩
  | ldiox f d => exact ⟨.ldiox, f, [d], rfl⟩
  | ldioy f d => exact ⟨.ldioy, f, [d], rfl⟩
  | ldmc f d => exact ⟨.ldmc, f, [d], rfl⟩
  | ldlp f d => exact ⟨.ldlp, f, [d], rfl⟩
  | ldcm f d => exact ⟨.ldcm, f, [d], rfl⟩
  | ldmap f d => exact ⟨.ldmap, f, [d], rfl⟩
  | ldcy f d => exact ⟨.ldcy, f, [d], rfl⟩
  | ldcx f d => exact ⟨.ldcx, f, [d], rfl⟩
  | _ => cases hi

/-- What the host does comes to host accesses and a returned value. -/
theorem exec_host {i : Instr} (hi : i.isHost = true) (s : State) :
    ∃ u r, HostReach s u ∧ exec i s = .next (u.withRet r) := by
  simp only [Instr.isHost, Bool.or_eq_true, decide_eq_true_eq] at hi
  rcases hi with hb | hc
  · cases i with
    | rd4 => exact ⟨_, _, HostReach.refl.read4, rfl⟩
    | rd5 => exact ⟨_, _, .refl, rfl⟩
    | rd6 => exact ⟨_, _, HostReach.refl.read6, rfl⟩
    | rd7 => exact ⟨_, _, .refl, rfl⟩
    | wr4 v => exact ⟨_, _, HostReach.refl.write4 v, rfl⟩
    | wr5 v => exact ⟨_, _, HostReach.refl.write5 v, rfl⟩
    | wr6 v => exact ⟨_, _, HostReach.refl.write6 v, rfl⟩
    | wr7 v => exact ⟨_, _, HostReach.refl.write7, rfl⟩
    | _ => cases hb
  · obtain ⟨c, f, ds, e⟩ := exec_cmd hc s
    exact ⟨_, _, (HostReach.refl.write5 _).feeds ds, e⟩

/-- What host accesses leave alone: the display's groups, the environment but for the positions of the beam taken, and of
the light pen all but the selector and `lp_int`. -/
structure HostSide (s t : State) : Prop where
  display : s.SameDisplay t
  world : s.SameWorld t
  lp : { t.lp with regSel := s.lp.regSel, int := s.lp.int } = s.lp

theorem HostSide.refl (s : State) : HostSide s s :=
  ⟨⟨rfl, rfl, rfl⟩, ⟨rfl, rfl, rfl, rfl, List.suffix_refl _⟩, rfl⟩

theorem HostSide.trans {s t u : State} (h : HostSide s t) (k : HostSide t u) : HostSide s u where
  display := ⟨k.display.1.trans h.display.1, k.display.2.1.trans h.display.2.1, k.display.2.2.trans h.display.2.2⟩
  world := by
    obtain ⟨hc, hi, hb, hk, hs⟩ := h.world
    obtain ⟨kc, ki, kb, kk, ks⟩ := k.world
    exact ⟨kc.trans hc, ki.trans hi, kb.trans hb, kk.trans hk, ks.trans hs⟩
  lp := by rw [← h.lp, ← k.lp]

/-- A run of the FSM, and what recomputing the signals or returning a value adds to it, keeps to the host's side. -/
theorem RowFrame.hostSide {s t : State} (h : RowFrame s t) : HostSide s t :=
  ⟨⟨h.frameCnt, h.alpha, h.hostReads⟩, ⟨h.cfg, h.inputs, h.inbox, h.clock, h.beams⟩, h.lp⟩

theorem runFsm_hostSide (s : State) (ds trig : Bool) : HostSide s (s.runFsm ds trig) := (runFsm_frame ds trig s).hostSide

theorem drive_hostSide (s : State) (ds trig : Bool) : HostSide s (s.drive ds trig) :=
  have h := runFsm_hostSide s ds trig
  ⟨h.display, h.world, h.lp⟩

theorem HostSide.withRet {s t : State} (h : HostSide s t) (r : Ret) : HostSide s (t.withRet r) :=
  ⟨h.display, h.world, h.lp⟩

theorem hostWrite5_hostSide (s : State) (v : Word) : HostSide s (s.hostWrite5 v) := by
  have h : HostSide s ((s.storeR5 v).withFsm (fsmAfterR5 s.fsm s.cr.cmd (cmdRegOf v).cmd (resetBitOf v))) := by
    refine ⟨⟨rfl, rfl, rfl⟩, ⟨rfl, rfl, rfl, rfl, List.suffix_refl _⟩, ?_⟩
    simp only [State.storeR5, State.withFsm_lp, State.withLp_lp]
    split <;> rfl
  exact h.trans (drive_hostSide _ _ _)

theorem withDataW_hostSide (s : State) (v : Word) : HostSide s (s.withDataW v) := ⟨(HostSide.refl s).1, (HostSide.refl s).2, rfl⟩

theorem terminalCount_hostSide (s : State) : HostSide s s.terminalCount := ⟨(HostSide.refl s).1, (HostSide.refl s).2, rfl⟩

theorem HostReach.hostSide {s t : State} (h : HostReach s t) : HostSide s t := by
  induction h with
  | refl => exact .refl s
  | write4 v _ ih => exact (ih.trans (withDataW_hostSide _ v)).trans (drive_hostSide _ _ _)
  | read4 _ ih => exact ih.trans (drive_hostSide _ _ _)
  | write5 v _ ih => exact ih.trans (hostWrite5_hostSide _ v)
  | write6 v _ ih =>
    exact ((ih.trans (terminalCount_hostSide _)).trans (withDataW_hostSide _ v)).trans (drive_hostSide _ _ _)
  | read6 _ ih => exact (ih.trans (terminalCount_hostSide _)).trans (drive_hostSide _ _ _)
  | write7 _ ih => exact ih.trans (drive_hostSide _ _ _)

theorem drive_fresh (s : State) (ds trig : Bool) : (s.drive ds trig).Fresh := rfl

/-- Every host access recomputes the signals (R130, R160). -/
theorem HostReach.fresh {s t : State} (h : HostReach s t) (hs : s.Fresh) : t.Fresh := by
  cases h with
  | refl => exact hs
  | _ => exact drive_fresh ..

theorem HostReach.inv {s t : State} (h : HostReach s t) (hs : Inv s) : Inv t := by
  induction h with
  | refl => exact hs
  | write4 v _ ih => exact ih.hostWrite4 v
  | read4 _ ih => exact ih.hostRead4
  | write5 v _ ih => exact ih.hostWrite5 v
  | write6 v _ ih => exact ih.hostWrite6 v
  | read6 _ ih => exact ih.hostRead6
  | write7 _ ih => exact ih.hostWrite7

/-! ### The display's side -/

/-- A display-list word run alone is a word of the row in progress, opened where there is none (entries 4, 21). -/
theorem exec_alphaWord {i : Instr} {g : AlphaGen} (hi : i.channel = .alpha g) (s : State) :
    ∃ j, exec i s = .next ((s.inRow.takeWord s.hidden j).1.withRet .none) := by
  cases i with
  | alphaNewaddr m a => exact ⟨.alphaNewaddr m a, rfl⟩
  | alphaEol z => exact ⟨.alphaEol z, rfl⟩
  | alphaNop z => exact ⟨.alphaNop z, rfl⟩
  | alphaAttrset z a => exact ⟨.alphaAttrset z a, rfl⟩
  | alphaRsvd z => exact ⟨.alphaRsvd z, rfl⟩
  | alphaCharB a c =>
    cases hg : s.cfg.alphaGen
    · cases ha : a.getLsbD 7
      · exact ⟨.alphaCharA 0 c, by simp only [exec, execAlphaCharB, hg, ha, State.takeWord]; rfl⟩
      · exact ⟨.alphaEscA (a.setWidth 7) 0, by simp only [exec, execAlphaCharB, hg, ha, State.takeWord]; rfl⟩
    · exact ⟨.alphaCharB a c, by simp only [exec, execAlphaCharB, hg, State.takeWord]⟩
  | alphaCharA z c =>
    cases hg : s.cfg.alphaGen
    · exact ⟨.alphaCharA z c, by simp only [exec, execAlphaCharA, hg, State.takeWord]⟩
    · exact ⟨.alphaCharB (0#1 ++ z) c, by simp only [exec, execAlphaCharA, hg, State.takeWord]⟩
  | alphaEscA a z =>
    cases hg : s.cfg.alphaGen
    · exact ⟨.alphaEscA a z, by simp only [exec, execAlphaEscA, hg, State.takeWord]⟩
    · exact ⟨.alphaCharB (1#1 ++ a) z, by simp only [exec, execAlphaEscA, hg, State.takeWord]⟩
  | _ => cases hi

/-- A state with the groups replaced that the display's operations write: the fetch state, the trace, the addresses read,
the frame counter and the light pen. -/
def State.withDisplay (s : State) (a : Alpha) (e : List ErrRecord) (r : List Nat) (n : BitVec 6) (l : LightPen) : State :=
  { s with alpha := a, errlog := e, hostReads := r, frameCnt := n, lp := l }

/-- A state is another but for what the display's operations write; and its fetch state is in range if the other's is. -/
structure DisplaySide (s t : State) : Prop where
  frame : t = s.withDisplay t.alpha t.errlog t.hostReads t.frameCnt t.lp
  ok : s.FetchOk → t.FetchOk

theorem DisplaySide.refl (s : State) : DisplaySide s s := ⟨rfl, id⟩

theorem DisplaySide.trans {s t u : State} (h : DisplaySide s t) (k : DisplaySide t u) : DisplaySide s u where
  frame :=
    calc u = t.withDisplay u.alpha u.errlog u.hostReads u.frameCnt u.lp := k.frame
      _ = s.withDisplay u.alpha u.errlog u.hostReads u.frameCnt u.lp := by rw [h.frame]; rfl
  ok := k.ok ∘ h.ok

theorem FetchFrame.displaySide {s t : State} (h : FetchFrame s t) (ok : s.FetchOk → t.FetchOk) : DisplaySide s t where
  frame := by
    have e : t = ((s.withAlpha t.alpha).withErrlog t.errlog).withHostReads t.hostReads := h
    have hn : t.frameCnt = s.frameCnt := by rw [e]; rfl
    have hl : t.lp = s.lp := by rw [e]; rfl
    rw [hn, hl]; exact e
  ok := ok

theorem fetchRow_displaySide (s : State) (b : Bool) : DisplaySide s (s.fetchRow b) :=
  (fetchRow_fetch s b).displaySide (fetchRow_ok · b)

theorem alphaFrameStart_displaySide (s : State) : DisplaySide s s.alphaFrameStart :=
  (alphaFrameStart_fetch s).displaySide alphaFrameStart_ok

theorem vblank_displaySide (s : State) : DisplaySide s s.vblank :=
  have h : DisplaySide s ((s.withFrameCnt (s.frameCnt + 1)).lightPenCapture) :=
    ⟨rfl, id⟩
  h.trans (alphaFrameStart_displaySide _)

/-- What a display operation answers, where it answers at all. -/
theorem exec_display {i : Instr} (hi : i.isDisplay = true) {s t : State} (h : exec i s = .next t) :
    ∃ u r, DisplaySide s u ∧ t = u.withRet r := by
  have ret {u : State} {r : Ret} (hu : DisplaySide s u) (e : Host.Outcome.next (u.withRet r) = exec i s) :
      ∃ u r, DisplaySide s u ∧ t = u.withRet r := ⟨u, r, hu, (Host.Outcome.next.inj (e.trans h)).symm⟩
  have word {g : AlphaGen} (hg : i.channel = .alpha g) : ∃ u r, DisplaySide s u ∧ t = u.withRet r := by
    obtain ⟨j, e⟩ := exec_alphaWord hg s
    exact ret (((inRow_fetch s).trans (takeWord_fetch _ _ j)).displaySide fun ok => takeWord_ok (inRow_ok ok) _ j) e.symm
  cases i with
  | vblank => exact ret (vblank_displaySide s) rfl
  | alphaFrameStart => exact ret (alphaFrameStart_displaySide s) rfl
  | rowStart r =>
    by_cases hr : r < s.cfg.alphaRows
    · exact ret ((rowStart_fetch s r).displaySide (rowStart_ok · r)) (if_pos hr).symm
    · cases h.symm.trans (if_neg hr)
  | fetchRow b => exact ret (fetchRow_displaySide s b) rfl
  | scanline n =>
    by_cases hn : n < s.cfg.screenH
    · exact ret (.refl s) (if_pos hn).symm
    · cases h.symm.trans (if_neg hn)
  | gfx x y => exact ret (.refl s) rfl
  | alphaOn x y => exact ret (.refl s) rfl
  | isCursor x y => exact ret (.refl s) rfl
  | lightPenCapture => exact ret (u := s.lightPenCapture) ⟨rfl, id⟩ rfl
  | lpHit px py cx cy il => exact ret (.refl s) rfl
  | selfTestHits cx cy => exact ret (.refl s) rfl
  | alphaCharA z c => exact word rfl
  | alphaEscA a z => exact word rfl
  | alphaNewaddr m a => exact word rfl
  | alphaEol z => exact word rfl
  | alphaNop z => exact word rfl
  | alphaAttrset z a => exact word rfl
  | alphaRsvd z => exact word rfl
  | alphaCharB a c => exact word rfl
  | _ => cases hi

theorem withDisplay_inv {s : State} (hs : Inv s) {a : Alpha} (ha : a.InRange s.cfg) (e : List ErrRecord) (r : List Nat)
    (n : BitVec 6) (l : LightPen) : Inv (s.withDisplay a e r n l) := by
  obtain ⟨hk, hr, hl, -, hg, hw⟩ := (inv_iff s).1 hs
  exact (inv_iff _).2 ⟨⟨hk.io, hk.pat, hk.coords, hk.planes, hk.mem, hk.wake, hk.last⟩, hr, hl, ha, hg, hw⟩

theorem DisplaySide.inv {s t : State} (h : DisplaySide s t) (hs : Inv s) : Inv t := by
  have ha : t.alpha.InRange t.cfg := h.ok hs.fetchOk
  rw [show t.cfg = s.cfg by rw [h.frame]; rfl] at ha
  rw [h.frame]
  exact withDisplay_inv hs ha _ _ _ _

/-! ### The resets -/

/-- The state after the RESET row and the class test that follows it (R140, R143). -/
def State.restarted (s : State) : State := (s.cancelWake.withIo { s.io with lastCmd := none }).noteCommand

/-- A run without tokens from RESET (R140, R143). -/
theorem runFsm_of_reset {s : State} (hf : s.fsm = .reset) :
    s.runFsm false false = match cmdClass s.cr.cmd with
      | .read => runRows 7 false false (s.restarted.withFsm .waitMem0)
      | _ => s.restarted.withFsm .waitDs0 := by
  have hr : fsmRow false false s = .go false false ((s.cancelWake.withIo { s.io with lastCmd := none }).withFsm .waitDs0) := by
    simp only [fsmRow, hf]; rfl
  rw [State.runFsm, rowLimit, runRows_go hr]
  have hc : ((s.cancelWake.withIo { s.io with lastCmd := none }).withFsm .waitDs0).cr = s.cr := rfl
  simp only [runRows, fsmRow, State.withFsm_fsm, rowWaitDs0, hc, noteCommand_withFsm]
  cases cmdClass s.cr.cmd <;> rfl

/-- A run without a strobe from WAIT_MEM_0 under a READ command (R150). -/
theorem runRows_waitMem0 {t : State} (n : Nat) (trig : Bool) (hf : t.fsm = .waitMem0) (hc : cmdClass t.cr.cmd = .read) :
    runRows (n + 2) false trig t =
      if t.memAvailable then
        (if t.cr.cmd = .rdw then t.granted.readWordAtCursor else t.granted.readHitWord).withFsm .waitDs1
      else t.suspend := by
  have hc' : t.cr.cmd = .rdw ∨ t.cr.cmd = .rdlp := by
    revert hc; cases t.cr.cmd <;> simp [cmdClass]
  cases ha : t.memAvailable
  · rw [runRows_rest (fsmRow_suspends (by rw [hf]; rfl) ha)]; rfl
  · rw [runRows_go (fsmRow_waitMem0 hf ha hc'), runRows_rest (fsmRow_waitDs1_rest rfl)]; rfl

@[simp] theorem restarted_mem (s : State) : s.restarted.mem = s.mem := noteCommand_mem _

/-- A run without tokens from RESET writes no memory. -/
theorem runFsm_of_reset_mem {s : State} (hf : s.fsm = .reset) : (s.runFsm false false).mem = s.mem := by
  have hcr : s.restarted.cr = s.cr := noteCommand_cr _
  rw [runFsm_of_reset hf]
  cases hc : cmdClass s.cr.cmd with
  | read =>
    rw [runRows_waitMem0 5 false rfl (by rw [State.withFsm_cr, hcr, hc])]
    split_ifs <;> exact restarted_mem s
  | _ => exact restarted_mem s

theorem hostWrite5_mem_of_reset {v : Word} (s : State) (hv : resetBitOf v = true) : (s.hostWrite5 v).mem = s.mem := by
  unfold State.hostWrite5
  rw [hv]
  exact runFsm_of_reset_mem rfl

/-- The registers as a controller reset leaves them are good, whatever they were (R310). -/
theorem resetRegisters_kept {s : State} (hm : s.memOk = true) : FsmKept s.resetRegisters where
  io := ⟨nplanes_pos _, Nat.zero_and _, fun _ => rfl⟩
  pat := rfl
  coords := by simp [State.coordsOk, State.resetRegisters, Endpoints.atReset, Cursor.atReset]
  planes := by
    simp [State.planesOk, State.resetRegisters, PlaneCtl.atReset, musicAtReset, Config.musicEntry, Nat.mod_lt]
  mem := hm
  wake := fun h => nomatch h
  last := fun _ => .inl rfl

theorem resetRegisters_fetchOk (s : State) : s.resetRegisters.FetchOk where
  row0 := List.length_replicate
  row1 := List.length_replicate
  col := Nat.zero_le _
  base := alphaAddr_alphaAddr _ _
  ptr := alphaAddr_alphaAddr _ _

theorem controllerReset_inv {s : State} (hm : s.memOk = true) (hg : s.givenOk = true) : Inv s.controllerReset :=
  drive_inv _ _ (resetRegisters_kept hm) (resetRegisters_fetchOk s) hg

/-! ### Every instruction -/

/-- What an instruction can do, by the agent that runs it. -/
inductive Did (s : State) (i : Instr) : State → Prop
  | host {u : State} (r : Ret) (hi : i.isHost = true) (h : HostReach s u) : Did s i (u.withRet r)
  | display {u : State} (r : Ret) (hi : i.isDisplay = true) (h : DisplaySide s u) : Did s i (u.withRet r)
  | returned (r : Ret) : Did s i (s.withRet r)
  | wrote (m : Memory) (hi : i.neverWritesMemory = false) (ok : s.memOk = true → (s.withMem m).memOk = true) :
      Did s i ((s.withMem m).withRet .none)
  | drew (m : Memory) (n : Nat) (hi : i.neverWritesMemory = false) (ok : s.memOk = true → (s.withMem m).memOk = true) :
      Did s i (((s.withMem m).withPat (Pattern.advance^[n] s.pat)).withRet .none)
  | dashed : Did s i (s.dashAdvance.withRet .none)
  | asked (g : Bool) (r : Ret) : Did s i ((s.beamRead g).withRet r)
  | suspended (hm : s.fsm.isMemWait = true) : Did s i (s.suspend.withRet .none)
  | cancelled : Did s i (s.cancelWake.withRet .none)
  | woken (hi : i = .wake) : Did s i (((s.withWakePending false).drive false false).withRet .none)
  | ran (ds trig : Bool) (hi : i = .runFsm ds trig) : Did s i ((s.runFsm ds trig).withRet .none)
  | loaded : Did s i (s.loadIoCursor.withRet .none)
  | advanced : Did s i (s.advanceIoCursor.withRet .none)
  | recomputed : Did s i (s.recompute.withRet .none)
  | reset (hi : i = .controllerReset) : Did s i (s.controllerReset.withRet .none)
  | fsmReset (v : Word) (hi : i = .fsmReset v) : Did s i ((s.hostWrite5 (v ||| 0x0080)).withRet .none)

theorem Did.of_host {i : Instr} (hi : i.isHost = true) {s t : State} (h : exec i s = .next t) : Did s i t := by
  obtain ⟨u, r, hu, e⟩ := exec_host hi s
  exact Host.Outcome.next.inj (e.symm.trans h) ▸ .host r hi hu

theorem Did.of_display {i : Instr} (hi : i.isDisplay = true) {s t : State} (h : exec i s = .next t) : Did s i t := by
  obtain ⟨u, r, hu, rfl⟩ := exec_display hi h
  exact .display r hi hu

/-- What an instruction that answers has done. -/
theorem exec_did {i : Instr} {s t : State} (h : exec i s = .next t) : Did s i t := by
  have did {u : State} (e : Host.Outcome.next u = exec i s) (hu : Did s i u) : Did s i t :=
    Host.Outcome.next.inj (e.trans h) ▸ hu
  have plane {p : BitVec 2} {u : State} (e : exec i s = if s.hasPlane p then .next u else .fault .noSuchPlane)
      (hu : p.toNat < s.cfg.nplanes → Did s i u) : Did s i t := by
    rw [e] at h
    split at h
    · next hp => exact Host.Outcome.next.inj h ▸ hu ((hasPlane_iff s p).1 hp)
    · cases h
  by_cases hh : i.isHost = true
  · exact .of_host hh h
  by_cases hd : i.isDisplay = true
  · exact .of_display hd h
  cases i with
  | pixAddr x y => exact did rfl (.returned _)
  | planeRead p a => exact plane rfl fun _ => .returned _
  | planeWrite p a w => exact plane rfl fun hp => .wrote _ rfl fun hm => planeWrite_memOk a w hp hm
  | readPixel p x y => exact plane rfl fun _ => .returned _
  | writePixel p x y b =>
    refine plane rfl fun hp => ?_
    rw [writePixel_eq]
    exact .wrote _ rfl fun hm => writePixel_eq s p _ _ b ▸ writePixel_memOk _ _ b hp hm
  | timeUntilAvailable g => exact did rfl (.asked _ _)
  | defer =>
    simp only [exec, execDefer] at h
    split at h
    · next hm =>
      rw [← Host.Outcome.next.inj h]
      split
      · exact .asked _ _
      · exact .suspended hm
    · exact Host.Outcome.next.inj h ▸ .returned _
  | wake =>
    simp only [exec, execWake] at h
    split at h
    · exact Host.Outcome.next.inj h ▸ .woken rfl
    · exact Host.Outcome.next.inj h ▸ .returned _
  | cancelWake => exact did rfl .cancelled
  | plot x y d =>
    refine did rfl ?_
    rw [plot_eq]
    exact .wrote _ rfl fun hm => plot_eq s _ _ d ▸ plot_memOk _ _ d hm
  | plotAction a d w e => exact did rfl (.returned _)
  | drawLine x0 y0 x1 y1 =>
    refine did rfl ?_
    rw [drawLine_eq]
    refine .drew _ _ rfl fun hm => ?_
    have := drawLine_memOk x0 y0 x1 y1 hm
    rwa [drawLine_eq] at this
  | dashBit => exact did rfl (.returned _)
  | dashAdvance => exact did rfl .dashed
  | fillRect x0 y0 x1 y1 =>
    refine did rfl ?_
    rw [fillRect_eq]
    exact .wrote _ rfl fun hm => fillRect_eq s x0 y0 x1 y1 ▸ fillRect_memOk x0 y0 x1 y1 hm
  | tile y => exact did rfl (.returned _)
  | runFsm ds trig => exact did rfl (.ran ds trig rfl)
  | loadIoCursor => exact did rfl .loaded
  | advanceIoCursor => exact did rfl .advanced
  | recompute => exact did rfl .recomputed
  | controllerReset => exact did rfl (.reset rfl)
  | fsmReset v => exact did rfl (.fsmReset v rfl)
  | _ => first | exact absurd rfl hh | exact absurd rfl hd

/-! ### The invariant -/

theorem beamRead_inv {s : State} (h : Inv s) (g : Bool) : Inv (s.beamRead g) := by
  obtain ⟨hk, hr, hl, ha, hg, hw⟩ := (inv_iff s).1 h
  exact (inv_iff _).2 ⟨⟨hk.io, hk.pat, hk.coords, hk.planes, hk.mem, hk.wake, hk.last⟩, hr, hl, ha,
    givenOk_congr hg rfl rfl (beamsAfter_suffix s g), hw⟩

theorem withWakePending_inv {s : State} (h : Inv s) {b : Bool} (hb : b = true → s.fsm.isMemWait = true) :
    Inv (s.withWakePending b) := by
  obtain ⟨hk, hr, hl, ha, hg, hw⟩ := (inv_iff s).1 h
  exact (inv_iff _).2 ⟨⟨hk.io, hk.pat, hk.coords, hk.planes, hk.mem, fun e => .inl (hb e), hk.last⟩, hr, hl, ha, hg, hb⟩

theorem withIo_inv {s : State} (h : Inv s) {io : IoCursor} (hio : io.InRange s.cfg) (he : io.lastCmd = s.io.lastCmd) :
    Inv (s.withIo io) := by
  obtain ⟨hk, hr, hl, ha, hg, hw⟩ := (inv_iff s).1 h
  exact (inv_iff _).2 ⟨⟨hio, hk.pat, hk.coords, hk.planes, hk.mem, hk.wake, fun e => absurd (he.symm.trans e) hl⟩, hr,
    fun e => hl (he.symm.trans e), ha, hg, hw⟩

/-- Every instruction keeps the invariant. -/
theorem exec_inv {i : Instr} {s t : State} (hs : Inv s) (h : exec i s = .next t) : Inv t := by
  have hk := hs.kept
  have woken : Inv (s.withWakePending false) := withWakePending_inv hs (fun e => by cases e)
  cases exec_did h with
  | host r _ hu => exact (hu.inv hs).withRet r
  | display r _ hu => exact (hu.inv hs).withRet r
  | returned r => exact hs.withRet r
  | wrote m _ ok => exact (hs.withMem (ok hk.mem)).withRet _
  | drew m n _ ok => exact ((hs.withMem (ok hk.mem)).withPat (advance_iterate_ok hk.pat n)).withRet _
  | dashed => exact (hs.withPat (Pattern.advance_ok hk.pat)).withRet _
  | asked g r => exact (beamRead_inv hs g).withRet r
  | suspended hm => exact withWakePending_inv (b := true) (beamRead_inv hs s.graphicsActive) fun _ => hm
  | cancelled => exact woken.withRet _
  | woken _ => exact (woken.drive false false).withRet _
  | ran ds trig _ => exact (runFsm_inv ds trig hk hs.fetchOk hs.givenOk).withRet _
  | loaded =>
    exact ((withIo_inv hs (restoredCursor_inRange _ hk.io) (restoredCursor_lastCmd ..)).withLp _).withRet _
  | advanced => exact (withIo_inv hs (IoCursor.advance_inRange hk.io) (advance_lastCmd ..)).withRet _
  | recomputed => exact (hs.withSig _).withRet _
  | reset _ => exact (controllerReset_inv hk.mem hs.givenOk).withRet _
  | fsmReset v _ => exact (hs.hostWrite5 _).withRet _

theorem givenOk_iff (s : State) : s.givenOk = true ↔
    s.cfg.wf = true ∧ Inputs.wf s.cfg s.inputs = true ∧ s.beams.all (Beam.wf s.cfg) = true := by
  simp only [State.givenOk, Bool.and_eq_true, and_assoc]

/-- New inputs, and positions of the beam, that keep the collaborators' promises. -/
theorem inv_of_given {s t : State} (hs : Inv s) (ht : t = (s.withInputs t.inputs).withBeams t.beams)
    (hi : Inputs.wf s.cfg t.inputs = true) (hb : t.beams.all (Beam.wf s.cfg) = true) : Inv t := by
  obtain ⟨hk, hr, hl, ha, hg, hw⟩ := (inv_iff s).1 hs
  rw [ht]
  exact (inv_iff _).2 ⟨⟨hk.io, hk.pat, hk.coords, hk.planes, hk.mem, hk.wake, hk.last⟩, hr, hl, ha,
    (givenOk_iff _).2 ⟨((givenOk_iff s).1 hg).1, hi, hb⟩, hw⟩

theorem deliver_inv {d : Delivery} {s t : State} (hs : Inv s) (h : s.deliver d = .next t) : Inv t := by
  obtain ⟨-, hi, hb⟩ := (givenOk_iff s).1 hs.givenOk
  unfold State.deliver at h
  split at h
  · split at h
    · next hw => exact Host.Outcome.next.inj h ▸ inv_of_given hs rfl hw hb
    · cases h
  · split at h
    · next hw => exact Host.Outcome.next.inj h ▸ inv_of_given hs rfl hi hw
    · cases h
  · split at h
    · unfold State.run at h
      split at h
      · exact exec_inv (hs.withClock _) h
      · cases h
    · cases h

/-- Settles O8: an idle step changes nothing, and every delivery keeps the invariant. -/
theorem stepKeepsTheInvariant : Obligations.StepKeepsTheInvariant := by
  intro s t hs h
  unfold step at h
  split at h
  · exact Host.Outcome.next.inj h ▸ hs
  · exact deliver_inv (hs.withInbox _) h

/-! ### What every instruction leaves alone -/

/-- A run without tokens under a controller reset leaves the environment alone. -/
theorem controllerReset_world (s : State) : s.SameWorld s.controllerReset := (drive_hostSide s.resetRegisters _ _).world

/-- Every instruction but the display's own and the controller reset keeps to the host's side. -/
theorem exec_hostSide {i : Instr} {s t : State} (hd : i.isDisplay = false) (hc : i ≠ .controllerReset)
    (h : exec i s = .next t) : HostSide s t := by
  have woken : HostSide s (s.withWakePending false) := ⟨⟨rfl, rfl, rfl⟩, (HostSide.refl s).world, rfl⟩
  cases exec_did h with
  | host r _ hu => exact hu.hostSide.withRet r
  | display r hi _ => rw [hi] at hd; cases hd
  | returned r => exact (HostSide.refl s).withRet r
  | wrote m _ _ => exact ⟨⟨rfl, rfl, rfl⟩, (HostSide.refl s).world, rfl⟩
  | drew m n _ _ => exact ⟨⟨rfl, rfl, rfl⟩, (HostSide.refl s).world, rfl⟩
  | dashed => exact ⟨⟨rfl, rfl, rfl⟩, (HostSide.refl s).world, rfl⟩
  | asked g r => exact ⟨⟨rfl, rfl, rfl⟩, ⟨rfl, rfl, rfl, rfl, beamsAfter_suffix s g⟩, rfl⟩
  | suspended _ => exact (suspend_frame s).hostSide.withRet _
  | cancelled => exact ⟨⟨rfl, rfl, rfl⟩, (HostSide.refl s).world, rfl⟩
  | woken _ => exact (woken.trans (drive_hostSide _ _ _)).withRet _
  | ran ds trig _ => exact (runFsm_hostSide s ds trig).withRet _
  | loaded =>
    refine ⟨⟨rfl, rfl, rfl⟩, (HostSide.refl s).world, ?_⟩
    simp only [State.loadIoCursor, State.withRet_lp, State.withLp_lp]
    split <;> rfl
  | advanced => exact ⟨⟨rfl, rfl, rfl⟩, (HostSide.refl s).world, rfl⟩
  | recomputed => exact ⟨⟨rfl, rfl, rfl⟩, (HostSide.refl s).world, rfl⟩
  | reset hi => exact absurd hi hc
  | fsmReset v _ => exact (hostWrite5_hostSide s _).withRet _

/-- The display's operations keep to theirs. -/
theorem exec_displaySide {i : Instr} {s t : State} (hd : i.isDisplay = true) (h : exec i s = .next t) :
    DisplaySide s (t.withRet s.ret) := by
  obtain ⟨u, r, hu, rfl⟩ := exec_display hd h
  have hr : u.ret = s.ret := by rw [hu.frame]; rfl
  rw [State.withRet_withRet, ← hr, State.withRet_self]
  exact hu

theorem DisplaySide.world {s t : State} (h : DisplaySide s t) : s.SameWorld t := by
  rw [h.frame]; exact ⟨rfl, rfl, rfl, rfl, List.suffix_refl _⟩

theorem DisplaySide.drawing {s t : State} (h : DisplaySide s t) : s.SameDrawing t := by
  rw [h.frame]; exact ⟨rfl, rfl, rfl, rfl, rfl, rfl, rfl, rfl, rfl, rfl, rfl, rfl, rfl⟩

theorem DisplaySide.mem {s t : State} (h : DisplaySide s t) : t.mem = s.mem := by rw [h.frame]; rfl

/-- Settles O10: each agent leaves the environment alone. -/
theorem execLeavesTheWorld : Obligations.ExecLeavesTheWorld := by
  intro i s t h
  by_cases hd : i.isDisplay = true
  · exact (exec_displaySide hd h).world
  by_cases hc : i = .controllerReset
  · subst hc; exact Host.Outcome.next.inj h ▸ controllerReset_world s
  · exact (exec_hostSide (by simpa using hd) hc h).world

/-- Settles O12, by what each agent leaves alone. -/
theorem agentsKeepToTheirSide : Obligations.AgentsKeepToTheirSide := by
  intro i s t h
  refine ⟨fun hd => ?_, fun hh => ?_⟩
  · have hs := exec_displaySide hd h
    exact ⟨hs.drawing, fun k => congrArg (readByte · k) hs.mem⟩
  · obtain ⟨u, r, hu, e⟩ := exec_host hh s
    have hs := hu.hostSide.withRet r
    rw [Host.Outcome.next.inj (e.symm.trans h)] at hs
    exact ⟨hs.display, hs.lp⟩

/-- Settles O9: what runs the FSM recomputes the signals, and nothing else touches what they are made of. -/
theorem signalsStayFresh : Obligations.SignalsStayFresh := by
  intro i s t hi hs h
  cases exec_did h with
  | host r _ hu => exact hu.fresh hs
  | display r _ hu => rw [hu.frame]; exact hs
  | woken _ => exact drive_fresh ..
  | ran ds trig e => exact absurd e (hi ds trig)
  | recomputed => rfl
  | reset _ => exact drive_fresh ..
  | fsmReset v _ => exact drive_fresh ..
  | _ => exact hs

theorem controllerReset_mem (s : State) : s.controllerReset.mem = s.mem := runFsm_of_reset_mem (s := s.resetRegisters) rfl

/-- Bit 7 of the value an FSM reset writes is set (R311; entry 28). -/
theorem resetBitOf_or (v : Word) : resetBitOf (v ||| 0x0080) = true := by simp [resetBitOf, unpackFlags]

/-- Of the host's accesses only those to R5 and R7 that read never write memory: they change nothing. -/
theorem exec_host_neverWrites {i : Instr} (hh : i.isHost = true) (hn : i.neverWritesMemory = true) (s : State) :
    ∃ r, exec i s = .next (s.withRet r) := by
  cases i with
  | rd5 => exact ⟨_, rfl⟩
  | rd7 => exact ⟨_, rfl⟩
  | _ => first | (cases hh; done) | cases hn

/-- Settles O11, by what each instruction can do. -/
theorem onlyWritersWriteMemory : Obligations.OnlyWritersWriteMemory := by
  intro i s t hn h k
  have wrong (e : i.neverWritesMemory = false) {p : Prop} : p := by rw [hn] at e; cases e
  refine congrArg (readByte · k) ?_
  cases exec_did h with
  | host r hh _ =>
    obtain ⟨r', e⟩ := exec_host_neverWrites hh hn s
    rw [← Host.Outcome.next.inj (e.symm.trans h)]; rfl
  | display r _ hu => exact hu.mem
  | wrote m e _ => exact wrong e
  | drew m n e _ => exact wrong e
  | woken e => exact wrong (e ▸ rfl)
  | ran ds trig e => exact wrong (e ▸ rfl)
  | reset _ => exact controllerReset_mem s
  | fsmReset v _ => exact hostWrite5_mem_of_reset s (resetBitOf_or v)
  | _ => rfl

end Sys2Proof.Machine
end

section
/-! SUPPORT. What fetching leaves alone of the fetch state (spec 46_alpha_fetcher.md R233, R234): the buffer not filled, the
index of the displayed one, `underrun`, the base address; and the statement about the index and `underrun`. -/

namespace Sys2Proof.Machine

/-- What taking words into buffer `b` leaves of the fetch state. -/
structure FillFrame (b : Bool) (a a' : Alpha) : Prop where
  other : a'.row (!b) = a.row (!b)
  bufIdx : a'.bufIdx = a.bufIdx
  underrun : a'.underrun = a.underrun
  base : a'.base = a.base

theorem FillFrame.refl (b : Bool) (a : Alpha) : FillFrame b a a := ⟨rfl, rfl, rfl, rfl⟩

theorem FillFrame.trans {b : Bool} {a a' a'' : Alpha} (h : FillFrame b a a') (k : FillFrame b a' a'') :
    FillFrame b a a'' :=
  ⟨k.other.trans h.other, k.bufIdx.trans h.bufIdx, k.underrun.trans h.underrun, k.base.trans h.base⟩

theorem setRow_fill (s : State) (b : Bool) (r : RowBuf) : FillFrame b s.alpha (s.setRow b r).alpha := by
  cases b <;> exact ⟨rfl, rfl, rfl, rfl⟩

theorem pastWord_fill (s : State) (b : Bool) : FillFrame b s.alpha s.pastWord.alpha := ⟨rfl, rfl, rfl, rfl⟩

theorem rowOpen_fill (s : State) (b : Bool) : FillFrame b s.alpha (s.rowOpen b).alpha :=
  (setRow_fill s b _).trans ⟨rfl, rfl, rfl, rfl⟩

theorem rowGoesOn_fill (s : State) (b : Bool) : FillFrame b s.alpha s.rowGoesOn.alpha := by
  unfold State.rowGoesOn
  split <;> exact ⟨rfl, rfl, rfl, rfl⟩

theorem inRow_fill (s : State) : FillFrame s.hidden s.alpha s.inRow.alpha := by
  unfold State.inRow
  split
  · exact rowOpen_fill s _
  · exact .refl _ _

theorem storeCell_fill (s : State) (b : Bool) (c : TextCell) : FillFrame b s.alpha (s.storeCell b c).alpha := by
  unfold State.storeCell
  split
  · exact (setRow_fill s b _).trans ⟨rfl, rfl, rfl, rfl⟩
  · exact .refl _ _

theorem takeNewaddr_fill (s : State) (b : Bool) (m : BitVec 2) (a : BitVec 12) :
    FillFrame b s.alpha (s.takeNewaddr m a).alpha := by
  unfold State.takeNewaddr
  refine FillFrame.trans ?_ (rowGoesOn_fill _ b)
  exact ⟨rfl, rfl, rfl, rfl⟩

theorem takeEol_fill (s : State) (b : Bool) : FillFrame b s.alpha (s.takeEol b).alpha := by
  unfold State.takeEol
  exact ((pastWord_fill s b).trans (setRow_fill _ b _)).trans ⟨rfl, rfl, rfl, rfl⟩

theorem takeAttrset_fill (s : State) (b : Bool) (a : Byte) : FillFrame b s.alpha (s.takeAttrset a).alpha := by
  unfold State.takeAttrset
  refine FillFrame.trans ?_ (rowGoesOn_fill _ b)
  split <;> exact ⟨rfl, rfl, rfl, rfl⟩

theorem takeNop_fill (s : State) (b : Bool) : FillFrame b s.alpha s.takeNop.alpha :=
  (pastWord_fill s b).trans (rowGoesOn_fill _ b)

theorem takeCharB_fill (s : State) (b : Bool) (a : Byte) (c : BitVec 7) :
    FillFrame b s.alpha (s.takeCharB b a c).alpha :=
  ((pastWord_fill s b).trans (storeCell_fill s.pastWord b _)).trans (rowGoesOn_fill _ b)

theorem takeCharA_fill (s : State) (b : Bool) (c : BitVec 7) : FillFrame b s.alpha (s.takeCharA b c).alpha :=
  ((pastWord_fill s b).trans (storeCell_fill s.pastWord b _)).trans (rowGoesOn_fill _ b)

theorem takeEscA_fill (s : State) (b : Bool) (a : BitVec 7) : FillFrame b s.alpha (s.takeEscA a).alpha := by
  unfold State.takeEscA
  refine FillFrame.trans ?_ (rowGoesOn_fill _ b)
  exact ⟨rfl, rfl, rfl, rfl⟩

/-- One word leaves those alone, whatever it is. -/
theorem takeWord_fill (s : State) (b : Bool) (i : Instr) : FillFrame b s.alpha (s.takeWord b i).1.alpha := by
  unfold State.takeWord
  split
  · exact takeNewaddr_fill s b ..
  · exact takeEol_fill s b
  · exact takeAttrset_fill s b _
  · exact takeCharB_fill s b ..
  · exact takeCharA_fill s b _
  · exact takeEscA_fill s b _
  · exact takeNop_fill s b

theorem fetchWords_fill (b : Bool) (n : Nat) (s : State) : FillFrame b s.alpha (fetchWords b n s).alpha := by
  induction n generalizing s with
  | zero => exact .refl _ _
  | succ n ih =>
    have h := takeWord_fill s.noteHostRead b (decodeAlphaWord s.cfg.alphaGen (s.hostMemRead s.alpha.fetchPtr))
    unfold fetchWords
    dsimp only
    split
    · exact h
    · exact h.trans (ih _)

/-- FetchRow leaves those alone (R234). -/
theorem fetchRow_fill (s : State) (b : Bool) : FillFrame b s.alpha (s.fetchRow b).alpha := by
  have h : FillFrame b s.alpha (s.rowBegin b).alpha := rowOpen_fill (s.withHostReads []) b
  unfold State.fetchRow
  split
  · exact h.trans ⟨rfl, rfl, rfl, rfl⟩
  · exact h.trans (fetchWords_fill b _ _)

/-- Of the display's operations only RowStart swaps the buffers and only the frame's start clears `underrun`
(R231, R233). -/
theorem exec_display_underrun {i : Instr} (hd : i.isDisplay = true) {s t : State} (h : exec i s = .next t) :
    t.alpha.bufIdx = (match i with | .rowStart _ => !s.alpha.bufIdx | _ => s.alpha.bufIdx) ∧
      (s.alpha.underrun = true → i ≠ .vblank → i ≠ .alphaFrameStart → t.alpha.underrun = true) ∧
      ((i = .vblank ∨ i = .alphaFrameStart) → t.alpha.underrun = false) := by
  have same {u : State} {r : Ret} (e : exec i s = .next (u.withRet r)) : t.alpha = u.alpha := by
    rw [← Host.Outcome.next.inj (e.symm.trans h)]; rfl
  have frameStart (u : State) : u.alphaFrameStart.alpha.bufIdx = u.alpha.bufIdx ∧ u.alphaFrameStart.alpha.underrun = false :=
    have f := fetchRow_fill u.beginFrame u.beginFrame.hidden
    ⟨f.bufIdx, f.underrun⟩
  have swapped : s.alpha.underrun = true → s.swapBuffers.alpha.underrun = true := fun e => by
    simp [State.swapBuffers, e]
  have word {g : AlphaGen} (hg : i.channel = .alpha g) :
      t.alpha.bufIdx = s.alpha.bufIdx ∧ t.alpha.underrun = s.alpha.underrun := by
    obtain ⟨j, e⟩ := exec_alphaWord hg s
    have f := (inRow_fill s).trans (takeWord_fill s.inRow s.hidden j)
    rw [same e]
    exact ⟨f.bufIdx, f.underrun⟩
  cases i with
  | vblank =>
    rw [same rfl]
    obtain ⟨hb, hu⟩ := frameStart (s.withFrameCnt (s.frameCnt + 1)).lightPenCapture
    exact ⟨hb, fun _ hv => absurd rfl hv, fun _ => hu⟩
  | alphaFrameStart =>
    rw [same rfl]
    obtain ⟨hb, hu⟩ := frameStart s
    exact ⟨hb, fun _ _ hv => absurd rfl hv, fun _ => hu⟩
  | rowStart r =>
    by_cases hr : r < s.cfg.alphaRows
    · have f := fetchRow_fill s.swapBuffers s.swapBuffers.hidden
      rw [same (if_pos hr), State.rowStart]
      refine ⟨?_, fun e _ _ => ?_, by simp⟩
      · split
        · exact f.bufIdx
        · rfl
      · split
        · exact f.underrun.trans (swapped e)
        · exact swapped e
    · cases h.symm.trans (if_neg hr)
  | fetchRow b =>
    rw [same rfl]
    have f := fetchRow_fill s b
    exact ⟨f.bufIdx, fun e _ _ => f.underrun.trans e, by simp⟩
  | scanline n =>
    by_cases hn : n < s.cfg.screenH
    · rw [same (if_pos hn)]; exact ⟨rfl, fun e _ _ => e, by simp⟩
    · cases h.symm.trans (if_neg hn)
  | gfx x y => rw [same rfl]; exact ⟨rfl, fun e _ _ => e, by simp⟩
  | alphaOn x y => rw [same rfl]; exact ⟨rfl, fun e _ _ => e, by simp⟩
  | isCursor x y => rw [same rfl]; exact ⟨rfl, fun e _ _ => e, by simp⟩
  | lightPenCapture => rw [same (u := s.lightPenCapture) rfl]; exact ⟨rfl, fun e _ _ => e, by simp⟩
  | lpHit px py cx cy il => rw [same rfl]; exact ⟨rfl, fun e _ _ => e, by simp⟩
  | selfTestHits cx cy => rw [same rfl]; exact ⟨rfl, fun e _ _ => e, by simp⟩
  | alphaNewaddr | alphaEol | alphaNop | alphaAttrset | alphaRsvd | alphaCharB | alphaCharA | alphaEscA =>
    obtain ⟨hb, hu⟩ := word rfl
    exact ⟨hb, fun e _ _ => hu.trans e, by simp⟩
  | _ => cases hd

theorem controllerReset_alpha (s : State) : s.controllerReset.alpha = Alpha.atReset s.cfg s.inputs.alphaBase :=
  (runFsm_frame false false s.resetRegisters).alpha

/-- Settles O13: the display's operations one by one; no other but the controller reset touches the fetch state. -/
theorem bufferIndexAndUnderrun : Obligations.BufferIndexAndUnderrun := by
  intro i s t h
  by_cases hd : i.isDisplay = true
  · obtain ⟨hb, hu, hz⟩ := exec_display_underrun hd h
    have hc : i ≠ .controllerReset := fun e => by subst e; cases hd
    refine ⟨?_, fun e h1 h2 _ => hu e h1 h2, fun hi => hz (by tauto)⟩
    rw [hb]
    cases i <;> first | rfl | exact absurd rfl hc
  by_cases hc : i = .controllerReset
  · subst hc
    have e := controllerReset_alpha s
    rw [← Host.Outcome.next.inj h]
    exact ⟨congrArg Alpha.bufIdx e, fun _ _ _ hn => absurd rfl hn, fun _ => congrArg Alpha.underrun e⟩
  · have ha := (exec_hostSide (by simpa using hd) hc h).display.2.1
    refine ⟨?_, fun e _ _ _ => by rw [ha, e], ?_⟩
    · rw [ha]
      cases i <;> first | rfl | exact absurd rfl hc | exact absurd rfl hd
    · rintro (rfl | rfl | rfl)
      · exact absurd rfl hd
      · exact absurd rfl hd
      · exact absurd rfl hc

end Sys2Proof.Machine
end

section
/-! SUPPORT. What a step does with a delivery that decodes and with one that does not, and which bytes do not (spec
30_encoding.md R61 to R75; entries 1, 6, 16); which instructions answer; and the statements about them. -/

namespace Sys2Proof

/-! ### Deliveries cut short -/

/-- What is left of some words' bytes holds fewer words. -/
theorem toWords_length_lt {ws : List Word} {p : List Byte} (h : p <+: fromWords ws) (hne : p ≠ fromWords ws) :
    (toWords p).length < ws.length := by
  induction ws generalizing p with
  | nil => exact absurd (List.prefix_nil.1 h) hne
  | cons w ws ih =>
    match p with
    | [] => simp [toWords]
    | [_] => simp [toWords]
    | lo :: hi :: r =>
      simp only [fromWords, List.cons_prefix_cons] at h
      obtain ⟨rfl, rfl, hr⟩ := h
      have := ih hr (by rintro rfl; exact hne rfl)
      simp [toWords, this]

theorem toWords_isPrefix {ws : List Word} {p : List Byte} (h : p <+: fromWords ws) : toWords p <+: ws := by
  induction ws generalizing p with
  | nil => rw [List.prefix_nil.1 h]; exact List.prefix_rfl
  | cons w ws ih =>
    match p with
    | [] => exact List.nil_prefix
    | [_] => exact List.nil_prefix
    | lo :: hi :: r =>
      simp only [fromWords, List.cons_prefix_cons] at h
      obtain ⟨rfl, rfl, hr⟩ := h
      rw [toWords, lo_hi]
      exact List.cons_prefix_cons.2 ⟨rfl, ih hr⟩

/-- How many operand words an operation's number calls for (entry 6). -/
def operandWords (n : Nat) : Nat :=
  if n ∈ [38, 39, 40, 44, 45, 49, 50, 51, 53, 56, 57, 63] then 0
  else if n ∈ [37, 47, 58, 59, 60, 64] then 1
  else if n ∈ [34, 35, 41] then 3
  else if n ∈ [36, 42, 43, 46] then 4
  else if n = 54 then 5
  else 2

theorem bytes_of_op {i : Instr} (h : i.channel = .op) :
    ∃ (c : Byte) (ws : List Word), i.bytes = c :: fromWords ws ∧ 32 ≤ c.toNat ∧ c.toNat < 65 ∧
      ws.length = operandWords c.toNat := by
  cases i <;> first
    | (cases h; done)
    | exact ⟨_, _, rfl, by decide, by decide, rfl⟩
    | exact ⟨_, [], rfl, by decide, by decide, rfl⟩

theorem decodeOp_truncated {c : Byte} {r : List Byte} (hc : 32 ≤ c.toNat ∧ c.toNat < 65)
    (h : (toWords r).length < operandWords c.toNat) : decodeOp (c :: r) = .error .truncated := by
  simp only [decodeOp]
  split
  case h_34 => rw [if_neg (by omega), if_neg (by omega)]
  all_goals exfalso; simp_all [operandWords] <;> omega

/-- How many data words a command calls for (R66, R67). -/
def dataWords (c : Cmd) : Nat :=
  match Machine.cmdClass c with
  | .read => 0
  | .write => 1
  | .param1 => 1
  | .param2 => 2

theorem bytes_of_cmd {i : Instr} (h : i.channel = .cmd) :
    ∃ (c : Cmd) (f : CmdFlags) (ds : List Word), i.bytes = fromWords (packR5W c f :: ds) ∧ ds.length = dataWords c := by
  cases i <;> first
    | (cases h; done)
    | exact ⟨_, _, [], rfl, rfl⟩
    | exact ⟨_, _, [_], rfl, rfl⟩
    | exact ⟨_, _, [_, _], rfl, rfl⟩

theorem decodeCmd_truncated {w : Word} {ds : List Word} (h : ds.length < dataWords (unpackCmd w)) :
    decodeCmd (w :: ds) = .error .truncated := by
  simp only [decodeCmd]
  split
  case h_17 => rfl
  all_goals exfalso; simp_all [dataWords, Machine.cmdClass]

theorem bytes_of_bus {i : Instr} (h : i.channel = .bus) :
    (∃ c, i.bytes = [c]) ∨ ∃ (c : Byte) (v : Word), i.bytes = c :: fromWords [v] ∧ 12 ≤ c.toNat ∧ c.toNat < 16 := by
  cases i <;> first
    | (cases h; done)
    | exact .inl ⟨_, rfl⟩
    | exact .inr ⟨_, _, rfl, by decide, by decide⟩

theorem decodeBus_truncated {c : Byte} {r : List Byte} (hc : 12 ≤ c.toNat ∧ c.toNat < 16) (h : toWords r = []) :
    decodeBus (c :: r) = .error .truncated := by
  simp only [decodeBus]
  split
  case h_9 => rw [if_neg (by omega), if_pos (by omega)]
  all_goals exfalso; simp_all

theorem bytes_of_alpha {i : Instr} {g : AlphaGen} (h : i.channel = .alpha g) : ∃ w, i.bytes = fromWords [w] := by
  cases i <;> first
    | (cases h; done)
    | exact ⟨_, rfl⟩

/-- A delivery cut short anywhere is truncated. -/
theorem decodeRaw_of_cut {i : Instr} {bs : List Byte} (h : bs <+: i.bytes) (hne : bs ≠ i.bytes) :
    decodeRaw i.channel bs = .error .truncated := by
  cases hc : i.channel with
  | bus =>
    show decodeBus bs = _
    rcases bytes_of_bus hc with ⟨c, e⟩ | ⟨c, v, e, h12, h16⟩ <;> rw [e] at h hne
    · rcases List.prefix_cons_iff.1 h with rfl | ⟨q, rfl, hq⟩
      · rfl
      · exact absurd (by rw [List.prefix_nil.1 hq]) hne
    · rcases List.prefix_cons_iff.1 h with rfl | ⟨q, rfl, hq⟩
      · rfl
      · have hl := toWords_length_lt hq (by rintro rfl; exact hne rfl)
        exact decodeBus_truncated ⟨h12, h16⟩ (List.length_eq_zero_iff.1 (by simpa using hl))
  | cmd =>
    obtain ⟨c, f, ds, e, hd⟩ := bytes_of_cmd hc
    rw [e] at h hne
    have hl := toWords_length_lt h hne
    have hp := toWords_isPrefix h
    show decodeCmd (toWords bs) = _
    cases ht : toWords bs with
    | nil => rfl
    | cons w l =>
      rw [ht] at hl hp
      obtain ⟨rfl, -⟩ := List.cons_prefix_cons.1 hp
      refine decodeCmd_truncated ?_
      rw [unpackCmd_packR5W, ← hd]
      simpa using hl
  | alpha g =>
    obtain ⟨w, e⟩ := bytes_of_alpha hc
    rw [e] at h hne
    have hl := toWords_length_lt h hne
    show decodeAlpha g (toWords bs) = _
    rw [show toWords bs = [] from List.length_eq_zero_iff.1 (by simpa using hl)]
    rfl
  | op =>
    obtain ⟨c, ws, e, h1, h2, hw⟩ := bytes_of_op hc
    rw [e] at h hne
    show decodeOp bs = _
    rcases List.prefix_cons_iff.1 h with rfl | ⟨q, rfl, hq⟩
    · rfl
    · exact decodeOp_truncated ⟨h1, h2⟩ (hw ▸ toWords_length_lt hq (by rintro rfl; exact hne rfl))

theorem decode_of_raw_error {ch : Channel} {bs : List Byte} {e : DecodeError} (h : decodeRaw ch bs = .error e) :
    decode ch bs = .error e := by
  unfold decode; rw [h]

/-! ### Codes of nothing -/

/-- A bus access to a register outside 4 to 7 (R75). -/
theorem decodeBus_noSuchRegister {b : Byte} (r : List Byte) (h : b.toNat < 16) (h4 : b.toNat % 8 < 4) :
    decodeBus (b :: r) = .error .noSuchRegister := by
  simp only [decodeBus]
  split
  case h_9 => rw [if_neg (by omega), if_neg (by omega)]
  all_goals omega

theorem decodeBus_noSuchCode {b : Byte} (r : List Byte) (h : 16 ≤ b.toNat) :
    decodeBus (b :: r) = .error .noSuchCode := by
  simp only [decodeBus]
  split
  case h_9 => rw [if_pos h]
  all_goals omega

theorem decodeOp_noSuchCode {b : Byte} (r : List Byte) (h : b.toNat < 32 ∨ 65 ≤ b.toNat) :
    decodeOp (b :: r) = .error .noSuchCode := by
  simp only [decodeOp]
  split
  case h_34 =>
    rcases h with h | h
    · rw [if_pos h]
    · rw [if_neg (by omega), if_pos h]
  all_goals omega

theorem setWidth_two_ofBytes (hi lo : Byte) : (Word.ofBytes hi lo).setWidth 2 = lo.setWidth 2 := by
  refine BitVec.eq_of_getLsbD_eq fun i h => ?_
  simp only [Word.ofBytes, BitVec.getLsbD_setWidth, BitVec.getLsbD_append, show i < 8 by omega, if_true]

/-- Only the bus has registers. -/
theorem decodeOp_ne_noSuchRegister (bs : List Byte) : decodeOp bs ≠ .error .noSuchRegister := by
  cases bs with
  | nil => simp [decodeOp]
  | cons c r =>
    simp only [decodeOp]
    split
    case h_34 => split_ifs <;> simp
    all_goals simp

/-- The plane field of an operation on a plane is the low two bits of the byte behind its number (entry 6), and no
variant has plane 3. -/
theorem decodeOp_plane {b lo : Byte} {r : List Byte} (h : 33 ≤ b.toNat ∧ b.toNat ≤ 36) (hlo : lo.toNat % 4 = 3)
    {i : Instr} (hi : decodeOp (b :: lo :: r) = .ok i) : i.wellFormed = false := by
  have first : ∀ a l, toWords (lo :: r) = a :: l → planeFits (a.setWidth 2) = false := by
    intro a l e
    cases r with
    | nil => cases e
    | cons hi r =>
      obtain rfl := (List.cons.inj e).1
      rw [planeFits, setWidth_two_ofBytes, BitVec.toNat_setWidth, hlo]; rfl
  simp only [decodeOp] at hi
  generalize toWords (lo :: r) = ws at hi first
  split at hi
  case h_2 => cases hi; simp [Instr.wellFormed, first _ _ rfl]
  case h_3 => cases hi; simp [Instr.wellFormed, first _ _ rfl]
  case h_4 => cases hi; simp [Instr.wellFormed, first _ _ rfl]
  case h_5 => cases hi; simp [Instr.wellFormed, first _ _ rfl]
  case h_34 => rw [if_neg (by omega), if_neg (by omega)] at hi; cases hi
  all_goals omega

end Sys2Proof

namespace Sys2Proof.Machine

/-! ### Steps -/

theorem step_of_decode {s : State} {ch : Channel} {bs : List Byte} {rest : List Delivery} {i : Instr}
    (h : s.inbox = .wire ch bs :: rest) (hd : decode ch bs = .ok i) : step s = (s.withInbox rest).run i := by
  simp only [step, h, State.deliver, hd]

theorem step_of_decode_error {s : State} {ch : Channel} {bs : List Byte} {rest : List Delivery} {e : DecodeError}
    (h : s.inbox = .wire ch bs :: rest) (hd : decode ch bs = .error e) :
    step s = .refused (if e = .noSuchRegister then .notThisBlock else .noEncoding) := by
  simp only [step, h, State.deliver, hd]
  cases e <;> rfl

theorem decode_of_decodeTableWord {nbits w : Nat} {i : Instr} (h : decodeTableWord nbits w = some i) :
    decode (tableChannel nbits w) (tableBytes nbits w) = .ok i := by
  unfold decodeTableWord at h
  split at h
  · next e => rw [e, Option.some.inj h]
  · cases h

/-- Settles O4, by what a step does with a delivery that decodes. -/
theorem stepRunsTheDecodedInstruction : Obligations.StepRunsTheDecodedInstruction := by
  refine ⟨fun s ch bs rest i h hd ht => ?_, fun s nbits w i h ht => ?_⟩
  · rw [step_of_decode h hd, State.run]
    exact if_pos ht
  · rw [step_of_decode (s := s.withFetchWord nbits w) (rest := s.inbox) rfl (decode_of_decodeTableWord h)]
    exact if_pos ht

theorem beam_wf_iff (c : Config) (b : Beam) : b.wf c = true ↔ b.hpos < c.hTotal ∧ b.vpos < c.vTotal := by
  simp [Beam.wf]

/-- Settles O5: deliveries of inputs and positions, deliveries that do not decode by how they fail to, and the frame's
clock event by event. -/
theorem stepWithoutAnInstruction : Obligations.StepWithoutAnInstruction := by
  refine ⟨fun s h => ?idle, fun s i rest h => ?inputs, fun s l rest h => ?beams, fun s ch bs rest h => ?wire,
    fun s i => ?clock, fun s ch bs rest i h hd ht => ?timing⟩
  case idle => simp only [step, h]
  case inputs => simp only [step, h, State.deliver]; rfl
  case beams =>
    simp only [step, h, State.deliver, List.all_eq_true, beam_wf_iff]
    rfl
  case wire =>
    have refused {e : DecodeError} (he : decodeRaw ch bs = .error e) (hn : e ≠ .noSuchRegister) :
        step s = .refused .noEncoding := by
      rw [step_of_decode_error h (decode_of_raw_error he), if_neg hn]
    refine ⟨fun e he => step_of_decode_error h he, ?cut, ?alpha, ?code⟩
    case cut =>
      rintro i rfl hp hne
      exact refused (decodeRaw_of_cut hp hne) (by simp)
    case alpha =>
      rintro g rfl hl
      refine refused (e := .truncated) ?_ (by simp)
      match bs, hl with
      | [], _ => rfl
      | [_], _ => rfl
    case code =>
      rintro b r rfl
      refine ⟨?_, ?_, ?_, ?_⟩
      · rintro rfl h16 h4
        rw [step_of_decode_error h (decode_of_raw_error (decodeBus_noSuchRegister r h16 h4)), if_pos rfl]
      · rintro rfl h16
        exact refused (decodeBus_noSuchCode r h16) (by simp)
      · rintro rfl hb
        exact refused (decodeOp_noSuchCode r hb) (by simp)
      · rintro lo r' rfl h1 h2 rfl hlo
        cases hd : decodeOp (b :: lo :: r') with
        | ok i =>
          have : decode .op (b :: lo :: r') = .error .noSuchCode := by
            simp [decode, decodeRaw, hd, decodeOp_plane ⟨h1, h2⟩ hlo hd]
          rw [step_of_decode_error h this, if_neg (by simp)]
        | error e =>
          exact refused hd (by rintro rfl; exact decodeOp_ne_noSuchRegister _ hd)
  case clock =>
    constructor
    · simp only [State.takes, Bool.or_eq_true, Bool.not_eq_true']
      cases i <;> simp only [FrameClock.admits, Bool.and_eq_true, Bool.or_eq_true, Bool.not_eq_true', decide_eq_true_eq,
        and_assoc] <;> rfl
    · cases i <;> rfl
  case timing =>
    rw [step_of_decode h hd, State.run]
    exact if_neg (by rw [show (s.withInbox rest).takes i = s.takes i from rfl, ht]; simp)

/-! ### What answers -/

/-- Settles O6: an operation on a plane, a RowStart and a Scanline test their argument; every other instruction
answers. -/
theorem answersIffInRange : Obligations.AnswersIffInRange := by
  have plane {p : BitVec 2} {s u : State} :
      (∃ t, (if s.hasPlane p = true then Host.Outcome.next u else .fault Fault.noSuchPlane : Result) = .next t) ↔
        decide (p.toNat < s.cfg.nplanes) = true := by
    rw [State.hasPlane]; split <;> simp_all
  have range {c : Prop} [Decidable c] {u : State} :
      (∃ t, (if c then Host.Outcome.next u else .refused Refusal.noSuchEvent : Result) = .next t) ↔ decide c = true := by
    split <;> simp_all
  refine fun s => ⟨fun i => ?_, fun p hp => ?_, fun r hr => if_neg (by omega), fun n hn => if_neg (by omega)⟩
  · cases i with
    | planeRead p a => exact plane
    | planeWrite p a w => exact plane
    | readPixel p x y => exact plane
    | writePixel p x y b => exact plane
    | rowStart r => exact range
    | scanline n => exact range
    | wake => simp only [exec, execWake]; split <;> simp [Instr.inRange]
    | defer => simp only [exec, execDefer]; split <;> simp [Instr.inRange]
    | _ => exact ⟨fun _ => rfl, fun _ => ⟨_, rfl⟩⟩
  · have hf : ¬s.hasPlane p = true := by rw [hasPlane_iff]; omega
    exact ⟨fun _ => if_neg hf, fun _ _ => if_neg hf, fun _ _ => if_neg hf, fun _ _ _ => if_neg hf⟩

/-! ### Fixed states and single operations -/

/-- Settles O7, part by part of the invariant. -/
theorem resetMeetsTheInvariant : Obligations.ResetMeetsTheInvariant := by
  unfold Obligations.ResetMeetsTheInvariant
  decide

/-- Settles O14: the reset state written out. -/
theorem resetValues : Obligations.ResetValues := by
  unfold Obligations.ResetValues
  decide

/-- Settles O17. -/
theorem pixAddrResult : Obligations.PixAddrResult := fun _ _ _ => ⟨rfl, rfl⟩

theorem graphicsActive_iff (s : State) :
    s.graphicsActive = true ↔ s.cr.gfxEn = true ∧ (s.alpha.mode = .graphics ∨ s.alpha.mode = .both) := by
  simp [State.graphicsActive]

theorem memAvailable_iff (s : State) : s.memAvailable = true ↔ s.timeUntilAvailable s.graphicsActive = 0 := decide_eq_true_iff

/-- The first position lined up, or the one at the interface (R36; entry 30). -/
theorem beam_eq (s : State) : s.beam = s.beams.headD s.inputs.beam := by
  unfold State.beam; cases s.beams <;> rfl

theorem timeUntilAvailable_eq_zero_iff (s : State) (g : Bool) : s.timeUntilAvailable g = 0 ↔
    g = false ∨ s.beam.hpos < s.cfg.arbOpenEnd ∨ s.cfg.arbOpenStart ≤ s.beam.hpos := by
  unfold State.timeUntilAvailable
  cases g
  · simp
  · simp only [Bool.not_true, Bool.false_eq_true, if_false, reduceCtorEq, false_or]
    split
    · simp_all
    · constructor <;> intro h <;> omega

theorem timeUntilAvailable_add (s : State) (g : Bool) (h : s.timeUntilAvailable g ≠ 0) :
    s.beam.hpos + s.timeUntilAvailable g = s.cfg.arbOpenStart := by
  have hn := (timeUntilAvailable_eq_zero_iff s g).not.1 h
  simp only [not_or, Bool.not_eq_false] at hn
  obtain ⟨rfl, h1, h2⟩ := hn
  simp only [State.timeUntilAvailable, Bool.not_true, Bool.false_eq_true, if_false, h1, h2, or_self]
  omega

/-- A state that finds memory unavailable has graphics active. -/
theorem graphicsActive_of_unavailable {s : State} (h : s.memAvailable = false) : s.graphicsActive = true := by
  by_contra hg
  have : s.memAvailable = true :=
    (memAvailable_iff s).2 ((timeUntilAvailable_eq_zero_iff s _).2 (.inl (by simpa using hg)))
  rw [h] at this; cases this

/-- Settles O22, by when the delay is zero. -/
theorem arbiterResults : Obligations.ArbiterResults := by
  intro s
  refine ⟨graphicsActive_iff s, fun g => ⟨rfl, ?_, ?_⟩, memAvailable_iff s, ?_, rfl⟩
  · rw [← beam_eq]; exact timeUntilAvailable_eq_zero_iff s g
  · rw [← beam_eq]; exact timeUntilAvailable_add s g
  · simp only [exec, execDefer]
    split
    · cases ha : s.memAvailable
      · simp only [suspend_eq, State.beamsAfter, graphicsActive_of_unavailable ha]; rfl
      · rfl
    · rfl

/-- Settles O38, by what `ready` is in each state. -/
theorem recomputeResult : Obligations.RecomputeResult := by
  intro s
  refine ⟨signalsOf s.cfg s.fsm s.cr, rfl, ?_, ?_, ?_⟩
  · simp only [signalsOf, readyIn]
    cases s.cfg.readySet <;> simp [or_assoc]
  · simp [signalsOf, and_assoc]
  · simp only [signalsOf, Bool.and_eq_true, and_assoc]
    cases cmdClass s.cr.cmd <;> simp [movesWords]

end Sys2Proof.Machine
end

section
/-! SUPPORT. The Vector & Fill Engine (spec 42_vector_fill.md): which bytes and pixels plots leave alone, the period of the
dash, the Bresenham walk, that pixels of the raster are apart, what a line and a box paint; and the statements about
them. -/

namespace Sys2Proof.Machine

/-! ### Bytes outside some keys -/

theorem SameOutside.refl (m : Memory) (keys : List Nat) : SameOutside m m keys := fun _ _ => rfl

theorem SameOutside.trans {m n o : Memory} {keys keys' : List Nat} (h : SameOutside m n keys)
    (k : SameOutside n o keys') : SameOutside m o (keys ++ keys') := fun j hj => by
  rw [List.mem_append, not_or] at hj
  exact (k j hj.2).trans (h j hj.1)

theorem plotPlane_sameOutside (s : State) (x y : Nat) (d : Bool) (p : BitVec 2) :
    SameOutside s.mem (s.plotPlane x y d p).mem (wordKeys s.cfg p (pixAddr s.cfg x y)) := by
  unfold State.plotPlane
  split
  · exact writePixel_sameOutside s p x y _
  · exact writePixel_sameOutside s p x y _
  · exact .refl _ _

/-- A fold of steps that each keep to their own keys, and change memory or at least not the configuration. -/
theorem foldl_sameOutside {α : Type} {f : State → α → State} {keys : Config → α → List Nat}
    (hc : ∀ s a, (f s a).cfg = s.cfg) (hf : ∀ s a, SameOutside s.mem (f s a).mem (keys s.cfg a)) (l : List α) (s : State) :
    SameOutside s.mem (l.foldl f s).mem (l.flatMap (keys s.cfg)) := by
  induction l generalizing s with
  | nil => exact .refl _ _
  | cons a l ih =>
    have := (hf s a).trans (ih (f s a))
    rwa [hc] at this

/-- plot leaves every byte outside the pixel's words (R111). -/
theorem plot_sameOutside (s : State) (x y : Nat) (d : Bool) :
    SameOutside s.mem (s.plot x y d).mem (pixelKeys s.cfg [(x, y)]) := by
  have h := foldl_sameOutside (f := fun t p => t.plotPlane x y d p) (keys := fun c p => wordKeys c p (pixAddr c x y))
    (fun s p => by rw [plotPlane_eq]; rfl) (fun s p => plotPlane_sameOutside s x y d p) (planesOf s.cfg.planeCount) s
  simpa [pixelKeys, State.plot] using h

theorem pixelKeys_cons (c : Config) (q : Nat × Nat) (l : List (Nat × Nat)) :
    pixelKeys c (q :: l) = pixelKeys c [q] ++ pixelKeys c l := by simp [pixelKeys]

/-- So does a line outside the words of its pixels (R113). -/
theorem foldl_lineStep_sameOutside (l : List (Int × Int)) (s : State) :
    SameOutside s.mem (l.foldl State.lineStep s).mem (pixelKeys s.cfg (l.map fun q => (q.1.toNat, q.2.toNat))) := by
  have h := foldl_sameOutside (f := State.lineStep) (keys := fun c q => pixelKeys c [(q.1.toNat, q.2.toNat)])
    (fun s q => by rw [lineStep_eq]; rfl) (fun s q => plot_sameOutside s _ _ _) l s
  simpa [pixelKeys, List.flatMap_map] using h

/-- So does a box (R118). -/
theorem foldl_fillStep_sameOutside (l : List (Nat × Nat)) (s : State) :
    SameOutside s.mem (l.foldl State.fillStep s).mem (pixelKeys s.cfg l) := by
  have h := foldl_sameOutside (f := State.fillStep) (keys := fun c q => pixelKeys c [q])
    (fun s q => by rw [fillStep_eq]; rfl) (fun s q => plot_sameOutside s _ _ _) l s
  simpa [pixelKeys] using h

/-! ### Pixels -/

/-- What every pixel reads as after plot, as a value (R111, R112). -/
theorem readPixel_plot_eq (s : State) (q : BitVec 2) (x y x' y' : Nat) (d : Bool) :
    (s.plot x y d).readPixel q x' y' =
      if q.toNat < s.cfg.nplanes ∧ SamePixel s.cfg x y x' y' then (s.planeAction q d).leaves (s.readPixel q x' y')
      else s.readPixel q x' y' := by
  rw [Bool.eq_iff_iff, readPixel_plot]
  split <;> rfl

theorem planeAction_inactive {s : State} {q : BitVec 2} (h : s.ctl.active.getLsbD q.toNat = false) (d : Bool) :
    s.planeAction q d = .keep := by
  rw [State.planeAction, h]; rfl

theorem readPixel_plot_inactive {s : State} {q : BitVec 2} (h : s.ctl.active.getLsbD q.toNat = false) (x y x' y' : Nat)
    (d : Bool) : (s.plot x y d).readPixel q x' y' = s.readPixel q x' y' := by
  rw [readPixel_plot_eq, planeAction_inactive h]
  split <;> rfl

theorem readPixel_plot_other {s : State} {x y x' y' : Nat} (h : ¬SamePixel s.cfg x y x' y') (q : BitVec 2) (d : Bool) :
    (s.plot x y d).readPixel q x' y' = s.readPixel q x' y' := by
  rw [readPixel_plot_eq, if_neg (fun e => h e.2)]

/-- The table as the rule writes it (R112). -/
theorem plotActionOf_eq (active dominance draw setSel : Bool) : plotActionOf active dominance draw setSel =
    if active = false then .keep
    else if draw = true ∧ (dominance = false ∨ setSel = true) then .set
    else .clear := by
  cases active <;> cases dominance <;> cases draw <;> cases setSel <;> rfl

/-- Settles O26, by what every pixel and every byte reads as after plot. -/
theorem plotResult : Obligations.PlotResult := by
  refine ⟨fun a d w e s => ?_, fun x y d s => ⟨_, rfl, ?_, fun q x' y' => ?_, plot_sameOutside s x.toNat y.toNat d⟩⟩
  · rw [← plotActionOf_eq]; rfl
  · rw [plot_eq]; rfl
  · exact readPixel_plot_eq s q _ _ _ _ _

/-! ### The dash pattern -/

/-- One rotation takes each bit from the place below it, bit 0 from bit 15. -/
theorem getLsbD_rotl16 (v : Word) {i : Nat} (hi : i < 16) : (rotl16 v).getLsbD i = v.getLsbD ((i + 15) % 16) := by
  show (v.rotateLeft 1).getLsbD i = _
  rw [BitVec.getLsbD_rotateLeft]
  by_cases h : i < 1
  · simp [show i = 0 by omega]
  · simp only [show (1 % 16 : Nat) = 1 from rfl, decide_eq_false h, cond_false, decide_eq_true hi, Bool.true_and]
    congr 1; omega

theorem getLsbD_rotl16_iterate (v : Word) (m : Nat) {i : Nat} (hi : i < 16) :
    (rotl16^[m] v).getLsbD i = v.getLsbD ((i + 15 * m) % 16) := by
  induction m generalizing v with
  | zero => simp [Nat.mod_eq_of_lt hi]
  | succ m ih =>
    rw [Function.iterate_succ_apply, ih, getLsbD_rotl16 _ (Nat.mod_lt _ (by decide))]
    congr 1; omega

/-- The pattern after `k` points: one rotation for each `dash_n` counts, the rest of the counts still counted (R116). -/
theorem advance_iterate_eq {p : Pattern} (h : p.ok = true) (k : Nat) : Pattern.advance^[k] p =
    { p with dashMask := rotl16^[(p.dashRep.toNat + k) / p.dashN.toNat] p.dashMask
             dashRep := BitVec.ofNat 4 ((p.dashRep.toNat + k) % p.dashN.toNat) } := by
  obtain ⟨hr, hn⟩ := (Pattern.ok_iff p).1 h
  induction k with
  | zero => simp [Nat.div_eq_of_lt hr, Nat.mod_eq_of_lt hr]
  | succ k ih =>
    rw [Function.iterate_succ_apply', ih, ← Nat.add_assoc]
    generalize p.dashRep.toNat + k = c at *
    have hm : c % p.dashN.toNat < p.dashN.toNat := Nat.mod_lt _ (by omega)
    have hrep : (BitVec.ofNat 4 (c % p.dashN.toNat)).toNat = c % p.dashN.toNat := by
      rw [BitVec.toNat_ofNat]; exact Nat.mod_eq_of_lt (by omega)
    unfold Pattern.advance
    simp only [hrep]
    split
    · next hle =>
      have hd : (c + 1) % p.dashN.toNat = 0 ∧ (c + 1) / p.dashN.toNat = c / p.dashN.toNat + 1 := by
        have := Nat.div_add_mod c p.dashN.toNat
        have e : c + 1 = p.dashN.toNat * (c / p.dashN.toNat + 1) := by rw [Nat.mul_add]; omega
        rw [e, Nat.mul_mod_right, Nat.mul_div_cancel_left _ (by omega)]
        exact ⟨rfl, rfl⟩
      rw [hd.1, hd.2, Function.iterate_succ_apply']
      rfl
    · next hlt =>
      have hd : (c + 1) % p.dashN.toNat = c % p.dashN.toNat + 1 ∧ (c + 1) / p.dashN.toNat = c / p.dashN.toNat := by
        have := Nat.div_add_mod c p.dashN.toNat
        have e : c + 1 = c % p.dashN.toNat + 1 + p.dashN.toNat * (c / p.dashN.toNat) := by omega
        constructor
        · conv_lhs => rw [e]
          rw [Nat.add_mul_mod_self_left, Nat.mod_eq_of_lt (by omega)]
        · conv_lhs => rw [e]
          rw [Nat.add_mul_div_left _ _ (by omega), Nat.div_eq_of_lt (by omega), Nat.zero_add]
      rw [hd.1, hd.2, BitVec.ofNat_add]
      rfl

/-- Settles O27, by the pattern after `k` points. -/
theorem dashResults : Obligations.DashResults := by
  refine ⟨fun s => ⟨rfl, rfl, rfl⟩, fun p h => ⟨?_, fun h0 k => ?_⟩⟩
  all_goals
    obtain ⟨hr, hn⟩ := (Pattern.ok_iff p).1 h
    rw [advance_iterate_eq h]
  · have hm : rotl16^[16] p.dashMask = p.dashMask := BitVec.eq_of_getLsbD_eq fun i hi => by
      rw [getLsbD_rotl16_iterate _ _ hi]; congr 1; omega
    rw [Nat.add_mul_div_right _ _ (by omega), Nat.add_mul_mod_self_right, Nat.div_eq_of_lt hr, Nat.mod_eq_of_lt hr,
      Nat.zero_add, hm]
    simp
  · rw [h0, getLsbD_rotl16_iterate _ _ (by decide)]
    congr 1
    rw [show (0 : BitVec 4).toNat = 0 from rfl, Nat.zero_add]
    generalize k / p.dashN.toNat = m
    omega

/-! ### The walk of a line -/

/-- What the walk from `(x, y)` to `(x1, y1)` in `k` steps is to be (R113). -/
structure WalksTo (x1 y1 : Int) (k : Nat) (x y : Int) (l : List (Int × Int)) : Prop where
  length : l.length = k + 1
  head : l.head? = some (x, y)
  last : l.getLast? = some (x1, y1)
  near : l.IsChain fun a b => (b.1 - a.1).natAbs ≤ 1 ∧ (b.2 - a.2).natAbs ≤ 1
  box : ∀ q ∈ l, min x x1 ≤ q.1 ∧ q.1 ≤ max x x1 ∧ min y y1 ≤ q.2 ∧ q.2 ≤ max y y1
  nodup : l.Nodup

theorem WalksTo.single (x y : Int) : WalksTo x y 0 x y [(x, y)] where
  length := rfl
  head := rfl
  last := rfl
  near := .singleton _
  box := by simp
  nodup := List.nodup_singleton _

/-- One more step in front, towards the end. -/
theorem WalksTo.step {x1 y1 x' y' : Int} {k : Nat} {l : List (Int × Int)} (h : WalksTo x1 y1 k x' y' l) {x y : Int}
    (hx : (x' - x).natAbs ≤ 1) (hy : (y' - y).natAbs ≤ 1) (hxb : min x x1 ≤ x' ∧ x' ≤ max x x1)
    (hyb : min y y1 ≤ y' ∧ y' ≤ max y y1) (hne : x' ≠ x) : WalksTo x1 y1 (k + 1) x y ((x, y) :: l) where
  length := by rw [List.length_cons, h.length]
  head := rfl
  last := by rw [List.getLast?_cons, h.last]; rfl
  near := List.isChain_cons.2 ⟨fun q hq => by
    rw [h.head, Option.mem_some_iff] at hq
    exact hq ▸ ⟨hx, hy⟩, h.near⟩
  box := by
    intro q hq
    rcases List.mem_cons.1 hq with rfl | hq
    · simp
    · have := h.box q hq
      omega
  nodup := List.nodup_cons.2 ⟨fun hq => by
    have := h.box _ hq
    dsimp only at this
    omega, h.nodup⟩

/-- The walk seen with the axes exchanged. -/
theorem WalksTo.swap {x1 y1 x y : Int} {k : Nat} {l : List (Int × Int)} (h : WalksTo x1 y1 k x y l) :
    WalksTo y1 x1 k y x (l.map Prod.swap) where
  length := by rw [List.length_map, h.length]
  head := by rw [List.head?_map, h.head]; rfl
  last := by rw [List.getLast?_map, h.last]; rfl
  near := (List.isChain_map _).2 (h.near.imp fun _ _ e => ⟨e.2, e.1⟩)
  box := by
    intro q hq
    obtain ⟨r, hr, rfl⟩ := List.mem_map.1 hq
    obtain ⟨a, b, c, d⟩ := h.box r hr
    exact ⟨c, d, a, b⟩
  nodup := h.nodup.map Prod.swap_injective

/-- The walk does the same with the axes exchanged and the error term negated. -/
theorem lineWalk_swap (x1 y1 dx dy sx sy : Int) (n : Nat) (x y err : Int) :
    lineWalk x1 y1 dx dy sx sy n x y err = (lineWalk y1 x1 dy dx sy sx n y x (-err)).map Prod.swap := by
  induction n generalizing x y err with
  | zero => rfl
  | succ n ih =>
    rw [lineWalk, lineWalk, List.map_cons]
    congr 1
    by_cases h : x = x1 ∧ y = y1
    · rw [if_pos h, if_pos (And.intro h.2 h.1)]; rfl
    · have hx : -err < dx ↔ -dx < err := by omega
      have hy : -dy < -err ↔ err < dy := by omega
      rw [if_neg h, if_neg (c := y = y1 ∧ x = x1) (fun e => h ⟨e.2, e.1⟩), ih]
      simp only [hx, hy]
      congr 2
      split <;> split <;> omega

/-- Along the longer axis the walk takes one step after the other to the end: `k` steps to go there, `j` along the
shorter one, the error term between 0 and the longer side, now and at the end (R113). -/
theorem lineWalk_major {x1 y1 dx dy sx sy : Int} (hsx : sx = 1 ∨ sx = -1) (hsy : sy = 1 ∨ sy = -1) (hdx : 0 < dx)
    (hdy : 0 ≤ dy) (hle : dy ≤ dx) (k : Nat) {n j : Nat} {x y err : Int} (hn : k < n) (hx : x1 = x + sx * k)
    (hy : y1 = y + sy * j) (he : 0 ≤ err ∧ err < dx) (hend : 0 ≤ err - k * dy + j * dx ∧ err - k * dy + j * dx < dx) :
    WalksTo x1 y1 k x y (lineWalk x1 y1 dx dy sx sy n x y err) := by
  obtain ⟨n, rfl⟩ : ∃ m, n = m + 1 := ⟨n - 1, by omega⟩
  induction k generalizing n j x y err with
  | zero =>
    have hj : j = 0 := by
      by_contra hj
      have : dx ≤ j * dx := le_mul_of_one_le_left hdx.le (by omega)
      push_cast at hend
      omega
    subst hj
    simp only [Nat.cast_zero, mul_zero, add_zero] at hx hy
    rw [lineWalk, if_pos ⟨hx.symm, hy.symm⟩, hx, hy]
    exact .single x y
  | succ k ih =>
    obtain ⟨n, rfl⟩ : ∃ m, n = m + 1 := ⟨n - 1, by omega⟩
    push_cast at hx hend
    have hk : (k + 1) * dy = k * dy + dy := by ring
    have hne : ¬(x = x1 ∧ y = y1) := by rcases hsx with rfl | rfl <;> omega
    rw [lineWalk, if_neg hne, if_pos (show -dx < err by omega), if_pos (show -dx < err by omega)]
    by_cases hs : err < dy
    · rw [if_pos hs, if_pos hs]
      obtain ⟨j, rfl⟩ : ∃ i, j = i + 1 := ⟨j - 1, by
        have : j ≠ 0 := by
          rintro rfl
          have : 0 ≤ (k : Int) * dy := by positivity
          push_cast at hend
          omega
        omega⟩
      push_cast at hy hend
      have hj : ((j : Int) + 1) * dx = j * dx + dx := by ring
      refine WalksTo.step (ih (j := j) ?_ ?_ (by omega) (by omega) n (by omega)) ?_ ?_ ?_ ?_ ?_
      all_goals rcases hsx with rfl | rfl <;> rcases hsy with rfl | rfl <;> omega
    · rw [if_neg hs, if_neg hs]
      refine WalksTo.step (ih (j := j) ?_ hy (by omega) (by omega) n (by omega)) ?_ ?_ ?_ ?_ ?_
      all_goals rcases hsx with rfl | rfl <;> omega

/-- The walk of draw_line (R113). -/
theorem linePoints_walksTo (x0 y0 x1 y1 : Int) :
    WalksTo x1 y1 (max (x1 - x0).natAbs (y1 - y0).natAbs) x0 y0 (linePoints x0 y0 x1 y1) := by
  unfold linePoints
  have hsx : (if x0 < x1 then 1 else -1 : Int) = 1 ∨ (if x0 < x1 then 1 else -1 : Int) = -1 := by split <;> simp
  have hsy : (if y0 < y1 then 1 else -1 : Int) = 1 ∨ (if y0 < y1 then 1 else -1 : Int) = -1 := by split <;> simp
  have hx : x1 = x0 + (if x0 < x1 then 1 else -1) * (x1 - x0).natAbs := by split <;> omega
  have hy : y1 = y0 + (if y0 < y1 then 1 else -1) * (y1 - y0).natAbs := by split <;> omega
  generalize (x1 - x0).natAbs = dx at *
  generalize (y1 - y0).natAbs = dy at *
  generalize (if x0 < x1 then 1 else -1 : Int) = sx at *
  generalize (if y0 < y1 then 1 else -1 : Int) = sy at *
  have comm : (dx : Int) * dy = dy * dx := Int.mul_comm ..
  dsimp only
  by_cases hlt : dy < dx
  · rw [Nat.max_eq_left hlt.le, if_pos (by omega), Int.tdiv_eq_ediv_of_nonneg (by omega)]
    exact lineWalk_major hsx hsy (by omega) (by omega) (by omega) dx (j := dy) (by omega) hx hy (by omega) (by omega)
  · rw [Nat.max_eq_right (by omega), if_neg (by omega), Int.neg_tdiv, Int.tdiv_eq_ediv_of_nonneg (by omega), lineWalk_swap,
      neg_neg]
    rcases Nat.eq_zero_or_pos dy with rfl | hpos
    · obtain rfl : dx = 0 := by omega
      simp only [Nat.cast_zero, mul_zero, add_zero] at hx hy
      rw [hx, hy]
      simpa [lineWalk] using WalksTo.single x0 y0
    · exact (lineWalk_major hsy hsx (by omega) (by omega) (by omega) dy (j := dx) (by omega) hy hx (by omega)
        (by omega)).swap

/-- Settles O28, by the walk along the longer axis. -/
theorem lineWalksFromEndToEnd : Obligations.LineWalksFromEndToEnd := fun x0 y0 x1 y1 => by
  have h := linePoints_walksTo x0 y0 x1 y1
  exact ⟨h.length, h.head, h.last, fun k hk => List.isChain_iff_getElem.1 h.near k hk, h.box⟩

/-! ### draw_line -/

section
variable {α : Type} {f : State → α → State} {q : BitVec 2} {s : State}

/-- Steps that each leave alone all pixels but their own leave alone a pixel that is none of theirs. -/
theorem foldl_readPixel_other {pt : α → Nat × Nat} {x' y' : Nat} (hc : ∀ s a, (f s a).cfg = s.cfg)
    (hf : ∀ s a, ¬SamePixel s.cfg (pt a).1 (pt a).2 x' y' → (f s a).readPixel q x' y' = s.readPixel q x' y') {l : List α}
    (h : ∀ a ∈ l, ¬SamePixel s.cfg (pt a).1 (pt a).2 x' y') : (l.foldl f s).readPixel q x' y' = s.readPixel q x' y' := by
  induction l generalizing s with
  | nil => rfl
  | cons a l ih =>
    rw [List.foldl_cons, ih fun b hb => by rw [hc]; exact h b (.tail _ hb)]
    exact hf s a (h a (.head _))

theorem foldl_readPixel_inactive {x' y' : Nat} (hc : ∀ s a, (f s a).ctl = s.ctl)
    (hf : ∀ s a, s.ctl.active.getLsbD q.toNat = false → (f s a).readPixel q x' y' = s.readPixel q x' y')
    (h : s.ctl.active.getLsbD q.toNat = false) (l : List α) :
    (l.foldl f s).readPixel q x' y' = s.readPixel q x' y' := by
  induction l generalizing s with
  | nil => rfl
  | cons a l ih => rw [List.foldl_cons, ih (by rw [hc]; exact h), hf s a h]

end

theorem lineStep_cfg (s : State) (z : Int × Int) : (s.lineStep z).cfg = s.cfg := by rw [lineStep_eq]; rfl

theorem lineStep_ctl (s : State) (z : Int × Int) : (s.lineStep z).ctl = s.ctl := by rw [lineStep_eq]; rfl

theorem fillStep_cfg (s : State) (z : Nat × Nat) : (s.fillStep z).cfg = s.cfg := by rw [fillStep_eq]; rfl

theorem fillStep_ctl (s : State) (z : Nat × Nat) : (s.fillStep z).ctl = s.ctl := by rw [fillStep_eq]; rfl

/-- Advancing the dash changes no pixel. -/
theorem readPixel_lineStep (s : State) (z : Int × Int) (q : BitVec 2) (x' y' : Nat) :
    (s.lineStep z).readPixel q x' y' = (s.plot z.1.toNat z.2.toNat s.dashBit).readPixel q x' y' := rfl

theorem readPixel_fillStep (s : State) (z : Nat × Nat) (q : BitVec 2) (x' y' : Nat) :
    (s.fillStep z).readPixel q x' y' = (s.plot z.1 z.2 (decide (s.tile z.2 &&& pixMask z.1 ≠ 0))).readPixel q x' y' := rfl

theorem foldl_lineStep_other {q : BitVec 2} {x' y' : Nat} {s : State} {l : List (Int × Int)}
    (h : ∀ z ∈ l, ¬SamePixel s.cfg z.1.toNat z.2.toNat x' y') :
    (l.foldl State.lineStep s).readPixel q x' y' = s.readPixel q x' y' :=
  foldl_readPixel_other (f := State.lineStep) (pt := fun z => (z.1.toNat, z.2.toNat)) lineStep_cfg
    (fun s z e => by rw [readPixel_lineStep, readPixel_plot_other e]) h

theorem foldl_fillStep_other {q : BitVec 2} {x' y' : Nat} {s : State} {l : List (Nat × Nat)}
    (h : ∀ z ∈ l, ¬SamePixel s.cfg z.1 z.2 x' y') :
    (l.foldl State.fillStep s).readPixel q x' y' = s.readPixel q x' y' :=
  foldl_readPixel_other (f := State.fillStep) (pt := id) fillStep_cfg
    (fun s z e => by rw [readPixel_fillStep]; exact readPixel_plot_other e _ _) h

theorem foldl_lineStep_inactive {q : BitVec 2} {s : State} (h : s.ctl.active.getLsbD q.toNat = false)
    (l : List (Int × Int)) (x' y' : Nat) : (l.foldl State.lineStep s).readPixel q x' y' = s.readPixel q x' y' :=
  foldl_readPixel_inactive (f := State.lineStep) lineStep_ctl
    (fun s z e => by rw [readPixel_lineStep, readPixel_plot_inactive e]) h l

theorem foldl_fillStep_inactive {q : BitVec 2} {s : State} (h : s.ctl.active.getLsbD q.toNat = false)
    (l : List (Nat × Nat)) (x' y' : Nat) : (l.foldl State.fillStep s).readPixel q x' y' = s.readPixel q x' y' :=
  foldl_readPixel_inactive (f := State.fillStep) fillStep_ctl
    (fun s z e => by rw [readPixel_fillStep, readPixel_plot_inactive e]) h l

theorem withMem_withPat_of_eq {s d : State} {m : Memory} {p : Pattern} (h : d = (s.withMem m).withPat p) (v : Ret) :
    ((d.withRet v).withMem s.mem).withPat s.pat = s.withRet v := by
  rw [h]; rfl

theorem pat_of_eq {s d : State} {m : Memory} {p : Pattern} (h : d = (s.withMem m).withPat p) (v : Ret) :
    (d.withRet v).pat = p := by
  rw [h]; rfl

/-- Settles O29, by the walk's length and what each of its plots leaves alone. -/
theorem drawLineResult : Obligations.DrawLineResult := by
  intro x0 y0 x1 y1 s
  have hlen := (linePoints_walksTo x0.toNat y0.toNat x1.toNat y1.toNat).length
  have hd := drawLine_eq s x0 y0 x1 y1
  rw [hlen] at hd
  refine ⟨_, rfl, withMem_withPat_of_eq hd .none, pat_of_eq hd .none, fun q x' y' h => ?_, fun q x' y' h => ?_, ?_⟩
  · exact foldl_lineStep_other fun z hz => h _ (List.mem_map_of_mem hz)
  · exact foldl_lineStep_inactive h _ _ _
  · exact foldl_lineStep_sameOutside _ s

/-! ### Pixels of the raster are apart -/

theorem and_addrMask_of_le {c : Config} (h : c.wf = true) {a : Nat} (ha : a ≤ c.addrMask) : a &&& c.addrMask = a := by
  obtain ⟨n, hn⟩ := (Nat.and_sub_one_eq_zero_iff_isPowerOfTwo (n := c.addrMask + 1) (by omega)).1
    (by rw [Nat.and_comm]; exact addrMask_and_succ h)
  have hm : c.addrMask = 2 ^ n - 1 := by omega
  rw [hm, Nat.and_two_pow_sub_one_of_lt_two_pow (by omega)]

/-- A pixel of the raster has its word at the address as it stands (R90): the raster fits the plane. -/
theorem pixAddr_of_inGraphics {c : Config} (h : c.wf = true) {x y : Nat} (hp : inGraphics c x y) :
    x / 16 < c.rowStride ∧ pixAddr c x y = x / 16 + y * c.rowStride := by
  have hw := h
  simp only [Config.wf, Bool.and_eq_true, beq_iff_eq, decide_eq_true_eq] at hw
  have hbits : c.wordBits = 16 := by tauto
  have hwide : c.gfxW ≤ c.rowStride * c.wordBits := by tauto
  have hhigh : c.rowStride * c.gfxH ≤ c.planeWords := by tauto
  rw [hbits] at hwide
  obtain ⟨hx, hy⟩ := hp
  have hcol : x / 16 < c.rowStride := by omega
  refine ⟨hcol, and_addrMask_of_le h ?_⟩
  have hrow : (y + 1) * c.rowStride ≤ c.rowStride * c.gfxH := by
    rw [Nat.mul_comm]; exact Nat.mul_le_mul_left _ hy
  rw [Nat.add_mul, Nat.one_mul] at hrow
  rw [Config.planeWords] at hhigh
  omega

theorem samePixel_iff {c : Config} (h : c.wf = true) {x y x' y' : Nat} (hp : inGraphics c x y)
    (hp' : inGraphics c x' y') : SamePixel c x y x' y' ↔ x = x' ∧ y = y' := by
  refine ⟨fun ⟨ha, hm⟩ => ?_, fun ⟨ex, ey⟩ => by rw [ex, ey]; exact ⟨rfl, rfl⟩⟩
  obtain ⟨hc, e⟩ := pixAddr_of_inGraphics h hp
  obtain ⟨hc', e'⟩ := pixAddr_of_inGraphics h hp'
  rw [e, e'] at ha
  have hy := congrArg (· / c.rowStride) ha
  simp only [Nat.add_mul_div_right _ _ (show 0 < c.rowStride by omega), Nat.div_eq_of_lt hc, Nat.div_eq_of_lt hc',
    Nat.zero_add] at hy
  subst hy
  exact ⟨by omega, rfl⟩

/-! ### What a line paints -/

/-- In a line the pixel of a point that no other point shares ends up as that point's plot leaves it, with the dash bit
of that point (R112, R116). -/
theorem foldl_lineStep_at {l r : List (Int × Int)} {z : Int × Int} {s : State} {q : BitVec 2} (hq : q.toNat < s.cfg.nplanes)
    (h : ∀ w ∈ l ++ r, ¬SamePixel s.cfg w.1.toNat w.2.toNat z.1.toNat z.2.toNat) :
    ((l ++ z :: r).foldl State.lineStep s).readPixel q z.1.toNat z.2.toNat =
      (s.planeAction q ((Pattern.advance^[l.length] s.pat).dashMask.getLsbD 15)).leaves
        (s.readPixel q z.1.toNat z.2.toNat) := by
  rw [List.foldl_append, List.foldl_cons]
  have hs := foldl_lineStep_eq l s
  have hl : (l.foldl State.lineStep s).readPixel q z.1.toNat z.2.toNat = s.readPixel q z.1.toNat z.2.toNat :=
    foldl_lineStep_other fun w hw => h w (List.mem_append_left _ hw)
  generalize l.foldl State.lineStep s = t at hs hl
  have hc : t.cfg = s.cfg := by rw [hs]; rfl
  have ha : t.planeAction q t.dashBit = s.planeAction q ((Pattern.advance^[l.length] s.pat).dashMask.getLsbD 15) := by
    rw [hs]; rfl
  rw [foldl_lineStep_other fun w hw => by rw [lineStep_cfg, hc]; exact h w (List.mem_append_right _ hw),
    readPixel_lineStep, readPixel_plot_eq, hc, if_pos ⟨hq, rfl, rfl⟩, ha, hl]

theorem take_append_getElem_cons {α : Type} (l : List α) {k : Nat} (h : k < l.length) :
    l = l.take k ++ l[k] :: l.drop (k + 1) := by
  rw [← List.drop_eq_getElem_cons h, List.take_append_drop]

/-- Settles O30: the points of a line are apart, so a later or an earlier one does not touch the `k`-th one's pixel. -/
theorem linePaintsItsPoints : Obligations.LinePaintsItsPoints := by
  intro x0 y0 x1 y1 s t hwf h0 h1 ht q k hk hq
  obtain rfl := Host.Outcome.next.inj ht
  have hw := linePoints_walksTo x0.toNat y0.toNat x1.toNat y1.toNat
  have hk' : k < (linePoints x0.toNat y0.toNat x1.toNat y1.toNat).length := by simpa [pointsOfLine] using hk
  have hsplit := take_append_getElem_cons _ hk'
  have hin : ∀ w ∈ linePoints x0.toNat y0.toNat x1.toNat y1.toNat, 0 ≤ w.1 ∧ 0 ≤ w.2 ∧
      inGraphics s.cfg w.1.toNat w.2.toNat := fun w hw' => by
    have := hw.box w hw'
    unfold inGraphics at *
    omega
  have hz := hin _ (List.getElem_mem hk')
  have hnd := hw.nodup
  rw [hsplit, List.nodup_middle, List.nodup_cons] at hnd
  have key := foldl_lineStep_at (l := (linePoints x0.toNat y0.toNat x1.toNat y1.toNat).take k) (s := s) hq fun w hw' => by
    have hm := hin w (by rw [hsplit]; exact List.perm_middle.mem_iff.2 (.tail _ hw'))
    rw [samePixel_iff hwf hm.2.2 hz.2.2]
    rintro ⟨ex, ey⟩
    have e : w = (linePoints x0.toNat y0.toNat x1.toNat y1.toNat)[k] := Prod.ext (by omega) (by omega)
    exact hnd.1 (e ▸ hw')
  rw [← hsplit, List.length_take, Nat.min_eq_left hk'.le] at key
  simp only [pointsOfLine, List.getElem_map]
  exact key

/-! ### fill_rect -/

/-- The tile has the nibble in all four places (R119). -/
theorem tile_bit (n : Word) {i : Nat} (hi : i < 16) :
    decide ((n &&& 0xF) * 0x1111 &&& (0x8000#16 >>> i) ≠ 0) = n.getLsbD (3 - i % 4) := by
  have hn : n &&& 0xF = (n.setWidth 4).setWidth 16 := by
    apply BitVec.eq_of_toNat_eq
    rw [BitVec.toNat_and, BitVec.toNat_setWidth, BitVec.toNat_setWidth, Nat.mod_eq_of_lt (b := 2 ^ 16) (by omega)]
    exact Nat.and_two_pow_sub_one_eq_mod _ 4
  have hb : n.getLsbD (3 - i % 4) = (n.setWidth 4).getLsbD (3 - i % 4) := by
    rw [BitVec.getLsbD_setWidth, decide_eq_true (by omega), Bool.true_and]
  have all : ∀ (m : BitVec 4) (j : Fin 16), decide ((m.setWidth 16) * 0x1111 &&& (0x8000#16 >>> j.val) ≠ 0)
      = m.getLsbD (3 - j.val % 4) := by decide
  rw [hn, hb]
  exact all _ ⟨i, hi⟩

theorem mem_fromTo {a b n : Nat} : n ∈ fromTo a b ↔ a ≤ n ∧ n ≤ b := by
  simp only [fromTo, List.mem_map, List.mem_range]
  exact ⟨fun ⟨k, hk, e⟩ => by omega, fun h => ⟨n - a, by omega, by omega⟩⟩

theorem nodup_fromTo (a b : Nat) : (fromTo a b).Nodup := List.nodup_range.map fun m n e => by simpa using e

theorem mem_boxPoints {x0 y0 x1 y1 x y : Nat} : (x, y) ∈ boxPoints x0 y0 x1 y1 ↔
    min x0 x1 ≤ x ∧ x ≤ max x0 x1 ∧ min y0 y1 ≤ y ∧ y ≤ max y0 y1 := by
  simp only [boxPoints, List.mem_flatMap, List.mem_map, mem_fromTo, Prod.mk.injEq]
  exact ⟨fun ⟨b, hb, a, ha, ea, eb⟩ => by omega, fun h => ⟨y, by omega, x, by omega, rfl, rfl⟩⟩

theorem nodup_boxPoints (x0 y0 x1 y1 : Nat) : (boxPoints x0 y0 x1 y1).Nodup := by
  refine List.nodup_flatMap.2 ⟨fun y _ => (nodup_fromTo _ _).map fun a b e => (Prod.mk.inj e).1, ?_⟩
  refine (nodup_fromTo _ _).imp fun {y y'} hne z hz hz' => ?_
  obtain ⟨x, -, rfl⟩ := List.mem_map.1 hz
  obtain ⟨x', -, e⟩ := List.mem_map.1 hz'
  exact hne (Prod.mk.inj e).2.symm

theorem boxPoints_comm_x (x0 y0 x1 y1 : Nat) : boxPoints x1 y0 x0 y1 = boxPoints x0 y0 x1 y1 := by
  rw [boxPoints, boxPoints, Nat.min_comm x1, Nat.max_comm x1]

theorem boxPoints_comm_y (x0 y0 x1 y1 : Nat) : boxPoints x0 y1 x1 y0 = boxPoints x0 y0 x1 y1 := by
  rw [boxPoints, boxPoints, Nat.min_comm y1, Nat.max_comm y1]

theorem fillRect_comm_x (s : State) (x0 : BitVec 10) (y0 : BitVec 9) (x1 : BitVec 10) (y1 : BitVec 9) :
    s.fillRect x1 y0 x0 y1 = s.fillRect x0 y0 x1 y1 := by rw [State.fillRect, boxPoints_comm_x]; rfl

theorem fillRect_comm_y (s : State) (x0 : BitVec 10) (y0 : BitVec 9) (x1 : BitVec 10) (y1 : BitVec 9) :
    s.fillRect x0 y1 x1 y0 = s.fillRect x0 y0 x1 y1 := by rw [State.fillRect, boxPoints_comm_y]; rfl

theorem withMem_of_eq {s d : State} {m : Memory} (h : d = s.withMem m) (v : Ret) :
    (d.withRet v).withMem s.mem = s.withRet v := by
  rw [h]; rfl

/-- Settles O31, by what each plot of the fill leaves alone. -/
theorem tileAndFillRectResults : Obligations.TileAndFillRectResults := by
  refine ⟨fun y s => ⟨rfl, fun x => ?_⟩, fun x0 y0 x1 y1 s => ⟨⟨_, rfl, withMem_of_eq (fillRect_eq ..) .none,
    fun q x' y' h => ?_, fun q x' y' h => ?_, ?_⟩, ?_, ?_⟩⟩
  · rw [State.tile, tileOf, pixMask, tile_bit _ (Nat.mod_lt _ (by decide)), BitVec.getLsbD_ushiftRight,
      Nat.mod_mod_of_dvd _ (by decide)]
  · exact foldl_fillStep_other h
  · exact foldl_fillStep_inactive h _ _ _
  · exact foldl_fillStep_sameOutside _ s
  · show execFillRect .. = execFillRect ..
    rw [execFillRect, execFillRect, fillRect_comm_x, fillRect_comm_y]
  · show execFillRect .. = execFillRect ..
    rw [execFillRect, execFillRect, fillRect_comm_x]

/-- In a fill the pixel of a point that no other point shares ends up as that point's plot leaves it (R112, R118). -/
theorem foldl_fillStep_at {l r : List (Nat × Nat)} {z : Nat × Nat} {s : State} {q : BitVec 2} (hq : q.toNat < s.cfg.nplanes)
    (h : ∀ w ∈ l ++ r, ¬SamePixel s.cfg w.1 w.2 z.1 z.2) :
    ((l ++ z :: r).foldl State.fillStep s).readPixel q z.1 z.2 =
      (s.planeAction q (decide (s.tile z.2 &&& pixMask z.1 ≠ 0))).leaves (s.readPixel q z.1 z.2) := by
  rw [List.foldl_append, List.foldl_cons]
  have hs := foldl_onlyMem fillStep_eq l s
  have hl : (l.foldl State.fillStep s).readPixel q z.1 z.2 = s.readPixel q z.1 z.2 :=
    foldl_fillStep_other fun w hw => h w (List.mem_append_left _ hw)
  generalize l.foldl State.fillStep s = t at hs hl
  have hc : t.cfg = s.cfg := by rw [hs]; rfl
  have ha : ∀ d, t.planeAction q d = s.planeAction q d := fun d => by rw [hs]; rfl
  have ht : ∀ y, t.tile y = s.tile y := fun y => by rw [hs]; rfl
  rw [foldl_fillStep_other fun w hw => by rw [fillStep_cfg, hc]; exact h w (List.mem_append_right _ hw),
    readPixel_fillStep, readPixel_plot_eq, hc, if_pos ⟨hq, rfl, rfl⟩, ha, hl, ht]

/-- Settles O32: the points of the box are apart in the raster. -/
theorem fillPaintsTheBox : Obligations.FillPaintsTheBox := by
  intro x0 y0 x1 y1 s t hwf h0 h1 ht q x y hq hp
  obtain rfl := Host.Outcome.next.inj ht
  have hin : ∀ w ∈ boxPoints x0.toNat y0.toNat x1.toNat y1.toNat, inGraphics s.cfg w.1 w.2 := fun w hw => by
    have := mem_boxPoints.1 (show (w.1, w.2) ∈ _ from hw)
    unfold inGraphics at *
    omega
  show ((boxPoints x0.toNat y0.toNat x1.toNat y1.toNat).foldl State.fillStep s).readPixel q x y = _
  by_cases hb : (x, y) ∈ boxPoints x0.toNat y0.toNat x1.toNat y1.toNat
  · rw [if_pos (mem_boxPoints.1 hb)]
    have hnd := nodup_boxPoints x0.toNat y0.toNat x1.toNat y1.toNat
    obtain ⟨l, r, e⟩ := List.append_of_mem hb
    rw [e] at hnd hin ⊢
    rw [List.nodup_middle, List.nodup_cons] at hnd
    refine foldl_fillStep_at (z := (x, y)) hq fun w hw => ?_
    rw [samePixel_iff hwf (hin w (List.perm_middle.mem_iff.2 (.tail _ hw))) hp]
    rintro ⟨ex, ey⟩
    exact hnd.1 ((Prod.ext ex ey : w = (x, y)) ▸ hw)
  · rw [if_neg fun e => hb (mem_boxPoints.2 e)]
    refine foldl_fillStep_other fun w hw => ?_
    rw [samePixel_iff hwf (hin w hw) hp]
    rintro ⟨ex, ey⟩
    exact hb ((Prod.ext ex ey : w = (x, y)) ▸ hw)

end Sys2Proof.Machine
end

section
/-! SUPPORT. The statements about the commands (spec 44_commands.md): what delivering a command comes to, put in the
statements' words; a command as its accesses; and a write transfer of any length. -/

namespace Sys2Proof.Machine

/-! ### One-word parameters -/

/-- A one-word parameter ends with its apply step done, in WAIT_DS_0 (R144, R170). -/
theorem select_feed_applied {c : Cmd} {g : State → State} (hc : cmdClass c = .param1)
    (hg : ∀ t : State, t.cr.cmd = c → t.applyParam1 = g t) {f : CmdFlags} (d : Word) {s : State} (h : s.accepts c f = true) :
    (Host.Outcome.next (((s.select c f).feed d).withRet .none) : Result) =
      .next ((g ((s.begun c f).withDataW d)).endIn .waitDs0) := by
  rw [select_feed_param1 d h hc, hg ((s.begun c f).withDataW d) (begun_cmd s c f)]

theorem applyLdmap_eq (s : State) : s.applyLdmap = s.withMusic (if s.cfg.nplanes = 3 then
    s.music.set (dataEntry s.dataW).toFin.val (dataColour s.cfg s.dataW) (dataEntry s.dataW).toFin.isLt else s.music) := by
  unfold State.applyLdmap
  split <;> rfl

/-- Settles O43, by the apply step of each command. -/
theorem oneWordCommandResults : Obligations.OneWordCommandResults := by
  intro f d s
  refine ⟨fun h => ?_, fun h => ?_, fun h => ?_, fun h => ?_, fun h => ?_, fun h => ?_, fun h => ?_, fun h => ?_,
    fun h => ?_⟩
  · exact select_feed_applied (g := id) rfl (fun t e => by unfold State.applyParam1; rw [e]; rfl) d h
  · refine (select_feed_applied (g := State.applyLdiox) rfl (fun t e => by unfold State.applyParam1; rw [e]) d h).trans ?_
    rw [State.applyLdiox, State.withDataW_cfg, begun_cfg]; rfl
  · refine (select_feed_applied (g := State.applyLdioy) rfl (fun t e => by unfold State.applyParam1; rw [e]) d h).trans ?_
    rw [State.applyLdioy, State.withDataW_cfg, begun_cfg]; rfl
  · refine (select_feed_applied (g := State.applyLdmc) rfl (fun t e => by unfold State.applyParam1; rw [e]) d h).trans ?_
    rw [State.applyLdmc, State.withDataW_cfg, begun_cfg, State.withDataW_ctl, begun_ctl]; rfl
  · refine (select_feed_applied (g := State.applyLdlp) rfl (fun t e => by unfold State.applyParam1; rw [e]) d h).trans ?_
    rw [State.applyLdlp, State.withDataW_cfg, begun_cfg]; rfl
  · refine (select_feed_applied (g := State.applyLdcm) rfl (fun t e => by unfold State.applyParam1; rw [e]) d h).trans ?_
    rw [State.applyLdcm, State.withDataW_cfg, begun_cfg, State.withDataW_ctl, begun_ctl]; rfl
  · refine (select_feed_applied (g := State.applyLdmap) rfl (fun t e => by unfold State.applyParam1; rw [e]) d h).trans ?_
    rw [applyLdmap_eq, State.withDataW_cfg, begun_cfg, State.withDataW_music, begun_music]; rfl
  · refine (select_feed_applied (g := State.applyLdcy) rfl (fun t e => by unfold State.applyParam1; rw [e]) d h).trans ?_
    rw [State.applyLdcy, State.withDataW_cfg, begun_cfg, State.withDataW_cursor, begun_cursor]; rfl
  · refine (select_feed_applied (g := State.applyLdcx) rfl (fun t e => by unfold State.applyParam1; rw [e]) d h).trans ?_
    rw [State.applyLdcx, State.withDataW_cfg, begun_cfg, State.withDataW_cursor, begun_cursor]; rfl

/-! ### Commands that ask the arbiter -/

theorem begun_planeRead (s : State) (c : Cmd) (f : CmdFlags) (p : BitVec 2) (a : Nat) :
    (s.begun c f).planeRead p a = s.planeRead p a := by
  unfold State.planeRead
  rw [begun_mem, begun_cfg]

/-- Memory granted: no wake-up stays pending, and where graphics are active the beam's position is taken (R102). -/
theorem granted_eq_ite (s : State) : s.granted =
    (s.withWakePending false).withBeams (if s.graphicsActive = true then s.beams.tail else s.beams) := rfl

/-- Suspended: graphics are active, so the beam's position is taken (R103). -/
theorem suspend_of_unavailable {s : State} (h : s.memAvailable = false) : s.suspend =
    ((s.withBeams s.beams.tail).withWakePending true).withWakeDelay (s.timeUntilAvailable s.graphicsActive) := by
  rw [suspend_eq, graphicsActive_of_unavailable h]; rfl

/-- Settles O44: the word read, or the HIT word, in `DATA_R` at once. -/
theorem readCommandResults : Obligations.ReadCommandResults := by
  refine fun f s => ⟨fun h ha => ?_, fun h ha => ?_⟩
  · show (Host.Outcome.next ((s.select .rdw f).withRet .none) : Result) = _
    rw [select_read h (.inl rfl), if_pos ha, if_pos rfl, granted_eq_ite, ← begun_planeRead s .rdw f, ← begun_cfg s .rdw f]
    rfl
  · show (Host.Outcome.next ((s.select .rdlp f).withRet .none) : Result) = _
    rw [select_read h (.inr rfl), if_pos ha, if_neg (by decide), granted_eq_ite]
    generalize s.begun .rdlp f = b
    have hreg : b.readHitWord = (b.withDataR (BitVec.ofBool b.lp.int ++ BitVec.ofBool
        (match b.lp.regSel with | .yhi => b.lp.winYhi | .xleft => b.lp.winX | .ylo => b.lp.winYlo) ++ 0#4 ++
        (match b.lp.regSel with | .yhi => b.lp.yhi | .xleft => b.lp.xleft | .ylo => b.lp.ylo))).withLp
          { b.lp with int := (match b.lp.regSel with | .ylo => false | _ => b.lp.int)
                      regSel := (match b.lp.regSel with | .yhi => .xleft | .xleft => .ylo | .ylo => .yhi) } := by
      unfold State.readHitWord LightPen.hitWord
      cases b.lp.regSel <;> simp <;> rfl
    have hon : ∀ l, ((b.withWakePending false).withBeams l).readHitWord =
        (b.readHitWord.withWakePending false).withBeams l := fun l => rfl
    rw [hon, hreg]
    rfl

/-- A word written and the cursor moved on: memory apart, only the cursor changes. -/
theorem writeWordAtCursor_eq (s : State) (w : Word) : s.writeWordAtCursor w =
    (s.withMem (s.planeWrite s.io.plane s.io.addr w).mem).withIo (IoCursor.advance s.cfg s.io) := rfl

theorem planeRead_planeWrite_same (s : State) (p : BitVec 2) (a : Nat) (w : Word) :
    (s.planeWrite p a w).planeRead p a = w := by
  rw [planeRead_planeWrite, if_pos ⟨rfl, rfl⟩]

/-- A word of WRW or CLRW with memory available (R173, R178). -/
theorem exec_write {s : State} {c : Cmd} {f : CmdFlags} {d w : Word} (h : s.accepts c f = true)
    (hc : c = .wrw ∨ c = .clrw) (hw : (if c = .wrw then d else 0) = w) (ha : (s.begun c f).memAvailable = true) :
    let b := s.begun c f
    ∃ t, ((s.select c f).feed d).withRet .none = t ∧
      t.withMem s.mem = ((((b.withDataW d).withWakePending false).withBeams
        (if b.graphicsActive = true then b.beams.tail else b.beams)).withIo (IoCursor.advance s.cfg b.io)).endIn .waitDs2 ∧
      t.planeRead b.io.plane b.io.addr = w ∧ SameOutside s.mem t.mem (wordKeys s.cfg b.io.plane b.io.addr) := by
  intro b
  rw [select_feed_write d h hc, if_pos ha, hw, granted_eq_ite, writeWordAtCursor_eq, ← begun_mem s c f, ← begun_cfg s c f]
  exact ⟨_, rfl, rfl, planeRead_planeWrite_same b _ _ _, planeWrite_sameOutside b _ _ _⟩

/-- Settles O45: WRW stores its word, CLRW zero. -/
theorem writeCommandResults : Obligations.WriteCommandResults := by
  refine fun f d s => ⟨fun h ha => ?_, fun h ha => ?_⟩
  · obtain ⟨t, e, r⟩ := exec_write (d := d) h (.inl rfl) (if_pos rfl) ha
    exact ⟨t, congrArg _ e, r⟩
  · obtain ⟨t, e, r⟩ := exec_write (d := d) h (.inr rfl) (if_neg (by decide)) ha
    exact ⟨t, congrArg _ e, r⟩

/-! ### The engine looks at memory, the drawing controls and the pattern alone -/

/-- The same to the engine. -/
def EngineSame (s t : State) : Prop := t.cfg = s.cfg ∧ t.mem = s.mem ∧ t.ctl = s.ctl ∧ t.pat = s.pat

theorem plotPlane_engineSame {s t : State} (h : EngineSame s t) (x y : Nat) (d : Bool) (p : BitVec 2) :
    EngineSame (s.plotPlane x y d p) (t.plotPlane x y d p) := by
  obtain ⟨hc, hm, hl, hp⟩ := h
  have act : t.planeAction p d = s.planeAction p d := by unfold State.planeAction; rw [hl]
  have write (b : Bool) : EngineSame (s.writePixel p x y b) (t.writePixel p x y b) := by
    unfold EngineSame
    rw [writePixel_eq s, writePixel_eq t]
    refine ⟨hc, ?_, hl, hp⟩
    cases b <;> simp only [State.writePixel, State.planeRead, State.planeWrite, State.withMem_mem, hc, hm] <;> rfl
  unfold State.plotPlane
  rw [act]
  split
  · exact write true
  · exact write false
  · exact ⟨hc, hm, hl, hp⟩

theorem plot_engineSame {s t : State} (h : EngineSame s t) (x y : Nat) (d : Bool) :
    EngineSame (s.plot x y d) (t.plot x y d) := by
  unfold State.plot
  rw [h.1]
  exact List.foldl_rel h fun p _ _ _ k => plotPlane_engineSame k x y d p

theorem drawLine_engineSame {s t : State} (h : EngineSame s t) (x0 : BitVec 10) (y0 : BitVec 9) (x1 : BitVec 10)
    (y1 : BitVec 9) : EngineSame (s.drawLine x0 y0 x1 y1) (t.drawLine x0 y0 x1 y1) :=
  List.foldl_rel h fun q _ s t k => by
    have hp := plot_engineSame k q.1.toNat q.2.toNat s.dashBit
    have hd : t.dashBit = s.dashBit := by unfold State.dashBit; rw [k.2.2.2]
    unfold State.lineStep State.dashAdvance
    rw [hd]
    exact ⟨hp.1, hp.2.1, hp.2.2.1, congrArg Pattern.advance hp.2.2.2⟩

theorem fillRect_engineSame {s t : State} (h : EngineSame s t) (x0 : BitVec 10) (y0 : BitVec 9) (x1 : BitVec 10)
    (y1 : BitVec 9) : EngineSame (s.fillRect x0 y0 x1 y1) (t.fillRect x0 y0 x1 y1) :=
  List.foldl_rel h fun q _ s t k => by
    have ht : t.tile q.2 = s.tile q.2 := by unfold State.tile; rw [k.1, k.2.2.2]
    unfold State.fillStep
    rw [ht]
    exact plot_engineSame k _ _ _

theorem begun_engineSame (s : State) (c : Cmd) (f : CmdFlags) : EngineSame s (s.begun c f) :=
  ⟨begun_cfg s c f, begun_mem s c f, begun_ctl s c f, begun_pat s c f⟩

theorem drawLine_sameOutside (s : State) (x0 : BitVec 10) (y0 : BitVec 9) (x1 : BitVec 10) (y1 : BitVec 9) :
    SameOutside s.mem (s.drawLine x0 y0 x1 y1).mem (pixelKeys s.cfg (pointsOfLine x0 y0 x1 y1)) :=
  foldl_lineStep_sameOutside _ s

theorem fillRect_sameOutside (s : State) (x0 : BitVec 10) (y0 : BitVec 9) (x1 : BitVec 10) (y1 : BitVec 9) :
    SameOutside s.mem (s.fillRect x0 y0 x1 y1).mem
      (pixelKeys s.cfg (boxPoints x0.toNat y0.toNat x1.toNat y1.toNat)) :=
  foldl_fillStep_sameOutside _ s

/-- The line of a DRAWV, memory and dash phase apart. -/
theorem drawPending_eq (s : State) : s.drawPending =
    ((s.withMem (s.drawLine s.ends.xOld s.ends.yOld s.ends.xNew s.ends.yNew).mem).withPat
      (s.drawLine s.ends.xOld s.ends.yOld s.ends.xNew s.ends.yNew).pat).keepEndpoint := by
  rw [State.drawPending]
  have h := drawLine_eq s s.ends.xOld s.ends.yOld s.ends.xNew s.ends.yNew
  generalize s.drawLine s.ends.xOld s.ends.yOld s.ends.xNew s.ends.yNew = d at h
  rw [h]; rfl

/-- The box of a FILLR, memory apart. -/
theorem fillPending_eq (s : State) : s.fillPending =
    (s.withMem (s.fillRect s.ends.xOld s.ends.yOld s.ends.xNew s.ends.yNew).mem).keepEndpoint := by
  rw [State.fillPending]
  have h := fillRect_eq s s.ends.xOld s.ends.yOld s.ends.xNew s.ends.yNew
  generalize s.fillRect s.ends.xOld s.ends.yOld s.ends.xNew s.ends.yNew = d at h
  rw [h]; rfl

section
variable {s u : State} {x0 x1 : BitVec 10} {y0 y1 : BitVec 9} (h : EngineSame s u)
  (he : u.ends = { xOld := x0, yOld := y0, xNew := x1, yNew := y1 })
include h he

theorem drawPending_engineSame :
    u.drawPending.mem = (s.drawLine x0 y0 x1 y1).mem ∧ u.drawPending.pat = (s.drawLine x0 y0 x1 y1).pat := by
  have k := drawLine_engineSame h x0 y0 x1 y1
  unfold State.drawPending
  rw [he]
  exact ⟨k.2.1, k.2.2.2⟩

theorem fillPending_engineSame : u.fillPending.mem = (s.fillRect x0 y0 x1 y1).mem := by
  have k := fillRect_engineSame h x0 y0 x1 y1
  unfold State.fillPending
  rw [he]
  exact k.2.1

end

/-- Where DRAWV and FILLR stand with both words taken, about to ask the arbiter: the new endpoint loaded (R153). -/
def State.armed (s : State) (c : Cmd) (f : CmdFlags) (x y : Word) : State :=
  (((s.begun c f).withDataW y).withEnds
    { s.ends with xNew := dataX s.cfg x, yNew := dataY s.cfg y }).withFsm .waitMem2

theorem select_feed_armed {s : State} {c : Cmd} {f : CmdFlags} (x y : Word) (h : s.accepts c f = true)
    (hc : c = .drawv ∨ c = .fillr) :
    ∃ σ, ((s.select c f).feed x).feed y = if (s.begun c f).memAvailable then
        ((if c = .drawv then ((s.armed c f x y).withSig σ).granted.drawPending
          else ((s.armed c f x y).withSig σ).granted.fillPending).withFsm .waitDs0).recompute
      else (s.armed c f x y).suspend.recompute := by
  obtain ⟨σ, e⟩ := select_feed_draw x y h hc
  refine ⟨σ, e.trans ?_⟩
  unfold State.armed
  rw [← begun_ends s c f, ← begun_cfg s c f]
  rfl

theorem armed_engineSame (s : State) (c : Cmd) (f : CmdFlags) (x y : Word) (σ : Signals) :
    EngineSame s ((s.armed c f x y).withSig σ).granted := begun_engineSame s c f

theorem SameOutside.of_eq {m n n' : Memory} {keys : List Nat} (h : SameOutside m n keys) (e : n' = n) :
    SameOutside m n' keys := e ▸ h

theorem ended_mem (t : State) (f : Fsm) (v : Ret) : ((t.withFsm f).recompute.withRet v).mem = t.mem := rfl

theorem ended_pat (t : State) (f : Fsm) (v : Ret) : ((t.withFsm f).recompute.withRet v).pat = t.pat := rfl

/-- The line drawn, as a state: all but memory and the dash phase as it stands. -/
theorem drawPending_ended (u : State) : ((((u.drawPending.withFsm .waitDs0).recompute.withRet .none).withMem u.mem).withPat u.pat) =
    u.keepEndpoint.endIn .waitDs0 := by
  have ended (m : Memory) (p : Pattern) : ((((((u.withMem m).withPat p).keepEndpoint.withFsm .waitDs0).recompute.withRet
      .none).withMem u.mem).withPat u.pat) = u.keepEndpoint.endIn .waitDs0 := rfl
  rw [drawPending_eq, ended]

theorem fillPending_ended (u : State) : ((u.fillPending.withFsm .waitDs0).recompute.withRet .none).withMem u.mem =
    u.keepEndpoint.endIn .waitDs0 := by
  have ended (m : Memory) : ((((u.withMem m).keepEndpoint.withFsm .waitDs0).recompute.withRet .none).withMem u.mem) =
      u.keepEndpoint.endIn .waitDs0 := rfl
  rw [fillPending_eq, ended]

/-- Settles O46: the words masked become the endpoint, and the engine draws from the old one to it. -/
theorem endpointCommandResults : Obligations.EndpointCommandResults := by
  refine fun f x y s => ⟨fun h => ?_, fun h ha => ?_, fun h ha => ?_⟩
  · show (Host.Outcome.next ((((s.select .ldep f).feed x).feed y).withRet .none) : Result) = _
    rw [select_feed_ldep x y h, ← begun_cfg s .ldep f]
    rfl
  · obtain ⟨σ, e⟩ := select_feed_armed x y h (.inl rfl)
    rw [if_pos ha, if_pos rfl] at e
    refine ⟨_, congrArg (fun t => (Host.Outcome.next (State.withRet t .none) : Result)) e, ?_⟩
    obtain ⟨hm, hp⟩ := drawPending_engineSame (armed_engineSame s .drawv f x y σ)
      (show _ = Endpoints.mk s.ends.xOld s.ends.yOld (dataX s.cfg x) (dataY s.cfg y) from rfl)
    have hu := drawPending_ended ((s.armed .drawv f x y).withSig σ).granted
    have hum : ((s.armed .drawv f x y).withSig σ).granted.mem = s.mem := begun_mem s .drawv f
    have hup : ((s.armed .drawv f x y).withSig σ).granted.pat = s.pat := begun_pat s .drawv f
    rw [hum, hup] at hu
    have hmem := (ended_mem _ .waitDs0 .none).trans hm
    exact ⟨hu, hmem, (ended_pat _ .waitDs0 .none).trans hp, (drawLine_sameOutside s s.ends.xOld s.ends.yOld (dataX s.cfg x) (dataY s.cfg y)).of_eq hmem⟩
  · obtain ⟨σ, e⟩ := select_feed_armed x y h (.inr rfl)
    rw [if_pos ha, if_neg (by decide)] at e
    refine ⟨_, congrArg (fun t => (Host.Outcome.next (State.withRet t .none) : Result)) e, ?_⟩
    have hm := fillPending_engineSame (armed_engineSame s .fillr f x y σ)
      (show _ = Endpoints.mk s.ends.xOld s.ends.yOld (dataX s.cfg x) (dataY s.cfg y) from rfl)
    have hu := fillPending_ended ((s.armed .fillr f x y).withSig σ).granted
    have hum : ((s.armed .fillr f x y).withSig σ).granted.mem = s.mem := begun_mem s .fillr f
    rw [hum] at hu
    have hmem := (ended_mem _ .waitDs0 .none).trans hm
    exact ⟨hu, hmem, (fillRect_sameOutside s s.ends.xOld s.ends.yOld (dataX s.cfg x) (dataY s.cfg y)).of_eq hmem⟩

/-- Where a command that found memory unavailable rests: the wake-up asked for, the beam's position taken (R103). -/
def State.waits (b : State) (z : Fsm) : State :=
  (((b.withBeams b.beams.tail).withWakePending true).withWakeDelay (b.timeUntilAvailable b.graphicsActive)).endIn z

theorem suspend_ended {b : State} (z : Fsm) (h : b.memAvailable = false) :
    (b.withFsm z).suspend.recompute.withRet .none = b.waits z := by
  rw [suspend_of_unavailable (s := b.withFsm z) h]; rfl

section
variable {s : State} {c : Cmd} {f : CmdFlags} (h : s.accepts c f = true) (ha : (s.begun c f).memAvailable = false)
include h ha

theorem select_read_waits (hc : c = .rdw ∨ c = .rdlp) : (s.select c f).withRet .none = (s.begun c f).waits .waitMem0 := by
  rw [select_read h hc, if_neg (by simp [ha])]
  exact suspend_ended .waitMem0 ha

theorem select_feed_write_waits (hc : c = .wrw ∨ c = .clrw) (x : Word) :
    ((s.select c f).feed x).withRet .none = ((s.begun c f).withDataW x).waits .waitMem1 := by
  rw [select_feed_write x h hc, if_neg (by simp [ha])]
  exact suspend_ended (b := (s.begun c f).withDataW x) .waitMem1 ha

theorem select_feed_draw_waits (hc : c = .drawv ∨ c = .fillr) (x y : Word) :
    (((s.select c f).feed x).feed y).withRet .none = (((s.begun c f).withDataW y).withEnds
      { s.ends with xNew := dataX s.cfg x, yNew := dataY s.cfg y }).waits .waitMem2 := by
  obtain ⟨σ, e⟩ := select_feed_armed x y h hc
  rw [e, if_neg (by simp [ha])]
  exact suspend_ended (b := ((s.begun c f).withDataW y).withEnds
    { s.ends with xNew := dataX s.cfg x, yNew := dataY s.cfg y }) .waitMem2 ha

end

/-- Settles O47: each is suspended in its memory-wait state. -/
theorem commandsAreDeferred : Obligations.CommandsAreDeferred := fun _ x y _ =>
  ⟨fun h ha => congrArg Host.Outcome.next (select_read_waits h ha (.inl rfl)),
   fun h ha => congrArg Host.Outcome.next (select_read_waits h ha (.inr rfl)),
   fun h ha => congrArg Host.Outcome.next (select_feed_write_waits h ha (.inl rfl) x),
   fun h ha => congrArg Host.Outcome.next (select_feed_write_waits h ha (.inr rfl) x),
   fun h ha => congrArg Host.Outcome.next (select_feed_draw_waits h ha (.inl rfl) x y),
   fun h ha => congrArg Host.Outcome.next (select_feed_draw_waits h ha (.inr rfl) x y)⟩

/-! ### A command as its accesses -/

theorem runAll_cons {s t : State} {i : Instr} (h : exec i s = .next t) (l : List Instr) :
    s.runAll (i :: l) = t.runAll l := by
  show List.foldl _ (exec i s) l = List.foldl _ (.next t) l
  rw [h]

theorem drive_cr (s : State) (ds trig : Bool) : (s.drive ds trig).cr = s.cr := (runFsm_frame ds trig s).cr

theorem feed_cr (s : State) (d : Word) : (s.feed d).cr = s.cr := by
  unfold State.feed State.hostWrite7 State.hostWrite4
  split
  · rw [drive_cr, drive_cr]; rfl
  · rw [drive_cr]; rfl

/-- A data word is its write and, where interrupts are enabled, a trigger (R170). -/
theorem feed_runAll (s : State) (r : Ret) (d : Word) (l : List Instr) :
    (s.withRet r).runAll (.wr4 d :: (if s.cr.intEn then [.wr7 0] else []) ++ l) = ((s.feed d).withRet .none).runAll l := by
  have h4 : exec (.wr4 d) (s.withRet r) = .next ((s.hostWrite4 d).withRet .none) :=
    congrArg Host.Outcome.next (by
      show (((s.withDataW d).withRet r).drive true false).withRet .none = _
      rw [drive_withRet]; rfl)
  have hi : (s.hostWrite4 d).cr = s.cr := drive_cr ..
  have h7 : exec (.wr7 0) ((s.hostWrite4 d).withRet .none) = .next ((s.hostWrite4 d).hostWrite7.withRet .none) :=
    congrArg Host.Outcome.next (by
      show (((s.hostWrite4 d).withRet .none).drive false true).withRet .none = _
      rw [drive_withRet]; rfl)
  rw [List.cons_append, runAll_cons h4, State.feed, hi]
  cases s.cr.intEn
  · rfl
  · exact runAll_cons h7 l

theorem feeds_runAll (ds : List Word) (f : CmdFlags) {s : State} (hf : s.cr.intEn = f.int) (r : Ret) :
    (s.withRet r).runAll (ds.flatMap fun d => .wr4 d :: if f.int then [.wr7 0] else []) =
      .next (if ds = [] then s.withRet r else (ds.foldl State.feed s).withRet .none) := by
  induction ds generalizing s r with
  | nil => rfl
  | cons d ds ih =>
    rw [List.flatMap_cons, ← hf, feed_runAll, hf, ih (by rw [feed_cr, hf]), if_neg (List.cons_ne_nil _ _)]
    cases ds <;> rfl

theorem select_intEn (s : State) (c : Cmd) (f : CmdFlags) : (s.select c f).cr.intEn = f.int := by
  unfold State.select State.hostWrite5
  rw [drive_cr]
  show (cmdRegOf (packR5W c f)).intEn = f.int
  unfold cmdRegOf
  rw [unpackFlags_packR5W]

/-- The accesses of a command come to selecting it and feeding it its words (R170). -/
theorem runAll_accessesOf (s : State) (c : Cmd) (f : CmdFlags) (ds : List Word) :
    s.runAll (accessesOf c f ds) = .next ((ds.foldl State.feed (s.select c f)).withRet .none) := by
  have h5 : exec (.wr5 (packR5W c f)) s = .next ((s.select c f).withRet .none) := rfl
  rw [accessesOf, runAll_cons h5, feeds_runAll ds f (select_intEn s c f)]
  cases ds <;> rfl

/-- Settles O48, by the accesses of a command. -/
theorem commandsAreTheirAccesses : Obligations.CommandsAreTheirAccesses := by
  intro f x y s
  simp only [runAll_accessesOf]
  exact ⟨rfl, rfl, rfl, rfl, rfl, rfl, rfl, rfl, rfl, rfl, rfl, rfl, rfl, rfl, rfl, rfl⟩

/-! ### A write transfer -/

/-- With the automatic trigger a data word is its write alone. -/
theorem feed_of_auto {t : State} (h : t.cr.intEn = false) (d : Word) : t.feed d = t.hostWrite4 d := by
  have hi : (t.hostWrite4 d).cr = t.cr := drive_cr ..
  rw [State.feed, hi, if_neg (by simp [h])]

/-- A write of R4 in the middle of a WRW, memory available (R152 to R154). -/
theorem hostWrite4_next {t : State} (hi : t.cr.intEn = false) (hf : t.fsm = .waitDs2) (hc : t.cr.cmd = .wrw)
    (ha : t.memAvailable = true) (d : Word) :
    t.hostWrite4 d = (((t.withDataW d).granted.writeWordAtCursor d).withFsm .waitDs2).recompute := by
  rw [← feed_of_auto hi, feed_write d (fun trig => fsmRow_waitDs2_strobe (s := t.withDataW d) hf) (.inl hc), if_pos ha,
    if_pos hc]

theorem memAvailable_of_inactive {s : State} (h : s.graphicsActive = false) : s.memAvailable = true := by
  cases e : s.memAvailable
  · rw [graphicsActive_of_unavailable e] at h; cases h
  · rfl

/-- `ADDR_MASK` takes an address modulo the words of a plane (R4). -/
theorem planeAddr_eq_mod {c : Config} (h : c.wf = true) (a : Nat) : planeAddr c a = a % c.planeWords := by
  obtain ⟨n, hn⟩ := (Nat.and_sub_one_eq_zero_iff_isPowerOfTwo (n := c.addrMask + 1) (by omega)).1
    (by rw [Nat.and_comm]; exact addrMask_and_succ h)
  have hm : c.addrMask = 2 ^ n - 1 := by omega
  rw [planeAddr, Config.planeWords, hn, hm, Nat.and_two_pow_sub_one_eq_mod]

/-- The words of all planes. -/
def memoryWords (c : Config) : Nat := c.nplanes * c.planeWords

/-- The number of a position of the IoCursor in the order a transfer takes: plane by plane, then word by word (R142). -/
def cursorIndex (c : Config) (io : IoCursor) : Nat := io.addr * c.nplanes + io.plane.toNat

section
variable {c : Config} {io : IoCursor}

theorem addr_lt_of_inRange (hwf : c.wf = true) (h : io.InRange c) : io.addr < c.planeWords := by
  have := planeAddr_eq_mod hwf io.addr
  rw [planeAddr, h.addr] at this
  rw [this]
  exact Nat.mod_lt _ (Nat.succ_pos _)

theorem cursorIndex_lt (hwf : c.wf = true) (h : io.InRange c) : cursorIndex c io < memoryWords c := by
  have ha := Nat.mul_le_mul_right c.nplanes (addr_lt_of_inRange hwf h)
  have hp := h.plane
  rw [Nat.succ_mul] at ha
  rw [cursorIndex, memoryWords, Nat.mul_comm c.nplanes]
  omega

theorem advance_iterate_inRange (h : io.InRange c) (k : Nat) : ((IoCursor.advance c)^[k] io).InRange c := by
  induction k with
  | zero => exact h
  | succ k ih => rw [Function.iterate_succ_apply']; exact IoCursor.advance_inRange ih

/-- The advance goes to the next position, round the memory (R142). -/
theorem index_advance (hwf : c.wf = true) (h : io.InRange c) :
    cursorIndex c (IoCursor.advance c io) = (cursorIndex c io + 1) % memoryWords c := by
  have hlt := cursorIndex_lt hwf (IoCursor.advance_inRange h)
  rw [← Nat.mod_eq_of_lt hlt]
  unfold IoCursor.advance cursorIndex
  split
  · next hp =>
    have : (io.plane + 1).toNat = io.plane.toNat + 1 := by
      rw [BitVec.toNat_add]; have := nplanes_eq c; simp; omega
    dsimp only
    rw [this, Nat.add_assoc]
  · next hp =>
    have hlast : io.plane.toNat + 1 = c.nplanes := by have := h.plane; omega
    dsimp only
    rw [planeAddr_eq_mod hwf, Nat.add_assoc, hlast, ← Nat.succ_mul, memoryWords, Nat.mul_comm c.nplanes,
      Nat.mul_mod_mul_right, show (0 : BitVec 2).toNat = 0 from rfl, Nat.add_zero, Nat.mul_mod_mul_right, Nat.mod_mod]

theorem index_iterate (hwf : c.wf = true) (h : io.InRange c) (k : Nat) :
    cursorIndex c ((IoCursor.advance c)^[k] io) = (cursorIndex c io + k) % memoryWords c := by
  induction k with
  | zero => exact (Nat.mod_eq_of_lt (cursorIndex_lt hwf h)).symm
  | succ k ih =>
    rw [Function.iterate_succ_apply', index_advance hwf (advance_iterate_inRange h k), ih, Nat.mod_add_mod, Nat.add_assoc]

/-- Less than the whole memory apart, two positions are different words. -/
theorem advance_iterate_apart (hwf : c.wf = true) (h : io.InRange c) {j k : Nat} (hjk : j < k) (hk : k < memoryWords c) :
    ¬(((IoCursor.advance c)^[j] io).plane = ((IoCursor.advance c)^[k] io).plane ∧
      ((IoCursor.advance c)^[j] io).addr = ((IoCursor.advance c)^[k] io).addr) := by
  rintro ⟨hp, ha⟩
  have e : (cursorIndex c io + j) % memoryWords c = (cursorIndex c io + k) % memoryWords c := by
    rw [← index_iterate hwf h, ← index_iterate hwf h, cursorIndex, cursorIndex, hp, ha]
  have := Nat.ModEq.eq_of_lt_of_lt (Nat.ModEq.add_left_cancel' _ e) (hjk.trans hk) hk
  omega

end

/-- A write transfer under way, with the automatic trigger and graphics not active. -/
structure Writing (s : State) : Prop where
  fsm : s.fsm = .waitDs2
  cmd : s.cr.cmd = .wrw
  auto : s.cr.intEn = false
  idle : s.graphicsActive = false
  io : s.io.InRange s.cfg
  cfg : s.cfg.wf = true

theorem Writing.next {s : State} (h : Writing s) (v : Word) : ∃ t, exec (.wr4 v) s = .next t ∧ Writing t ∧
    t.cfg = s.cfg ∧ t.io = IoCursor.advance s.cfg s.io ∧
    ∀ q a, t.planeRead q a = if q = s.io.plane ∧ planeAddr s.cfg a = s.io.addr then v else s.planeRead q a := by
  have e := hostWrite4_next h.auto h.fsm h.cmd (memAvailable_of_inactive h.idle) v
  refine ⟨_, congrArg (fun t => (Host.Outcome.next (State.withRet t .none) : Result)) e,
    ⟨rfl, h.cmd, h.auto, h.idle, IoCursor.advance_inRange h.io, h.cfg⟩, rfl, rfl, fun q a => ?_⟩
  refine (planeRead_planeWrite s s.io.plane q s.io.addr a v).trans ?_
  rw [planeAddr_of_masked h.io.addr]

/-- The transfer, word by word. -/
theorem Writing.transfer {s : State} (hs : Writing s) (ws : List Word) (hl : ws.length ≤ memoryWords s.cfg) :
    ∃ t, s.runAll (ws.map .wr4) = .next t ∧ t.fsm = .waitDs2 ∧ t.io = (IoCursor.advance s.cfg)^[ws.length] s.io ∧
      (∀ k, ∀ h : k < ws.length, t.planeRead ((IoCursor.advance s.cfg)^[k] s.io).plane
        ((IoCursor.advance s.cfg)^[k] s.io).addr = ws[k]) ∧
      ∀ (q : BitVec 2) (a : Nat), (∀ k < ws.length, ¬(q = ((IoCursor.advance s.cfg)^[k] s.io).plane ∧
        planeAddr s.cfg a = ((IoCursor.advance s.cfg)^[k] s.io).addr)) → t.planeRead q a = s.planeRead q a := by
  induction ws generalizing s with
  | nil => exact ⟨s, rfl, hs.fsm, rfl, fun k h => absurd h (Nat.not_lt_zero k), fun _ _ _ => rfl⟩
  | cons v ws ih =>
    obtain ⟨u, hu, hw, hc, hio, hread⟩ := hs.next v
    have hlen : ws.length + 1 ≤ memoryWords s.cfg := hl
    obtain ⟨t, ht, hf, hti, hat, hother⟩ := ih hw (by rw [hc]; omega)
    rw [hc, hio] at hti hat hother
    refine ⟨t, (runAll_cons hu _).trans ht, hf, hti, fun k hk => ?_, fun q a hq => ?_⟩
    · cases k with
      | zero =>
        refine (hother _ _ fun j hj => ?_).trans ((hread _ _).trans (if_pos ⟨rfl, planeAddr_of_masked hs.io.addr⟩))
        rw [Function.iterate_zero_apply, planeAddr_of_masked hs.io.addr]
        exact advance_iterate_apart hs.cfg hs.io (Nat.succ_pos j) (by omega)
      | succ k => exact hat k (Nat.lt_of_succ_lt_succ hk)
    · have h0 : ¬(q = s.io.plane ∧ planeAddr s.cfg a = s.io.addr) := hq 0 (Nat.succ_pos _)
      rw [hother q a fun k hk => hq (k + 1) (Nat.succ_lt_succ hk), hread, if_neg h0]

/-- Settles O49, by induction over the words. -/
theorem writeTransfer : Obligations.WriteTransfer := fun ws _ hs hf hc hi hg hl =>
  Writing.transfer ⟨hf, hc, hi, hg, hs.kept.io, ((givenOk_iff _).1 hs.givenOk).1⟩ ws hl

end Sys2Proof.Machine
end

section
/-! SUPPORT. The statements about the FSM, the host accesses and the resets (spec 43_command_fsm.md, 41_arbiter.md,
70_reset_and_hazards.md). -/

namespace Sys2Proof.Machine

/-! ### RunFsm comes to rest -/

/-- A run ends in a row that rests, with what every transition keeps still kept where that row begins. `P` speaks of
the strobe in hand and the state. -/
theorem runRows_last {P : Bool → State → Prop}
    (h : ∀ {ds trig s ds' trig' s'}, P ds s → fsmRow ds trig s = .go ds' trig' s' → P ds' s') {n : Nat} {ds trig : Bool}
    {s : State} (hn : transitionsLeft (cmdClass s.cr.cmd) s.fsm ds < n) (hs : P ds s) :
    ∃ ds' trig' u, P ds' u ∧ fsmRow ds' trig' u = .rest (runRows n ds trig s) := by
  induction n generalizing ds trig s with
  | zero => omega
  | succ n ih =>
    cases e : fsmRow ds trig s with
    | rest t => exact ⟨_, _, s, hs, by rw [runRows_rest e, e]⟩
    | go ds' trig' s' =>
      rw [runRows_go e]
      exact ih (by have := fsmRow_descends e; omega) (h hs e)

theorem transitionsLeft_lt_rowLimit (k : CmdClass) (f : Fsm) (ds : Bool) (n : Nat) : transitionsLeft k f ds < 9 + n := by
  have := transitionsLeft_le k f ds
  omega

/-- A run ends in a row that rests. -/
theorem runFsm_last (ds trig : Bool) (s : State) : ∃ ds' trig' u, fsmRow ds' trig' u = .rest (s.runFsm ds trig) :=
  (runRows_rests 9 ds trig s (transitionsLeft_lt_rowLimit _ _ _ 0)).1

/-- No row rests in RESET (R140). -/
theorem fsm_of_rest {ds trig : Bool} {s t : State} (e : fsmRow ds trig s = .rest t) : t.fsm = s.fsm ∧ t.fsm ≠ .reset := by
  rcases fsmRow_rest_cases e with ⟨hf, rfl⟩ | ⟨-, hr, rfl⟩ | ⟨hm, -, rfl⟩
  · rw [noteCommand_fsm, hf]; exact ⟨rfl, by decide⟩
  · exact ⟨rfl, hr⟩
  · refine ⟨rfl, fun e => ?_⟩
    rw [show s.suspend.fsm = s.fsm from rfl] at e
    rw [e] at hm; cases hm

/-- Settles O33: every transition brings the machine nearer to rest, and at most six are left at the start. -/
theorem runFsmComesToRest : Obligations.RunFsmComesToRest := by
  intro ds trig s
  obtain ⟨ds', trig', u, e⟩ := runFsm_last ds trig s
  refine ⟨rfl, fun n => ?_, ⟨ds', trig', u, e⟩, (fsm_of_rest e).2⟩
  induction n with
  | zero => rfl
  | succ n ih => exact (runRows_rests (9 + n) ds trig s (transitionsLeft_lt_rowLimit _ _ _ n)).2.trans ih

/-! ### The transition table -/

/-- Settles O35, row by row. -/
theorem transitionsFollowTheTable : Obligations.TransitionsFollowTheTable := by
  intro ds trig ds' trig' s t h
  cases hf : s.fsm <;> simp only [fsmRow, hf] at h ⊢
  case reset => cases h; exact ⟨rfl, rfl, rfl⟩
  case waitDs1 => unfold rowWaitDs1 at h; split at h <;> cases h; exact ⟨by assumption, rfl, rfl, rfl⟩
  case waitDs2 => unfold rowWaitDs2 at h; split at h <;> cases h; exact ⟨by assumption, rfl, rfl, rfl⟩
  case waitDs0 =>
    unfold rowWaitDs0 at h
    cases hc : cmdClass s.cr.cmd <;> simp only [hc] at h
    · cases h; simp
    all_goals
      split at h <;> cases h
      simp_all
  case waitTrig0 =>
    unfold rowWaitTrig0 at h
    split at h
    · next ht =>
      cases hc : cmdClass s.cr.cmd <;> simp only [hc] at h <;> cases h <;> exact ⟨ht, rfl, rfl, rfl⟩
    · cases h
  case waitMem0 =>
    unfold rowWaitMem0 at h
    split at h
    · next ha => cases hc : s.cr.cmd <;> simp only [hc] at h <;> cases h <;> exact ⟨ha, rfl, rfl, rfl⟩
    · cases h
  case waitTrig1 =>
    unfold rowWaitTrig1 at h
    split at h
    · next ht => cases hc : s.cr.cmd <;> simp only [hc] at h <;> cases h <;> exact ⟨ht, rfl, rfl, rfl⟩
    · cases h
  case waitMem1 =>
    unfold rowWaitMem1 at h
    split at h
    · next ha => cases hc : s.cr.cmd <;> simp only [hc] at h <;> cases h <;> exact ⟨ha, rfl, rfl, rfl⟩
    · cases h
  case waitMem2 =>
    unfold rowWaitMem2 at h
    split at h
    · next ha => cases hc : s.cr.cmd <;> simp only [hc] at h <;> cases h <;> exact ⟨ha, rfl, rfl, rfl⟩
    · cases h

/-! ### What a row can do -/

/-- The state a row leaves, by what it did to it (R140 to R155). -/
inductive RowStep (s : State) : State → Prop
  | moved (f : Fsm) (hf : s.fsm ≠ .reset ∧ s.fsm ≠ .waitDs0 ∧ s.fsm.isMemWait = false) : RowStep s (s.withFsm f)
  | restarted (hf : s.fsm = .reset) : RowStep s ((s.cancelWake.withIo { s.io with lastCmd := none }).withFsm .waitDs0)
  | noted (f : Fsm) (hf : s.fsm = .waitDs0) : RowStep s (s.noteCommand.withFsm f)
  | applied (hf : s.fsm = .waitTrig0) (hc : cmdClass s.cr.cmd = .param1) : RowStep s (s.applyParam1.withFsm .waitDs0)
  | firstWord (hf : s.fsm = .waitTrig0) (hc : cmdClass s.cr.cmd = .param2) : RowStep s (s.loadXNew.withFsm .waitDs2)
  | secondWord (hf : s.fsm = .waitTrig1) (hc : s.cr.cmd = .drawv ∨ s.cr.cmd = .fillr) :
      RowStep s (s.loadYNew.withFsm .waitMem2)
  | endpoint (hf : s.fsm = .waitTrig1) (hc : s.cr.cmd = .ldep) : RowStep s (s.loadYNew.keepEndpoint.withFsm .waitDs0)
  | inconsistent (hm : mismatched s.fsm s.cr.cmd = true) :
      RowStep s (if s.fsm.isMemWait then s.granted else s).protocolInconsistency
  | suspended (hf : s.fsm.isMemWait = true) (ha : s.memAvailable = false) : RowStep s s.suspend
  | readWord (hf : s.fsm = .waitMem0) (hc : s.cr.cmd = .rdw) : RowStep s (s.granted.readWordAtCursor.withFsm .waitDs1)
  | readHit (hf : s.fsm = .waitMem0) (hc : s.cr.cmd = .rdlp) : RowStep s (s.granted.readHitWord.withFsm .waitDs1)
  | wrote (w : Word) (hf : s.fsm = .waitMem1) (hc : s.cr.cmd = .wrw ∨ s.cr.cmd = .clrw) :
      RowStep s ((s.granted.writeWordAtCursor w).withFsm .waitDs2)
  | drew (hf : s.fsm = .waitMem2) (hc : s.cr.cmd = .drawv) : RowStep s (s.granted.drawPending.withFsm .waitDs0)
  | filled (hf : s.fsm = .waitMem2) (hc : s.cr.cmd = .fillr) : RowStep s (s.granted.fillPending.withFsm .waitDs0)

theorem RowStep.stayed {s : State} (hf : s.fsm ≠ .reset ∧ s.fsm ≠ .waitDs0 ∧ s.fsm.isMemWait = false) : RowStep s s := .moved s.fsm hf

/-- A mismatched command whose wait is satisfied, in a memory-wait state or not (R281). -/
theorem RowStep.inconsistent_waiting {s : State} (hm : mismatched s.fsm s.cr.cmd = true) (hf : s.fsm.isMemWait = true) :
    RowStep s s.granted.protocolInconsistency := by
  have h := RowStep.inconsistent hm
  rwa [if_pos hf] at h

theorem RowStep.inconsistent_triggered {s : State} (hm : mismatched s.fsm s.cr.cmd = true) (hf : s.fsm.isMemWait = false) :
    RowStep s s.protocolInconsistency := by
  have h := RowStep.inconsistent hm
  rwa [if_neg (by simp [hf])] at h

theorem rowWaitTrig0_step {s : State} (hf : s.fsm = .waitTrig0) (ds trig : Bool) :
    RowStep s (rowWaitTrig0 ds trig s).state := by
  have bad (hc : cmdClass s.cr.cmd = .read ∨ cmdClass s.cr.cmd = .write) : RowStep s s.protocolInconsistency := by
    refine .inconsistent_triggered ?_ (by rw [hf]; rfl)
    rw [hf]; revert hc; cases s.cr.cmd <;> simp [mismatched, cmdClass]
  unfold rowWaitTrig0
  split
  · cases hc : cmdClass s.cr.cmd
    · exact bad (.inl hc)
    · exact bad (.inr hc)
    · exact .applied hf hc
    · exact .firstWord hf hc
  · exact .stayed (by rw [hf]; decide)

theorem rowWaitMem0_step {s : State} (hf : s.fsm = .waitMem0) (ds trig : Bool) :
    RowStep s (rowWaitMem0 ds trig s).state := by
  unfold rowWaitMem0
  split
  · split
    · next hc => exact .readWord hf hc
    · next hc => exact .readHit hf hc
    · next h1 h2 =>
      refine .inconsistent_waiting ?_ (by rw [hf]; rfl)
      rw [hf]; revert h1 h2; cases s.cr.cmd <;> simp [mismatched]
  · next ha => exact .suspended (by rw [hf]; rfl) (by simpa using ha)

theorem rowWaitTrig1_step {s : State} (hf : s.fsm = .waitTrig1) (ds trig : Bool) :
    RowStep s (rowWaitTrig1 ds trig s).state := by
  have other : s.fsm ≠ .reset ∧ s.fsm ≠ .waitDs0 ∧ s.fsm.isMemWait = false := by rw [hf]; decide
  unfold rowWaitTrig1
  split
  · split
    · exact .moved _ other
    · exact .moved _ other
    · next hc => exact .secondWord hf (.inl hc)
    · next hc => exact .secondWord hf (.inr hc)
    · next hc => exact .endpoint hf hc
    · refine .inconsistent_triggered ?_ (by rw [hf]; rfl)
      rw [hf]; cases hc : s.cr.cmd <;> simp_all [mismatched]
  · exact .stayed other

theorem rowWaitMem1_step {s : State} (hf : s.fsm = .waitMem1) (ds trig : Bool) :
    RowStep s (rowWaitMem1 ds trig s).state := by
  unfold rowWaitMem1
  split
  · split
    · next hc => exact .wrote _ hf (.inl hc)
    · next hc => exact .wrote _ hf (.inr hc)
    · next h1 h2 =>
      refine .inconsistent_waiting ?_ (by rw [hf]; rfl)
      rw [hf]; revert h1 h2; cases s.cr.cmd <;> simp [mismatched]
  · next ha => exact .suspended (by rw [hf]; rfl) (by simpa using ha)

theorem rowWaitMem2_step {s : State} (hf : s.fsm = .waitMem2) (ds trig : Bool) :
    RowStep s (rowWaitMem2 ds trig s).state := by
  unfold rowWaitMem2
  split
  · split
    · next hc => exact .drew hf hc
    · next hc => exact .filled hf hc
    · next h1 h2 =>
      refine .inconsistent_waiting ?_ (by rw [hf]; rfl)
      rw [hf]; revert h1 h2; cases s.cr.cmd <;> simp [mismatched]
  · next ha => exact .suspended (by rw [hf]; rfl) (by simpa using ha)

/-- Every row does one of these. -/
theorem fsmRow_step (ds trig : Bool) (s : State) : RowStep s (fsmRow ds trig s).state := by
  unfold fsmRow
  split
  · next hf => exact .restarted hf
  · next hf =>
    unfold rowWaitDs0
    cases cmdClass s.cr.cmd <;> cases ds <;> exact .noted _ hf
  · next hf => exact rowWaitTrig0_step hf ds trig
  · next hf => exact rowWaitMem0_step hf ds trig
  · next hf =>
    unfold rowWaitDs1
    cases ds
    · exact .stayed (by rw [hf]; decide)
    · exact .moved _ (by rw [hf]; decide)
  · next hf =>
    unfold rowWaitDs2
    cases ds
    · exact .stayed (by rw [hf]; decide)
    · exact .moved _ (by rw [hf]; decide)
  · next hf => exact rowWaitTrig1_step hf ds trig
  · next hf => exact rowWaitMem1_step hf ds trig
  · next hf => exact rowWaitMem2_step hf ds trig

theorem RowStep.of_go {ds trig ds' trig' : Bool} {s t : State} (h : fsmRow ds trig s = .go ds' trig' t) : RowStep s t := by
  have := fsmRow_step ds trig s
  rwa [h] at this

/-! ### State/command mismatches -/

theorem noteCommand_errlog (s : State) : s.noteCommand.errlog = s.errlog := by
  unfold State.noteCommand; split <;> rfl

theorem applyParam1_errlog (s : State) : s.applyParam1.errlog = s.errlog := by
  unfold State.applyParam1 State.applyLdmap; split <;> first | rfl | (split <;> rfl)

theorem drawPending_errlog (s : State) : s.drawPending.errlog = s.errlog := by rw [drawPending_eq]; rfl

theorem fillPending_errlog (s : State) : s.fillPending.errlog = s.errlog := by rw [fillPending_eq]; rfl

/-- A row records nothing but the mismatch it finds, and then goes to RESET (R281). -/
theorem RowStep.errlog {s t : State} (h : RowStep s t) : t.errlog = s.errlog ∨
    (mismatched s.fsm s.cr.cmd = true ∧ t.fsm = .reset ∧
      t.errlog = s.errlog ++ [.protocolInconsistency s.fsm s.cr.cmd]) := by
  cases h with
  | inconsistent hm => exact .inr ⟨hm, rfl, by split <;> rfl⟩
  | noted => exact .inl (noteCommand_errlog s)
  | applied => exact .inl (applyParam1_errlog s)
  | drew => exact .inl (by rw [State.withFsm_errlog, drawPending_errlog]; rfl)
  | filled => exact .inl (by rw [State.withFsm_errlog, fillPending_errlog]; rfl)
  | _ => exact .inl rfl

/-- The states a run under a command comes to once its class has been tested: none of them mismatched (R143). -/
def settled (c : Cmd) (f : Fsm) : Bool :=
  match cmdClass c with
  | .read => [Fsm.waitMem0, .waitDs1].contains f
  | .write => [Fsm.waitTrig1, .waitMem1, .waitDs2].contains f
  | .param1 => [Fsm.waitTrig0, .waitDs0].contains f
  | .param2 => [Fsm.waitTrig0, .waitDs2, .waitTrig1, .waitDs0].contains f || (decide (f = .waitMem2) && decide (c ≠ .ldep))

theorem not_mismatched_of_settled {c : Cmd} {f : Fsm} (h : settled c f = true) : mismatched f c = false := by
  revert h; cases c <;> cases f <;> decide

/-- From a settled state a transition goes to a settled one; and so it does from WAIT_DS_0. -/
theorem settled_of_go {ds trig ds' trig' : Bool} {s t : State} (h : fsmRow ds trig s = .go ds' trig' t)
    (hs : settled s.cr.cmd s.fsm = true ∨ s.fsm = .waitDs0) : settled s.cr.cmd t.fsm = true := by
  have e := transitionsFollowTheTable ds trig ds' trig' s t h
  cases hf : s.fsm <;> cases hc : s.cr.cmd <;> simp_all [settled, cmdClass]

/-- A state from which nothing of the command is mismatched any more. -/
def recovered (c : Cmd) (f : Fsm) : Prop := settled c f = true ∨ f = .waitDs0 ∨ f = .reset

theorem not_mismatched_of_recovered {c : Cmd} {f : Fsm} (h : recovered c f) : mismatched f c = false := by
  rcases h with h | rfl | rfl
  · exact not_mismatched_of_settled h
  · rfl
  · rfl

theorem fsmRow_cr (ds trig : Bool) (s : State) : (fsmRow ds trig s).state.cr = s.cr := (fsmRow_frame ds trig s).cr

theorem recovered_of_row (ds trig : Bool) {s : State} (h : recovered s.cr.cmd s.fsm) :
    recovered s.cr.cmd (fsmRow ds trig s).state.fsm := by
  cases e : fsmRow ds trig s with
  | rest t => rw [RowOut.state_rest, (fsm_of_rest e).1]; exact h
  | go ds' trig' t =>
    rcases h with h | h | h
    · exact .inl (settled_of_go e (.inl h))
    · exact .inl (settled_of_go e (.inr h))
    · have e' := transitionsFollowTheTable ds trig ds' trig' s t e
      rw [h] at e'
      exact .inr (.inl e'.1)

/-- What a run from `s` has recorded where it is at `t`: nothing, or one mismatch, and then no other will follow. -/
def Recorded (s t : State) : Prop := t.cr = s.cr ∧ (t.errlog = s.errlog ∨ ∃ f, mismatched f s.cr.cmd = true ∧
  t.errlog = s.errlog ++ [.protocolInconsistency f s.cr.cmd] ∧ recovered s.cr.cmd t.fsm)

theorem recorded_of_row {s : State} (ds trig : Bool) (t : State) (h : Recorded s t) :
    Recorded s (fsmRow ds trig t).state := by
  obtain ⟨hcr, ht⟩ := h
  have hrow := (fsmRow_step ds trig t).errlog
  have hnext := recovered_of_row ds trig (s := t)
  rw [hcr] at hrow hnext
  refine ⟨(fsmRow_cr ds trig t).trans hcr, ?_⟩
  generalize (fsmRow ds trig t).state = u at *
  rcases ht with ht | ⟨f, hf, ht, hr⟩
  · rcases hrow with e | ⟨hm, hreset, e⟩
    · exact .inl (e.trans ht)
    · exact .inr ⟨_, hm, by rw [e, ht], .inr (.inr hreset)⟩
  · rcases hrow with e | ⟨hm, -, -⟩
    · exact .inr ⟨f, hf, e.trans ht, hnext hr⟩
    · rw [not_mismatched_of_recovered hr] at hm; cases hm

/-- A run records at most one mismatch: from RESET on nothing is mismatched (R281). -/
theorem runFsm_errlog (ds trig : Bool) (s : State) : (s.runFsm ds trig).errlog = s.errlog ∨
    ∃ f, mismatched f s.cr.cmd = true ∧ (s.runFsm ds trig).errlog = s.errlog ++ [.protocolInconsistency f s.cr.cmd] := by
  have key := runFsm_keeps (P := Recorded s) recorded_of_row (ds := ds) (trig := trig) ⟨rfl, .inl rfl⟩
  exact key.2.imp_right fun ⟨f, hf, e, _⟩ => ⟨f, hf, e⟩

/-- A mismatch whose wait is satisfied makes the transition to RESET (R281). -/
theorem fsmRow_mismatched {trig : Bool} (ds : Bool) {s : State} (hm : mismatched s.fsm s.cr.cmd = true)
    (hw : s.waitSatisfied trig = true) : ∃ ds' trig', fsmRow ds trig s =
      .go ds' trig' (if s.fsm.isMemWait then s.granted else s).protocolInconsistency := by
  unfold State.waitSatisfied at hw
  cases hf : s.fsm <;> simp only [hf] at hm hw
  case waitTrig0 =>
    refine ⟨ds, false, ?_⟩
    simp only [fsmRow, hf, rowWaitTrig0, hw, if_true]
    cases hc : s.cr.cmd <;> simp [hc, mismatched] at hm <;> rfl
  case waitMem0 =>
    refine ⟨ds, trig, ?_⟩
    simp only [fsmRow, hf, rowWaitMem0, hw, if_true]
    cases hc : s.cr.cmd <;> simp [hc, mismatched] at hm <;> rfl
  case waitTrig1 =>
    refine ⟨ds, false, ?_⟩
    simp only [fsmRow, hf, rowWaitTrig1, hw, if_true]
    cases hc : s.cr.cmd <;> simp [hc, mismatched] at hm <;> rfl
  case waitMem1 =>
    refine ⟨ds, trig, ?_⟩
    simp only [fsmRow, hf, rowWaitMem1, hw, if_true]
    cases hc : s.cr.cmd <;> simp [hc, mismatched] at hm <;> rfl
  case waitMem2 =>
    refine ⟨ds, trig, ?_⟩
    simp only [fsmRow, hf, rowWaitMem2, hw, if_true]
    cases hc : s.cr.cmd <;> simp [hc, mismatched] at hm <;> rfl
  all_goals cases hm

/-- Settles O36. -/
theorem inconsistencyIsTaken : Obligations.InconsistencyIsTaken := by
  intro ds trig s
  refine ⟨fun hm hw => ?_, runFsm_errlog ds trig s⟩
  obtain ⟨ds', trig', e⟩ := fsmRow_mismatched ds hm hw
  refine ⟨ds', trig', e.trans (congrArg _ ?_)⟩
  cases hf : s.fsm.isMemWait
  · simp; rfl
  · simp only [if_true, Bool.not_true, Bool.and_false, true_and, granted_eq_ite]; rfl

/-! ### Deferral and Wake -/

/-- A memory-wait state rests only where memory is unavailable (R103). -/
theorem memAvailable_of_rest {ds trig : Bool} {s t : State} (e : fsmRow ds trig s = .rest t) (hf : s.fsm.isMemWait = true) :
    s.memAvailable = false := by
  cases ha : s.memAvailable
  · rfl
  · cases h : s.fsm <;> rw [h] at hf <;> first
      | cases hf; done
      | (simp only [fsmRow, h, rowWaitMem0, rowWaitMem1, rowWaitMem2, ha, if_true] at e
         split at e <;> cases e)

/-- A wake-up stays pending in a memory-wait state only (R102). -/
def WakeInPlace (s : State) : Prop := s.wakePending = true → s.fsm.isMemWait = true

theorem drawPending_wakePending (s : State) : s.drawPending.wakePending = s.wakePending := by rw [drawPending_eq]; rfl

theorem fillPending_wakePending (s : State) : s.fillPending.wakePending = s.wakePending := by rw [fillPending_eq]; rfl

/-- After a transition no wake-up is pending: a memory-wait state was granted, and elsewhere none was (R104). -/
theorem wakePending_of_go {ds trig ds' trig' : Bool} {s t : State} (hs : WakeInPlace s)
    (h : fsmRow ds trig s = .go ds' trig' t) : t.wakePending = false := by
  have elsewhere (hf : s.fsm.isMemWait = false) : s.wakePending = false := by
    cases e : s.wakePending
    · rfl
    · have := hs e; rw [hf] at this; cases this
  cases RowStep.of_go h with
  | moved f hf => exact elsewhere hf.2.2
  | restarted hf => rfl
  | noted f hf => exact (noteCommand_wakePending s).trans (elsewhere (by rw [hf]; rfl))
  | applied hf => exact (applyParam1_wakePending s).trans (elsewhere (by rw [hf]; rfl))
  | firstWord hf | secondWord hf | endpoint hf => exact elsewhere (by rw [hf]; rfl)
  | inconsistent =>
    cases hf : s.fsm.isMemWait
    · exact elsewhere hf
    · rfl
  | suspended hf ha => rw [fsmRow_suspends hf ha] at h; cases h
  | readWord | readHit | wrote => rfl
  | drew => rw [State.withFsm_wakePending, drawPending_wakePending]; rfl
  | filled => rw [State.withFsm_wakePending, fillPending_wakePending]; rfl

theorem isMemWait_iff (f : Fsm) : f.isMemWait = true ↔ f = .waitMem0 ∨ f = .waitMem1 ∨ f = .waitMem2 := by
  simp only [Fsm.isMemWait, Bool.or_eq_true, decide_eq_true_eq, or_assoc]

/-- Settles O23: where the last row leaves a wake-up pending it is a memory-wait state that was refused. -/
theorem deferralSuspends : Obligations.DeferralSuspends := by
  refine fun ds trig s => ⟨fun hf ha => ?_, fun hw hp => ?_⟩
  · show (Host.Outcome.next ((s.runFsm ds trig).withRet .none) : Result) = _
    rw [State.runFsm, rowLimit, runRows_rest (fsmRow_suspends hf ha), suspend_of_unavailable ha]
  · obtain ⟨ds', trig', u, hu, e⟩ := runRows_last (P := fun _ => WakeInPlace)
      (fun hs h => by intro e; rw [wakePending_of_go hs h] at e; cases e) (transitionsLeft_lt_rowLimit _ _ _ 0) hw
    change fsmRow ds' trig' u = .rest (s.runFsm ds trig) at e
    have hm : u.fsm.isMemWait = true := by
      rcases fsmRow_rest_cases e with ⟨-, ht⟩ | ⟨-, -, ht⟩ | ⟨hm, -, -⟩
      · rw [ht, noteCommand_wakePending] at hp; exact hu hp
      · rw [ht] at hp; exact hu hp
      · exact hm
    have ha := memAvailable_of_rest e hm
    have ht : s.runFsm ds trig = u.suspend := by
      rw [fsmRow_suspends hm ha] at e; exact (RowOut.rest.inj e).symm
    exact ⟨ds', trig', u, e, hm, ha, by rw [ht]; rfl, by rw [ht]; rfl⟩

theorem execWake_pending {s : State} (h : s.wakePending = true) :
    exec .wake s = .next (((s.withWakePending false).drive false false).withRet .none) := if_pos h

theorem execWake_idle {s : State} (h : s.wakePending = false) : exec .wake s = .next (s.withRet .none) :=
  if_neg (by simp [h])

/-- An event in a memory-wait state with memory unavailable suspends it anew (R103). -/
theorem drive_suspended {s : State} (hf : s.fsm.isMemWait = true) (ha : s.memAvailable = false) (ds trig : Bool) :
    s.drive ds trig = s.suspend.recompute := by
  rw [State.drive, State.runFsm, rowLimit, runRows_rest (fsmRow_suspends hf ha)]

/-- A word that waited for memory is written, and the run rests in WAIT_DS_2 (R154). -/
theorem drive_waitMem1 {s : State} (hf : s.fsm = .waitMem1) (hc : s.cr.cmd = .wrw) (ha : s.memAvailable = true) (trig : Bool) :
    s.drive false trig = ((s.granted.writeWordAtCursor s.dataW).withFsm .waitDs2).recompute := by
  rw [State.drive, State.runFsm, rowLimit, runRows_go (fsmRow_waitMem1 hf ha (.inl hc)), runRows_rest (fsmRow_waitDs2_rest rfl),
    if_pos hc]

/-- Settles O24. -/
theorem wakeResult : Obligations.WakeResult := by
  refine fun s => ⟨execWake_idle, execWake_pending, fun hp hf hc ha => ?_, fun hp hf ha => ?_⟩
  · rw [execWake_pending hp, drive_waitMem1 (s := s.withWakePending false) hf hc ha, granted_eq_ite, writeWordAtCursor_eq]
    rfl
  · have hs : s.withWakePending true = s := by rw [← hp, State.withWakePending_self]
    rw [execWake_pending hp, drive_suspended (s := s.withWakePending false) hf ha,
      suspend_of_unavailable (s := s.withWakePending false) ha]
    conv_rhs => rw [← hs]
    rfl

/-! ### The IoCursor -/

/-- The cursor a change of command loads, under the default rule (R141). -/
theorem restoredCursor_reload {c : Config} (h : c.ioRestore = .reload) (io : IoCursor) (cmd : Cmd) : restoredCursor c io cmd =
    { io with addr := planeAddr c (io.x.toNat + io.y.toNat * c.rowStride), plane := 0, wrap := false } := by
  unfold restoredCursor; rw [h]

/-- Over three planes, three advances take the next word of the same plane (R142). -/
theorem advance_three {c : Config} (h3 : c.nplanes = 3) {io : IoCursor} (hp : io.plane.toNat < 3) :
    ((IoCursor.advance c)^[3] io).plane = io.plane ∧ ((IoCursor.advance c)^[3] io).addr = planeAddr c (io.addr + 1) := by
  obtain ⟨x, y, addr, plane, wrap, last⟩ := io
  have all : ∀ p : BitVec 2, p.toNat < 3 → p = 0 ∨ p = 1 ∨ p = 2 := by decide
  rcases all plane hp with rfl | rfl | rfl <;> simp [Function.iterate_succ_apply, IoCursor.advance, h3]

theorem advance_three_mul {c : Config} (hwf : c.wf = true) (h3 : c.nplanes = 3) {io : IoCursor} (hp : io.plane.toNat < 3)
    (ha : io.addr &&& c.addrMask = io.addr) (k : Nat) :
    ((IoCursor.advance c)^[3 * k] io).plane = io.plane ∧
      ((IoCursor.advance c)^[3 * k] io).addr = planeAddr c (io.addr + k) := by
  induction k with
  | zero => exact ⟨rfl, (planeAddr_of_masked ha).symm⟩
  | succ k ih =>
    rw [Nat.mul_succ, Nat.add_comm, Function.iterate_add_apply]
    have h := advance_three h3 (io := (IoCursor.advance c)^[3 * k] io) (by rw [ih.1]; exact hp)
    refine ⟨h.1.trans ih.1, h.2.trans ?_⟩
    rw [ih.2, planeAddr_eq_mod hwf, planeAddr_eq_mod hwf, planeAddr_eq_mod hwf, Nat.mod_add_mod, Nat.add_assoc]

/-- The class test of a command already seen, or under the default rule (R141, R143). -/
theorem noteCommand_eq {s : State} (h : s.io.lastCmd = some s.cr.cmd ∨ s.cfg.ioRestore = .reload) :
    s.noteCommand = if s.io.lastCmd = some s.cr.cmd then s else
      (s.withIo { s.io with addr := planeAddr s.cfg (s.io.x.toNat + s.io.y.toNat * s.cfg.rowStride), plane := 0
                            wrap := false, lastCmd := some s.cr.cmd }).withLp
        (if s.cr.cmd = .rdlp then { s.lp with regSel := .yhi } else s.lp) := by
  unfold State.noteCommand
  split
  · rfl
  · next hl =>
    rw [State.loadIoCursor, restoredCursor_reload (h.resolve_left hl)]
    rfl

/-- Row WAIT_DS_0 without a strobe, under a command that is not of class READ (R143). -/
theorem fsmRow_waitDs0_unstrobed {s : State} (hf : s.fsm = .waitDs0) (hc : cmdClass s.cr.cmd ≠ .read) (trig : Bool) :
    fsmRow false trig s = .rest s.noteCommand := by
  simp only [fsmRow, hf, rowWaitDs0]
  cases h : cmdClass s.cr.cmd <;> first | rfl | exact absurd h hc

/-- The write of R5 that changes the command in WAIT_DS_0 (R133, R143). -/
theorem drive_waitDs0 {s : State} (hf : s.fsm = .waitDs0) (hc : cmdClass s.cr.cmd ≠ .read) (trig : Bool) :
    s.drive false trig = s.noteCommand.recompute := by
  rw [State.drive, State.runFsm, rowLimit, runRows_rest (fsmRow_waitDs0_unstrobed hf hc trig)]

/-- Settles O39. -/
theorem ioCursorResults : Obligations.IoCursorResults := by
  refine ⟨fun s h => ?_, fun s => rfl, fun c io k hwf h3 hp ha => advance_three_mul hwf h3 hp ha k,
    fun ds trig s hf h => ?_, fun v s hf hv hr hc hl => ?_⟩
  · show (Host.Outcome.next (s.loadIoCursor.withRet .none) : Result) = _
    rw [State.loadIoCursor, restoredCursor_reload h]
  · rw [← noteCommand_eq h]
    simp only [fsmRow, hf, rowWaitDs0]
    cases cmdClass s.cr.cmd <;> rfl
  · refine ⟨_, rfl, ?_⟩
    have hfsm : fsmAfterR5 s.fsm s.cr.cmd (cmdRegOf v).cmd (resetBitOf v) = .waitDs0 := by
      rw [show resetBitOf v = false from hv, hf]; simp [fsmAfterR5]
    unfold State.hostWrite5
    rw [hfsm, drive_waitDs0 (s := (s.storeR5 v).withFsm .waitDs0) rfl hc,
      noteCommand_eq (s := (s.storeR5 v).withFsm .waitDs0) (.inr hr)]
    rw [if_neg (show ¬((s.storeR5 v).withFsm .waitDs0).io.lastCmd = some ((s.storeR5 v).withFsm .waitDs0).cr.cmd from hl)]
    exact ⟨rfl, rfl⟩

/-! ### Accesses to R4 to R7 -/

theorem noteCommand_memAvailable (s : State) : s.noteCommand.memAvailable = s.memAvailable := by
  unfold State.noteCommand; split <;> rfl

theorem noteCommand_withDataW (s : State) (v : Word) : (s.withDataW v).noteCommand = s.noteCommand.withDataW v := by
  unfold State.noteCommand
  by_cases h : s.io.lastCmd = some s.cr.cmd
  · rw [if_pos h, if_pos (show (s.withDataW v).io.lastCmd = some (s.withDataW v).cr.cmd from h)]
  · rw [if_neg h, if_neg (show ¬(s.withDataW v).io.lastCmd = some (s.withDataW v).cr.cmd from h)]
    rfl

/-- An event in a WAIT_TRIG state without its trigger changes nothing (R144, R153). -/
theorem drive_untriggered {s : State} (hf : s.fsm = .waitTrig0 ∨ s.fsm = .waitTrig1) (hi : s.cr.intEn = true) (ds : Bool) :
    s.drive ds false = s.recompute := by
  rw [State.drive, State.runFsm, rowLimit]
  rcases hf with hf | hf
  · rw [runRows_rest (fsmRow_waitTrig0_rest hf hi)]
  · rw [runRows_rest (fsmRow_waitTrig1_rest hf hi)]

theorem endIn_self (s : State) : s.endIn s.fsm = s.recompute.withRet .none := rfl

/-- The row that writes a word of WRW (R154). -/
theorem fsmRow_waitMem1_wrw {s : State} (hf : s.fsm = .waitMem1) (ha : s.memAvailable = true) (hc : s.cr.cmd = .wrw)
    (ds trig : Bool) :
    fsmRow ds trig s = .go ds trig ((s.granted.writeWordAtCursor s.dataW).withFsm .waitDs2) := by
  rw [fsmRow_waitMem1 hf ha (.inl hc), if_pos hc]

/-- A word of WRW from WAIT_DS_0: the command noted, the word written (R143, R153, R154). -/
theorem hostWrite4_first {s : State} (hc : s.cr.cmd = .wrw) (hf : s.fsm = .waitDs0) (hi : s.cr.intEn = false)
    (ha : s.memAvailable = true) (v : Word) :
    s.hostWrite4 v = (((s.noteCommand.withDataW v).granted.writeWordAtCursor v).withFsm .waitDs2).recompute := by
  have hcr : s.noteCommand.cr = s.cr := noteCommand_cr s
  have hcmd : s.noteCommand.cr.cmd = .wrw := by rw [hcr, hc]
  have strobe : fsmRow true false (s.withDataW v) = .go false false ((s.noteCommand.withDataW v).withFsm .waitTrig1) := by
    simp only [fsmRow, State.withDataW_fsm, hf, rowWaitDs0, State.withDataW_cr, hc, cmdClass, noteCommand_withDataW, if_true]
  have trigger := fsmRow_waitTrig1_write (ds := false) (trig := false) (s := (s.noteCommand.withDataW v).withFsm .waitTrig1) rfl
    (by rw [trigOk_eq, show ((s.noteCommand.withDataW v).withFsm .waitTrig1).cr = s.cr from hcr, hi]; rfl) (.inl hcmd)
  have write := fsmRow_waitMem1_wrw (s := ((s.noteCommand.withDataW v).withFsm .waitTrig1).withFsm .waitMem1) rfl
    ((noteCommand_memAvailable s).trans ha) hcmd false false
  unfold State.hostWrite4 State.drive State.runFsm rowLimit
  rw [runRows_go strobe, runRows_go trigger, runRows_go write, runRows_rest (fsmRow_waitDs2_rest rfl)]
  rfl

theorem granted_of_active {s : State} (h : s.graphicsActive = true) :
    s.granted = (s.withBeams s.beams.tail).withWakePending false := by rw [granted_eq, h]; rfl

/-- The word of a deferred write written and the next one about to ask the arbiter. -/
def State.wroteDeferred (s : State) (v : Word) : State :=
  ((((s.withDataW v).withBeams s.beams.tail).withWakePending false).writeWordAtCursor v).withFsm .waitMem1

theorem wroteDeferred_memAvailable (s : State) (v : Word) :
    (s.wroteDeferred v).memAvailable = (s.withBeams s.beams.tail).memAvailable := rfl

/-- A write of R4 on a write that was deferred: it writes its word, and its strobe takes the run to WAIT_MEM_1 again
(R152 to R154). -/
theorem hostWrite4_deferred {s : State} (hc : s.cr.cmd = .wrw) (hf : s.fsm = .waitMem1) (hi : s.cr.intEn = false)
    (hg : s.graphicsActive = true) (ha : s.memAvailable = true) (v : Word) :
    s.hostWrite4 v = (runRows 6 false false (s.wroteDeferred v)).recompute := by
  have write : fsmRow true false (s.withDataW v) = .go true false ((s.wroteDeferred v).withFsm .waitDs2) := by
    rw [fsmRow_waitMem1_wrw (s := s.withDataW v) hf ha hc, granted_of_active (s := s.withDataW v) hg]; rfl
  have strobe := fsmRow_waitDs2_strobe (trig := false) (s := (s.wroteDeferred v).withFsm .waitDs2) rfl
  have trigger := fsmRow_waitTrig1_write (ds := false) (trig := false)
    (s := ((s.wroteDeferred v).withFsm .waitDs2).withFsm .waitTrig1) rfl
    (by rw [trigOk_eq]; show (false || !s.cr.intEn) = true; rw [hi]; rfl) (.inl hc)
  unfold State.hostWrite4 State.drive State.runFsm rowLimit
  rw [runRows_go write, runRows_go strobe, runRows_go trigger]
  rfl

/-- A read of R4 under RDW, memory available (R150, R151). -/
theorem hostRead4_next {s : State} (hc : s.cr.cmd = .rdw) (hf : s.fsm = .waitDs1) (ha : s.memAvailable = true) :
    s.hostRead4 = (s.granted.readWordAtCursor.withFsm .waitDs1).recompute := by
  have strobe : fsmRow true false s = .go false false (s.withFsm .waitMem0) := by simp [fsmRow, hf, rowWaitDs1]
  unfold State.hostRead4 State.drive State.runFsm rowLimit
  rw [runRows_go strobe, runRows_go (fsmRow_waitMem0 (s := s.withFsm .waitMem0) rfl ha (.inl hc)),
    runRows_rest (fsmRow_waitDs1_rest rfl)]
  simp only [State.withFsm_cr, hc, if_true]
  rfl

/-- Settles O40. -/
theorem r4Results : Obligations.R4Results := by
  refine fun v s => ⟨rfl, fun hf hi => ?_, fun hf ha => ?_, fun hc hf hi ha => ?_, fun hc hf hi hg ha => ?_, rfl,
    fun hc hf ha => ?_, fun hc hf => ⟨_, rfl, rfl⟩⟩
  · exact congrArg (fun t => (Host.Outcome.next (State.withRet t .none) : Result))
      (drive_untriggered (s := s.withDataW v) hf hi true)
  · refine congrArg (fun t => (Host.Outcome.next (State.withRet t .none) : Result))
      ((drive_suspended (s := s.withDataW v) hf ha true false).trans ?_)
    rw [suspend_of_unavailable (s := s.withDataW v) ha]
    rfl
  · exact ⟨_, congrArg (fun t => (Host.Outcome.next (State.withRet t .none) : Result)) (hostWrite4_first hc hf hi ha v), rfl,
      planeRead_planeWrite_same (s.noteCommand.withDataW v).granted _ _ v⟩
  · refine ⟨_, congrArg (fun t => (Host.Outcome.next (State.withRet t .none) : Result)) (hostWrite4_deferred hc hf hi hg ha v),
      ?_⟩
    rw [← wroteDeferred_memAvailable s v]
    cases ha' : (s.wroteDeferred v).memAvailable
    · rw [if_neg (by decide), runRows_rest (fsmRow_suspends rfl ha'), suspend_of_unavailable ha',
        show (s.wroteDeferred v).graphicsActive = true from hg]
      exact ⟨rfl, rfl, rfl, rfl, rfl, planeRead_planeWrite_same (s.withDataW v) _ _ v⟩
    · rw [if_pos rfl, runRows_go (fsmRow_waitMem1_wrw rfl ha' hc false false), runRows_rest (fsmRow_waitDs2_rest rfl),
        granted_of_active (s := s.wroteDeferred v) hg]
      exact ⟨rfl, rfl, rfl, rfl⟩
  · refine ⟨_, congrArg (fun t => (Host.Outcome.next (State.withRet t (.word s.dataR)) : Result)) (hostRead4_next hc hf ha),
      rfl, rfl, rfl, rfl⟩

/-- Settles O41: the register's fields are the word's bits. -/
theorem wr5Result : Obligations.Wr5Result := by
  refine fun v s => ⟨cmdRegOf v, fsmAfterR5 s.fsm s.cr.cmd (cmdRegOf v).cmd (resetBitOf v), rfl, rfl, rfl, rfl, rfl, rfl, rfl,
    rfl, rfl, ?_⟩
  unfold fsmAfterR5
  rfl

/-- The status word, bit by bit (R63). -/
theorem statusWord_getLsbD (s : State) (i : Nat) : s.statusWord.getLsbD i =
    ((decide (i = 0) && s.sig.ready) || (decide (i = 1) && s.sig.irq) || (decide (i = 2) && s.lp.int)
      || (decide (i = 3) && s.io.wrap) || (decide (i = 7) && s.cfg.idBit)) := by
  unfold State.statusWord
  rcases Nat.lt_or_ge i 16 with h | h
  · simp only [BitVec.getLsbD_append]
    interval_cases i <;> simp
  · rw [BitVec.getLsbD_of_ge _ _ h]
    simp [show i ≠ 0 by omega, show i ≠ 1 by omega, show i ≠ 2 by omega, show i ≠ 3 by omega, show i ≠ 7 by omega]

/-- An event that ran the FSM leaves the register as it was, and the signals fresh (R160). -/
theorem drive_dmaReq {s : State} (h : s.cr.dmaEn = false) (ds trig : Bool) :
    (s.drive ds trig).cr.dmaEn = false ∧ (s.drive ds trig).sig.dmaReq = false := by
  have hcr := drive_cr s ds trig
  refine ⟨by rw [hcr]; exact h, ?_⟩
  show (readyIn _ _ && (s.drive ds trig).cr.dmaEn && _) = false
  rw [hcr, h, Bool.and_false, Bool.false_and]

/-- Without its strobe an event rests where the FSM waits for data (R143, R151, R152). -/
theorem drive_unstrobed {s : State} (h : s.fsm = .waitDs1 ∨ s.fsm = .waitDs2 ∨
    (s.fsm = .waitDs0 ∧ s.io.lastCmd = some s.cr.cmd ∧ cmdClass s.cr.cmd ≠ .read)) (trig : Bool) :
    s.drive false trig = s.recompute := by
  have e : fsmRow false trig s = .rest s := by
    rcases h with h | h | ⟨h, hl, hc⟩
    · exact fsmRow_waitDs1_rest h
    · exact fsmRow_waitDs2_rest h
    · exact fsmRow_waitDs0_rest h hl hc
  rw [State.drive, State.runFsm, rowLimit, runRows_rest e]

/-- Settles O42. -/
theorem r5ToR7Results : Obligations.R5ToR7Results := by
  refine fun v s => ⟨⟨_, rfl, statusWord_getLsbD s⟩, rfl, rfl, fun t ht => ?_, rfl, fun h => ?_, rfl⟩
  · rcases ht with ht | ht
    · obtain rfl := Host.Outcome.next.inj ht
      exact drive_dmaReq (s := s.terminalCount.withDataW v) rfl true false
    · obtain rfl := Host.Outcome.next.inj ht
      exact drive_dmaReq (s := s.terminalCount) rfl true false
  · exact congrArg (fun t => (Host.Outcome.next (State.withRet t .none) : Result)) (drive_unstrobed h true)

/-! ### The FSM reset -/

theorem hostWrite5_of_reset {v : Word} (s : State) (hv : resetBitOf v = true) :
    s.hostWrite5 v = ((s.storeR5 v).withFsm .reset).drive false false := by
  unfold State.hostWrite5
  rw [hv]; rfl

/-- What a run from RESET without tokens leaves alone: all that no READ loads (R140, R143). -/
structure RestartFrame (s t : State) : Prop where
  mem : t.mem = s.mem
  x : t.io.x = s.io.x
  y : t.io.y = s.io.y
  ctl : t.ctl = s.ctl
  pat : t.pat = s.pat
  ends : t.ends = s.ends
  music : t.music = s.music
  cursor : t.cursor = s.cursor
  errlog : t.errlog = s.errlog

theorem restoredCursor_xy (c : Config) (io : IoCursor) (cmd : Cmd) :
    (restoredCursor c io cmd).x = io.x ∧ (restoredCursor c io cmd).y = io.y := by
  unfold restoredCursor
  split <;> exact ⟨rfl, rfl⟩

theorem noteCommand_restart (s : State) : RestartFrame s s.noteCommand := by
  have h := restoredCursor_xy s.cfg s.io s.cr.cmd
  unfold State.noteCommand
  split
  · exact ⟨rfl, rfl, rfl, rfl, rfl, rfl, rfl, rfl, rfl⟩
  · exact ⟨rfl, h.1, h.2, rfl, rfl, rfl, rfl, rfl, rfl⟩

theorem noteCommand_dataR (s : State) : s.noteCommand.dataR = s.dataR := by unfold State.noteCommand; split <;> rfl

theorem RestartFrame.trans {s t u : State} (h : RestartFrame s t) (k : RestartFrame t u) : RestartFrame s u :=
  ⟨k.1.trans h.1, k.2.trans h.2, k.3.trans h.3, k.4.trans h.4, k.5.trans h.5, k.6.trans h.6, k.7.trans h.7, k.8.trans h.8,
    k.9.trans h.9⟩

theorem advance_xy (c : Config) (io : IoCursor) :
    (IoCursor.advance c io).x = io.x ∧ (IoCursor.advance c io).y = io.y := by
  unfold IoCursor.advance
  split <;> exact ⟨rfl, rfl⟩

theorem restarted_restart (s : State) : RestartFrame s s.restarted :=
  have forget : RestartFrame s (s.cancelWake.withIo { s.io with lastCmd := none }) := ⟨rfl, rfl, rfl, rfl, rfl, rfl, rfl, rfl, rfl⟩
  forget.trans (noteCommand_restart _)

/-- A run from RESET without tokens. -/
theorem runFsm_of_reset_frame {s : State} (hf : s.fsm = .reset) : RestartFrame s (s.runFsm false false) := by
  rw [runFsm_of_reset hf]
  refine (restarted_restart s).trans ?_
  have hcr : s.restarted.cr = s.cr := noteCommand_cr _
  generalize s.restarted = t at *
  cases hc : cmdClass s.cr.cmd with
  | read =>
    rw [runRows_waitMem0 5 false rfl (by rw [State.withFsm_cr, hcr, hc])]
    have hxy := advance_xy t.cfg t.io
    split_ifs
    · exact ⟨rfl, hxy.1, hxy.2, rfl, rfl, rfl, rfl, rfl, rfl⟩
    · exact ⟨rfl, rfl, rfl, rfl, rfl, rfl, rfl, rfl, rfl⟩
    · exact ⟨rfl, rfl, rfl, rfl, rfl, rfl, rfl, rfl, rfl⟩
  | _ => exact ⟨rfl, rfl, rfl, rfl, rfl, rfl, rfl, rfl, rfl⟩

theorem cmdRegOf_or_reset (v : Word) : cmdRegOf (v ||| 0x0080) = cmdRegOf v := by
  have hc : (v ||| 0x0080).extractLsb' 0 4 = v.extractLsb' 0 4 := by
    apply BitVec.eq_of_getLsbD_eq
    intro i hi
    rw [BitVec.getLsbD_extractLsb', BitVec.getLsbD_extractLsb', BitVec.getLsbD_or]
    interval_cases i <;> simp
  simp only [cmdRegOf, unpackCmd, unpackFlags, BitVec.getLsbD_or]
  rw [hc]
  simp

theorem restarted_eq (s : State) : s.restarted =
    ((s.cancelWake.withIo { s.io with lastCmd := none }).loadIoCursor).withIo
      { restoredCursor s.cfg { s.io with lastCmd := none } s.cr.cmd with lastCmd := some s.cr.cmd } := rfl

/-- A run from RESET without tokens, signals recomputed, under a command that is not of class READ (R140, R143). -/
theorem drive_of_reset {u : State} (hf : u.fsm = .reset) (hc : cmdClass u.cr.cmd ≠ .read) :
    (u.drive false false).fsm = .waitDs0 ∧ (u.drive false false).wakePending = false ∧
      (u.drive false false).dataR = u.dataR ∧
      (u.drive false false).io = { restoredCursor u.cfg { u.io with lastCmd := none } u.cr.cmd with
                                   lastCmd := some u.cr.cmd } := by
  have hrun : u.runFsm false false = u.restarted.withFsm .waitDs0 := by
    rw [runFsm_of_reset hf]
    split
    · next e => exact absurd e hc
    · rfl
  have hwake : u.restarted.wakePending = false := noteCommand_wakePending _
  have hdata : u.restarted.dataR = u.dataR := noteCommand_dataR _
  unfold State.drive
  rw [hrun]
  exact ⟨rfl, hwake, hdata, congrArg State.io (restarted_eq u)⟩

theorem storeR5_restart (s : State) (v : Word) : RestartFrame s ((s.storeR5 v).withFsm .reset) :=
  ⟨rfl, rfl, rfl, rfl, rfl, rfl, rfl, rfl, rfl⟩

/-- Settles O16: a run from RESET. -/
theorem fsmResetResult : Obligations.FsmResetResult := by
  intro v s
  refine ⟨rfl, (s.hostWrite5 (v ||| 0x0080)).withRet .none, rfl, ?_⟩
  have hside := hostWrite5_hostSide s (v ||| 0x0080)
  rw [hostWrite5_of_reset s (resetBitOf_or v)] at *
  have hstore := storeR5_restart s (v ||| 0x0080)
  have hcr : ((s.storeR5 (v ||| 0x0080)).withFsm .reset).cr = cmdRegOf v := cmdRegOf_or_reset v
  have hkept : ((s.storeR5 (v ||| 0x0080)).withFsm .reset).dataW = s.dataW ∧
      ((s.storeR5 (v ||| 0x0080)).withFsm .reset).dataR = s.dataR ∧ ((s.storeR5 (v ||| 0x0080)).withFsm .reset).io = s.io ∧
      ((s.storeR5 (v ||| 0x0080)).withFsm .reset).cfg = s.cfg := ⟨rfl, rfl, rfl, rfl⟩
  have hf : ((s.storeR5 (v ||| 0x0080)).withFsm .reset).fsm = .reset := rfl
  generalize (s.storeR5 (v ||| 0x0080)).withFsm .reset = u at *
  obtain ⟨hdw, hdr, hio, hcfg⟩ := hkept
  obtain ⟨mem, x, y, ctl, pat, ends, music, cursor, errlog⟩ := hstore.trans (runFsm_of_reset_frame hf)
  have hrow := runFsm_frame false false u
  refine ⟨hrow.cr.trans hcr, fun k => congrArg (readByte · k) mem, hrow.dataW.trans hdw, x, y, ctl, pat, ends, music, cursor,
    hside.display, hside.world, errlog, fun hc => ?_⟩
  obtain ⟨d1, d2, d3, d4⟩ := drive_of_reset hf (by rw [hcr]; exact hc)
  rw [hcr, hio, hcfg] at d4
  exact ⟨d1, d2, d3.trans hdr, d4⟩

/-! ### ControllerReset -/

/-- What ControllerReset leaves: the registers at reset, the cursor loaded for NOPC, the signals (R310). -/
theorem controllerReset_eq (s : State) : s.controllerReset =
    ((s.resetRegisters.withIo { restoredCursor s.cfg { IoCursor.atReset with lastCmd := none } .nopc with
      lastCmd := some .nopc }).withFsm .waitDs0).recompute := by
  have hrun : s.resetRegisters.runFsm false false = s.resetRegisters.restarted.withFsm .waitDs0 := runFsm_of_reset rfl
  unfold State.controllerReset State.drive
  rw [hrun, restarted_eq]
  rfl

/-- The cursor loaded at reset is at plane 0, whatever the rule (R141, U4). -/
theorem restoredCursor_plane {c : Config} {io : IoCursor} (h : io.plane = 0) (cmd : Cmd) :
    (restoredCursor c io cmd).plane = 0 := by
  unfold restoredCursor
  split
  · rfl
  · simp [h]

theorem signals_atReset (c : Config) : signalsOf c .waitDs0 CmdReg.atReset =
    { ready := decide (c.readySet = .ds), irq := false, dmaReq := false } := by
  unfold signalsOf
  cases h : c.readySet <;> rfl

/-- Settles O15. -/
theorem controllerResetResult : Obligations.ControllerResetResult := by
  refine ⟨fun s => ?_, fun c i m => ?_⟩
  · show (Host.Outcome.next (s.controllerReset.withRet .none) : Result) = _
    rw [State.powerOn, controllerReset_eq, controllerReset_eq]
    rfl
  · have hz : State.powerOn c i m = _ := controllerReset_eq (State.initial c i m)
    have hxy := restoredCursor_xy c { IoCursor.atReset with lastCmd := none } .nopc
    have hp := restoredCursor_plane (c := c) (io := { IoCursor.atReset with lastCmd := none }) rfl .nopc
    refine ⟨?_, ?_, ?_, ?_, ?_, ?_, ?_, ?_, fun h => ?_, fun hwf hi hm hk => controllerReset_inv ?_ ?_⟩
    · exact controllerReset_mem _
    · rw [hz]; rfl
    · rw [hz]; rfl
    · rw [hz, State.initial, ← signals_atReset c]; rfl
    · rw [hz]; exact hxy.1
    · rw [hz]; exact hxy.2
    · rw [hz]; exact hp
    · rw [hz]; rfl
    · have hio : (State.powerOn c i m).io = { restoredCursor c { IoCursor.atReset with lastCmd := none } .nopc with
          lastCmd := some .nopc } := congrArg State.io hz
      rw [hio, restoredCursor_reload h]
      exact ⟨by simp [planeAddr, IoCursor.atReset], rfl⟩
    · exact Bool.and_eq_true_iff.2 ⟨hm, List.all_eq_true.2 hk⟩
    · exact (givenOk_iff _).2 ⟨hwf, hi, rfl⟩

end Sys2Proof.Machine
end

section
/-! SUPPORT. What a run of the FSM under a command writes (spec 44_commands.md, the summary table of section 6): a frame of
every row by its command, the IoCursor and the words it moves over, the line or the box of one run. -/

namespace Sys2Proof.Machine

/-! ### The frame of a command -/

/-- What the row of a command in the summary table leaves alone. -/
structure CommandFrame (s t : State) : Prop where
  mem : s.cr.cmd ≠ .wrw → s.cr.cmd ≠ .clrw → s.cr.cmd ≠ .drawv → s.cr.cmd ≠ .fillr → t.mem = s.mem
  pixels : s.cr.cmd = .drawv ∨ s.cr.cmd = .fillr → ∀ q x y, s.ctl.active.getLsbD q.toNat = false →
    t.readPixel q x y = s.readPixel q x y
  dataR : s.cr.cmd ≠ .rdw → s.cr.cmd ≠ .rdlp → t.dataR = s.dataR
  ends : s.cr.cmd ≠ .ldep → s.cr.cmd ≠ .drawv → s.cr.cmd ≠ .fillr → t.ends = s.ends
  pat : s.cr.cmd ≠ .ldlp → s.cr.cmd ≠ .drawv → t.pat = s.pat
  dash : s.cr.cmd = .drawv → t.pat.dashSel = s.pat.dashSel ∧ t.pat.dashN = s.pat.dashN ∧ t.pat.htSel = s.pat.htSel
  ctl : s.cr.cmd ≠ .ldmc → s.cr.cmd ≠ .ldcm → t.ctl = s.ctl
  setSel : s.cr.cmd = .ldmc → t.ctl.setSel = s.ctl.setSel
  active : s.cr.cmd = .ldcm → t.ctl.active = s.ctl.active ∧ t.ctl.dominance = s.ctl.dominance
  music : s.cr.cmd ≠ .ldmap → t.music = s.music
  entries : s.cr.cmd = .ldmap → ∀ j : Fin 8, j ≠ (s.dataW.extractLsb' 4 3).toFin → t.music.get j = s.music.get j
  cursor : s.cr.cmd ≠ .ldcx → s.cr.cmd ≠ .ldcy → t.cursor = s.cursor
  cursorX : s.cr.cmd = .ldcx → t.cursor.y = s.cursor.y ∧ t.cursor.color = s.cursor.color
  cursorY : s.cr.cmd = .ldcy → t.cursor.x = s.cursor.x ∧ t.cursor.blink = s.cursor.blink ∧ t.cursor.fs = s.cursor.fs
  x : s.cr.cmd ≠ .ldiox → t.io.x = s.io.x
  y : s.cr.cmd ≠ .ldioy → t.io.y = s.io.y
  lp : s.cr.cmd ≠ .rdlp → t.lp = s.lp
  int : t.lp.int = true → s.lp.int = true

theorem CommandFrame.refl (s : State) : CommandFrame s s := by constructor <;> simp

theorem CommandFrame.trans {s t u : State} (h : CommandFrame s t) (hcr : t.cr = s.cr) (hd : t.dataW = s.dataW)
    (k : CommandFrame t u) : CommandFrame s u where
  mem h1 h2 h3 h4 := by rw [← h.mem h1 h2 h3 h4]; rw [← hcr] at h1 h2 h3 h4; exact k.mem h1 h2 h3 h4
  pixels hc q x y ha := by
    have hctl : t.ctl = s.ctl := by
      rcases hc with e | e <;> exact h.ctl (by rw [e]; decide) (by rw [e]; decide)
    rw [← h.pixels hc q x y ha]
    exact k.pixels (hcr ▸ hc) q x y (hctl ▸ ha)
  dataR h1 h2 := by rw [← h.dataR h1 h2]; rw [← hcr] at h1 h2; exact k.dataR h1 h2
  ends h1 h2 h3 := by rw [← h.ends h1 h2 h3]; rw [← hcr] at h1 h2 h3; exact k.ends h1 h2 h3
  pat h1 h2 := by rw [← h.pat h1 h2]; rw [← hcr] at h1 h2; exact k.pat h1 h2
  dash hc := by
    obtain ⟨h1, h2, h3⟩ := h.dash hc
    rw [← h1, ← h2, ← h3]; exact k.dash (hcr ▸ hc)
  ctl h1 h2 := by rw [← h.ctl h1 h2]; rw [← hcr] at h1 h2; exact k.ctl h1 h2
  setSel hc := by rw [← h.setSel hc]; exact k.setSel (hcr ▸ hc)
  active hc := by
    obtain ⟨h1, h2⟩ := h.active hc
    rw [← h1, ← h2]; exact k.active (hcr ▸ hc)
  music hc := by rw [← h.music hc]; rw [← hcr] at hc; exact k.music hc
  entries hc j hj := by rw [← h.entries hc j hj]; rw [← hd] at hj; exact k.entries (hcr ▸ hc) j hj
  cursor h1 h2 := by rw [← h.cursor h1 h2]; rw [← hcr] at h1 h2; exact k.cursor h1 h2
  cursorX hc := by
    obtain ⟨h1, h2⟩ := h.cursorX hc
    rw [← h1, ← h2]; exact k.cursorX (hcr ▸ hc)
  cursorY hc := by
    obtain ⟨h1, h2, h3⟩ := h.cursorY hc
    rw [← h1, ← h2, ← h3]; exact k.cursorY (hcr ▸ hc)
  x hc := by rw [← h.x hc]; rw [← hcr] at hc; exact k.x hc
  y hc := by rw [← h.y hc]; rw [← hcr] at hc; exact k.y hc
  lp hc := by rw [← h.lp hc]; rw [← hcr] at hc; exact k.lp hc
  int hc := h.int (k.int hc)

theorem CommandFrame.withFsm {s t : State} (h : CommandFrame s t) (f : Fsm) : CommandFrame s (t.withFsm f) :=
  ⟨h.mem, h.pixels, h.dataR, h.ends, h.pat, h.dash, h.ctl, h.setSel, h.active, h.music, h.entries, h.cursor, h.cursorX,
    h.cursorY, h.x, h.y, h.lp, h.int⟩

theorem granted_commandFrame (s : State) : CommandFrame s s.granted :=
  have h := CommandFrame.refl s
  ⟨h.mem, h.pixels, h.dataR, h.ends, h.pat, h.dash, h.ctl, h.setSel, h.active, h.music, h.entries, h.cursor, h.cursorX,
    h.cursorY, h.x, h.y, h.lp, h.int⟩

theorem suspend_commandFrame (s : State) : CommandFrame s s.suspend :=
  have h := CommandFrame.refl s
  ⟨h.mem, h.pixels, h.dataR, h.ends, h.pat, h.dash, h.ctl, h.setSel, h.active, h.music, h.entries, h.cursor, h.cursorX,
    h.cursorY, h.x, h.y, h.lp, h.int⟩

theorem CommandFrame.inconsistency {s t : State} (h : CommandFrame s t) : CommandFrame s t.protocolInconsistency :=
  ⟨h.mem, h.pixels, h.dataR, h.ends, h.pat, h.dash, h.ctl, h.setSel, h.active, h.music, h.entries, h.cursor, h.cursorX,
    h.cursorY, h.x, h.y, h.lp, h.int⟩

theorem restarted_commandFrame (s : State) : CommandFrame s (s.cancelWake.withIo { s.io with lastCmd := none }) :=
  have h := CommandFrame.refl s
  ⟨h.mem, h.pixels, h.dataR, h.ends, h.pat, h.dash, h.ctl, h.setSel, h.active, h.music, h.entries, h.cursor, h.cursorX,
    h.cursorY, h.x, h.y, h.lp, h.int⟩

theorem noteCommand_commandFrame (s : State) : CommandFrame s s.noteCommand := by
  have h := restoredCursor_xy s.cfg s.io s.cr.cmd
  unfold State.noteCommand
  split
  · exact .refl s
  · unfold State.loadIoCursor
    constructor
    case lp => exact fun hc => if_neg hc
    case int =>
      show (if s.cr.cmd = .rdlp then _ else _ : LightPen).int = true → _
      split <;> exact id
    case pixels => exact fun _ _ _ _ _ => rfl
    all_goals simp [h]

theorem applyParam1_commandFrame (s : State) : CommandFrame s s.applyParam1 := by
  unfold State.applyParam1
  cases hc : s.cr.cmd
  case ldiox => constructor <;> simp [hc, State.applyLdiox]
  case ldioy => constructor <;> simp [hc, State.applyLdioy]
  case ldmc => constructor <;> simp [hc, State.applyLdmc]
  case ldlp => constructor <;> simp [hc, State.applyLdlp]
  case ldcm => constructor <;> simp [hc, State.applyLdcm]
  case ldmap =>
    rw [applyLdmap_eq]
    constructor
    case entries =>
      intro _ j hj
      show Vector.get (if s.cfg.nplanes = 3 then _ else _) j = _
      split
      · exact Vector.getElem_set_ne _ _ fun e => hj (Fin.ext e.symm)
      · rfl
    all_goals simp [hc]
  case ldcy => constructor <;> simp [hc, State.applyLdcy]
  case ldcx => constructor <;> simp [hc, State.applyLdcx]
  all_goals exact .refl s

theorem loadXNew_commandFrame {s : State} (hc : cmdClass s.cr.cmd = .param2) : CommandFrame s s.loadXNew := by
  have h := CommandFrame.refl s
  refine ⟨h.mem, h.pixels, h.dataR, fun h1 h2 h3 => ?_, h.pat, h.dash, h.ctl, h.setSel, h.active, h.music, h.entries,
    h.cursor, h.cursorX, h.cursorY, h.x, h.y, h.lp, h.int⟩
  revert hc h1 h2 h3; cases s.cr.cmd <;> simp [cmdClass]

theorem loadYNew_commandFrame {s : State} (hc : s.cr.cmd = .ldep ∨ s.cr.cmd = .drawv ∨ s.cr.cmd = .fillr) :
    CommandFrame s s.loadYNew :=
  have h := CommandFrame.refl s
  ⟨h.mem, h.pixels, h.dataR, fun h1 h2 h3 => by tauto, h.pat, h.dash, h.ctl, h.setSel, h.active, h.music, h.entries,
    h.cursor, h.cursorX, h.cursorY, h.x, h.y, h.lp, h.int⟩

theorem keepEndpoint_commandFrame {s : State} (hc : s.cr.cmd = .ldep ∨ s.cr.cmd = .drawv ∨ s.cr.cmd = .fillr) :
    CommandFrame s s.keepEndpoint :=
  have h := CommandFrame.refl s
  ⟨h.mem, h.pixels, h.dataR, fun h1 h2 h3 => by tauto, h.pat, h.dash, h.ctl, h.setSel, h.active, h.music, h.entries,
    h.cursor, h.cursorX, h.cursorY, h.x, h.y, h.lp, h.int⟩

theorem readWordAtCursor_commandFrame {s : State} (hc : s.cr.cmd = .rdw) : CommandFrame s s.readWordAtCursor := by
  have h := advance_xy s.cfg s.io
  constructor <;> simp [State.readWordAtCursor, State.advanceIoCursor, hc, h]

theorem readHitWord_commandFrame {s : State} (hc : s.cr.cmd = .rdlp) : CommandFrame s s.readHitWord := by
  constructor <;> simp +contextual [State.readHitWord, hc]

theorem writeWordAtCursor_commandFrame {s : State} (hc : s.cr.cmd = .wrw ∨ s.cr.cmd = .clrw) (w : Word) :
    CommandFrame s (s.writeWordAtCursor w) := by
  have h := advance_xy s.cfg s.io
  rw [writeWordAtCursor_eq]
  rcases hc with hc | hc <;> constructor <;> simp [hc, h]

/-- Advancing the dash keeps the pattern's parameters. -/
theorem advance_iterate_statics (p : Pattern) (n : Nat) : (Pattern.advance^[n] p).dashSel = p.dashSel ∧
    (Pattern.advance^[n] p).dashN = p.dashN ∧ (Pattern.advance^[n] p).htSel = p.htSel := by
  induction n with
  | zero => exact ⟨rfl, rfl, rfl⟩
  | succ n ih =>
    rw [Function.iterate_succ_apply', ← ih.1, ← ih.2.1, ← ih.2.2]
    unfold Pattern.advance
    split <;> exact ⟨rfl, rfl, rfl⟩

theorem drawLine_pixels {s : State} {q : BitVec 2} (h : s.ctl.active.getLsbD q.toNat = false) (x0 : BitVec 10)
    (y0 : BitVec 9) (x1 : BitVec 10) (y1 : BitVec 9) (x y : Nat) :
    (s.drawLine x0 y0 x1 y1).readPixel q x y = s.readPixel q x y := foldl_lineStep_inactive h _ _ _

theorem fillRect_pixels {s : State} {q : BitVec 2} (h : s.ctl.active.getLsbD q.toNat = false) (x0 : BitVec 10)
    (y0 : BitVec 9) (x1 : BitVec 10) (y1 : BitVec 9) (x y : Nat) :
    (s.fillRect x0 y0 x1 y1).readPixel q x y = s.readPixel q x y := foldl_fillStep_inactive h _ _ _

theorem drawLine_commandFrame {s : State} (hc : s.cr.cmd = .drawv) (x0 : BitVec 10) (y0 : BitVec 9) (x1 : BitVec 10)
    (y1 : BitVec 9) : CommandFrame s (s.drawLine x0 y0 x1 y1) := by
  have hpix (q : BitVec 2) (ha : s.ctl.active.getLsbD q.toNat = false) (x y : Nat) :
      (s.drawLine x0 y0 x1 y1).readPixel q x y = s.readPixel q x y := drawLine_pixels ha x0 y0 x1 y1 x y
  have hd := drawLine_eq s x0 y0 x1 y1
  generalize s.drawLine x0 y0 x1 y1 = d at *
  constructor
  case pixels => exact fun _ q x y ha => hpix q ha x y
  case dash => intro _; rw [hd]; exact advance_iterate_statics s.pat _
  all_goals rw [hd]; simp [hc]

theorem fillRect_commandFrame {s : State} (hc : s.cr.cmd = .fillr) (x0 : BitVec 10) (y0 : BitVec 9) (x1 : BitVec 10)
    (y1 : BitVec 9) : CommandFrame s (s.fillRect x0 y0 x1 y1) := by
  have hpix (q : BitVec 2) (ha : s.ctl.active.getLsbD q.toNat = false) (x y : Nat) :
      (s.fillRect x0 y0 x1 y1).readPixel q x y = s.readPixel q x y := fillRect_pixels ha x0 y0 x1 y1 x y
  have hd := fillRect_eq s x0 y0 x1 y1
  generalize s.fillRect x0 y0 x1 y1 = d at *
  constructor
  case pixels => exact fun _ q x y ha => hpix q ha x y
  all_goals rw [hd]; simp [hc]

theorem drawPending_commandFrame {s : State} (hc : s.cr.cmd = .drawv) : CommandFrame s s.drawPending := by
  have h := drawLine_commandFrame hc s.ends.xOld s.ends.yOld s.ends.xNew s.ends.yNew
  have hcr := (drawLine_eq s s.ends.xOld s.ends.yOld s.ends.xNew s.ends.yNew)
  unfold State.drawPending
  generalize s.drawLine s.ends.xOld s.ends.yOld s.ends.xNew s.ends.yNew = d at *
  have e : d.cr = s.cr := by rw [hcr]; rfl
  have hd : d.cr.cmd = .drawv := by rw [e, hc]
  exact h.trans e (by rw [hcr]; rfl) (keepEndpoint_commandFrame (s := d) (.inr (.inl hd)))

theorem fillPending_commandFrame {s : State} (hc : s.cr.cmd = .fillr) : CommandFrame s s.fillPending := by
  have h := fillRect_commandFrame hc s.ends.xOld s.ends.yOld s.ends.xNew s.ends.yNew
  have hcr := (fillRect_eq s s.ends.xOld s.ends.yOld s.ends.xNew s.ends.yNew)
  unfold State.fillPending
  generalize s.fillRect s.ends.xOld s.ends.yOld s.ends.xNew s.ends.yNew = d at *
  have e : d.cr = s.cr := by rw [hcr]; rfl
  have hd : d.cr.cmd = .fillr := by rw [e, hc]
  exact h.trans e (by rw [hcr]; rfl) (keepEndpoint_commandFrame (s := d) (.inr (.inr hd)))

/-- What memory's granting leaves alone, and then what the row does. -/
theorem CommandFrame.of_granted {s t : State} (h : CommandFrame s.granted t) : CommandFrame s t :=
  (granted_commandFrame s).trans rfl rfl h

/-- Every row keeps the frame of its command. -/
theorem RowStep.commandFrame {s t : State} (h : RowStep s t) : CommandFrame s t := by
  cases h with
  | moved f => exact (CommandFrame.refl s).withFsm f
  | restarted => exact (restarted_commandFrame s).withFsm _
  | noted f => exact (noteCommand_commandFrame s).withFsm f
  | applied => exact (applyParam1_commandFrame s).withFsm _
  | firstWord _ hc => exact (loadXNew_commandFrame hc).withFsm _
  | secondWord _ hc => exact (loadYNew_commandFrame (.inr hc)).withFsm _
  | endpoint _ hc =>
    exact ((loadYNew_commandFrame (.inl hc)).trans rfl rfl (keepEndpoint_commandFrame (s := s.loadYNew) (.inl hc))).withFsm _
  | inconsistent =>
    split
    · exact (granted_commandFrame s).inconsistency
    · exact (CommandFrame.refl s).inconsistency
  | suspended => exact suspend_commandFrame s
  | readWord _ hc => exact (readWordAtCursor_commandFrame (s := s.granted) hc).of_granted.withFsm _
  | readHit _ hc => exact (readHitWord_commandFrame (s := s.granted) hc).of_granted.withFsm _
  | wrote w _ hc => exact (writeWordAtCursor_commandFrame (s := s.granted) hc w).of_granted.withFsm _
  | drew _ hc => exact (drawPending_commandFrame (s := s.granted) hc).of_granted.withFsm _
  | filled _ hc => exact (fillPending_commandFrame (s := s.granted) hc).of_granted.withFsm _

/-- So does a run. -/
theorem runFsm_commandFrame (ds trig : Bool) (s : State) : CommandFrame s (s.runFsm ds trig) :=
  (runFsm_keeps (P := fun t => RowFrame s t ∧ CommandFrame s t)
    (fun ds trig t ⟨hf, hc⟩ => ⟨hf.trans (fsmRow_frame ds trig t), hc.trans hf.cr hf.dataW (fsmRow_step ds trig t).commandFrame⟩)
    ⟨.refl s, .refl s⟩).2

/-! ### The line or the box of one run -/

/-- Where a run that has drawn still goes: never to WAIT_MEM_2 again, for want of a second strobe (R143, R144, R155). -/
def afterDraw (ds : Bool) (f : Fsm) : Prop := f = .waitDs0 ∨ (ds = false ∧ (f = .waitTrig0 ∨ f = .waitDs2))

/-- A run under a drawing command, up to a state: not drawn yet, or drawn once, from the old endpoint to what is the old
endpoint now. `keys` are the bytes of the figure's pixels. -/
def DrawnOnce (keys : BitVec 10 → BitVec 9 → BitVec 10 → BitVec 9 → List Nat) (s : State) (ds : Bool) (u : State) : Prop :=
  (u.mem = s.mem ∧ u.ends.xOld = s.ends.xOld ∧ u.ends.yOld = s.ends.yOld) ∨
    (afterDraw ds u.fsm ∧ SameOutside s.mem u.mem (keys s.ends.xOld s.ends.yOld u.ends.xOld u.ends.yOld))

/-- The keys of the figure a drawing command draws. -/
def figureKeys (c : Cmd) (cfg : Config) (x0 : BitVec 10) (y0 : BitVec 9) (x1 : BitVec 10) (y1 : BitVec 9) : List Nat :=
  pixelKeys cfg (if c = .drawv then pointsOfLine x0 y0 x1 y1 else boxPoints x0.toNat y0.toNat x1.toNat y1.toNat)

/-- Memory and the old endpoint are the same. -/
def SameFigure (u t : State) : Prop := t.mem = u.mem ∧ t.ends.xOld = u.ends.xOld ∧ t.ends.yOld = u.ends.yOld

theorem noteCommand_sameFigure (s : State) : SameFigure s s.noteCommand := by
  unfold SameFigure; rw [noteCommand_mem, noteCommand_ends]; exact ⟨rfl, rfl, rfl⟩

/-- A row under a drawing command draws the figure, or leaves memory and the old endpoint. -/
theorem RowStep.drawn {u t : State} (h : RowStep u t) (hc : u.cr.cmd = .drawv ∨ u.cr.cmd = .fillr) :
    SameFigure u t ∨ (u.fsm = .waitMem2 ∧ t.fsm = .waitDs0 ∧
      SameOutside u.mem t.mem (figureKeys u.cr.cmd u.cfg u.ends.xOld u.ends.yOld t.ends.xOld t.ends.yOld)) := by
  cases h with
  | applied _ hk => rcases hc with e | e <;> rw [e] at hk <;> cases hk
  | endpoint _ hk => rcases hc with e | e <;> rw [e] at hk <;> cases hk
  | readWord _ hk => rcases hc with e | e <;> rw [e] at hk <;> cases hk
  | wrote _ _ hk => rcases hc with e | e <;> rw [e] at hk <;> rcases hk with hk | hk <;> cases hk
  | noted => exact .inl (noteCommand_sameFigure u)
  | inconsistent => exact .inl (by split <;> exact ⟨rfl, rfl, rfl⟩)
  | drew hf hk =>
    refine .inr ⟨hf, rfl, ?_⟩
    unfold figureKeys
    rw [if_pos hk, drawPending_eq]
    exact drawLine_sameOutside u.granted u.ends.xOld u.ends.yOld u.ends.xNew u.ends.yNew
  | filled hf hk =>
    refine .inr ⟨hf, rfl, ?_⟩
    unfold figureKeys
    rw [if_neg (by rw [hk]; decide), fillPending_eq]
    exact fillRect_sameOutside u.granted u.ends.xOld u.ends.yOld u.ends.xNew u.ends.yNew
  | _ => exact .inl ⟨rfl, rfl, rfl⟩

/-- After the figure a transition goes on to WAIT_TRIG_0 and to WAIT_DS_2, its strobe used up. -/
theorem afterDraw_of_go {ds trig ds' trig' : Bool} {u t : State} (h : fsmRow ds trig u = .go ds' trig' t)
    (hc : u.cr.cmd = .drawv ∨ u.cr.cmd = .fillr) (ha : afterDraw ds u.fsm) : afterDraw ds' t.fsm := by
  have hk : cmdClass u.cr.cmd = .param2 := by rcases hc with e | e <;> rw [e] <;> rfl
  have e := transitionsFollowTheTable ds trig ds' trig' u t h
  unfold afterDraw at *
  rcases ha with hf | ⟨rfl, hf | hf⟩ <;> rw [hf] at e <;> simp_all

theorem DrawnOnce.congr {keys : BitVec 10 → BitVec 9 → BitVec 10 → BitVec 9 → List Nat} {s u t : State} {ds ds' : Bool}
    (h : DrawnOnce keys s ds u) (e : SameFigure u t) (ha : afterDraw ds u.fsm → afterDraw ds' t.fsm) :
    DrawnOnce keys s ds' t := by
  obtain ⟨em, ex, ey⟩ := e
  unfold DrawnOnce
  rw [em, ex, ey]
  exact h.imp_right fun ⟨hd, ho⟩ => ⟨ha hd, ho⟩

/-- A transition under a drawing command. -/
theorem DrawnOnce.of_go {s u t : State} {ds trig ds' trig' : Bool} (hr : RowFrame s u)
    (hc : s.cr.cmd = .drawv ∨ s.cr.cmd = .fillr) (h : DrawnOnce (figureKeys s.cr.cmd s.cfg) s ds u)
    (hg : fsmRow ds trig u = .go ds' trig' t) : DrawnOnce (figureKeys s.cr.cmd s.cfg) s ds' t := by
  have hcu : u.cr.cmd = .drawv ∨ u.cr.cmd = .fillr := hr.cr.symm ▸ hc
  rcases (RowStep.of_go hg).drawn hcu with e | ⟨hf, hf', ho⟩
  · exact h.congr e (afterDraw_of_go hg hcu)
  · rcases h with ⟨hm, hx, hy⟩ | ⟨ha, -⟩
    · rw [hm, hx, hy, hr.cr, hr.cfg] at ho
      exact .inr ⟨.inl hf', ho⟩
    · unfold afterDraw at ha
      rw [hf] at ha
      simp at ha

theorem RowFrame.of_go {s u t : State} (h : RowFrame s u) {ds trig ds' trig' : Bool}
    (hg : fsmRow ds trig u = .go ds' trig' t) : RowFrame s t := by
  have k := fsmRow_frame ds trig u
  rw [hg] at k
  exact h.trans k

/-- A row that rests leaves memory and the old endpoint. -/
theorem sameFigure_of_rest {ds trig : Bool} {u t : State} (h : fsmRow ds trig u = .rest t) : SameFigure u t := by
  rcases fsmRow_rest_cases h with ⟨-, rfl⟩ | ⟨-, -, rfl⟩ | ⟨-, -, rfl⟩
  · exact noteCommand_sameFigure u
  · exact ⟨rfl, rfl, rfl⟩
  · exact ⟨rfl, rfl, rfl⟩

/-- A run under a drawing command draws at most one figure. -/
theorem runFsm_figure (ds trig : Bool) {s : State} (hc : s.cr.cmd = .drawv ∨ s.cr.cmd = .fillr) :
    SameOutside s.mem (s.runFsm ds trig).mem (figureKeys s.cr.cmd s.cfg s.ends.xOld s.ends.yOld
      (s.runFsm ds trig).ends.xOld (s.runFsm ds trig).ends.yOld) := by
  obtain ⟨ds', trig', u, ⟨-, hu⟩, e⟩ := runRows_last
    (P := fun ds u => RowFrame s u ∧ DrawnOnce (figureKeys s.cr.cmd s.cfg) s ds u)
    (fun ⟨hr, hd⟩ hg => ⟨hr.of_go hg, hd.of_go hr hc hg⟩) (trig := trig) (transitionsLeft_lt_rowLimit _ s.fsm ds 0)
    ⟨.refl s, .inl ⟨rfl, rfl, rfl⟩⟩
  obtain ⟨em, ex, ey⟩ := sameFigure_of_rest (t := s.runFsm ds trig) e
  rw [ex, ey]
  rcases hu with ⟨hm, -, -⟩ | ⟨-, ho⟩
  · exact fun k _ => by rw [em, hm]
  · exact ho.of_eq em

/-! ### The IoCursor of one run -/

/-- The cursor the class test loads (R141, R143). -/
def loadedCursor (s : State) (io : IoCursor) : IoCursor :=
  { restoredCursor s.cfg io s.cr.cmd with lastCmd := some s.cr.cmd }

/-- The cursor LDIOX and LDIOY leave (R179, R180). -/
def appliedCursor (s : State) (io : IoCursor) : IoCursor :=
  match s.cr.cmd with
  | .ldiox => { io with x := dataXw s.cfg s.dataW }
  | .ldioy => { io with y := dataY s.cfg s.dataW }
  | _ => io

theorem noteCommand_io (s : State) :
    s.noteCommand.io = if s.io.lastCmd = some s.cr.cmd then s.io else loadedCursor s s.io := by
  unfold State.noteCommand
  split <;> rfl

theorem applyParam1_io (s : State) : s.applyParam1.io = appliedCursor s s.io := by
  unfold State.applyParam1 appliedCursor
  cases s.cr.cmd <;> first | rfl | (rw [applyLdmap_eq]; rfl)

theorem appliedCursor_applied (s : State) (io : IoCursor) : appliedCursor s (appliedCursor s io) = appliedCursor s io := by
  unfold appliedCursor
  cases s.cr.cmd <;> rfl

theorem appliedCursor_lastCmd (s : State) (io : IoCursor) : (appliedCursor s io).lastCmd = io.lastCmd := by
  unfold appliedCursor
  split <;> rfl

/-- LDIOX and LDIOY change the coordinates alone. -/
theorem appliedCursor_eq (s : State) (io : IoCursor) :
    appliedCursor s io = { io with x := (appliedCursor s io).x, y := (appliedCursor s io).y } := by
  unfold appliedCursor
  split <;> rfl

section
variable {s u : State} (h : RowFrame s u)
include h

theorem RowFrame.loadedCursor (io : IoCursor) : Machine.loadedCursor u io = Machine.loadedCursor s io := by
  unfold Machine.loadedCursor; rw [h.cfg, h.cr]

theorem RowFrame.appliedCursor (io : IoCursor) : Machine.appliedCursor u io = Machine.appliedCursor s io := by
  unfold Machine.appliedCursor; rw [h.cfg, h.cr, h.dataW]

end

/-- The cursor a run under a command may advance from: as it was, or loaded by the class test, in RESET's wake or with the
coordinates LDIOX or LDIOY gave it. -/
inductive CursorBase (s : State) : IoCursor → Prop
  | found : CursorBase s s.io
  | loaded : CursorBase s (loadedCursor s s.io)
  | reloaded : CursorBase s (loadedCursor s { s.io with lastCmd := none })
  | moved : CursorBase s (loadedCursor s (appliedCursor s s.io))

/-- A cursor that was loaded knows its command, and the class test does not load it again. -/
theorem CursorBase.known_or_found {s : State} {b : IoCursor} (h : CursorBase s b) :
    b = s.io ∨ b.lastCmd = some s.cr.cmd := by
  cases h
  · exact .inl rfl
  all_goals exact .inr rfl

/-- The keys of the `n` words from a cursor on. -/
def wordsFrom (c : Config) (b : IoCursor) (n : Nat) : List Nat :=
  (List.range n).flatMap fun k => wordKeys c ((IoCursor.advance c)^[k] b).plane ((IoCursor.advance c)^[k] b).addr

theorem wordsFrom_succ (c : Config) (b : IoCursor) (n : Nat) : wordsFrom c b (n + 1) =
    wordsFrom c b n ++ wordKeys c ((IoCursor.advance c)^[n] b).plane ((IoCursor.advance c)^[n] b).addr := by
  unfold wordsFrom
  rw [List.range_succ, List.flatMap_append, List.flatMap_singleton]

/-- How many words a run may still move where its class has been tested: one if it is on its way to memory, one more for
a strobe in hand. -/
def movesLeft (f : Fsm) (ds : Bool) : Nat :=
  (if f = .waitMem0 ∨ f = .waitTrig1 ∨ f = .waitMem1 then 1 else 0) + if ds then 1 else 0

/-- Commands that write words. -/
def writesWords (c : Cmd) : Prop := c = .wrw ∨ c = .clrw

/-- Commands that advance the IoCursor. -/
def advancesCursor (c : Cmd) : Prop := c = .rdw ∨ writesWords c

/-- Where the IoCursor of a run under a command stands. -/
inductive CursorPhase (s : State) : Bool → State → Prop
  /-- nothing yet -/
  | fresh {ds : Bool} {u : State} (hio : u.io = s.io) (hm : writesWords s.cr.cmd → u.mem = s.mem) : CursorPhase s ds u
  /-- past RESET -/
  | forgot {ds : Bool} {u : State} (hio : u.io = { s.io with lastCmd := none }) (hf : u.fsm = .waitDs0)
      (hm : writesWords s.cr.cmd → u.mem = s.mem) : CursorPhase s ds u
  /-- `n` words on from a base -/
  | reached {ds : Bool} {u : State} (b : IoCursor) (n : Nat) (hb : CursorBase s b) (hio : u.io = (IoCursor.advance s.cfg)^[n] b)
      (hf : settled s.cr.cmd u.fsm = true)
      (hn : n = 0 ∨ (advancesCursor s.cr.cmd ∧ n + movesLeft u.fsm ds ≤ 2))
      (hm : writesWords s.cr.cmd → SameOutside s.mem u.mem (wordsFrom s.cfg b n)) : CursorPhase s ds u
  /-- with new coordinates -/
  | applied {ds : Bool} {u : State} (b : IoCursor) (hb : CursorBase s b) (hio : u.io = appliedCursor s b)
      (hc : cmdClass s.cr.cmd = .param1) (hf : settled s.cr.cmd u.fsm = true) : CursorPhase s ds u

/-- What a row does to the cursor and to the words. -/
inductive CursorStep (u : State) : State → Prop
  | kept {t : State} (hio : t.io = u.io) (hm : writesWords u.cr.cmd → t.mem = u.mem)
      (hf : u.fsm ≠ .reset ∧ u.fsm ≠ .waitDs0) : CursorStep u t
  | restarted {t : State} (hf : u.fsm = .reset) (hf' : t.fsm = .waitDs0) (hio : t.io = { u.io with lastCmd := none })
      (hm : t.mem = u.mem) : CursorStep u t
  | noted {t : State} (hf : u.fsm = .waitDs0) (hio : t.io = u.noteCommand.io) (hm : t.mem = u.mem) : CursorStep u t
  | applied {t : State} (hf : u.fsm = .waitTrig0) (hc : cmdClass u.cr.cmd = .param1) (hf' : t.fsm = .waitDs0)
      (hio : t.io = appliedCursor u u.io) : CursorStep u t
  | advanced {t : State} (hf : u.fsm = .waitMem0 ∧ u.cr.cmd = .rdw ∨ u.fsm = .waitMem1 ∧ writesWords u.cr.cmd)
      (hio : t.io = IoCursor.advance u.cfg u.io)
      (hm : writesWords u.cr.cmd → SameOutside u.mem t.mem (wordKeys u.cfg u.io.plane u.io.addr)) : CursorStep u t

theorem not_writesWords_of_param {c : Cmd} (h : cmdClass c = .param1 ∨ cmdClass c = .param2) : ¬writesWords c := by
  unfold writesWords
  revert h; cases c <;> simp [cmdClass]

theorem drawPending_io (s : State) : s.drawPending.io = s.io := by rw [drawPending_eq]; rfl

theorem fillPending_io (s : State) : s.fillPending.io = s.io := by rw [fillPending_eq]; rfl

theorem RowStep.cursor {u t : State} (h : RowStep u t) : CursorStep u t := by
  cases h with
  | moved f hf => exact .kept rfl (fun _ => rfl) ⟨hf.1, hf.2.1⟩
  | restarted hf => exact .restarted hf rfl rfl rfl
  | noted f hf => exact .noted hf rfl (noteCommand_mem u)
  | applied hf hc => exact .applied hf hc rfl (applyParam1_io u)
  | firstWord hf | secondWord hf | endpoint hf => exact .kept rfl (fun _ => rfl) (by rw [hf]; decide)
  | inconsistent hm =>
    refine .kept (by split <;> rfl) (fun _ => by split <;> rfl) ?_
    constructor <;> (intro e; rw [e] at hm; cases hm)
  | suspended hf =>
    refine .kept rfl (fun _ => rfl) ?_
    constructor <;> (intro e; rw [e] at hf; cases hf)
  | readWord hf hc => exact .advanced (.inl ⟨hf, hc⟩) rfl fun hw => by rw [hc] at hw; rcases hw with hw | hw <;> cases hw
  | readHit hf => exact .kept rfl (fun _ => rfl) (by rw [hf]; decide)
  | wrote w hf hc => exact .advanced (.inr ⟨hf, hc⟩) rfl fun _ => planeWrite_sameOutside u.granted _ _ w
  | drew hf hc =>
    refine .kept (by rw [State.withFsm_io, drawPending_io]; rfl) (fun hw => ?_) (by rw [hf]; decide)
    rw [hc] at hw; rcases hw with hw | hw <;> cases hw
  | filled hf hc =>
    refine .kept (by rw [State.withFsm_io, fillPending_io]; rfl) (fun hw => ?_) (by rw [hf]; decide)
    rw [hc] at hw; rcases hw with hw | hw <;> cases hw

/-- A transition where the class has been tested leaves fewer words to move by the word it moved. -/
theorem movesLeft_of_go {ds trig ds' trig' : Bool} {u t : State} (h : fsmRow ds trig u = .go ds' trig' t)
    (hs : settled u.cr.cmd u.fsm = true) (hc : advancesCursor u.cr.cmd) :
    movesLeft t.fsm ds' + (if u.fsm = .waitMem0 ∨ u.fsm = .waitMem1 then 1 else 0) ≤ movesLeft u.fsm ds := by
  have e := transitionsFollowTheTable ds trig ds' trig' u t h
  have hk : u.cr.cmd = .rdw ∨ u.cr.cmd = .wrw ∨ u.cr.cmd = .clrw := hc
  cases hf : u.fsm <;> rcases hk with hk | hk | hk <;> rw [hf, hk] at hs <;> simp [settled, cmdClass] at hs <;>
    simp only [hf, hk] at e <;> obtain ⟨e1, e2, e3, e4⟩ := e <;> simp [movesLeft, e1, e2, e3, e4]

theorem movesLeft_le (f : Fsm) (ds : Bool) : movesLeft f ds ≤ 2 := by
  unfold movesLeft; split <;> split <;> decide

theorem advancesCursor_of_param {c : Cmd} (h : cmdClass c = .param1 ∨ cmdClass c = .param2) : ¬advancesCursor c := by
  unfold advancesCursor writesWords
  revert h; cases c <;> simp [cmdClass]

/-- WAIT_DS_0 is settled for parameters only. -/
theorem param_of_settled_waitDs0 {c : Cmd} (h : settled c .waitDs0 = true) : cmdClass c = .param1 ∨ cmdClass c = .param2 := by
  revert h; cases c <;> decide

theorem SameOutside.of_mem_eq {m n : Memory} (e : n = m) (keys : List Nat) : SameOutside m n keys := e ▸ .refl m keys

section
variable {s u t : State} {ds trig ds' trig' : Bool}

/-- The class test of WAIT_DS_0 in a run: no word has been moved, and the cursor stands at a base, as it is or with new
coordinates (R143). -/
theorem CursorPhase.noted (hr : RowFrame s u) (h : CursorPhase s ds u) (hf : u.fsm = .waitDs0) :
    (∃ b, CursorBase s b ∧ (u.noteCommand.io = b ∨ (u.noteCommand.io = appliedCursor s b ∧ cmdClass s.cr.cmd = .param1))) ∧
      (writesWords s.cr.cmd → u.mem = s.mem) := by
  have hio := noteCommand_io u
  rw [hr.loadedCursor, hr.cr] at hio
  cases h with
  | fresh e hm =>
    rw [e] at hio
    refine ⟨?_, hm⟩
    split at hio
    · exact ⟨_, .found, .inl hio⟩
    · exact ⟨_, .loaded, .inl hio⟩
  | forgot e _ hm =>
    rw [e] at hio
    exact ⟨⟨_, .reloaded, .inl hio⟩, hm⟩
  | reached b n hb e hs hn hm =>
    have hk := param_of_settled_waitDs0 (hf ▸ hs)
    obtain rfl : n = 0 := hn.resolve_right fun k => advancesCursor_of_param hk k.1
    refine ⟨?_, fun hw => absurd hw (not_writesWords_of_param hk)⟩
    rw [e, Function.iterate_zero_apply] at hio
    split at hio
    · exact ⟨b, hb, .inl hio⟩
    · next hne =>
      obtain rfl := hb.known_or_found.resolve_right hne
      exact ⟨_, .loaded, .inl hio⟩
  | applied b hb e hc hs =>
    refine ⟨?_, fun hw => absurd hw (not_writesWords_of_param (.inl hc))⟩
    rw [e, appliedCursor_lastCmd] at hio
    split at hio
    · exact ⟨b, hb, .inr ⟨hio, hc⟩⟩
    · next hne =>
      obtain rfl := hb.known_or_found.resolve_right hne
      exact ⟨_, .moved, .inl hio⟩

theorem settled_of_memory {c : Cmd} {f : Fsm} (h : f = .waitMem0 ∧ c = .rdw ∨ f = .waitMem1 ∧ writesWords c) :
    settled c f = true ∧ advancesCursor c := by
  rcases h with ⟨rfl, rfl⟩ | ⟨rfl, hw⟩
  · exact ⟨rfl, .inl rfl⟩
  · refine ⟨?_, .inr hw⟩
    rcases hw with rfl | rfl <;> rfl

/-- A transition of a run keeps to the phases. -/
theorem CursorPhase.of_go (hr : RowFrame s u) (h : CursorPhase s ds u) (hg : fsmRow ds trig u = .go ds' trig' t) :
    CursorPhase s ds' t := by
  have hsettled := settled_of_go hg
  rw [hr.cr] at hsettled
  cases (RowStep.of_go hg).cursor with
  | noted hf hio hm =>
    obtain ⟨⟨b, hb, e⟩, hmem⟩ := h.noted hr hf
    rcases e with e | ⟨e, hc⟩
    · exact .reached b 0 hb (hio.trans e) (hsettled (.inr hf)) (.inl rfl) fun hw => .of_mem_eq (hm.trans (hmem hw)) _
    · exact .applied b hb (hio.trans e) hc (hsettled (.inr hf))
  | restarted hf hf' hio hm =>
    cases h with
    | fresh e hmem => exact .forgot (hio.trans (by rw [e])) hf' fun hw => hm.trans (hmem hw)
    | forgot _ e => rw [hf] at e; cases e
    | reached _ _ _ _ hs => rw [hf] at hs; revert hs; cases s.cr.cmd <;> simp [settled, cmdClass]
    | applied _ _ _ _ hs => rw [hf] at hs; revert hs; cases s.cr.cmd <;> simp [settled, cmdClass]
  | kept hio hm hf =>
    rw [hr.cr] at hm
    cases h with
    | fresh e hmem => exact .fresh (hio.trans e) fun hw => (hm hw).trans (hmem hw)
    | forgot _ e => exact absurd e hf.2
    | reached b n hb e hs hn hmem =>
      refine .reached b n hb (hio.trans e) (hsettled (.inl hs)) (hn.imp_right fun ⟨hc, hl⟩ => ⟨hc, ?_⟩)
        fun hw => (hmem hw).of_eq (hm hw)
      have := movesLeft_of_go hg (hr.cr.symm ▸ hs) (hr.cr.symm ▸ hc)
      omega
    | applied b hb e hc hs => exact .applied b hb (hio.trans e) hc (hsettled (.inl hs))
  | applied hf hc hf' hio =>
    rw [hr.cr] at hc
    rw [hr.appliedCursor] at hio
    have hs : settled s.cr.cmd u.fsm = true := by
      rw [hf]; revert hc; cases s.cr.cmd <;> simp [settled, cmdClass]
    cases h with
    | fresh e => exact .applied _ .found (hio.trans (by rw [e])) hc (hsettled (.inl hs))
    | forgot _ e => rw [hf] at e; cases e
    | reached b n hb e _ hn =>
      obtain rfl : n = 0 := hn.resolve_right fun k => advancesCursor_of_param (.inl hc) k.1
      exact .applied b hb (hio.trans (by rw [e]; rfl)) hc (hsettled (.inl hs))
    | applied b hb e => exact .applied b hb (hio.trans (by rw [e, appliedCursor_applied])) hc (hsettled (.inl hs))
  | advanced hf hio hm =>
    rw [hr.cr] at hf hm
    rw [hr.cfg] at hio hm
    obtain ⟨hs, hc⟩ := settled_of_memory hf
    have hl := movesLeft_of_go hg (hr.cr.symm ▸ hs) (hr.cr.symm ▸ hc)
    rw [if_pos (by rcases hf with ⟨hf, -⟩ | ⟨hf, -⟩ <;> simp [hf])] at hl
    have hl2 := movesLeft_le u.fsm ds
    cases h with
    | fresh e hmem =>
      refine .reached s.io 1 .found (hio.trans (by rw [e]; rfl)) (hsettled (.inl hs)) (.inr ⟨hc, by omega⟩) fun hw => ?_
      rw [e] at hm
      have := hm hw
      rw [hmem hw] at this
      rwa [wordsFrom_succ]
    | forgot _ e => rcases hf with ⟨hf, -⟩ | ⟨hf, -⟩ <;> (rw [hf] at e; cases e)
    | reached b n hb e _ hn hmem =>
      refine .reached b (n + 1) hb (hio.trans (by rw [e, Function.iterate_succ_apply'])) (hsettled (.inl hs))
        (.inr ⟨hc, ?_⟩) fun hw => ?_
      · rcases hn with rfl | ⟨-, hn⟩ <;> omega
      · rw [wordsFrom_succ, ← e]
        exact (hmem hw).trans (hm hw)
    | applied _ _ _ hk => exact absurd hc (advancesCursor_of_param (.inl hk))

end

/-- Where the IoCursor of a run ends: some words on from a base, or at it with new coordinates. -/
structure CursorEnd (s t : State) (b : IoCursor) (n : Nat) : Prop where
  base : CursorBase s b
  two : n ≤ 2
  some : n ≠ 0 → advancesCursor s.cr.cmd
  io : t.io = (IoCursor.advance s.cfg)^[n] b ∨ (n = 0 ∧ t.io = appliedCursor s b)
  words : writesWords s.cr.cmd → SameOutside s.mem t.mem (wordsFrom s.cfg b n)

theorem CursorPhase.rests {s u t : State} {ds : Bool} (h : CursorPhase s ds u)
    (hio : t.io = u.io) (hm : t.mem = u.mem) (hn : u.fsm ≠ .waitDs0) : ∃ b n, CursorEnd s t b n := by
  cases h with
  | fresh e hmem => exact ⟨s.io, 0, .found, by omega, (absurd rfl ·), .inl (hio.trans e), fun hw => .of_mem_eq (hm.trans (hmem hw)) _⟩
  | forgot _ e => exact absurd e hn
  | reached b n hb e _ hl hmem =>
    refine ⟨b, n, hb, ?_, fun h0 => (hl.resolve_left h0).1, .inl (hio.trans e), fun hw => (hmem hw).of_eq hm⟩
    rcases hl with rfl | ⟨-, hl⟩ <;> omega
  | applied b hb e hc =>
    exact ⟨b, 0, hb, by omega, (absurd rfl ·), .inr ⟨rfl, hio.trans e⟩,
      fun hw => absurd hw (not_writesWords_of_param (.inl hc))⟩

/-- A run's cursor (R141 to R143). -/
theorem runFsm_cursor (ds trig : Bool) (s : State) : ∃ b n, CursorEnd s (s.runFsm ds trig) b n := by
  obtain ⟨ds', trig', u, ⟨hr, hu⟩, e⟩ := runRows_last (P := fun ds u => RowFrame s u ∧ CursorPhase s ds u)
    (fun ⟨hr, hd⟩ hg => ⟨hr.of_go hg, hd.of_go hr hg⟩) (trig := trig) (transitionsLeft_lt_rowLimit _ s.fsm ds 0)
    ⟨.refl s, .fresh rfl fun _ => rfl⟩
  change fsmRow ds' trig' u = .rest (s.runFsm ds trig) at e
  generalize s.runFsm ds trig = t at e
  rcases fsmRow_rest_cases e with ⟨hf, rfl⟩ | ⟨hf, -, rfl⟩ | ⟨hf, -, rfl⟩
  · obtain ⟨⟨b, hb, hio⟩, hm⟩ := hu.noted hr hf
    exact ⟨b, 0, hb, by omega, (absurd rfl ·), hio.imp_right fun ⟨hio, _⟩ => ⟨rfl, hio⟩,
      fun hw => .of_mem_eq ((noteCommand_mem u).trans (hm hw)) _⟩
  · exact hu.rests rfl rfl hf
  · exact hu.rests rfl rfl fun e => by rw [e] at hf; cases hf

/-- Coordinates of the cursor a run ends with. -/
theorem CursorEnd.xy {s t : State} {n : Nat} (h : CursorEnd s t (loadedCursor s (appliedCursor s s.io)) n) :
    t.io.x = (appliedCursor s s.io).x ∧ t.io.y = (appliedCursor s s.io).y := by
  have hload := restoredCursor_xy s.cfg (appliedCursor s s.io) s.cr.cmd
  have hadv : ∀ n, ((IoCursor.advance s.cfg)^[n] (loadedCursor s (appliedCursor s s.io))).x = (appliedCursor s s.io).x ∧
      ((IoCursor.advance s.cfg)^[n] (loadedCursor s (appliedCursor s s.io))).y = (appliedCursor s s.io).y := fun n => by
    induction n with
    | zero => exact hload
    | succ n ih =>
      rw [Function.iterate_succ_apply']
      exact ⟨(advance_xy _ _).1.trans ih.1, (advance_xy _ _).2.trans ih.2⟩
  rcases h.io with e | ⟨-, e⟩
  · rw [e]; exact hadv n
  · rw [e]
    unfold appliedCursor at *
    split at hload <;> simp_all [loadedCursor]

/-- Settles O37: the frame of the command, the cursor and the words of the run, its figure. -/
theorem runWritesOnlyItsCommandsState : Obligations.RunWritesOnlyItsCommandsState := by
  intro ds trig s
  obtain ⟨b, n, hend⟩ := runFsm_cursor ds trig s
  have hc := runFsm_commandFrame ds trig s
  have hr := runFsm_frame ds trig s
  have hd := runFsm_figure ds trig (s := s)
  generalize s.runFsm ds trig = t at *
  have hio : t.io = { (IoCursor.advance s.cfg)^[n] b with x := t.io.x, y := t.io.y } := by
    rcases hend.io with e | ⟨rfl, e⟩
    · rw [e]
    · rw [e]; exact appliedCursor_eq s b
  have hnone : s.cr.cmd ≠ .rdw → s.cr.cmd ≠ .wrw → s.cr.cmd ≠ .clrw → n = 0 := fun h1 h2 h3 => by
    by_contra h0
    rcases hend.some h0 with h | h | h
    · exact h1 h
    · exact h2 h
    · exact h3 h
  refine ⟨?_, fun h1 h2 h3 h4 k => by rw [hc.mem h1 h2 h3 h4], fun h => ?_, fun h => ?_, hc.pixels, hc.dataR, hc.ends, hc.pat,
    hc.dash, hc.ctl, hc.setSel, hc.active, hc.music, hc.entries, hc.cursor, hc.cursorX, hc.cursorY, hc.x, hc.y, hc.lp,
    fun h => ⟨hr.lp, hc.int⟩, hr.cr, hr.dataW, hr.sig, hr.ret, hr.hostSide.display, hr.hostSide.world⟩
  · refine ⟨b, ?_, n, hend.two, hnone, hio, hend.words⟩
    cases hend.base with
    | found => simp
    | loaded => exact .tail _ (.head _)
    | reloaded => exact .tail _ (.tail _ (.head _))
    | moved =>
      obtain ⟨hx, hy⟩ := hend.xy
      rw [hx, hy, ← appliedCursor_eq]
      exact .tail _ (.tail _ (.tail _ (.head _)))
  · have := hd (.inl h)
    unfold figureKeys at this
    rwa [if_pos h] at this
  · have := hd (.inr h)
    unfold figureKeys at this
    rwa [if_neg (by rw [h]; decide)] at this

end Sys2Proof.Machine
end

section
/-! SUPPORT. The statements about the cursor and the light pen (spec 45_cursor_lightpen.md), the frame's events
(46_alpha_fetcher.md) and the renderer (47_scanline_renderer.md); and that a deferred write is not seen before it is
done. -/

namespace Sys2Proof.Machine

/-! ### The graphics cursor -/

theorem cursorOn_iff (s : State) : s.cursorOn = true ↔
    s.cursor.fs = true ∨ s.cursor.blink = false ∨ s.frameCnt.getLsbD s.cfg.gcBlinkBit = false := by
  simp only [State.cursorOn, Bool.or_eq_true, Bool.not_eq_true', or_assoc]

/-- The crosshair: in the raster, on a line of the cursor, whole or within the arms (R201). -/
theorem cursorShape_iff (s : State) (gx gy : Nat) : s.cursorShape gx gy = true ↔ gx < s.cfg.gfxW ∧ gy < s.cfg.gfxH ∧
    ((gy = s.cursor.y.toNat ∧ (s.cursor.fs = true ∨ (gx - s.cursor.x.toNat : Int).natAbs ≤ s.cfg.curHalf)) ∨
     (gx = s.cursor.x.toNat ∧ (s.cursor.fs = true ∨ (gy - s.cursor.y.toNat : Int).natAbs ≤ s.cfg.curHalf))) := by
  unfold State.cursorShape
  cases s.cursor.fs
  · simp [and_assoc]
  · simp [and_assoc, or_comm]

/-- Settles O50. -/
theorem isCursorResult : Obligations.IsCursorResult := by
  refine fun sx sy s => ⟨_, rfl, ?_⟩
  simp only [State.isCursor, Bool.and_eq_true, decide_eq_true_eq, graphicsActive_iff, cursorOn_iff, cursorShape_iff]
  constructor
  · rintro ⟨⟨⟨⟨hg, hon⟩, hx⟩, hy⟩, hw, hh, hc⟩
    exact ⟨hg, hon, _, _, (Nat.sub_add_cancel hx).symm, (Nat.sub_add_cancel hy).symm, hw, hh, hc⟩
  · rintro ⟨hg, hon, gx, gy, rfl, rfl, hw, hh, hc⟩
    simp only [Nat.add_sub_cancel]
    exact ⟨⟨⟨⟨hg, hon⟩, Nat.le_add_left _ _⟩, Nat.le_add_left _ _⟩, hw, hh, hc⟩

/-! ### The light pen -/

theorem toNat_ofInt_ten (v : Int) : ((BitVec.ofInt 10 v).toNat : Int) = v % 1024 := by
  rw [BitVec.toNat_ofInt]
  exact Int.toNat_of_nonneg (Int.emod_nonneg _ (by decide))

/-- In self-test the hits do not look at the pointer (R207). -/
theorem captureHits_selftest {s : State} (h : s.cr.lpSelftest = true) :
    s.captureHits = selfTestHitsOf s.cfg s.cursor.x.toNat s.cursor.y.toNat := if_pos h

/-- Settles O51. -/
theorem lightPenCaptureResult : Obligations.LightPenCaptureResult := by
  refine fun s => ⟨⟨s.lightPenCapture.lp, rfl, rfl, rfl, rfl, rfl, rfl, rfl, ?_, s.captureHits, ?_, toNat_ofInt_ten _,
    toNat_ofInt_ten _, toNat_ofInt_ten _, rfl, rfl, rfl⟩, fun i t u hs ht hu => ?_⟩
  · show (s.lp.int || (s.cr.lpEn && (s.inputs.ptrButton || s.cr.lpSelftest))) = true ↔ _
    simp only [Bool.or_eq_true, Bool.and_eq_true]
  · unfold State.captureHits
    cases s.cr.lpSelftest <;> rfl
  · obtain rfl := Host.Outcome.next.inj ht
    obtain rfl := Host.Outcome.next.inj hu
    have hi : (s.withInputs i).captureHits = s.captureHits := by
      rw [captureHits_selftest hs, captureHits_selftest (s := s.withInputs i) hs]; rfl
    have hint (b : Bool) : (s.lp.int || (s.cr.lpEn && (b || s.cr.lpSelftest))) = (s.lp.int || s.cr.lpEn) := by
      rw [hs, Bool.or_true, Bool.and_true]
    have hlp : (s.withInputs i).lightPenCapture.lp.int = s.lightPenCapture.lp.int := (hint _).trans (hint _).symm
    simp only [State.lightPenCapture, State.withRet_lp, State.withLp_lp] at hlp ⊢
    rw [hi, hlp]
    rfl

theorem isqrtFrom_eq_sqrt {n k : Nat} (h : Nat.sqrt n ≤ k) : isqrtFrom n k = Nat.sqrt n := by
  induction k with
  | zero => exact (Nat.le_zero.1 h).symm
  | succ k ih =>
    unfold isqrtFrom
    split
    · next hk => exact le_antisymm (Nat.le_sqrt.2 hk) h
    · next hk => exact ih (Nat.le_of_lt_succ (Nat.sqrt_lt.2 (Nat.lt_of_not_le hk)))

theorem isqrt_eq_sqrt (n : Nat) : isqrt n = Nat.sqrt n := isqrtFrom_eq_sqrt (Nat.sqrt_le_self n)

/-- The root is the last point of the line inside the circle (R211). -/
theorem sqrt_last_inside {R : Nat} {v : Int} (h : v.natAbs ≤ R) :
    (Nat.sqrt (R * R - v.natAbs * v.natAbs) : Int) ^ 2 + v ^ 2 ≤ (R : Int) ^ 2 ∧
      (R : Int) ^ 2 < ((Nat.sqrt (R * R - v.natAbs * v.natAbs) : Int) + 1) ^ 2 + v ^ 2 := by
  have hsq : v.natAbs * v.natAbs ≤ R * R := Nat.mul_le_mul h h
  have hlo := Nat.sqrt_le (R * R - v.natAbs * v.natAbs)
  have hhi := Nat.lt_succ_sqrt (R * R - v.natAbs * v.natAbs)
  have hv : v ^ 2 = ((v.natAbs * v.natAbs : Nat) : Int) := by rw [pow_two, Nat.cast_mul, Int.natAbs_mul_self']
  rw [hv]
  generalize v.natAbs * v.natAbs = d at *
  generalize Nat.sqrt (R * R - d) = q at *
  simp only [pow_two]
  exact ⟨by exact_mod_cast (show q * q + d ≤ R * R by omega),
    by exact_mod_cast (show R * R < (q + 1) * (q + 1) + d from by rw [Nat.succ_eq_add_one] at hhi; omega)⟩

/-- An interlaced crossing is held in the window (R210). -/
theorem fixY_natAbs_le {c : Config} {il : Bool} {cy v : Int} (h : (v - cy).natAbs ≤ c.lpWinY) :
    (fixY c il cy v - cy).natAbs ≤ c.lpWinY := by
  unfold fixY clampY
  split <;> omega

/-- The default LPHit, clause by clause (R208 to R211). -/
theorem referenceHit_spec (c : Config) (px py cx cy : Int) (il : Bool) :
    let h := referenceHit c px py cx cy il
    let chord (v : Int) : Int := Nat.sqrt (c.lpFovR * c.lpFovR - v.natAbs * v.natAbs)
    (h.winYhi = true ↔ (cx - px).natAbs ≤ c.lpFovR ∧ (py + chord (cx - px) - cy).natAbs ≤ c.lpWinY) ∧
    (h.winX = true ↔ (cy - py).natAbs ≤ c.lpFovR ∧ (px - chord (cy - py) - cx).natAbs ≤ c.lpWinX) ∧
    (h.winYlo = true ↔ (cx - px).natAbs ≤ c.lpFovR ∧ (py - chord (cx - px) - cy).natAbs ≤ c.lpWinY) ∧
    h.yhi = (if h.winYhi = true then fixY c il cy (py + chord (cx - px)) else py + c.lpFovR + 1) ∧
    h.xleft = (if h.winX = true then px - chord (cy - py) else px - (c.lpFovR + 1)) ∧
    h.ylo = (if h.winYlo = true then fixY c il cy (py - chord (cx - px)) else py - (c.lpFovR + 1)) := by
  simp only [referenceHit, halfChord, isqrt_eq_sqrt, inWindow, Bool.and_eq_true, decide_eq_true_eq, and_self]

/-- Settles O52. -/
theorem lpHitResults : Obligations.LpHitResults := by
  refine fun px py cx cy il s => ⟨rfl, lpHitOf s.cfg px py cx cy il, rfl, fun href => ?_⟩
  have hlp : lpHitOf s.cfg px py cx cy il = referenceHit s.cfg px py cx cy il := by unfold lpHitOf; rw [href]
  rw [hlp]
  obtain ⟨hwyhi, hwx, hwylo, hyhi, hxleft, hylo⟩ := referenceHit_spec s.cfg px py cx cy il
  generalize referenceHit s.cfg px py cx cy il = h at *
  refine ⟨hwyhi, hwx, hwylo, hyhi, hxleft, hylo, fun hil hw => ?_, fun hil hw => ?_, fun hw => ?_, fun hw => ?_, fun hw => ?_⟩
  · rw [hyhi, if_pos hw, hil, fixY, if_neg Bool.false_ne_true, add_sub_cancel_left]
    exact ⟨by simp, sqrt_last_inside (hwyhi.1 hw).1⟩
  · rw [hylo, if_pos hw, hil, fixY, if_neg Bool.false_ne_true, sub_sub_cancel]
    exact ⟨by simp, sqrt_last_inside (hwylo.1 hw).1⟩
  · rw [hxleft, if_pos hw, sub_sub_cancel]
    exact ⟨by simp, sqrt_last_inside (hwx.1 hw).1⟩
  · rw [hyhi, if_pos hw]
    exact fixY_natAbs_le (hwyhi.1 hw).2
  · rw [hylo, if_pos hw]
    exact fixY_natAbs_le (hwylo.1 hw).2

/-! ### The frame's events -/

theorem FetchFrame.frameCnt {s t : State} (h : FetchFrame s t) : t.frameCnt = s.frameCnt := by rw [h]; rfl

/-- Settles O57. -/
theorem frameEventResults : Obligations.FrameEventResults := by
  refine fun s => ⟨rfl, fun r hr => ?_, _, rfl, rfl, ?_⟩
  · refine (if_pos hr).trans (congrArg (fun t => (Host.Outcome.next (State.withRet t .none) : Result)) ?_)
    have hh : s.swapBuffers.hidden = s.alpha.bufIdx := Bool.not_not _
    unfold State.rowStart
    rw [hh]
    rfl
  · exact (alphaFrameStart_fetch _).frameCnt

/-! ### The renderer -/

/-- Settles O58. -/
theorem scanlineResult : Obligations.ScanlineResult := by
  refine fun n s hn => ⟨s.scanline n, if_pos hn, by simp [State.scanline], fun sx hsx => ?_⟩
  rw [State.scanline, List.getElem?_map, List.getElem?_range hsx]
  simp only [Option.map_some, State.pixel, State.cursorPen, State.isColor, decide_eq_true_eq]
  rfl

theorem cellAt_of_getElem? {s : State} {sx : Nat} {cell : TextCell}
    (h : (s.alpha.row s.alpha.bufIdx).cells[sx / s.cfg.charW]? = some cell) : s.cellAt sx = cell := by
  rw [State.cellAt, List.getD_eq_getElem?_getD, h, Option.getD_some]

/-- The pen of a lit alpha pixel, by variant and policy (R260, R265; entry 27). -/
theorem alphaPen_eq (s : State) (sx : Nat) : s.alphaPen sx =
    if s.cfg.variant ≠ .color then 2 else if s.cfg.policy ≠ .overlay then 7
    else alphaColour (s.cellAt sx).attr := by
  unfold State.alphaPen
  cases s.cfg.variant <;> cases s.cfg.policy <;> rfl

theorem alphaColour_eq (v : Byte) :
    alphaColour v = if (v.extractLsb' 5 3).toNat = 0 then 7 else (v.extractLsb' 5 3).toNat := by
  unfold alphaColour attrColor
  exact if_congr BitVec.toNat_eq rfl rfl

/-- Without the alpha layer the picture is the graphics', under every policy. -/
theorem basePen_of_unlit {s : State} {sx sy : Nat} (h : (s.alphaWanted && s.alphaLayer sx sy) = false) :
    s.basePen sx sy = s.gfxOrBlack sx sy := by
  unfold State.basePen State.gfxOrBlack
  rw [h]
  cases s.cfg.policy <;> rfl

theorem alphaLayer_of_underrun {s : State} (h : s.alpha.underrun = true) (sx sy : Nat) :
    s.alphaLayer sx sy = false := by
  rw [State.alphaLayer, h]; rfl

/-- While `underrun` is set a pixel is the cursor's or the graphics' (R258). -/
theorem pixel_of_underrun {s : State} (h : s.alpha.underrun = true) (sx sy : Nat) :
    s.pixel sx sy = if s.isCursor sx sy then s.cursorPen else s.gfxOrBlack sx sy := by
  rw [State.pixel, basePen_of_unlit (by rw [alphaLayer_of_underrun h, Bool.and_false])]

/-- Settles O59. -/
theorem compositionAndUnderrun : Obligations.CompositionAndUnderrun := by
  refine ⟨fun sx sy s cell hcell => ?_, fun s r0 r1 n hu => ⟨?_, fun sx hsx => ?_⟩⟩
  · have hpen := alphaPen_eq s sx
    rw [cellAt_of_getElem? hcell, alphaColour_eq] at hpen
    have hlit : (decide (s.alpha.mode = .alpha ∨ s.alpha.mode = .both) && !s.alpha.underrun && s.alphaOn sx sy)
        = (s.alphaWanted && s.alphaLayer sx sy) := by
      rw [State.alphaWanted, State.alphaLayer, Bool.decide_or, Bool.and_assoc]
    simp only [hlit, ← hpen]
    refine ⟨fun hp => ?_, fun hp => ?_, fun hp => ?_⟩
    · simp only [State.basePen, hp]
      cases s.graphicsActive <;> simp [penBlack]
    · simp only [State.basePen, hp, State.gfxOrBlack, State.inZone, Bool.and_eq_true, Bool.or_eq_true,
        Bool.not_eq_true', decide_eq_true_eq]
      rfl
    · simp only [State.basePen, hp]
      rfl
  · refine List.map_congr_left fun sx _ => ?_
    exact (pixel_of_underrun (by exact hu) sx n).trans (pixel_of_underrun hu sx n).symm
  · rw [State.scanline, List.getElem?_map, List.getElem?_range hsx]
    exact congrArg some (pixel_of_underrun hu sx n)

theorem gfxPen_of_graphics {s : State} {gx gy : Nat} (h : inGraphics s.cfg gx gy) :
    s.gfxPen (gx + s.cfg.gfxXOff) (gy + s.cfg.gfxYOff) = s.rasterPen gx gy := by
  obtain ⟨hx, hy⟩ := h
  have hin : s.inRaster (gx + s.cfg.gfxXOff) (gy + s.cfg.gfxYOff) = true := by
    simp only [State.inRaster, Bool.and_eq_true, decide_eq_true_eq]
    omega
  rw [State.gfxPen, if_pos hin, Nat.add_sub_cancel, Nat.add_sub_cancel]

theorem pixelIndex_toNat (s : State) (gx gy : Nat) : (s.pixelIndex gx gy).toNat =
    4 * (s.readPixel 2 gx gy).toNat + 2 * (s.readPixel 1 gx gy).toNat + (s.readPixel 0 gx gy).toNat := by
  unfold State.pixelIndex
  cases s.readPixel 2 gx gy <;> cases s.readPixel 1 gx gy <;> cases s.readPixel 0 gx gy <;> rfl

theorem nplanes_eq_one_iff (c : Config) : c.nplanes = 1 ↔ c.planeCount = .one := by
  unfold Config.nplanes
  cases c.planeCount <;> decide

theorem rasterPen_one {s : State} (h : s.cfg.nplanes = 1) (gx gy : Nat) :
    s.rasterPen gx gy = litPen (s.readPixel 0 gx gy) := by
  unfold State.rasterPen
  rw [(nplanes_eq_one_iff _).1 h]

theorem rasterPen_three {s : State} (h : s.cfg.nplanes ≠ 1) (gx gy : Nat) :
    s.rasterPen gx gy = if s.isColor then s.pixelColour gx gy
      else litPen (Config.otherGfxLit s.cfg.variant (s.pixelIndex gx gy) (s.pixelColour gx gy)) := by
  have hp : s.cfg.planeCount = .three := by
    cases hp : s.cfg.planeCount
    · exact absurd ((nplanes_eq_one_iff _).2 hp) h
    · rfl
  unfold State.rasterPen
  rw [hp]

theorem litPen_eq (b : Bool) : litPen b = 0 ∨ litPen b = 1 := by cases b <;> simp [litPen, penBlack, penGraphic]

/-! ### The alpha layer -/

/-- A listed glyph row is the first one found (R39). -/
theorem lookupGlyph_testBit (alt : Bool) (code : BitVec 7) (line j : Nat) (l : List GlyphRow) :
    (lookupGlyph alt code line l).testBit j =
      ((l.find? fun g => decide (g.alt = alt ∧ g.code = code ∧ g.line = line)).map (·.bits.testBit j)).getD false := by
  induction l with
  | nil => simp [lookupGlyph]
  | cons g l ih =>
    unfold lookupGlyph
    by_cases h : g.alt = alt ∧ g.code = code ∧ g.line = line
    · rw [if_pos h, List.find?_cons_of_pos (by simpa using h)]; rfl
    · rw [if_neg h, List.find?_cons_of_neg (by simpa using h), ih]

/-- One pixel of a line of a cell: the character generator's bit under the attributes in their order (R259). -/
theorem cellLine_testBit (s : State) (cell : TextCell) (line : Nat) {j : Nat} (h : j < s.cfg.charW) :
    (s.cellLine cell line).testBit j =
      let glyph : Bool := decide (cell.code ≠ s.cfg.blankCode)
        && (lookupGlyph (attrAltFont cell.attr) cell.code line s.inputs.font).testBit j
      let blinked : Bool := if attrBlink cell.attr && s.frameCnt.getLsbD s.cfg.chBlinkBit then false else glyph
      let lined : Bool := if attrUnderline cell.attr && decide (line = s.cfg.ulLine) then true else blinked
      let cursed : Bool := if attrCursor cell.attr && !s.frameCnt.getLsbD s.cfg.tcBlinkBit then !lined else lined
      if attrReverse cell.attr then !cursed else cursed := by
  have hones : (glyphOnes s.cfg).testBit j = true := by
    rw [glyphOnes, Nat.testBit_two_pow_sub_one, decide_eq_true h]
  have hchar : (s.chargen (attrAltFont cell.attr) cell.code line).testBit j =
      (decide (cell.code ≠ s.cfg.blankCode)
        && (lookupGlyph (attrAltFont cell.attr) cell.code line s.inputs.font).testBit j) := by
    unfold State.chargen
    split <;> simp_all
  simp only [State.cellLine, ← hchar, apply_ite (Nat.testBit · j), Nat.testBit_xor, hones, Bool.xor_true,
    Nat.zero_testBit]

theorem screenW_eq {c : Config} (h : c.wf = true) : c.alphaCols * c.charW = c.screenW := by
  simp only [Config.wf, Bool.and_eq_true, beq_iff_eq] at h
  tauto

/-- `AlphaOn` at a pixel of a cell of a text line (R255, R259). -/
theorem alphaOn_at {s : State} {r l c k : Nat} {cell : TextCell} (hwf : s.cfg.wf = true) (hr : r < s.cfg.alphaRows)
    (hl : l < s.cfg.charH) (hc : c < s.cfg.alphaCols) (hk : k < s.cfg.charW)
    (hcell : (s.alpha.row s.alpha.bufIdx).cells[c]? = some cell) :
    s.alphaOn (c * s.cfg.charW + k) (s.cfg.alphaYOff + r * s.cfg.charH + l) =
      (s.cellLine cell l).testBit (s.cfg.charW - 1 - k) := by
  have hw : 0 < s.cfg.charW := Nat.zero_lt_of_lt hk
  have hdiv : (c * s.cfg.charW + k) / s.cfg.charW = c := by
    rw [Nat.add_comm, Nat.add_mul_div_right _ _ hw, Nat.div_eq_of_lt hk, Nat.zero_add]
  have hmod : (c * s.cfg.charW + k) % s.cfg.charW = k := by
    rw [Nat.add_comm, Nat.add_mul_mod_self_right, Nat.mod_eq_of_lt hk]
  have hline : (s.cfg.alphaYOff + r * s.cfg.charH + l - s.cfg.alphaYOff) % s.cfg.charH = l := by
    rw [Nat.add_assoc, Nat.add_sub_cancel_left, Nat.add_comm, Nat.add_mul_mod_self_right, Nat.mod_eq_of_lt hl]
  have htext : s.isTextLine (s.cfg.alphaYOff + r * s.cfg.charH + l) = true := by
    have := Nat.mul_add_lt_mul_of_lt_of_lt hr hl
    rw [Nat.mul_comm _ r] at this
    simp only [State.isTextLine, Bool.and_eq_true, decide_eq_true_eq]
    omega
  have hscreen : c * s.cfg.charW + k < s.cfg.screenW := by
    rw [← screenW_eq hwf, Nat.mul_comm c]
    exact Nat.mul_add_lt_mul_of_lt_of_lt hc hk
  rw [State.alphaOn, htext, decide_eq_true hscreen, cellAt_of_getElem? (hdiv.symm ▸ hcell), hline, hmod]
  rfl

/-- Settles O60. -/
theorem layerResults : Obligations.LayerResults := by
  refine fun sx sy s => ⟨⟨s.gfxPen sx sy, rfl, fun h => ?_, fun gx gy hx hy hin => ?_⟩, s.alphaOn sx sy, rfl,
    fun h => ?_, fun r l c k cell hwf hr hl hc hk hsy hsx hcell => ?_⟩
  · rw [State.gfxPen, h]; rfl
  · subst hx hy
    rw [gfxPen_of_graphics hin]
    refine ⟨fun h1 => rasterPen_one h1 gx gy, fun h3 hv => ?_, fun h3 hv i hi => ?_⟩
    · rw [rasterPen_three h3, State.isColor, decide_eq_false hv]
      exact litPen_eq _
    · rw [rasterPen_three h3, State.isColor, decide_eq_true hv]
      have : (s.pixelIndex gx gy).toFin = i := Fin.ext ((pixelIndex_toNat s gx gy).trans hi.symm)
      exact congrArg s.music.get this
  · have ht : s.isTextLine sy = false := by
      rw [State.isTextLine, ← Bool.decide_and]; exact decide_eq_false h
    rw [State.alphaOn, ht]; rfl
  · subst hsx hsy
    rw [alphaOn_at hwf hr hl hc hk hcell, cellLine_testBit _ _ _ (by omega), lookupGlyph_testBit]
    unfold attrAltFont
    cases s.inputs.font.find? fun g => decide (g.alt = cell.attr.getLsbD 3 ∧ g.code = cell.code ∧ g.line = l) <;> rfl

/-! ### Deferred writes -/

/-- Nothing of a waiting write is to be seen: memory, the state of the FSM and the picture are those of before. -/
structure Unseen (s t : State) : Prop where
  mem : t.mem = s.mem
  fsm : t.fsm = s.fsm
  scanline : ∀ n, t.scanline n = s.scanline n

theorem Unseen.refl (s : State) : Unseen s s := ⟨rfl, rfl, fun _ => rfl⟩

theorem Unseen.trans {s t u : State} (h : Unseen s t) (k : Unseen t u) : Unseen s u :=
  ⟨k.mem.trans h.mem, k.fsm.trans h.fsm, fun n => (k.scanline n).trans (h.scanline n)⟩

theorem withBeams_unseen (s : State) (b : List Beam) : Unseen s (s.withBeams b) := ⟨rfl, rfl, fun _ => rfl⟩

theorem withWakePending_unseen (s : State) (p : Bool) : Unseen s (s.withWakePending p) := ⟨rfl, rfl, fun _ => rfl⟩

theorem withWakeDelay_unseen (s : State) (d : Nat) : Unseen s (s.withWakeDelay d) := ⟨rfl, rfl, fun _ => rfl⟩

theorem withSig_unseen (s : State) (g : Signals) : Unseen s (s.withSig g) := ⟨rfl, rfl, fun _ => rfl⟩

theorem withRet_unseen (s : State) (r : Ret) : Unseen s (s.withRet r) := ⟨rfl, rfl, fun _ => rfl⟩

theorem withDataW_unseen (s : State) (v : Word) : Unseen s (s.withDataW v) := ⟨rfl, rfl, fun _ => rfl⟩

theorem terminalCount_unseen (s : State) : Unseen s s.terminalCount := ⟨rfl, rfl, fun _ => rfl⟩

theorem suspended_unseen {s : State} (ha : s.memAvailable = false) (r : Ret) :
    Unseen s (s.suspend.recompute.withRet r) := by
  rw [suspend_of_unavailable ha]
  exact ((((withBeams_unseen s _).trans (withWakePending_unseen _ _)).trans (withWakeDelay_unseen _ _)).trans
    (withSig_unseen _ _)).trans (withRet_unseen _ _)

/-- A host access or a Wake while memory is unavailable: what it notes first is not seen, and the run suspends anew. -/
theorem driven_unseen {s t u : State} {ds trig : Bool} {r : Ret} (hu : Unseen s u) (hf : s.fsm.isMemWait = true)
    (ha : s.memAvailable = false) (hm : u.memAvailable = s.memAvailable)
    (h : (Host.Outcome.next ((u.drive ds trig).withRet r) : Result) = .next t) : Unseen s t := by
  have ha' : u.memAvailable = false := hm.trans ha
  rw [drive_suspended (hu.fsm.symm ▸ hf) ha'] at h
  exact Host.Outcome.next.inj h ▸ hu.trans (suspended_unseen ha' r)

theorem wake_unseen {s t : State} (hf : s.fsm.isMemWait = true) (ha : s.memAvailable = false)
    (h : exec .wake s = .next t) : Unseen s t := by
  cases hp : s.wakePending
  · rw [execWake_idle hp] at h
    obtain rfl := Host.Outcome.next.inj h
    exact withRet_unseen s _
  · rw [execWake_pending hp] at h
    exact driven_unseen (withWakePending_unseen s false) hf ha rfl h

/-- The word a Wake completes stands in memory (R154). -/
theorem wake_waitMem1 {s t : State} (hf : s.fsm = .waitMem1) (hc : s.cr.cmd = .wrw) (hp : s.wakePending = true)
    (ha : s.memAvailable = true) (h : exec .wake s = .next t) : t.planeRead s.io.plane s.io.addr = s.dataW := by
  rw [execWake_pending hp, drive_waitMem1 (s := s.withWakePending false) hf hc ha, granted_eq_ite,
    writeWordAtCursor_eq] at h
  obtain rfl := Host.Outcome.next.inj h
  have written : ∀ (u : State) (io : IoCursor) (f : Fsm) (g : Signals) (r : Ret),
      (((((u.withIo io).withFsm f).withSig g).withRet r).planeRead s.io.plane s.io.addr) =
        u.planeRead s.io.plane s.io.addr := fun _ _ _ _ _ => rfl
  exact (written ..).trans (planeRead_planeWrite_same _ s.io.plane s.io.addr s.dataW)

/-- A line or a box that waited for memory, and the run that completes it (R155). -/
theorem drive_waitMem2 {s : State} (hf : s.fsm = .waitMem2) (hc : s.cr.cmd = .drawv ∨ s.cr.cmd = .fillr)
    (ha : s.memAvailable = true) (trig : Bool) : (s.drive false trig).mem =
      (if s.cr.cmd = .drawv then s.granted.drawPending else s.granted.fillPending).mem := by
  have hcr : (if s.cr.cmd = .drawv then s.granted.drawPending else s.granted.fillPending).cr = s.cr := by
    split
    · rw [drawPending_eq]; rfl
    · rw [fillPending_eq]; rfl
  have hrow := fsmRow_waitMem2 (ds := false) (trig := trig) hf ha hc
  generalize (if s.cr.cmd = .drawv then s.granted.drawPending else s.granted.fillPending) = u at hcr hrow ⊢
  have hclass : cmdClass (u.withFsm .waitDs0).cr.cmd ≠ .read := by
    show cmdClass u.cr.cmd ≠ .read
    rw [hcr]
    rcases hc with h | h <;> rw [h] <;> decide
  rw [State.drive, State.runFsm, rowLimit, runRows_go hrow, runRows_rest (fsmRow_waitDs0_unstrobed rfl hclass trig)]
  exact noteCommand_mem _

theorem wake_waitMem2 {s t : State} (hf : s.fsm = .waitMem2) (hc : s.cr.cmd = .drawv ∨ s.cr.cmd = .fillr)
    (hp : s.wakePending = true) (ha : s.memAvailable = true) (h : exec .wake s = .next t) : t.mem =
      (if s.cr.cmd = .drawv then (s.withWakePending false).granted.drawPending
        else (s.withWakePending false).granted.fillPending).mem := by
  rw [execWake_pending hp] at h
  obtain rfl := Host.Outcome.next.inj h
  exact drive_waitMem2 (s := s.withWakePending false) hf hc ha false

/-- Settles O25. -/
theorem deferredWriteHasNotHappened : Obligations.DeferredWriteHasNotHappened := by
  refine fun s t hw => ⟨fun i hi v ha h => ?_, fun v hv h => ?_, fun hf hc hp ha h => wake_waitMem1 hf hc hp ha h,
    fun hf hp ha h => ⟨fun hc => ?_, fun hc => ?_⟩⟩
  · have unseen : Unseen s t := by
      simp only [List.mem_cons, List.not_mem_nil, or_false] at hi
      rcases hi with rfl | rfl | rfl | rfl | rfl | rfl
      · exact driven_unseen (withDataW_unseen s v) hw ha rfl h
      · exact driven_unseen (.refl s) hw ha rfl h
      · exact driven_unseen ((terminalCount_unseen s).trans (withDataW_unseen _ v)) hw ha rfl h
      · exact driven_unseen (terminalCount_unseen s) hw ha rfl h
      · exact driven_unseen (.refl s) hw ha rfl h
      · exact wake_unseen hw ha h
    obtain ⟨hmem, hfsm, hscan⟩ := unseen
    exact ⟨fun k => by rw [hmem], hfsm, hscan⟩
  · obtain rfl := Host.Outcome.next.inj h
    refine ⟨fun k => congrArg (readByte · k) (hostWrite5_mem_of_reset s hv), fun hc => ?_⟩
    obtain ⟨hfsm, hpend, -, -⟩ := drive_of_reset (u := (s.storeR5 v).withFsm .reset) rfl hc
    rw [hostWrite5_of_reset s hv]
    exact ⟨hpend, hfsm⟩
  · have engine : EngineSame s (s.withWakePending false).granted := ⟨rfl, rfl, rfl, rfl⟩
    rw [wake_waitMem2 hf (.inl hc) hp ha h, if_pos hc]
    exact (drawPending_engineSame engine rfl).1
  · have engine : EngineSame s (s.withWakePending false).granted := ⟨rfl, rfl, rfl, rfl⟩
    rw [wake_waitMem2 hf (.inr hc) hp ha h, if_neg (by rw [hc]; decide)]
    exact fillPending_engineSame engine rfl

end Sys2Proof.Machine
end

section
/-! SUPPORT. The statements about the display list (spec 46_alpha_fetcher.md): a word of it, the end of a row, the loop of
FetchRow as a chain of words, and the row of a list of characters. -/

namespace Sys2Proof.Machine

/-! ### The row buffers -/

/-- Where a word run alone finds its row: only the row's own control state may be new (R234; entry 4). -/
structure RowFound (s z : State) : Prop where
  frame : z = s.withAlpha z.alpha
  fill : FillFrame s.hidden s.alpha z.alpha
  cells : (z.alpha.row s.hidden).cells = (s.alpha.row s.hidden).cells
  ptr : z.alpha.fetchPtr = s.alpha.fetchPtr
  mode : z.alpha.mode = s.alpha.mode
  firstNa : z.alpha.firstNa = s.alpha.firstNa
  rows : z.alpha.rowsFetched = s.alpha.rowsFetched
  col : z.alpha.fetchCol = if s.alpha.fetchLeft = 0 then 0 else s.alpha.fetchCol

theorem rowOpen_row (s : State) (b : Bool) :
    (s.rowOpen b).alpha.row b = { (s.alpha.row b) with full := false } := by cases b <;> rfl

theorem inRow_found (s : State) : RowFound s s.inRow := by
  have hfill := inRow_fill s
  unfold State.inRow at *
  by_cases h : s.alpha.fetchLeft = 0
  · rw [if_pos h] at *
    have hrow := rowOpen_row s s.hidden
    refine ⟨rfl, hfill, by rw [hrow], ?_, ?_, ?_, ?_, (if_pos h).symm⟩ <;>
      (unfold State.rowOpen State.setRow; cases s.hidden <;> rfl)
  · rw [if_neg h] at *
    exact ⟨rfl, hfill, rfl, rfl, rfl, rfl, rfl, (if_neg h).symm⟩

/-! ### One word -/

/-- With budget left the row goes on (R234). -/
theorem rowGoesOn_of_left {s : State} (h : s.alpha.fetchLeft ≠ 0) : s.rowGoesOn = s := if_neg h

/-- The display mode of a NEWADDR word (R70). -/
theorem displayModeOf_eq (m : BitVec 2) :
    displayModeOf m = if m = 0 then .alpha else if m = 1 then .graphics else .both := by revert m; decide

/-- A cell is stored and the column moves on (R238). -/
theorem storeCell_of_lt {s : State} {b : Bool} {c : TextCell} (h : s.alpha.fetchCol < s.cfg.alphaCols) :
    s.storeCell b c = (s.setRow b { (s.alpha.row b) with cells := (s.alpha.row b).cells.set s.alpha.fetchCol c }).withAlpha
      { (s.setRow b { (s.alpha.row b) with cells := (s.alpha.row b).cells.set s.alpha.fetchCol c }).alpha with
        fetchCol := s.alpha.fetchCol + 1 } := by
  rw [State.storeCell, if_pos h]
  cases b <;> rfl

/-- A cell past the last column is dropped (R238). -/
theorem storeCell_of_not_lt {s : State} {b : Bool} {c : TextCell} (h : ¬s.alpha.fetchCol < s.cfg.alphaCols) :
    s.storeCell b c = s := if_neg h

theorem storeCell_fetchLeft (s : State) (b : Bool) (c : TextCell) :
    (s.storeCell b c).alpha.fetchLeft = s.alpha.fetchLeft := by
  unfold State.storeCell
  split
  · cases b <;> rfl
  · rfl

section
variable {s : State}

/-- The character words of the machine's own generation (R238). -/
theorem exec_alphaCharB_of_b (hg : s.cfg.alphaGen = .b) (v : Byte) (c : BitVec 7) :
    exec (.alphaCharB v c) s = .next ((s.inRow.takeCharB s.hidden v c).withRet .none) := by
  simp only [exec, execAlphaCharB, hg]

theorem exec_alphaCharA_of_a (hg : s.cfg.alphaGen = .a) (z c : BitVec 7) :
    exec (.alphaCharA z c) s = .next ((s.inRow.takeCharA s.hidden c).withRet .none) := by
  simp only [exec, execAlphaCharA, hg]

theorem exec_alphaEscA_of_a (hg : s.cfg.alphaGen = .a) (v z : BitVec 7) :
    exec (.alphaEscA v z) s = .next ((s.inRow.takeEscA v).withRet .none) := by
  simp only [exec, execAlphaEscA, hg]

end

/-- Settles O53. -/
theorem displayListWordResults : Obligations.DisplayListWordResults := by
  intro s y z hz a stored col cell
  obtain ⟨hframe, -, hcells, hptr, hmode, hfirst, -, -⟩ : RowFound s z := inRow_found s
  have hcfg : z.cfg = s.cfg := by rw [hframe]; rfl
  have hpast : z.pastWord = z.withAlpha a := by
    show z.withAlpha { z.alpha with fetchPtr := z.cfg.alphaAddr (z.alpha.fetchPtr + 1), fetchLeft := _ } = _
    rw [hcfg, hptr]
  have hleft : a.fetchLeft ≠ 0 := by show z.alpha.fetchLeft - 1 ≠ 0; omega
  have hcell (c : TextCell) : (z.pastWord.storeCell s.hidden c).rowGoesOn.withRet .none = cell c := by
    rw [rowGoesOn_of_left (by rw [storeCell_fetchLeft, hpast]; exact hleft), hpast]
    have hrow : (z.withAlpha a).alpha.row s.hidden = z.alpha.row s.hidden := by cases s.hidden <;> rfl
    by_cases h : z.alpha.fetchCol < s.cfg.alphaCols
    · have h' : (z.withAlpha a).alpha.fetchCol < (z.withAlpha a).cfg.alphaCols := by
        rw [State.withAlpha_cfg, hcfg]; exact h
      rw [storeCell_of_lt h', hrow, hcells]
      simp only [cell, stored, col, if_pos h]
      rfl
    · have h' : ¬(z.withAlpha a).alpha.fetchCol < (z.withAlpha a).cfg.alphaCols := by
        rw [State.withAlpha_cfg, hcfg]; exact h
      rw [storeCell_of_not_lt h']
      simp only [cell, stored, col, if_neg h]
      rfl
  refine ⟨fun m ad => ?_, fun g => ?_, fun g => ?_, fun g v => ?_, fun v c hg => ?_, fun g c hg => ?_, fun v g hg => ?_⟩
  · show Host.Outcome.next ((z.takeNewaddr m ad).withRet .none) = _
    rw [State.takeNewaddr, hpast, rowGoesOn_of_left hleft, hcfg, hfirst, hmode, displayModeOf_eq]
    rfl
  · show Host.Outcome.next (z.takeNop.withRet .none) = _
    rw [State.takeNop, hpast, rowGoesOn_of_left hleft]
  · show Host.Outcome.next (z.takeNop.withRet .none) = _
    rw [State.takeNop, hpast, rowGoesOn_of_left hleft]
  · show Host.Outcome.next ((z.takeAttrset v).withRet .none) = _
    rw [State.takeAttrset, hpast, hcfg]
    cases s.cfg.alphaGen <;> rw [rowGoesOn_of_left hleft] <;> rfl
  · rw [exec_alphaCharB_of_b hg]
    exact congrArg Host.Outcome.next (hcell _)
  · rw [exec_alphaCharA_of_a hg]
    exact congrArg Host.Outcome.next (hcell _)
  · rw [exec_alphaEscA_of_a hg]
    show Host.Outcome.next ((z.takeEscA v).withRet .none) = _
    rw [State.takeEscA, hpast, rowGoesOn_of_left hleft]
    rfl

/-! ### EOL -/

theorem takeEol_row (s : State) (b : Bool) : (s.takeEol b).alpha.row b =
    { cells := (s.alpha.row b).cells.take s.alpha.fetchCol
        ++ List.replicate ((s.alpha.row b).cells.length - s.alpha.fetchCol) (blankCell s.cfg)
      full := true } := by cases b <;> rfl

/-- An EOL writes the fetch state alone (R236). -/
theorem takeEol_eq_withAlpha (s : State) (b : Bool) : s.takeEol b = s.withAlpha (s.takeEol b).alpha := by
  simp only [State.takeEol, State.rowOver, State.setRow, State.pastWord, State.withAlpha_withAlpha, State.withAlpha_alpha]

/-- What an EOL leaves of the fetch state, but for the buffer (R236). -/
structure RowEnded (c : Config) (a a' : Alpha) : Prop where
  rows : a'.rowsFetched = a.rowsFetched + 1
  left : a'.fetchLeft = 0
  ptr : a'.fetchPtr = c.alphaAddr (a.fetchPtr + 1)
  mode : a'.mode = a.mode
  firstNa : a'.firstNa = a.firstNa

theorem takeEol_ended (s : State) (b : Bool) : RowEnded s.cfg s.alpha (s.takeEol b).alpha := by
  cases b <;> exact ⟨rfl, rfl, rfl, rfl, rfl⟩

/-- Blank cells from a column on (R236). -/
theorem getElem?_blanked {l : List TextCell} {n c : Nat} (blank : TextCell) (hc : c < l.length) :
    (l.take n ++ List.replicate (l.length - n) blank)[c]? = if n ≤ c then some blank else l[c]? := by
  split
  · rw [List.getElem?_append_right (by simp; omega), List.getElem?_replicate, if_pos (by simp; omega)]
  · rw [List.getElem?_append_left (by simp; omega), List.getElem?_take, if_pos (by omega)]

/-- Settles O54. -/
theorem endOfLineResult : Obligations.EndOfLineResult := by
  intro g s hok col
  obtain ⟨hframe, hfill, hcells, hptr, hmode, hfirst, hrows, hcol⟩ := inRow_found s
  have hok' := (alphaOk_iff s).1 hok
  have hlen : (s.alpha.row s.hidden).cells.length = s.cfg.alphaCols := alphaRow_length hok' _
  have hle : col ≤ s.cfg.alphaCols := by
    have := hok'.col
    simp only [col]
    split <;> omega
  have hcfg : s.inRow.cfg = s.cfg := by rw [hframe]; rfl
  have hended := takeEol_ended s.inRow s.hidden
  have hrow := takeEol_row s.inRow s.hidden
  have htaken := takeEol_eq_withAlpha s.inRow s.hidden
  have hexec : exec (.alphaEol g) s = .next ((s.inRow.takeEol s.hidden).withRet .none) := rfl
  obtain ⟨hother, -, hunder, -⟩ := hfill.trans (takeEol_fill s.inRow s.hidden)
  rw [hcells, hcfg, hcol] at hrow
  generalize s.inRow.takeEol s.hidden = t at *
  refine ⟨_, hexec, ?_, fun c hc => ?_, ?_, ?_, hended.rows.trans (by rw [hrows]), hended.left, ?_,
    hended.ptr.trans (by rw [hptr, hcfg]), hended.mode.trans hmode, hended.firstNa.trans hfirst, hunder⟩
  · rw [htaken, hframe]; rfl
  · rw [State.withRet_alpha, hrow]
    exact getElem?_blanked _ (hlen.symm ▸ hc)
  · rw [State.withRet_alpha, hrow, List.length_append, List.length_take, List.length_replicate, hlen]
    omega
  · rw [State.withRet_alpha, hrow]
  · rw [State.hidden, Bool.not_not] at hother
    exact hother

/-! ### A word alone -/

theorem extract_getLsbD_seven (w : Word) : (w.extractLsb' 7 8).getLsbD 7 = w.getLsbD 14 := by
  simp

theorem extract_setWidth (w : Word) : (w.extractLsb' 7 8).setWidth 7 = w.extractLsb' 7 7 := by
  apply BitVec.eq_of_getLsbD_eq
  intro i hi
  simp only [BitVec.getLsbD_setWidth, BitVec.getLsbD_extractLsb', hi, show i < 8 by omega, decide_true, Bool.true_and]

/-- The attribute field of generation B is bit 14 and the attribute field of generation A (R72, R73). -/
theorem ofBool_append_extract (w : Word) : BitVec.ofBool (w.getLsbD 14) ++ w.extractLsb' 7 7 = w.extractLsb' 7 8 := by
  apply BitVec.eq_of_getLsbD_eq
  intro i hi
  simp only [BitVec.getLsbD_append, BitVec.getLsbD_extractLsb', BitVec.getLsbD_ofBool]
  by_cases h : i < 7
  · simp [h, show i < 8 by omega]
  · obtain rfl : i = 7 := by omega
    simp

section
variable {w : Word} (h : w.getLsbD 15 = false)
include h

/-- Where bit 15 is clear the word is a character or an escape, by the generation (R72, R73). -/
theorem decodeAlphaWord_char_b : decodeAlphaWord .b w = .alphaCharB (w.extractLsb' 7 8) (w.extractLsb' 0 7) := by
  simp only [decodeAlphaWord, h, Bool.false_eq_true, if_false]

theorem decodeAlphaWord_escape (he : w.getLsbD 14 = true) :
    decodeAlphaWord .a w = .alphaEscA (w.extractLsb' 7 7) (w.extractLsb' 0 7) := by
  simp only [decodeAlphaWord, h, he, Bool.false_eq_true, if_false, if_true]

theorem decodeAlphaWord_char_a (he : w.getLsbD 14 = false) :
    decodeAlphaWord .a w = .alphaCharA (w.extractLsb' 7 7) (w.extractLsb' 0 7) := by
  simp only [decodeAlphaWord, h, he, Bool.false_eq_true, if_false]

end

/-- Where bit 15 is set both generations read the same word (R70, R71). -/
theorem decodeAlphaWord_control {w : Word} (h : w.getLsbD 15 = true) (g g' : AlphaGen) :
    decodeAlphaWord g w = decodeAlphaWord g' w := by
  simp only [decodeAlphaWord, h, if_true]

section
variable {s : State}

/-- A generation B word in a generation A machine (entry 21). -/
theorem exec_alphaCharB_of_a (hg : s.cfg.alphaGen = .a) (v : Byte) (c : BitVec 7) : exec (.alphaCharB v c) s =
    .next ((if v.getLsbD 7 then s.inRow.takeEscA (v.setWidth 7) else s.inRow.takeCharA s.hidden c).withRet .none) := by
  simp only [exec, execAlphaCharB, hg]

/-- Generation A words in a generation B machine (entry 21). -/
theorem exec_alphaCharA_of_b (hg : s.cfg.alphaGen = .b) (z c : BitVec 7) :
    exec (.alphaCharA z c) s = .next ((s.inRow.takeCharB s.hidden (0#1 ++ z) c).withRet .none) := by
  simp only [exec, execAlphaCharA, hg]

theorem exec_alphaEscA_of_b (hg : s.cfg.alphaGen = .b) (v z : BitVec 7) :
    exec (.alphaEscA v z) s = .next ((s.inRow.takeCharB s.hidden (1#1 ++ v) z).withRet .none) := by
  simp only [exec, execAlphaEscA, hg]

/-- A character or an escape run alone, as the machine's own generation reads it (entry 21). -/
theorem exec_charWord {w : Word} (h : w.getLsbD 15 = false) (g : AlphaGen) : exec (decodeAlphaWord g w) s =
    .next ((s.inRow.takeWord s.hidden (decodeAlphaWord s.cfg.alphaGen w)).1.withRet .none) := by
  have hattr := ofBool_append_extract w
  cases hg : s.cfg.alphaGen <;> cases g <;> cases he : w.getLsbD 14 <;> rw [he] at hattr
  case a.a.false => rw [decodeAlphaWord_char_a h he, exec_alphaCharA_of_a hg]; rfl
  case a.a.true => rw [decodeAlphaWord_escape h he, exec_alphaEscA_of_a hg]; rfl
  case a.b.false =>
    rw [decodeAlphaWord_char_b h, decodeAlphaWord_char_a h he, exec_alphaCharB_of_a hg, extract_getLsbD_seven, he]; rfl
  case a.b.true =>
    rw [decodeAlphaWord_char_b h, decodeAlphaWord_escape h he, exec_alphaCharB_of_a hg, extract_getLsbD_seven, he,
      extract_setWidth]; rfl
  case b.a.false => rw [decodeAlphaWord_char_a h he, decodeAlphaWord_char_b h, exec_alphaCharA_of_b hg, ← hattr]; rfl
  case b.a.true => rw [decodeAlphaWord_escape h he, decodeAlphaWord_char_b h, exec_alphaEscA_of_b hg, ← hattr]; rfl
  case b.b.false => rw [decodeAlphaWord_char_b h, exec_alphaCharB_of_b hg]; rfl
  case b.b.true => rw [decodeAlphaWord_char_b h, exec_alphaCharB_of_b hg]; rfl

end

/-- A word run alone is a word of the row, as the machine's own generation reads it (entries 4, 21). -/
theorem exec_decodeAlphaWord (g : AlphaGen) (w : Word) (s : State) : exec (decodeAlphaWord g w) s =
    .next ((s.inRow.takeWord s.hidden (decodeAlphaWord s.cfg.alphaGen w)).1.withRet .none) := by
  cases h15 : w.getLsbD 15
  · exact exec_charWord h15 g
  · rw [decodeAlphaWord_control h15 s.cfg.alphaGen g]
    unfold decodeAlphaWord
    rw [h15]
    cases w.getLsbD 14
    · cases w.getLsbD 13 <;> cases w.getLsbD 12 <;> rfl
    · rfl

/-! ### The loop of FetchRow -/

/-- The word at the fetch pointer, as the machine's generation reads it (R234). -/
def State.nextWord (s : State) : Instr := decodeAlphaWord s.cfg.alphaGen (s.hostMemRead s.alpha.fetchPtr)

/-- One turn of FetchRow's loop into buffer `b`: the address noted, the word read and taken (R234). -/
def fetchStep (b : Bool) (s : State) : State := (s.noteHostRead.takeWord b s.nextWord).1

/-- Only an EOL ends the row (R234, R236). -/
theorem takeWord_ends (s : State) (b : Bool) (i : Instr) : (s.takeWord b i).2 = true ↔ ∃ g, i = .alphaEol g := by
  cases i with
  | alphaEol g => exact ⟨fun _ => ⟨g, rfl⟩, fun _ => rfl⟩
  | _ => exact ⟨fun h => absurd h Bool.false_ne_true, fun ⟨_, h⟩ => by cases h⟩

theorem fetchWords_succ (b : Bool) (m : Nat) (s : State) : fetchWords b (m + 1) s =
    if ∃ g, s.nextWord = .alphaEol g then fetchStep b s else fetchWords b m (fetchStep b s) :=
  if_congr (takeWord_ends s.noteHostRead b s.nextWord) rfl rfl

/-- FetchRow's loop is a chain of words up to the first EOL or to the end of the budget (R234, R239). -/
theorem fetchWords_chain (b : Bool) (m : Nat) (s : State) : ∃ n ≤ m,
    (∀ k < n, ∀ g, ((fetchStep b)^[k] s).nextWord ≠ .alphaEol g) ∧
    ((∃ g, ((fetchStep b)^[n] s).nextWord = .alphaEol g) ∨ n = m) ∧
    fetchWords b (m + 1) s = (fetchStep b)^[n + 1] s := by
  induction m generalizing s with
  | zero =>
    refine ⟨0, le_rfl, fun k hk => absurd hk (Nat.not_lt_zero k), .inr rfl, ?_⟩
    rw [fetchWords_succ, fetchWords, ite_self]; rfl
  | succ m ih =>
    rw [fetchWords_succ]
    by_cases he : ∃ g, s.nextWord = .alphaEol g
    · exact ⟨0, Nat.zero_le _, fun k hk => absurd hk (Nat.not_lt_zero k), .inl he, if_pos he⟩
    · obtain ⟨n, hn, hwords, hend, heq⟩ := ih (fetchStep b s)
      refine ⟨n + 1, Nat.succ_le_succ hn, fun k hk g => ?_, hend.imp_right (congrArg (· + 1)), (if_neg he).trans heq⟩
      cases k with
      | zero => exact fun e => he ⟨g, e⟩
      | succ k => exact hwords k (Nat.lt_of_succ_lt_succ hk) g

/-! ### A word that does not end the row -/

/-- What a word that is no EOL has done before the loop test of R234: it wrote the fetch state alone, left the buffer as
full as it was and spent one unit. -/
structure WordStep (b : Bool) (s r : State) : Prop where
  frame : r = s.withAlpha r.alpha
  full : (r.alpha.row b).full = (s.alpha.row b).full
  left : r.alpha.fetchLeft = s.alpha.fetchLeft - 1
  rows : r.alpha.rowsFetched = s.alpha.rowsFetched

theorem pastWord_wordStep (s : State) (b : Bool) : WordStep b s s.pastWord :=
  ⟨rfl, by cases b <;> rfl, rfl, rfl⟩

theorem storeCell_wordStep (s : State) (b : Bool) (c : TextCell) : WordStep b s (s.pastWord.storeCell b c) := by
  by_cases h : s.pastWord.alpha.fetchCol < s.pastWord.cfg.alphaCols
  · rw [storeCell_of_lt h]
    cases b <;> exact ⟨rfl, rfl, rfl, rfl⟩
  · rw [storeCell_of_not_lt h]
    exact pastWord_wordStep s b

theorem takeWord_wordStep (s : State) (b : Bool) {i : Instr} (hi : ∀ g, i ≠ .alphaEol g) :
    ∃ r, WordStep b s r ∧ (s.takeWord b i).1 = r.rowGoesOn := by
  unfold State.takeWord
  split
  · refine ⟨_, ?_, rfl⟩
    cases b <;> exact ⟨rfl, rfl, rfl, rfl⟩
  · exact absurd rfl (hi _)
  · unfold State.takeAttrset
    split
    · refine ⟨_, ?_, rfl⟩
      cases b <;> exact ⟨rfl, rfl, rfl, rfl⟩
    · exact ⟨_, pastWord_wordStep s b, rfl⟩
  · exact ⟨_, storeCell_wordStep s b _, rfl⟩
  · exact ⟨_, storeCell_wordStep s b _, rfl⟩
  · refine ⟨_, ?_, rfl⟩
    cases b <;> exact ⟨rfl, rfl, rfl, rfl⟩
  · exact ⟨_, pastWord_wordStep s b, rfl⟩

theorem rowGoesOn_hostReads (s : State) : s.rowGoesOn.hostReads = s.hostReads := by
  unfold State.rowGoesOn
  split <;> rfl

/-- Taking a word reads no further address. -/
theorem takeWord_hostReads (s : State) (b : Bool) (i : Instr) : (s.takeWord b i).1.hostReads = s.hostReads := by
  by_cases hi : ∃ g, i = .alphaEol g
  · obtain ⟨g, rfl⟩ := hi
    show (s.takeEol b).hostReads = _
    rw [takeEol_eq_withAlpha]; rfl
  · obtain ⟨r, hr, e⟩ := takeWord_wordStep s b (i := i) fun g e => hi ⟨g, e⟩
    rw [e, rowGoesOn_hostReads, hr.frame]; rfl

theorem fetchStep_hostReads (b : Bool) (s : State) :
    (fetchStep b s).hostReads = s.alpha.fetchPtr :: s.hostReads := takeWord_hostReads ..

theorem fetchStep_fetch (b : Bool) (s : State) : FetchFrame s (fetchStep b s) :=
  have h : FetchFrame s s.noteHostRead := rfl
  h.trans (takeWord_fetch ..)

theorem fetchSteps_fetch (b : Bool) (s : State) (k : Nat) : FetchFrame s ((fetchStep b)^[k] s) := by
  induction k with
  | zero => exact .refl s
  | succ k ih => rw [Function.iterate_succ_apply']; exact ih.trans (fetchStep_fetch b _)

/-- The addresses read, newest first, are those of the fetch pointer before each word (entry 18). -/
theorem fetchSteps_hostReads (b : Bool) {s : State} (h : s.hostReads = []) (k : Nat) :
    ((fetchStep b)^[k] s).hostReads =
      ((List.range k).map fun j => ((fetchStep b)^[j] s).alpha.fetchPtr).reverse := by
  induction k with
  | zero => exact h
  | succ k ih =>
    rw [Function.iterate_succ_apply', fetchStep_hostReads, ih, List.range_succ, List.map_append, List.reverse_append]
    rfl

theorem FetchFrame.cfg {s t : State} (h : FetchFrame s t) : t.cfg = s.cfg := by rw [h]; rfl

theorem FetchFrame.inputs {s t : State} (h : FetchFrame s t) : t.inputs = s.inputs := by rw [h]; rfl

/-- The word at the fetch pointer of a turn is read from the host memory and by the generation of the start. -/
theorem nextWord_of_fetch {s t : State} (h : FetchFrame s t) :
    t.nextWord = decodeAlphaWord s.cfg.alphaGen (readWord s.inputs.hostMem (2 * t.alpha.fetchPtr)) := by
  rw [State.nextWord, State.hostMemRead, h.cfg, h.inputs]

theorem rowBegin_fetch (s : State) (b : Bool) : FetchFrame s (s.rowBegin b) := rfl

/-- FetchRow with a budget is a chain of words (R234). -/
theorem fetchRow_chain (b : Bool) {s : State} (hb : 1 ≤ s.cfg.fetchBudget) : ∃ n < s.cfg.fetchBudget,
    (∀ k < n, ∀ g, ((fetchStep b)^[k] (s.rowBegin b)).nextWord ≠ .alphaEol g) ∧
    ((∃ g, ((fetchStep b)^[n] (s.rowBegin b)).nextWord = .alphaEol g) ∨ n + 1 = s.cfg.fetchBudget) ∧
    s.fetchRow b = (fetchStep b)^[n + 1] (s.rowBegin b) := by
  obtain ⟨m, hm⟩ := Nat.exists_eq_add_of_le' hb
  obtain ⟨n, hn, hwords, hend, heq⟩ := fetchWords_chain b m (s.rowBegin b)
  refine ⟨n, by omega, hwords, hend.imp_right (by omega), ?_⟩
  rw [State.fetchRow, if_neg (by omega), hm, heq]

/-- Settles O55. -/
theorem wordAloneIsFetchRowsWord : Obligations.WordAloneIsFetchRowsWord := by
  refine ⟨exec_decodeAlphaWord, fun b s hb => ?_⟩
  obtain ⟨n, hn, hwords, hend, heq⟩ := fetchRow_chain b hb
  have hframe (k : Nat) : FetchFrame s ((fetchStep b)^[k] (s.rowBegin b)) :=
    (rowBegin_fetch s b).trans (fetchSteps_fetch b _ k)
  have hword (k : Nat) := nextWord_of_fetch (hframe k)
  refine ⟨n, fun k => (fetchStep b)^[k] (s.rowBegin b), hn, rfl, fun k _ => ?_, fun k hk g => ?_, ?_, ?_,
    fetchSteps_hostReads b rfl (n + 1)⟩
  · simp only [← hword]
    exact Function.iterate_succ_apply' _ _ _
  · simp only [← hword]
    exact hwords k hk g
  · simp only [← hword]
    exact hend
  · exact congrArg (fun t => (Host.Outcome.next (State.withRet t .none) : Result)) heq

/-! ### How a row ends -/

/-- A row in progress after `k` words none of which was an EOL (R234). -/
structure RowRunning (b : Bool) (s : State) (k : Nat) (u : State) : Prop where
  full : (u.alpha.row b).full = false
  left : u.alpha.fetchLeft = s.cfg.fetchBudget - k
  rows : u.alpha.rowsFetched = s.alpha.rowsFetched
  errlog : u.errlog = s.errlog

theorem rowBegin_running (b : Bool) (s : State) : RowRunning b s 0 (s.rowBegin b) := by
  cases b <;> exact ⟨rfl, rfl, rfl, rfl⟩

/-- A word that is no EOL: the row goes on while there is budget, else it is exhausted (R234, R239). -/
theorem RowRunning.step {b : Bool} {s u : State} {k : Nat} (h : RowRunning b s k u)
    (hw : ∀ g, u.nextWord ≠ .alphaEol g) : ∃ r, RowRunning b s (k + 1) r ∧ fetchStep b u = r.rowGoesOn := by
  obtain ⟨r, hr, e⟩ := takeWord_wordStep u.noteHostRead b hw
  exact ⟨r, ⟨hr.full.trans h.full, by rw [hr.left, ← Nat.sub_sub, ← h.left]; rfl, hr.rows.trans h.rows,
    (congrArg State.errlog hr.frame).trans h.errlog⟩, e⟩

theorem RowRunning.goesOn {b : Bool} {s u : State} {k : Nat} (h : RowRunning b s k u)
    (hw : ∀ g, u.nextWord ≠ .alphaEol g) (hk : k + 1 < s.cfg.fetchBudget) : RowRunning b s (k + 1) (fetchStep b u) := by
  obtain ⟨r, hr, e⟩ := h.step hw
  rw [e, rowGoesOn_of_left (by rw [hr.left]; omega)]
  exact hr

theorem fetchSteps_running {b : Bool} {s : State} {n : Nat} (hn : n < s.cfg.fetchBudget)
    (hw : ∀ k < n, ∀ g, ((fetchStep b)^[k] (s.rowBegin b)).nextWord ≠ .alphaEol g) :
    RowRunning b s n ((fetchStep b)^[n] (s.rowBegin b)) := by
  induction n with
  | zero => exact rowBegin_running b s
  | succ n ih =>
    rw [Function.iterate_succ_apply']
    exact (ih (Nat.lt_of_succ_lt hn) fun k hk => hw k (Nat.lt_succ_of_lt hk)).goesOn (hw n (Nat.lt_succ_self n)) hn

/-- A row that met its EOL (R236). -/
def RowDone (b : Bool) (s t : State) : Prop :=
  (t.alpha.row b).full = true ∧ t.alpha.rowsFetched = s.alpha.rowsFetched + 1 ∧ t.errlog = s.errlog

/-- A row that ran out of budget (R239, R283). -/
def RowFailed (b : Bool) (s t : State) : Prop :=
  (t.alpha.row b).full = false ∧ t.alpha.rowsFetched = s.alpha.rowsFetched ∧
    t.errlog = s.errlog ++ [.displayListMalformation s.alpha.rowsFetched]

theorem RowRunning.done {b : Bool} {s u : State} {k : Nat} (h : RowRunning b s k u) {g : BitVec 12}
    (hw : u.nextWord = .alphaEol g) : RowDone b s (fetchStep b u) := by
  have e : fetchStep b u = u.noteHostRead.takeEol b := by rw [fetchStep, hw]; rfl
  rw [e]
  exact ⟨by rw [takeEol_row], by rw [(takeEol_ended _ b).rows, ← h.rows]; rfl,
    by rw [takeEol_eq_withAlpha, State.withAlpha_errlog]; exact h.errlog⟩

theorem RowRunning.exhausted {b : Bool} {s u : State} (h : RowRunning b s s.cfg.fetchBudget u) :
    RowFailed b s u.rowGoesOn := by
  have e : u.rowGoesOn = u.rowExhausted := if_pos (by rw [h.left, Nat.sub_self])
  have hlog : u.rowExhausted.errlog = u.errlog ++ [.displayListMalformation u.alpha.rowsFetched] := rfl
  have hrow : u.rowExhausted.alpha.row b = u.alpha.row b := by cases b <;> rfl
  rw [e]
  exact ⟨by rw [hrow, h.full], h.rows, by rw [hlog, h.errlog, h.rows]⟩

/-- FetchRow meets an EOL within the budget, or exhausts it (R234, R239). -/
theorem fetchRow_ends (b : Bool) (s : State) : (s.fetchRow b).hostReads.length ≤ s.cfg.fetchBudget ∧
    (RowDone b s (s.fetchRow b) ∨
      (RowFailed b s (s.fetchRow b) ∧ (s.fetchRow b).hostReads.length = s.cfg.fetchBudget)) := by
  rcases Nat.eq_zero_or_pos s.cfg.fetchBudget with h0 | hb
  · have e : s.fetchRow b = (s.rowBegin b).rowGoesOn := by
      rw [State.fetchRow, if_pos h0]
      exact (if_pos h0).symm
    have hreads : (s.fetchRow b).hostReads = [] := by rw [e, rowGoesOn_hostReads]; rfl
    have hrun : RowRunning b s s.cfg.fetchBudget (s.rowBegin b) := by rw [h0]; exact rowBegin_running b s
    rw [hreads, e]
    exact ⟨Nat.zero_le _, .inr ⟨hrun.exhausted, h0.symm⟩⟩
  · obtain ⟨n, hn, hwords, hend, e⟩ := fetchRow_chain b hb
    have hreads : (s.fetchRow b).hostReads.length = n + 1 := by
      rw [e, fetchSteps_hostReads b rfl, List.length_reverse, List.length_map, List.length_range]
    have hrun := fetchSteps_running hn hwords
    rw [hreads, e, Function.iterate_succ_apply']
    refine ⟨hn, ?_⟩
    by_cases hw : ∃ g, ((fetchStep b)^[n] (s.rowBegin b)).nextWord = .alphaEol g
    · obtain ⟨g, hg⟩ := hw
      exact .inl (hrun.done hg)
    · have hlast := hend.resolve_left hw
      obtain ⟨r, hr, e'⟩ := hrun.step fun g hg => hw ⟨g, hg⟩
      rw [hlast] at hr
      rw [e']
      exact .inr ⟨hr.exhausted, hlast⟩

/-! ### The row of a list of characters -/

theorem alphaAddr_succ (c : Config) (p k : Nat) : c.alphaAddr (c.alphaAddr (p + k) + 1) = c.alphaAddr (p + (k + 1)) := by
  unfold Config.alphaAddr
  rw [Nat.mod_add_mod, Nat.add_assoc]

/-- A generation B character word (R72). -/
theorem decodeAlphaWord_charB (v : Byte) (c : BitVec 7) : decodeAlphaWord .b (0#1 ++ v ++ c) = .alphaCharB v c := by
  have h := decodeAlpha_bytes (i := .alphaCharB v c) rfl
  rw [Instr.bytes, toWords_fromWords] at h
  exact Except.ok.inj h

/-- A word of class EOL, in either generation (R71). -/
theorem decodeAlphaWord_eol {w : Word} (h : w.extractLsb' 12 4 = 0b1000#4) (g : AlphaGen) :
    decodeAlphaWord g w = .alphaEol (w.extractLsb' 0 12) := by
  have bit (i : Nat) (hi : i < 4) : w.getLsbD (12 + i) = (0b1000#4).getLsbD i := by
    rw [← h, BitVec.getLsbD_extractLsb', decide_eq_true hi, Bool.true_and]
  have h15 : w.getLsbD 15 = true := bit 3 (by decide)
  have h14 : w.getLsbD 14 = false := bit 2 (by decide)
  have h13 : w.getLsbD 13 = false := bit 1 (by decide)
  have h12 : w.getLsbD 12 = false := bit 0 (by decide)
  simp only [decodeAlphaWord, h15, h14, h13, h12, if_true, Bool.false_eq_true, if_false]

/-- The cells of a buffer that held `old` after the first `n` of `cells` (R238). -/
def filled (cells old : List TextCell) (n : Nat) : List TextCell := cells.take n ++ old.drop n

theorem set_filled {cells old : List TextCell} {n : Nat} (hn : n < cells.length) (ho : n < old.length) :
    (filled cells old n).set n cells[n] = filled cells old (n + 1) := by
  have hlen : (cells.take n).length = n := by rw [List.length_take]; omega
  unfold filled
  rw [List.set_append_right _ _ hlen.le, hlen, Nat.sub_self, List.drop_eq_getElem_cons ho, List.set_cons_zero,
    List.take_succ_eq_append_getElem hn, List.append_assoc]
  rfl

/-- The row of a list of generation B characters after `k` of them (R238). -/
structure RowFilled (b : Bool) (s : State) (cells : List TextCell) (k : Nat) (u : State) : Prop where
  ptr : u.alpha.fetchPtr = s.cfg.alphaAddr (s.alpha.fetchPtr + k)
  col : u.alpha.fetchCol = min k s.cfg.alphaCols
  cells : (u.alpha.row b).cells = filled cells (s.alpha.row b).cells (min k s.cfg.alphaCols)

theorem rowBegin_filled (b : Bool) (s : State) (cells : List TextCell)
    (hp : s.cfg.alphaAddr s.alpha.fetchPtr = s.alpha.fetchPtr) : RowFilled b s cells 0 (s.rowBegin b) := by
  have hptr : (s.rowBegin b).alpha.fetchPtr = s.alpha.fetchPtr := by cases b <;> rfl
  refine ⟨hptr.trans hp.symm, (Nat.zero_min _).symm, ?_⟩
  rw [Nat.zero_min]
  cases b <;> rfl

/-- A character word: its cell at the column, or dropped past the last (R238). -/
theorem RowFilled.char {b : Bool} {s u : State} {cells : List TextCell} {k : Nat} (h : RowFilled b s cells k u)
    (hu : u.cfg = s.cfg) (hlen : (s.alpha.row b).cells.length = s.cfg.alphaCols) (hk : k < cells.length) :
    RowFilled b s cells (k + 1) (u.noteHostRead.pastWord.storeCell b cells[k]) := by
  have hptr : u.noteHostRead.pastWord.alpha.fetchPtr = s.cfg.alphaAddr (s.alpha.fetchPtr + (k + 1)) := by
    show u.cfg.alphaAddr (u.alpha.fetchPtr + 1) = _
    rw [hu, h.ptr, alphaAddr_succ]
  have hcol : u.noteHostRead.pastWord.alpha.fetchCol = min k s.cfg.alphaCols := h.col
  have hcells : (u.noteHostRead.pastWord.alpha.row b).cells = filled cells (s.alpha.row b).cells (min k s.cfg.alphaCols) :=
    (congrArg RowBuf.cells (by cases b <;> rfl)).trans h.cells
  have hcfg : u.noteHostRead.pastWord.cfg = s.cfg := hu
  generalize u.noteHostRead.pastWord = v at *
  by_cases hc : k < s.cfg.alphaCols
  · rw [Nat.min_eq_left hc.le] at hcol hcells
    have hset := set_filled hk (hlen.symm ▸ hc : k < (s.alpha.row b).cells.length)
    rw [storeCell_of_lt (by rw [hcol, hcfg]; exact hc), hcol, hcells, hset]
    refine ⟨?_, ?_, ?_⟩
    · exact .trans (by cases b <;> rfl) hptr
    · rw [Nat.min_eq_left hc]; rfl
    · rw [Nat.min_eq_left hc]
      cases b <;> rfl
  · have hm : min (k + 1) s.cfg.alphaCols = min k s.cfg.alphaCols := by omega
    rw [storeCell_of_not_lt (by rw [hcol, hcfg]; omega)]
    exact ⟨hptr, hm ▸ hcol, hm ▸ hcells⟩

/-- A row ended after the characters: blank past the last cell (R236). -/
theorem take_filled_append (cells old : List TextCell) (blank : TextCell) :
    (filled cells old (min cells.length old.length)).take (min cells.length old.length)
        ++ List.replicate ((filled cells old (min cells.length old.length)).length - min cells.length old.length) blank
      = cells.take old.length ++ List.replicate (old.length - cells.length) blank := by
  have htake : cells.take (min cells.length old.length) = cells.take old.length := by
    rcases Nat.le_total cells.length old.length with h | h
    · rw [Nat.min_eq_left h, List.take_length, List.take_of_length_le h]
    · rw [Nat.min_eq_right h]
  have hlen : (filled cells old (min cells.length old.length)).length = old.length := by
    unfold filled
    rw [List.length_append, List.length_take, List.length_drop]
    omega
  rw [hlen, filled, List.take_append_of_le_length (by rw [List.length_take]; omega), List.take_take, Nat.min_self, htake]
  congr 2
  omega

/-- The generation B character words of `cells` stand at the fetch pointer and the addresses after it. -/
def CharsAt (s : State) (cells : List TextCell) : Prop :=
  ∀ k, ∀ h : k < cells.length,
    readWord s.inputs.hostMem (2 * s.cfg.alphaAddr (s.alpha.fetchPtr + k)) = 0#1 ++ cells[k].attr ++ cells[k].code

section
variable {b : Bool} {s : State} {cells : List TextCell} (hg : s.cfg.alphaGen = .b) (hok : s.alphaOk = true)
  (hbudget : cells.length < s.cfg.fetchBudget) (hchars : CharsAt s cells)
include hg hchars

theorem nextWord_of_filled {u : State} {k : Nat} (h : RowFilled b s cells k u) (hu : FetchFrame s u)
    (hk : k < cells.length) : u.nextWord = .alphaCharB cells[k].attr cells[k].code := by
  rw [nextWord_of_fetch hu, h.ptr, hchars k hk, hg, decodeAlphaWord_charB]

include hok hbudget

/-- The loop over a list of characters, up to its end. -/
theorem fetchSteps_filled {k : Nat} (hk : k ≤ cells.length) :
    RowFilled b s cells k ((fetchStep b)^[k] (s.rowBegin b)) ∧ RowRunning b s k ((fetchStep b)^[k] (s.rowBegin b)) := by
  have hin := (alphaOk_iff s).1 hok
  induction k with
  | zero => exact ⟨rowBegin_filled b s cells hin.ptr, rowBegin_running b s⟩
  | succ k ih =>
    obtain ⟨hfill, hrun⟩ := ih (Nat.le_of_succ_le hk)
    have hframe := (rowBegin_fetch s b).trans (fetchSteps_fetch b _ k)
    rw [Function.iterate_succ_apply']
    generalize (fetchStep b)^[k] (s.rowBegin b) = u at *
    have hw := nextWord_of_filled hg hchars hfill hframe hk
    have e : fetchStep b u = (u.noteHostRead.pastWord.storeCell b cells[k]).rowGoesOn := by rw [fetchStep, hw]; rfl
    refine ⟨?_, hrun.goesOn (fun g => by rw [hw]; exact nofun) (by omega)⟩
    rw [e, rowGoesOn_of_left]
    · exact hfill.char hframe.cfg (alphaRow_length hin b) hk
    · rw [storeCell_fetchLeft]
      have := hrun.left
      show u.alpha.fetchLeft - 1 ≠ 0
      omega

/-- FetchRow over a list of characters with an EOL after them takes them and the EOL (R234). -/
theorem fetchRow_chars {g : BitVec 12} {w : Word} (hw : ∀ g', decodeAlphaWord g' w = .alphaEol g)
    (heol : readWord s.inputs.hostMem (2 * s.cfg.alphaAddr (s.alpha.fetchPtr + cells.length)) = w) :
    s.fetchRow b = (fetchStep b)^[cells.length + 1] (s.rowBegin b) ∧
      ((fetchStep b)^[cells.length] (s.rowBegin b)).nextWord = .alphaEol g := by
  have filledAt (k : Nat) (hk : k ≤ cells.length) := fetchSteps_filled (b := b) hg hok hbudget hchars hk
  have hframe (k : Nat) := (rowBegin_fetch s b).trans (fetchSteps_fetch b _ k)
  have hlast : ((fetchStep b)^[cells.length] (s.rowBegin b)).nextWord = .alphaEol g := by
    rw [nextWord_of_fetch (hframe _), (filledAt _ le_rfl).1.ptr, heol, hw]
  obtain ⟨n, hn, hwords, hend, e⟩ := fetchRow_chain b (Nat.zero_lt_of_lt hbudget)
  have hle : n ≤ cells.length := Nat.le_of_not_lt fun h => hwords _ h g hlast
  have hge : cells.length ≤ n := by
    refine Nat.le_of_not_lt fun h => ?_
    rcases hend with ⟨g', hg'⟩ | hend
    · rw [nextWord_of_filled hg hchars (filledAt n hle).1 (hframe n) h] at hg'
      cases hg'
    · omega
  obtain rfl := Nat.le_antisymm hle hge
  exact ⟨e, hlast⟩

end

theorem FetchFrame.restored {s t : State} (h : FetchFrame s t) (r : Ret) :
    (((t.withRet r).withAlpha s.alpha).withErrlog s.errlog).withHostReads s.hostReads = s.withRet r := by
  rw [h]
  simp only [State.withAlpha, State.withErrlog, State.withHostReads, State.withRet]

/-- Settles O56. -/
theorem fetchRowResult : Obligations.FetchRowResult := by
  refine ⟨fun b s => ?_, ?_⟩
  · obtain ⟨hother, hidx, hunder, hbase⟩ := fetchRow_fill s b
    obtain ⟨hreads, hend⟩ := fetchRow_ends b s
    refine ⟨_, rfl, (fetchRow_fetch s b).restored _, hother, hreads, hidx, hunder, hbase, ?_⟩
    exact hend.imp_right fun ⟨⟨hfull, hrows, hlog⟩, hlen⟩ => ⟨hfull, hrows, hlog, hlen⟩
  · intro b s cells hg hok hbudget at_ hchars heol
    have filledAt (k : Nat) (hk : k ≤ cells.length) := (fetchSteps_filled (b := b) hg hok hbudget hchars hk).1
    obtain ⟨e, hlast⟩ := fetchRow_chars (b := b) hg hok hbudget hchars (decodeAlphaWord_eol heol) rfl
    have hreads := fetchSteps_hostReads b (s := s.rowBegin b) rfl (cells.length + 1)
    have hptrs : (List.range (cells.length + 1)).map (fun k => ((fetchStep b)^[k] (s.rowBegin b)).alpha.fetchPtr) =
        (List.range (cells.length + 1)).map at_ :=
      List.map_congr_left fun k hk => (filledAt k (Nat.le_of_lt_succ (List.mem_range.1 hk))).ptr
    have hlen : (s.alpha.row b).cells.length = s.cfg.alphaCols := alphaRow_length ((alphaOk_iff s).1 hok) b
    have hframe := (rowBegin_fetch s b).trans (fetchSteps_fetch b (s.rowBegin b) cells.length)
    have hfill := filledAt _ le_rfl
    have hread : (s.fetchRow b).hostReads = ((List.range (cells.length + 1)).map at_).reverse := by rw [e, hreads, hptrs]
    rw [Function.iterate_succ_apply'] at e
    generalize (fetchStep b)^[cells.length] (s.rowBegin b) = u at *
    have hcfg : u.cfg = s.cfg := hframe.cfg
    have htaken : s.fetchRow b = u.noteHostRead.takeEol b := by rw [e, fetchStep, hlast]; rfl
    have hrow : (s.fetchRow b).alpha.row b = _ := htaken ▸ takeEol_row u.noteHostRead b
    have hended : RowEnded u.cfg u.alpha (s.fetchRow b).alpha := htaken ▸ takeEol_ended u.noteHostRead b
    refine ⟨_, rfl, ?_, ?_, hread, ?_⟩
    · rw [State.withRet_alpha, hrow]
      show (u.alpha.row b).cells.take u.alpha.fetchCol
        ++ List.replicate ((u.alpha.row b).cells.length - u.alpha.fetchCol) (blankCell u.cfg) = _
      rw [hfill.cells, hfill.col, hcfg, ← hlen]
      exact take_filled_append cells _ _
    · rw [State.withRet_alpha, hrow]
    · rw [State.withRet_alpha, hended.ptr, hcfg, hfill.ptr, alphaAddr_succ]

end Sys2Proof.Machine
end
